-- ==== Sys2Proof/Word.lean ====
section
/-!
DEFINITION. The machine words of the SLB-8320: scalar registers and addresses, lane cells, lane masks, bytes. -/
namespace Sys2Proof

/-- A scalar register, a special register, an address operand (R149). -/
abbrev Word := BitVec 64

/-- One lane's copy of one cell (R159). -/
abbrev Cell := BitVec 32

/-- One bit per lane of a group (R148). -/
abbrev Lanes := BitVec 64

/-- The smallest addressable unit of memory (R1). -/
abbrev Byte := BitVec 8

/-- Data held by key: register files, memories, tables. Kept in rising order of the key, no key twice. -/
abbrev Tbl (α : Type) := List (Nat × α)

/-- Where an uncorrectable error is found (R250, R251, R256). -/
inductive ErrSite where
  /-- a 64 B granule of memory, by its virtual address -/
  | granule (addr : Nat)
  /-- a 64 B granule of a core's local store -/
  | localGranule (core addr : Nat)
  /-- a group's scalar registers, booleans, masks, queues, capture slots, stack entries or spill area -/
  | groupState (grp : Nat)
  /-- one lane's copy of a cell -/
  | cell (grp lane idx : Nat)
  /-- a fault that a self-test finds in a quadrant's array (R91): core, quadrant -/
  | selfTest (core quad : Nat)
  /-- a soft error of a die that was corrected: it changes no value and is counted (R250) -/
  | corrected (die : Nat)
deriving DecidableEq, Repr

end Sys2Proof
end

