-- ==== Sys2Proof/Machine/Bits.lean ====
section
/-!
DEFINITION. Bit fields, sign extension, little-endian bytes, lane masks and check codes: the plain helpers of the
machine. -/
namespace Sys2Proof

/-- Bits [lo + n - 1 : lo] of `v`. -/
def fld (v lo n : Nat) : Nat := (v >>> lo) % 2 ^ n

/-- The value of an n-bit pattern read as two's complement (R211). -/
def toS (n v : Nat) : Int :=
  let u := v % 2 ^ n
  if 2 * u < 2 ^ n then (u : Int) else (u : Int) - 2 ^ n

/-- The n-bit pattern of an integer modulo 2^n (R211). -/
def ofS (n : Nat) (i : Int) : Nat := (i % (2 ^ n : Int)).toNat

/-- Bring an integer to the nearer end of a range (R211). -/
def clampI (lo hi i : Int) : Int := if i < lo then lo else if hi < i then hi else i

/-- How many bits the number takes; 0 for 0. -/
def bitLen (n : Nat) : Nat := if n = 0 then 0 else Nat.log2 n + 1

/-- Set bits among the low `n`. -/
def popCount : Nat → Nat → Nat
  | 0, _ => 0
  | n + 1, v => v % 2 + popCount n (v / 2)

/-- Leading zero bits of an n-bit pattern; n for 0 (R297, R365). -/
def leadZeros (n v : Nat) : Nat := n - bitLen (v % 2 ^ n)

/-- The n-bit pattern with bit i moved to bit n - 1 - i (R365). -/
def revBits : Nat → Nat → Nat
  | 0, _ => 0
  | n + 1, v => (v % 2) * 2 ^ n + revBits n (v / 2)

/-- The integer square root, rounded down, by digits: `k` result bits. -/
def isqrtAux : Nat → Nat → Nat → Nat
  | 0, _, r => r
  | k + 1, v, r =>
    let t := r + 2 ^ k
    isqrtAux k v (if t * t ≤ v then t else r)

/-- The integer square root, rounded down. -/
def isqrt (v : Nat) : Nat := isqrtAux (bitLen v / 2 + 1) v 0

/-- The number whose little-endian bytes these are (R1). -/
def leNat : List Byte → Nat
  | [] => 0
  | b :: t => b.toNat + 256 * leNat t

/-- The `n` little-endian bytes of a number (R1). -/
def leBytes : Nat → Nat → List Byte
  | 0, _ => []
  | n + 1, v => BitVec.ofNat 8 v :: leBytes n (v / 256)

/-- `len` bytes from offset `off` of a byte list; bytes beyond its end are absent. -/
def bytesAt (l : List Byte) (off len : Nat) : List Byte := (l.drop off).take len

/-- The little-endian number of `len` bytes from offset `off`. -/
def numAt (l : List Byte) (off len : Nat) : Nat := leNat (bytesAt l off len)

/-- Every byte of the range is zero. -/
def zeroAt (l : List Byte) (off len : Nat) : Bool := (bytesAt l off len).all (· == 0)

/-- The lanes of a mask in ascending LANEID. -/
def lanesOf (m : Lanes) : List Nat := (List.range 64).filter (fun l => m.getLsbD l)

/-- The mask of a list of lanes. -/
def maskOf : List Nat → Lanes
  | [] => 0
  | l :: t => BitVec.ofNat 64 (2 ^ (l % 64)) ||| maskOf t

/-- All 64 lanes. -/
def allLanes : Lanes := BitVec.allOnes 64

/-- One bit of a mask. -/
def oneLane (l : Nat) : Lanes := BitVec.ofNat 64 (2 ^ (l % 64))

/-- The lanes for which a test holds. -/
def maskWhere (p : Nat → Bool) : Lanes := maskOf ((List.range 64).filter p)

/-- One bit of a reflected CRC of width `w` bits with reversed polynomial `poly`. -/
def crcBits : Nat → Nat → Nat → Nat
  | 0, _, c => c
  | n + 1, poly, c => crcBits n poly (if c % 2 = 1 then (c / 2) ^^^ poly else c / 2)

/-- The running value of a reflected CRC over bytes. -/
def crcRun (poly : Nat) : Nat → List Byte → Nat
  | c, [] => c
  | c, b :: t => crcRun poly (crcBits 8 poly (c ^^^ b.toNat)) t

/-- CRC-32 with the IEEE 802.3 polynomial (R15, R37). -/
def crc32 (l : List Byte) : BitVec 32 :=
  BitVec.ofNat 32 (crcRun 0xEDB88320 0xFFFFFFFF l ^^^ 0xFFFFFFFF)

/-- One byte into a CRC-64 with the ECMA-182 polynomial, most significant bit first. -/
def crc64Bits : Nat → Nat → Nat
  | 0, c => c
  | n + 1, c =>
    crc64Bits n (if c ≥ 2 ^ 63 then ((c * 2) % 2 ^ 64) ^^^ 0x42F0E1EBA9EA3693 else c * 2)

/-- A CRC-64 signature carried on over bytes (R259). -/
def crc64 : Word → List Byte → Word
  | c, [] => c
  | c, b :: t => crc64 (BitVec.ofNat 64 (crc64Bits 8 (c.toNat ^^^ (b.toNat * 2 ^ 56)))) t

/-- Replace element `i` of a list. -/
def setAt {α : Type} : List α → Nat → α → List α
  | [], _, _ => []
  | _ :: t, 0, v => v :: t
  | x :: t, n + 1, v => x :: setAt t n v

/-- Take element `i` out of a list. -/
def dropAt {α : Type} : List α → Nat → List α
  | [], _ => []
  | _ :: t, 0 => t
  | x :: t, n + 1 => x :: dropAt t n

/-- Apply `f` to element `i` of a list. -/
def updAt {α : Type} (l : List α) (i : Nat) (f : α → α) : List α :=
  match l[i]? with
  | some x => setAt l i (f x)
  | none => l

/-- Insert into a list kept in rising order of `key`, after entries of an equal key. -/
def insertBy {α : Type} (key : α → Nat) (x : α) : List α → List α
  | [] => [x]
  | y :: t => if key x < key y then x :: y :: t else y :: insertBy key x t

/-- Sort by rising key; entries of one key keep their order. -/
def sortBy {α : Type} (key : α → Nat) (l : List α) : List α :=
  l.foldl (fun acc x => insertBy key x acc) []

end Sys2Proof
end

