-- ==== Sys2Proof/Machine/Num.lean ====
section
/-!
DEFINITION. Number formats and rounding (R210 to R219): decoding, exact results, the six rounding modes, overflow,
underflow, and the IEEE and FP8 encodings. -/
namespace Sys2Proof

/-- Rounding modes (R215). -/
inductive RMode where
  | rne | rtz | rup | rdn | rna | sr
deriving DecidableEq, Repr

/-- The mode of an RM code (R215); 6 and 7 are never stored (R225). -/
def rmOfCode (c : Nat) : RMode :=
  match c with
  | 0 => .rne
  | 1 => .rtz
  | 2 => .rup
  | 3 => .rdn
  | 4 => .rna
  | _ => .sr

/-- The flags of R220. -/
structure Flags where
  nv : Bool := false
  dz : Bool := false
  of : Bool := false
  uf : Bool := false
  ix : Bool := false
  px : Bool := false
deriving DecidableEq, Repr

/-- No flag. -/
def Flags.none : Flags := {}

/-- Either of two flag sets. -/
def Flags.join (a b : Flags) : Flags :=
  { nv := a.nv || b.nv, dz := a.dz || b.dz, of := a.of || b.of, uf := a.uf || b.uf, ix := a.ix || b.ix,
    px := a.px || b.px }

/-- The flags at PREC bits [30:25] (R225). -/
def Flags.bits (f : Flags) : Nat :=
  f.nv.toNat * 2 ^ 25 + f.dz.toNat * 2 ^ 26 + f.of.toNat * 2 ^ 27 + f.uf.toNat * 2 ^ 28 + f.ix.toNat * 2 ^ 29 +
    f.px.toNat * 2 ^ 30

/-- A floating-point value as read: a NaN, an infinity, or m x 2^e with a sign (m = 0 is a signed zero). -/
inductive FVal where
  | nan (signalling : Bool)
  | inf (neg : Bool)
  | fin (neg : Bool) (m : Nat) (e : Int)
deriving DecidableEq, Repr

/-- An exact non-zero magnitude v: m x 2^e when `st` is false; strictly between m x 2^e and (m + 1) x 2^e when it
is true, and then m has at least 150 bits. -/
structure Exact where
  neg : Bool
  m   : Nat
  e   : Int
  st  : Bool
deriving DecidableEq, Repr, Inhabited

/-- The exact outcome of an operation, before rounding. -/
inductive FRes where
  /-- a NaN; `nv` when the operation was invalid or a source signalled -/
  | nan (nv : Bool)
  /-- an infinity; `fromInf` when an operand was infinite, `dz` for a division by zero -/
  | inf (neg fromInf dz : Bool)
  | zero (neg : Bool)
  | num (x : Exact)
deriving DecidableEq, Repr

/-- The layout of a floating-point format other than BFP and VP (R212). `ieee` is false for E4M3, which has no
infinity. -/
structure FFmt where
  eb   : Nat
  fb   : Nat
  bias : Nat
  ieee : Bool
deriving DecidableEq, Repr

/-- The formats of R212 by their codes of R210. -/
def ffOf (code : Nat) : Option FFmt :=
  match code with
  | 0x08 => some { eb := 5, fb := 10, bias := 15, ieee := true }
  | 0x09 => some { eb := 8, fb := 7, bias := 127, ieee := true }
  | 0x0A => some { eb := 8, fb := 23, bias := 127, ieee := true }
  | 0x0B => some { eb := 11, fb := 52, bias := 1023, ieee := true }
  | 0x0C => some { eb := 4, fb := 3, bias := 7, ieee := false }
  | 0x0D => some { eb := 5, fb := 2, bias := 15, ieee := true }
  | _ => none

/-- FP32. -/
def ff32 : FFmt := { eb := 8, fb := 23, bias := 127, ieee := true }
/-- BF16. -/
def ffBf16 : FFmt := { eb := 8, fb := 7, bias := 127, ieee := true }

/-- The width in bits of a format code, 0 for a code that has none (R210). VPn counts its cells. -/
def fmtWidth (code : Nat) : Nat :=
  match code with
  | 0x00 => 8 | 0x01 => 16 | 0x02 => 32 | 0x03 => 64
  | 0x04 => 8 | 0x05 => 16 | 0x06 => 32 | 0x07 => 64
  | 0x08 => 16 | 0x09 => 16 | 0x0A => 32 | 0x0B => 64 | 0x0C => 8 | 0x0D => 8
  | 0x21 => 32 | 0x22 => 64 | 0x23 => 96 | 0x24 => 128
  | _ => 0

/-- An In format code. -/
def isSInt (code : Nat) : Bool := code < 4
/-- An In or Nn format code. -/
def isIntFmt (code : Nat) : Bool := code < 8
/-- A format of R212 other than VP. -/
def isIeeeFmt (code : Nat) : Bool := 8 ≤ code && code ≤ 0x0D
/-- A BFP format code (R221). -/
def isBfpFmt (code : Nat) : Bool := 0x10 ≤ code && code ≤ 0x1E
/-- A VP format code. -/
def isVpFmt (code : Nat) : Bool := 0x20 ≤ code && code ≤ 0x24

/-- The canonical NaN of a format (R214). -/
def nanBits (f : FFmt) : Nat :=
  if f.ieee then (2 ^ f.eb - 1) * 2 ^ f.fb + 2 ^ (f.fb - 1) else 2 ^ (f.eb + f.fb) - 1

/-- Sign bit of an encoding. -/
def signBits (f : FFmt) (neg : Bool) : Nat := neg.toNat * 2 ^ (f.eb + f.fb)

/-- Decode a bit pattern (R212, R213). -/
def decF (f : FFmt) (v : Nat) : FVal :=
  let neg := fld v (f.eb + f.fb) 1 == 1
  let x := fld v f.fb f.eb
  let m := fld v 0 f.fb
  if f.ieee && x == 2 ^ f.eb - 1 then
    if m = 0 then .inf neg else .nan (fld m (f.fb - 1) 1 == 0)
  else if !f.ieee && x == 2 ^ f.eb - 1 && m == 2 ^ f.fb - 1 then .nan false
  else if x = 0 then .fin neg m (1 - (f.bias : Int) - f.fb)
  else .fin neg (2 ^ f.fb + m) ((x : Int) - f.bias - f.fb)

/-- Whether rounding takes the larger magnitude: n kept, r the bits cut (of k), st a non-zero tail beyond them
(R215, R218). -/
def roundsUp (rm : RMode) (neg : Bool) (n r k : Nat) (st : Bool) (draw : Nat) : Bool :=
  let inexact := r != 0 || st
  match rm with
  | .rne => decide (2 ^ k < 2 * r) || (decide (2 * r = 2 ^ k) && (st || n % 2 == 1))
  | .rna => decide (2 ^ k ≤ 2 * r)
  | .rtz => false
  | .rup => inexact && !neg
  | .rdn => inexact && neg
  | .sr => decide (draw < r * 2 ^ 32 / 2 ^ k)

/-- Round the magnitude of an exact value to a multiple of 2^q: the multiple, and whether it was inexact. -/
def roundAt (rm : RMode) (x : Exact) (q : Int) (draw : Nat) : Nat × Bool :=
  if q ≤ x.e then (x.m * 2 ^ (x.e - q).toNat, x.st)
  else
    let k := (q - x.e).toNat
    let n := x.m >>> k
    let r := x.m % 2 ^ k
    (if roundsUp rm x.neg n r k x.st draw then n + 1 else n, r != 0 || x.st)

/-- The exponent of the leading bit of an exact value. -/
def Exact.top (x : Exact) : Int := x.e + (bitLen x.m : Int) - 1

/-- The largest finite magnitude of a format, as significand and exponent. -/
def maxSig (f : FFmt) : Nat := if f.ieee then 2 ^ (f.fb + 1) - 1 else 2 ^ (f.fb + 1) - 2
/-- Its exponent. -/
def maxExp (f : FFmt) : Int :=
  (if f.ieee then (2 ^ f.eb : Int) - 2 else (2 ^ f.eb : Int) - 1) - f.bias - f.fb

/-- The encoding of the largest finite value. -/
def maxBits (f : FFmt) (neg : Bool) : Nat :=
  signBits f neg +
    (if f.ieee then (2 ^ f.eb - 2) * 2 ^ f.fb + (2 ^ f.fb - 1) else 2 ^ (f.eb + f.fb) - 2)

/-- The encoding of an infinity, or of the NaN that stands for it in E4M3 (R217). -/
def infBits (f : FFmt) (neg : Bool) : Nat :=
  if f.ieee then signBits f neg + (2 ^ f.eb - 1) * 2 ^ f.fb else nanBits f

/-- n x 2^q lies above the largest finite magnitude. -/
def exceeds (f : FFmt) (n : Nat) (q : Int) : Bool :=
  if q ≤ maxExp f then decide (maxSig f * 2 ^ (maxExp f - q).toNat < n)
  else decide (maxSig f < n * 2 ^ (q - maxExp f).toNat)

/-- Encode n x 2^q, a magnitude the format holds exactly, n below 2^(fb + 1) or equal to it. -/
def packFin (f : FFmt) (neg : Bool) (n : Nat) (q : Int) : Nat :=
  if n < 2 ^ f.fb then signBits f neg + n
  else
    let n' := if n = 2 ^ (f.fb + 1) then 2 ^ f.fb else n
    let q' := if n = 2 ^ (f.fb + 1) then q + 1 else q
    signBits f neg + (q' + f.fb + f.bias).toNat * 2 ^ f.fb + (n' - 2 ^ f.fb)

/-- What an overflow gives (R217): true for an infinity, false for the largest finite value. -/
def ovfInf (rm : RMode) (neg : Bool) : Bool :=
  match rm with
  | .rne => true
  | .rna => true
  | .sr => true
  | .rtz => false
  | .rup => !neg
  | .rdn => neg

/-- Round an exact non-zero value to a format (R216, R217, R219), tininess detected after rounding. -/
def roundF (f : FFmt) (rm : RMode) (sat : Bool) (x : Exact) (draw : Nat) : Nat × Flags :=
  let emin : Int := 1 - (f.bias : Int)
  let q : Int := max (x.top - f.fb) (emin - f.fb)
  let (n, ix) := roundAt rm x q draw
  if exceeds f n q then
    (if ovfInf rm x.neg && !sat then infBits f x.neg else maxBits f x.neg, { of := true, ix := true })
  else
    let tiny := decide (x.top < emin) &&
      !(decide (x.top = emin - 1) && decide ((roundAt rm x (x.top - f.fb) draw).1 = 2 ^ (f.fb + 1)))
    (packFin f x.neg n q, { ix := ix, uf := tiny && ix })

/-- Finish an operation in a format: the encoding written and the flags raised (R214, R217, R219). -/
def finishF (f : FFmt) (rm : RMode) (sat : Bool) (draw : Nat) : FRes → Nat × Flags
  | .nan nv => (nanBits f, { nv := nv })
  | .inf neg fromInf dz =>
    (if sat && !fromInf then maxBits f neg else infBits f neg, { dz := dz })
  | .zero neg => (signBits f neg, {})
  | .num x => roundF f rm sat x draw

/-- Negate a value as read (R391). -/
def FVal.negate : FVal → FVal
  | .nan s => .nan s
  | .inf n => .inf !n
  | .fin n m e => .fin (!n) m e

/-- The value is a NaN. -/
def FVal.isNan : FVal → Bool
  | .nan _ => true
  | _ => false

/-- The value is a signalling NaN. -/
def FVal.isSnan : FVal → Bool
  | .nan s => s
  | _ => false

/-- The sign of a value, false for a NaN. -/
def FVal.sign : FVal → Bool
  | .nan _ => false
  | .inf n => n
  | .fin n _ _ => n

/-- The value is a zero. -/
def FVal.isZero : FVal → Bool
  | .fin _ m _ => m == 0
  | _ => false

/-- The value is an infinity. -/
def FVal.isInf : FVal → Bool
  | .inf _ => true
  | _ => false

/-- A signed integer multiple of 2^e. -/
def sgn (neg : Bool) (m : Nat) : Int := if neg then -(m : Int) else (m : Int)

/-- The exact number i x 2^e as an outcome; `z` is the sign of a zero. -/
def ofInt (i : Int) (e : Int) (z : Bool) : FRes :=
  if i = 0 then .zero z else .num { neg := decide (i < 0), m := i.natAbs, e := e, st := false }

/-- a + b (R393, R394). -/
def fAdd (rm : RMode) (a b : FVal) : FRes :=
  match a, b with
  | .nan s, y => .nan (s || y.isSnan)
  | _, .nan s => .nan s
  | .inf n, .inf k => if n = k then .inf n true false else .nan true
  | .inf n, _ => .inf n true false
  | _, .inf n => .inf n true false
  | .fin na ma ea, .fin nb mb eb =>
    let e := min ea eb
    let i := sgn na (ma * 2 ^ (ea - e).toNat) + sgn nb (mb * 2 ^ (eb - e).toNat)
    ofInt i e (if ma = 0 ∧ mb = 0 ∧ na = nb then na else decide (rm = .rdn))

/-- a - b (R393): b negated exactly. A NaN keeps its kind. -/
def fSub (rm : RMode) (a b : FVal) : FRes := fAdd rm a b.negate

/-- a x b (R393). -/
def fMul (a b : FVal) : FRes :=
  match a, b with
  | .nan s, y => .nan (s || y.isSnan)
  | _, .nan s => .nan s
  | .inf n, y => if y.isZero then .nan true else .inf (n != y.sign) true false
  | x, .inf n => if x.isZero then .nan true else .inf (x.sign != n) true false
  | .fin na ma ea, .fin nb mb eb =>
    ofInt (sgn (na != nb) (ma * mb)) (ea + eb) (na != nb)

/-- a x b + c with a single rounding (R393). -/
def fFma (rm : RMode) (a b c : FVal) : FRes :=
  if a.isNan || b.isNan then .nan (a.isSnan || b.isSnan || c.isSnan)
  else
    match fMul a b with
    | .nan _ => .nan true
    | .inf n _ _ =>
      (match c with
      | .nan s => .nan s
      | .inf k => if n = k then .inf n true false else .nan true
      | .fin _ _ _ => .inf n true false)
    | .zero n => fAdd rm (.fin n 0 0) c
    | .num x => fAdd rm (.fin x.neg x.m x.e) c

/-- The quotient of two magnitudes to at least 170 bits, with its tail. -/
def divExact (neg : Bool) (ma : Nat) (ea : Int) (mb : Nat) (eb : Int) : Exact :=
  let sh := 172 + bitLen mb - bitLen ma
  let num := ma * 2 ^ sh
  { neg := neg, m := num / mb, e := ea - eb - sh, st := num % mb != 0 }

/-- a / b (R393). -/
def fDiv (a b : FVal) : FRes :=
  match a, b with
  | .nan s, y => .nan (s || y.isSnan)
  | _, .nan s => .nan s
  | .inf _, .inf _ => .nan true
  | .inf n, y => .inf (n != y.sign) true false
  | x, .inf n => .zero (x.sign != n)
  | .fin na ma ea, .fin nb mb eb =>
    if mb = 0 then (if ma = 0 then .nan true else .inf (na != nb) false true)
    else if ma = 0 then .zero (na != nb)
    else .num (divExact (na != nb) ma ea mb eb)

/-- The square root of a positive magnitude to at least 170 bits, with its tail. -/
def sqrtExact (m : Nat) (e : Int) : Exact :=
  let odd := e % 2 = 1
  let m' := if odd then 2 * m else m
  let e' := if odd then e - 1 else e
  let t := 174 - bitLen m' / 2
  let v := m' * 2 ^ (2 * t)
  let r := isqrt v
  { neg := false, m := r, e := e' / 2 - t, st := r * r != v }

/-- fsqrt (R397). -/
def fSqrt : FVal → FRes
  | .nan s => .nan s
  | .inf n => if n then .nan true else .inf false true false
  | .fin n m e => if m = 0 then .zero n else if n then .nan true else .num (sqrtExact m e)

/-- frcp (R397). -/
def fRcp (a : FVal) : FRes := fDiv (.fin false 1 0) a

/-- frsq (R397): the reciprocal square root, to at least 170 bits, with its tail. -/
def fRsq : FVal → FRes
  | .nan s => .nan s
  | .inf n => if n then .nan true else .zero false
  | .fin n m e =>
    if m = 0 then .inf n false true
    else if n then .nan true
    else
      let odd := e % 2 = 1
      let m' := if odd then 2 * m else m
      let e' := if odd then e - 1 else e
      let t := 174 + bitLen m' / 2
      let r := isqrt (2 ^ (2 * t) / m')
      .num { neg := false, m := r, e := -(e' / 2) - t, st := r * r * m' != 2 ^ (2 * t) }

/-- How two values that are not NaN compare; -0 equals +0. -/
def fCompare (a b : FVal) : Ordering :=
  match a, b with
  | .inf n, .inf k => if n = k then .eq else if n then .lt else .gt
  | .inf n, _ => if n then .lt else .gt
  | _, .inf k => if k then .gt else .lt
  | .fin na ma ea, .fin nb mb eb =>
    let e := min ea eb
    compare (sgn na (ma * 2 ^ (ea - e).toNat)) (sgn nb (mb * 2 ^ (eb - e).toNat))
  | _, _ => .eq

/-- a comes before b in the order that puts -0 below +0 (R395). -/
def fBelow (a b : FVal) : Bool :=
  match fCompare a b with
  | .lt => true
  | .gt => false
  | .eq => a.sign && !b.sign

/-- a x 2^b (R399). The exponent is bounded where every format has long overflowed or vanished. -/
def fScale (a : FVal) (b : Int) : FRes :=
  match a with
  | .nan s => .nan s
  | .inf n => .inf n true false
  | .fin n m e => if m = 0 then .zero n else .num { neg := n, m := m, e := e + clampI (-70000) 70000 b, st := false }

/-- Round a finite value to an integer in a mode: the magnitude and whether it was inexact (R400, R401). -/
def roundInt (rm : RMode) (n : Bool) (m : Nat) (e : Int) (draw : Nat) : Nat × Bool :=
  if m = 0 then (0, false) else roundAt rm { neg := n, m := m, e := e, st := false } 0 draw

/-- The value of an n-bit integer pattern, signed for In. -/
def intVal (code v : Nat) : Int :=
  let w := fmtWidth code
  if isSInt code then toS w v else (v % 2 ^ w : Nat)

/-- The least and the greatest value of an integer format (R211). -/
def intMin (code : Nat) : Int := if isSInt code then -(2 ^ (fmtWidth code - 1) : Int) else 0
/-- The greatest value of an integer format (R211). -/
def intMax (code : Nat) : Int :=
  if isSInt code then (2 ^ (fmtWidth code - 1) : Int) - 1 else (2 ^ fmtWidth code : Int) - 1

/-- An integer as an exact value. -/
def FVal.ofInteger (i : Int) : FVal := .fin (decide (i < 0)) i.natAbs 0

end Sys2Proof
end

