-- ==== Sys2Proof/Syntax.lean ====
section
/-!
DEFINITION. The operations of the SLB-8320, one constructor for each row of spec/opcode_table.json: scalar
instructions (R269 to R277), lane instructions (R279 to R284), and the events of every other agent. An event's
arguments name the unit it happens at and carry what arrives from outside the device. -/
namespace Sys2Proof

/-- A 6-bit scalar register field, s0 to s63 (R269). -/
abbrev SReg := BitVec 6

/-- A source field of a lane instruction, 12 bits (R279): index, kind, negate, wait. -/
structure Operand where
  index : BitVec 8
  kind  : BitVec 2
  neg   : Bool
  wait  : Bool
deriving DecidableEq, Repr

/-- The all-zero source field, which a field the instruction does not use must hold (R280). -/
def Operand.zero : Operand := { index := 0, kind := 0, neg := false, wait := false }

/-- The fields of a lane instruction other than its opcode and its reserved bit (R279). -/
structure LaneF where
  fmt   : BitVec 6
  guard : BitVec 4
  gneg  : Bool
  dest  : BitVec 8
  dkind : BitVec 2
  sat   : Bool
  a     : Operand
  b     : Operand
  c     : Operand
  rnd   : BitVec 3
  ord   : BitVec 2
  scope : BitVec 3
  evict : BitVec 3
  imm   : BitVec 16
deriving DecidableEq, Repr

/-- The policy word of the memory-touching scalar forms (R274). -/
structure Policy where
  ord    : BitVec 2
  scope  : BitVec 3
  evict  : BitVec 3
  offset : BitVec 24
deriving DecidableEq, Repr

/-- One flit on a die-to-die link: its class, whether it is the first of its message, the sender's TIME that such a
flit carries (R16), its 256 bytes and its CRC-32 as its sender formed it (R15). -/
structure Flit where
  cls   : Nat
  first : Bool
  time  : Nat
  data  : List Byte
  crc   : BitVec 32
deriving DecidableEq, Repr

/-- A flit as it comes over a link: what its sender formed and keeps, and the 256 bytes that arrive, with an error or without
(R15). -/
structure Arrival where
  flit : Flit
  wire : List Byte
deriving DecidableEq, Repr

/-- A control command as it arrives (R106): the port (0 to 7 main, 8 side-band, 9 SMBus), the header's fields (RESV holds
bytes 6 and 7, and above them STATUS and bytes 22 and 23), its CMD where that is no command's code of R107, and the payload
bytes. -/
structure CmdHdr where
  port    : Nat
  magic   : Nat
  ver     : Nat
  flags   : Nat
  resv    : Nat
  seq     : Nat
  len     : Nat
  auth    : Word
  unknown : Option Nat := none
  payload : List Byte
deriving DecidableEq, Repr

/-- The operations, one constructor for each row of spec/opcode_table.json. Those without operands and
those that only the outside gives stand last. -/
inductive Instr where
  -- package, dies and links
  | firmwareHeartbeat (core : Nat)
  | timeSyncReceive (die t transit : Nat)
  | timeReferenceReport (die : Nat)
  | flitReceive (link : Nat) (f : Arrival)
  | ethernetFrameReceive (port die cls : Nat) (bytes : List Byte)
  -- RoCEv2 as responder
  | rdmaWriteReceive (port qp : Nat) (rkey : BitVec 32) (addr : Nat) (data : Option (List Byte)) (poison : List Nat)
  | rdmaWriteImmediateReceive (port qp : Nat) (rkey : BitVec 32) (addr : Nat) (imm : BitVec 32) (len : Nat)
  | rdmaReadReceive (port qp : Nat) (rkey : BitVec 32) (addr len : Nat)
  | atomicReceive (port qp : Nat) (rkey : BitVec 32) (addr : Nat) (cas : Bool) (operand comparand : Word)
  | kickRegisterWrite (port qp : Nat) (addr size : Nat) (value : Word)
  | remoteOperationComplete (op : Nat)
  -- queues, packets, dispatch
  | dispatcherTurn (die : Nat)
  | slotReread (queue : Nat)
  | launch (die i : Nat)
  | copyPacket (die i : Nat)
  | signalPacket (die i : Nat)
  | waitPacket (die i : Nat)
  | waitPacketPoll (queue : Nat)
  | waitPacketTimeout (queue : Nat)
  | gatePacket (die i : Nat)
  | nopPacket (die i : Nat)
  | forward (die : Nat)
  | unitAdmission (die : Nat)
  | placeHold (die : Nat)
  | highPreemption (die : Nat)
  | promptDispatch (die : Nat)
  | teamSave (team : Nat)
  | saveComplete (team : Nat)
  | teamFlush (team : Nat)
  | drainDeadline (team : Nat)
  | teamResume (die : Nat)
  | teamKill (team : Nat)
  | gridCompletion (grid : Nat)
  -- the Cornice
  | stationReadIssue (die : Nat)
  | slotInjection (die : Nat)
  | tapSlotArrival (core : Nat) (noise : List (Nat × Byte))
  | captureComplete (core : Nat)
  | followOnIssue (core : Nat) (boarding : Nat)
  -- a group's queues and long operations
  | laneBlockBegin (grp : Nat)
  | loadQueueFill (grp queue : Nat)
  | longOperationWrite (grp i : Nat)
  | streamDeadlock (grp : Nat)
  | memoryAccessPerform (grp i : Nat)
  -- tokens, the Float, Undercoat
  | coreBucketGrant (core : Nat)
  | coreRefillGrant (die : Nat)
  | coreRefillArrival (core : Nat)
  | dieRefillArrival (die : Nat)
  | undercoatDraw (die : Nat)
  | ballastExpiry (die : Nat)
  | rampStart (i : Nat)
  | intentFloorEnd (i : Nat)
  | intentPairForget (i : Nat)
  -- translation and migration
  | pageWalkComplete (grp i : Nat)
  | onDemandBacking (page : Nat)
  | migrationCopy (page : Nat)
  | migrationBackingFree (page : Nat)
  | refusedAccessResend (grp i : Nat)
  -- engines
  | copyChunk (core i : Nat)
  | copyComplete (core i : Nat)
  | mmaArrayStart (core quad : Nat)
  | mmaResultAdd (core quad : Nat)
  | quartetPairing (team quartet : Nat)
  | triggerArm (die : Nat)
  | firedCommandEntry (die : Nat)
  | collectiveChunkReceive (port qp : Nat) (bytes : List Byte)
  | collectiveTimeout (i : Nat)
  | heldChunkDiscard (slot : Nat)
  | remoteReduceReceive (port qp : Nat) (bytes : List Byte)
  -- Scrim
  | scrimSignatureExchange (team grpid : Nat)
  | scrimTwinLag (team grpid : Nat)
  | scrimValueDelivery (team grpid : Nat)
  -- team operations and flag waits
  | barrierRelease (team : Nat)
  | regroupComplete (team : Nat)
  | waitmPoll (grp : Nat)
  | waitmTimeout (grp : Nat)
  -- scalar arithmetic, major 0x01 (R271, R297)
  | add (d a b : SReg)
  | sub (d a b : SReg)
  | mul (d a b : SReg)
  | mulh (d a b : SReg)
  | mulhn (d a b : SReg)
  | div (d a b : SReg)
  | divn (d a b : SReg)
  | rem (d a b : SReg)
  | remn (d a b : SReg)
  | and (d a b : SReg)
  | or (d a b : SReg)
  | xor (d a b : SReg)
  | andn (d a b : SReg)
  | shl (d a b : SReg)
  | shr (d a b : SReg)
  | sar (d a b : SReg)
  | min (d a b : SReg)
  | max (d a b : SReg)
  | minn (d a b : SReg)
  | maxn (d a b : SReg)
  | clz (d a : SReg)
  | popc (d a : SReg)
  -- immediates, compare, select, branch (R273, R298 to R304)
  | addImm (d a : SReg) (i : BitVec 14)
  | andImm (d a : SReg) (i : BitVec 14)
  | orImm (d a : SReg) (i : BitVec 14)
  | xorImm (d a : SReg) (i : BitVec 14)
  | shlImm (d a : SReg) (c : BitVec 6)
  | shrImm (d a : SReg) (c : BitVec 6)
  | sarImm (d a : SReg) (c : BitVec 6)
  | mulImm (d a : SReg) (i : BitVec 14)
  | cmp (p : BitVec 3) (a b : SReg) (c : BitVec 3)
  | cmpImm (c : BitVec 3) (p : BitVec 3) (a : SReg) (i : BitVec 14)
  | sel (d a b : SReg) (n : Bool) (p : BitVec 3)
  | li (d : SReg) (i : BitVec 20)
  | lih (d : SReg) (p : BitVec 2) (i : BitVec 16)
  | br (p : BitVec 3) (n : Bool) (d : BitVec 22)
  | jmp (d : BitVec 26)
  | call (d : BitVec 26)
  | jmpr (d a : SReg)
  | loop (d : SReg) (i : BitVec 20)
  -- system and engine functions, major 0x12 (R272)
  | board (a : SReg)
  | unboard (a : SReg)
  | rdc (d : SReg) (c : BitVec 3)
  | tbar (a b : SReg)
  | kick (a b : SReg)
  | regroup (k : BitVec 4)
  | accalloc (t : BitVec 4)
  | accfree (t : BitVec 4)
  | rgateClose (a : SReg)
  | rgateOpen (a : SReg)
  | pintentDev (d a b : SReg)
  | pintentJob (d a b : SReg)
  | tkrd (d a : SReg)
  | rqpop (d : SReg)
  | srd (d : SReg) (r : BitVec 12)
  | swr (s : SReg) (r : BitVec 12)
  | sfmt (a : SReg)
  | trap (c : BitVec 8)
  | waitc (c : BitVec 3) (n : BitVec 14)
  -- two-word forms (R274 to R276)
  | ld (d base : SReg) (size : BitVec 3) (sext : Bool) (p : Policy)
  | st (d base : SReg) (size : BitVec 3) (p : Policy)
  | atom (d base o : SReg) (op : BitVec 4) (size : BitVec 3) (p : Policy)
  | pref (base : SReg) (ballast : Bool) (ext : BitVec 3) (p : Policy)
  | vlq (q : BitVec 3) (m : BitVec 4) (base stride : SReg) (fmt : BitVec 6) (p : Policy)
  | vlqg (q : BitVec 3) (m : BitVec 4) (base : SReg) (j : BitVec 1) (fmt : BitVec 6) (p : Policy)
  | vsq (q : BitVec 3) (m : BitVec 4) (base stride : SReg) (fmt : BitVec 6) (p : Policy)
  | vsqs (q : BitVec 3) (m : BitVec 4) (base : SReg) (j : BitVec 1) (fmt : BitVec 6) (p : Policy)
  | mma (t : BitVec 4) (a b : SReg) (ctl : BitVec 32)
  | copy (d s l : SReg) (w : BitVec 32)
  | copyx (d s l : SReg) (w : BitVec 32)
  | coll (a : SReg) (w : BitVec 32)
  | rput (l r n : SReg) (w : BitVec 32)
  | rget (l r n : SReg) (w : BitVec 32)
  | rred (l r n : SReg) (w : BitVec 32)
  | trig (d c t : SReg) (w : BitVec 32)
  | waitm (a v : SReg) (c : BitVec 3) (p : Policy)
  | sigAdd (a v : SReg) (p : Policy)
  | sigStore (a v : SReg) (p : Policy)
  | fence (p : Policy)
  | lrun (k0 k1 k2 k3 : SReg) (idx : BitVec 32)
  -- lane instructions (R283)
  | laneNop (f : LaneF)
  | iadd (f : LaneF)
  | isub (f : LaneF)
  | imul (f : LaneF)
  | imad (f : LaneF)
  | imulh (f : LaneF)
  | idiv (f : LaneF)
  | irem (f : LaneF)
  | imin (f : LaneF)
  | imax (f : LaneF)
  | iabs (f : LaneF)
  | laneAnd (f : LaneF)
  | laneOr (f : LaneF)
  | laneXor (f : LaneF)
  | laneNot (f : LaneF)
  | laneShl (f : LaneF)
  | laneShr (f : LaneF)
  | laneSar (f : LaneF)
  | rot (f : LaneF)
  | laneClz (f : LaneF)
  | lanePopc (f : LaneF)
  | brev (f : LaneF)
  | bfe (f : LaneF)
  | bfi (f : LaneF)
  | laneSel (f : LaneF)
  | icmp (f : LaneF)
  | fadd (f : LaneF)
  | fsub (f : LaneF)
  | fmul (f : LaneF)
  | fma (f : LaneF)
  | fdiv (f : LaneF)
  | fmin (f : LaneF)
  | fmax (f : LaneF)
  | fminn (f : LaneF)
  | fmaxn (f : LaneF)
  | fcmp (f : LaneF)
  | fsqrt (f : LaneF)
  | frcp (f : LaneF)
  | frsq (f : LaneF)
  | fexp2 (f : LaneF)
  | flog2 (f : LaneF)
  | fsin (f : LaneF)
  | fcos (f : LaneF)
  | ftanh (f : LaneF)
  | fclass (f : LaneF)
  | fscale (f : LaneF)
  | frint (f : LaneF)
  | cvt (f : LaneF)
  | pack (f : LaneF)
  | unpack (f : LaneF)
  | qblk (f : LaneF)
  | dqblk (f : LaneF)
  | vplen (f : LaneF)
  | vpk (f : LaneF)
  | mand (f : LaneF)
  | mor (f : LaneF)
  | mxor (f : LaneF)
  | mnot (f : LaneF)
  | mset (f : LaneF)
  | mpopc (f : LaneF)
  | shfl (f : LaneF)
  | vote (f : LaneF)
  | scan (f : LaneF)
  | red (f : LaneF)
  | laneLsplit (f : LaneF)
  | ljoin (f : LaneF)
  | lend (f : LaneF)
  | lcall (f : LaneF)
  | lret (f : LaneF)
  | ldl (f : LaneF)
  | stl (f : LaneF)
  | atoml (f : LaneF)
  | ldvp (f : LaneF)
  | stvp (f : LaneF)
  | prefl (f : LaneF)
  | lfence (f : LaneF)
  | accrd (f : LaneF)
  | accwr (f : LaneF)
  | accz (f : LaneF)
  | rputl (f : LaneF)
  | rgetl (f : LaneF)
  | rredl (f : LaneF)
  | precw (f : LaneF)
  | precr (f : LaneF)
  -- clocks
  | timeIncrement (die : Nat)
  -- operations without operands
  | coldReset
  | powerLoss
  | alwaysOnWatchdog
  | timeSyncBroadcast
  | gapAnnouncement
  | gapRateChange
  | dieRefillGrant
  | floatInterval
  | gapChoice
  | migrationReview
  | nop
  | bar
  | cbar
  | exit
  | lsync
  | tret
  | brk
  | packageBucketFill
  -- what only the outside gives
  | temperatureOverLimit (pmax : Nat)
  | heartbeatMiss (core : Nat)
  | replayRequest (link seq : Nat)
  | linkDown (link : Nat)
  | roceAcknowledgementReceive (port qp : Nat) (ok : Bool) (data : List Byte) (poison : List Nat)
  | uncorrectableError (site : ErrSite)
  | calibrationUpdate (c : Nat) (staticW : Nat)
  | chargeUpdate (die stored : Nat)
  | intentFrameReceive (port : Nat) (bytes : List Byte)
  | cnpReceive (port qp rate : Nat)
  | qcreate (h : CmdHdr) (base log2size die priomax : Nat)
  | qdestroy (h : CmdHdr) (desc : Nat)
  | qstop (h : CmdHdr) (desc : Nat)
  | qresume (h : CmdHdr) (desc : Nat)
  | map (h : CmdHdr)
  | unmap (h : CmdHdr)
  | rdmawin (h : CmdHdr) (base len hostAddr port qp : Nat) (rkey : BitVec 32)
  | lapload (h : CmdHdr)
  | lapstat (h : CmdHdr)
  | jobset (h : CmdHdr)
  | jobclear (h : CmdHdr) (job : BitVec 32)
  | telem (h : CmdHdr) (block : Nat)
  | resetComputeSide (h : CmdHdr)
  | resetFull (h : CmdHdr)
  | flcfg (h : CmdHdr)
  | fwload (h : CmdHdr) (core : Nat) (final : Bool)
  | attest (h : CmdHdr)
deriving DecidableEq, Repr

end Sys2Proof
end

