-- ==== Sys2Proof/Machine/Legal.lean ====
section
/-!
DEFINITION. Which values of an instruction's fields are legal: the checks of R271 to R287 on what the constructors
hold, the control words of R330, R336, R337, R339 and R342, and the lane table of R283. -/
namespace Sys2Proof

/-- The special register numbers of R277. -/
def srListed (r : Nat) : Bool :=
  (1 ≤ r && r ≤ 9) || r == 0x10 || (0x20 ≤ r && r ≤ 0x23) || (0x30 ≤ r && r ≤ 0x34) || (0x40 ≤ r && r ≤ 0x42) ||
    (0x50 ≤ r && r ≤ 0x54) || r == 0x60 || (0x70 ≤ r && r ≤ 0x73) || (0x78 ≤ r && r ≤ 0x7B)

/-- The rows of R285. -/
inductive PolKind where
  | reads | writes | atomics | prefetch | fences
deriving DecidableEq, Repr

/-- The orderings a row of R285 permits. -/
def polOrd (k : PolKind) (o : Nat) : Bool :=
  match k with
  | .reads => o != 2
  | .writes => o != 1
  | .atomics => true
  | .prefetch => o == 0
  | .fences => o != 0

/-- Ordering, scope and eviction fields permitted by R285. -/
def polFields (k : PolKind) (o s e : Nat) : Bool := polOrd k o && s ≤ 5 && (k != .fences || e == 0)

/-- A scalar policy word permitted by R285 and R287. -/
def polOk (k : PolKind) (p : Policy) : Bool :=
  polFields k p.ord.toNat p.scope.toNat p.evict.toNat && (k != .fences || p.offset == 0)

/-- The element formats of the queue forms and lane loads (R276, R311). -/
def elemFmt (f : Nat) : Bool := f ≤ 0x0D || (0x21 ≤ f && f ≤ 0x24)

/-- The control word of an mma (R330, R332): fields within their values, unused fields zero. -/
def mmaCtlOk (a b : Nat) (w : Nat) : Bool :=
  let asrc := fld w 0 2
  let bsrc := fld w 2 2
  let ks := fld w 4 5
  asrc ≤ 1 && bsrc ≤ 2 &&
    (if bsrc = 0 then ks == 0 else if bsrc = 1 then 1 ≤ ks && ks ≤ 16 else ks == 1) &&
    (bsrc == 0 || (fld w 10 1 == 0 && fld w 11 5 == 0)) &&
    (asrc == 1 || fld w 16 8 == 0) && (bsrc != 0 || fld w 24 8 == 0) &&
    (asrc == 0 || a == 0) && (bsrc == 1 || b == 0)

/-- The signal fields shared by the engine forms (R336, R342). -/
def sigOk (reg scope : Nat) : Bool := scope ≤ 5 && (reg != 63 || scope == 0)

/-- Word 2 of a copy (R336). -/
def copyWordOk (w : Nat) : Bool := sigOk (fld w 0 6) (fld w 6 3) && fld w 12 20 == 0

/-- A combine format of R337 for an element size 2^e. -/
def cfmtOk (comb fmt e : Nat) : Bool :=
  if comb = 0 then fmt == 0
  else
    (fmt == 2 || fmt == 3 || fmt == 6 || fmt == 7 || (8 ≤ fmt && fmt ≤ 0x0B)) && fmtWidth fmt == 8 * 2 ^ e &&
      (comb != 4 || fmt < 8)

/-- Word 2 of a copyx (R337). -/
def copyxWordOk (w : Nat) : Bool :=
  sigOk (fld w 0 6) (fld w 6 3) && fld w 19 3 ≤ 4 && fld w 22 3 ≤ 4 && fld w 31 1 == 0 &&
    (fld w 18 1 == 0 || fld w 22 3 == 0) && cfmtOk (fld w 22 3) (fld w 25 6) (fld w 19 3)

/-- Word 2 of a coll (R342). -/
def collWordOk (w : Nat) : Bool := sigOk (fld w 0 6) (fld w 6 3) && fld w 9 23 == 0

/-- Word 2 of rput and rget (R339). -/
def remoteWordOk (w : Nat) : Bool := fld w 12 12 == 0 && fld w 27 5 == 0

/-- A reduction format of R339. -/
def rfmtOk (op fmt : Nat) : Bool :=
  op ≤ 3 && (fmt == 2 || fmt == 3 || fmt == 6 || fmt == 7 || fmt == 0x0A || fmt == 0x0B) && (op != 3 || fmt < 8)

/-- Word 2 of rred (R339). -/
def rredWordOk (w : Nat) : Bool := fld w 12 3 == 0 && fld w 27 5 == 0 && rfmtOk (fld w 15 3) (fld w 18 6)

/-- What a source field of a lane instruction may be (R283). -/
inductive SrcKind where
  | none | value | slot | mask | acc | addr | raw
deriving DecidableEq, Repr

/-- What the immediate field of a lane instruction may be (R283). -/
inductive ImmKind where
  | zero | source | variant (ok : LaneF → Bool)

/-- One row of the lane table (R283). -/
structure LaneSpec where
  fmts : Nat → Bool
  dest : List Char
  a    : SrcKind := .none
  b    : SrcKind := .none
  c    : SrcKind := .none
  imm  : ImmKind := .zero
  neg  : Bool := false
  sat  : Bool := false
  rnd  : Bool := false
  pol  : Option PolKind := none
  ctl  : Bool := false

/-- Format sets of R283. -/
def fmtI (f : Nat) : Bool := f ≤ 7
/-- F. -/
def fmtF (f : Nat) : Bool := isIeeeFmt f || isVpFmt f
/-- I and F. -/
def fmtIF (f : Nat) : Bool := fmtI f || fmtF f
/-- Z. -/
def fmtZ (f : Nat) : Bool := f == 0
/-- The 8- and 16-bit codes of R402. -/
def fmtNarrow (f : Nat) : Bool := f == 0 || f == 1 || f == 4 || f == 5 || f == 8 || f == 9 || f == 0x0C || f == 0x0D
/-- The formats of scan and red (R372). -/
def fmtScan (f : Nat) : Bool := f ≤ 0x0B

/-- Bits of the width used by bit fields (R366). -/
def bfImm (f : LaneF) : Bool :=
  let i := f.imm.toNat
  let p := fld i 0 6
  let len := fld i 8 6
  fld i 6 2 == 0 && fld i 14 2 == 0 && 1 ≤ len && p + len ≤ fmtWidth f.fmt.toNat

/-- A uniform source naming a capture slot (R280). -/
def Operand.isSlot (o : Operand) : Bool := o.kind == 2 && o.index.toNat ≤ 3

/-- The immediate of scan (R372). -/
def scanImm (f : LaneF) : Bool :=
  let i := f.imm.toNat
  i < 16 && i % 8 < 6 && (f.fmt.toNat < 8 || i % 8 < 3)

/-- The immediate of red (R373). -/
def redImm (f : LaneF) : Bool :=
  let i := f.imm.toNat
  i < 7 && (if f.fmt.toNat < 8 then i < 6 else i < 3 || i == 6)

/-- The immediate of atoml, and its comparand field (R383). -/
def atomlImm (f : LaneF) : Bool :=
  let i := f.imm.toNat
  (if f.fmt == 0x0A then i == 0 || i == 1 || i == 5 || i == 6 || i == 9
    else i ≤ 6 || i == 9) && (i == 9 || f.c == Operand.zero)

/-- The immediate of vpk (R407). -/
def vpkImm (f : LaneF) : Bool :=
  let i := f.imm.toNat
  let v := fld i 0 2
  let k := fld i 8 7
  fld i 2 6 == 0 && fld i 15 1 == 0 && v ≤ 2 && (if v = 0 then k == 0 else k ≤ 103 || k == 127)

/-- The immediate of rputl and rgetl (R388). -/
def rlImm (f : LaneF) : Bool := f.imm.toNat < 4

/-- The immediate and format of rredl (R388). -/
def rredlImm (f : LaneF) : Bool :=
  let i := f.imm.toNat
  i < 32 && rfmtOk (fld i 2 3) f.fmt.toNat

/-- The 12 bits of source C of lsplit (R284). -/
def Operand.raw (o : Operand) : Nat :=
  o.index.toNat + o.kind.toNat * 256 + o.neg.toNat * 1024 + o.wait.toNat * 2048

/-- The distances of lsplit (R284). -/
def lsplitImm (f : LaneF) : Bool := 2 ≤ f.c.raw && 1 ≤ f.imm.toNat && f.imm.toNat < f.c.raw

/-- The lane table of R283, with the immediates of chapters 13 and 14, by opcode. -/
def laneSpec (op : Nat) : Option LaneSpec :=
  match op with
  | 0x001 => some { fmts := fmtZ, dest := ['n'] }
  | 0x010 | 0x011 | 0x012 =>
    some { fmts := fmtI, dest := ['c', 'q'], a := .value, b := .value, imm := .source, neg := true, sat := true }
  | 0x013 => some { fmts := fmtI, dest := ['c', 'q'], a := .value, b := .value, c := .value, imm := .source,
                    neg := true, sat := true }
  | 0x014 | 0x015 | 0x016 | 0x017 | 0x018 =>
    some { fmts := fmtI, dest := ['c', 'q'], a := .value, b := .value, imm := .source, neg := true }
  | 0x019 => some { fmts := fmtI, dest := ['c', 'q'], a := .value, neg := true, sat := true }
  | 0x01A | 0x01B | 0x01C | 0x01E | 0x01F | 0x020 | 0x021 =>
    some { fmts := fmtI, dest := ['c', 'q'], a := .value, b := .value, imm := .source }
  | 0x01D | 0x022 | 0x023 | 0x024 => some { fmts := fmtI, dest := ['c', 'q'], a := .value }
  | 0x025 => some { fmts := fmtI, dest := ['c', 'q'], a := .value, imm := .variant bfImm }
  | 0x026 => some { fmts := fmtI, dest := ['c', 'q'], a := .value, b := .value, imm := .variant bfImm }
  | 0x027 => some { fmts := fmtIF, dest := ['c', 'q'], a := .value, b := .value, c := .mask, imm := .source }
  | 0x028 => some { fmts := fmtI, dest := ['m'], a := .value, b := .value, neg := true,
                    imm := .variant (fun f => f.imm.toNat < 6) }
  | 0x040 | 0x041 | 0x042 | 0x049 =>
    some { fmts := fmtF, dest := ['c', 'q'], a := .value, b := .value, imm := .source, neg := true, sat := true,
           rnd := true }
  | 0x043 => some { fmts := fmtF, dest := ['c', 'q'], a := .value, b := .value, c := .value, imm := .source,
                    neg := true, sat := true, rnd := true }
  | 0x044 | 0x045 | 0x046 | 0x047 =>
    some { fmts := fmtF, dest := ['c', 'q'], a := .value, b := .value, imm := .source, neg := true }
  | 0x048 => some { fmts := fmtF, dest := ['m'], a := .value, b := .value, neg := true,
                    imm := .variant (fun f => f.imm.toNat < 8) }
  | 0x04A | 0x04B | 0x04C | 0x04D | 0x04E | 0x04F | 0x050 | 0x051 =>
    some { fmts := fmtF, dest := ['c', 'q'], a := .value, neg := true, sat := true, rnd := true }
  | 0x052 => some { fmts := fmtF, dest := ['c', 'q'], a := .value }
  | 0x053 => some { fmts := fmtF, dest := ['c', 'q'], a := .value, b := .value, imm := .source, neg := true,
                    sat := true, rnd := true }
  | 0x054 => some { fmts := fmtF, dest := ['c', 'q'], a := .value, neg := true, rnd := true }
  | 0x060 => some { fmts := fmtIF, dest := ['c', 'q'], a := .value, neg := true, sat := true, rnd := true,
                    imm := .variant (fun f => fmtIF f.imm.toNat &&
                      !(fmtI f.fmt.toNat && fmtI f.imm.toNat && f.rnd != 0)) }
  | 0x061 => some { fmts := fmtNarrow, dest := ['c', 'q'], a := .value, b := .value,
                    imm := .variant (fun f => f.imm == 0 || (f.imm == 1 && fmtWidth f.fmt.toNat == 8)) }
  | 0x062 => some { fmts := fmtNarrow, dest := ['c', 'q'], a := .value,
                    imm := .variant (fun f => f.imm.toNat < 32 / fmtWidth f.fmt.toNat) }
  | 0x063 | 0x064 => some { fmts := isBfpFmt, dest := ['c', 'q'], a := .value, sat := true, rnd := true,
                            imm := .variant (fun f => isIeeeFmt f.imm.toNat) }
  | 0x065 => some { fmts := isVpFmt, dest := ['c', 'q'], a := .value, rnd := true,
                    imm := .variant (fun f => f.imm == 2 || (f.imm.toNat < 2 && f.rnd == 0)) }
  | 0x066 => some { fmts := isVpFmt, dest := ['c', 'q'], a := .value, imm := .variant vpkImm }
  | 0x070 | 0x071 | 0x072 => some { fmts := fmtZ, dest := ['m'], a := .mask, b := .mask, neg := true }
  | 0x073 => some { fmts := fmtZ, dest := ['m'], a := .mask }
  | 0x074 => some { fmts := fmtZ, dest := ['m'], a := .value,
                    imm := .variant (fun f => f.imm.toNat < 2 || (f.imm == 2 && f.a.isSlot)) }
  | 0x075 => some { fmts := fmtZ, dest := ['c', 'q', 'r'], a := .mask }
  | 0x080 => some { fmts := fun f => fmtIF f && f != 0x20, dest := ['c', 'q'], a := .value, b := .value,
                    imm := .variant (fun f => f.imm.toNat < 4) }
  | 0x081 => some { fmts := fmtZ, dest := ['m', 'r'], a := .mask, imm := .variant (fun f => f.imm.toNat < 3) }
  | 0x082 => some { fmts := fmtScan, dest := ['c', 'q'], a := .value, imm := .variant scanImm }
  | 0x083 => some { fmts := fmtScan, dest := ['c', 'r'], a := .value, imm := .variant redImm }
  | 0x090 => some { fmts := fmtZ, dest := ['n'], a := .mask, c := .raw, imm := .variant lsplitImm, ctl := true }
  | 0x091 | 0x092 | 0x094 => some { fmts := fmtZ, dest := ['n'], ctl := true }
  | 0x093 => some { fmts := fmtZ, dest := ['n'], imm := .variant (fun _ => true), ctl := true }
  | 0x0A0 => some { fmts := elemFmt, dest := ['c', 'q'], a := .addr, imm := .variant (fun _ => true),
                    pol := some .reads }
  | 0x0A1 => some { fmts := elemFmt, dest := ['n'], a := .addr, b := .value, imm := .variant (fun _ => true),
                    pol := some .writes }
  | 0x0A2 => some { fmts := fun f => f == 2 || f == 3 || f == 6 || f == 7 || f == 0x0A, dest := ['c', 'q', 'n'],
                    a := .addr, b := .value, c := .value, imm := .variant atomlImm, pol := some .atomics }
  | 0x0A3 => some { fmts := isVpFmt, dest := ['c'], a := .addr, imm := .variant (fun _ => true),
                    pol := some .reads }
  | 0x0A4 => some { fmts := isVpFmt, dest := ['n'], a := .addr, b := .value, imm := .variant (fun _ => true),
                    pol := some .writes }
  | 0x0A5 => some { fmts := fmtZ, dest := ['n'], a := .addr, imm := .variant (fun _ => true),
                    pol := some .prefetch }
  | 0x0A6 => some { fmts := fmtZ, dest := ['n'], pol := some .fences }
  | 0x0B0 => some { fmts := fun f => f == 0x0A, dest := ['c', 'q'], a := .acc,
                    imm := .variant (fun f => f.imm.toNat < 64) }
  | 0x0B1 => some { fmts := fun f => f == 0x0A, dest := ['a'], a := .slot,
                    imm := .variant (fun f => f.imm.toNat < 64) }
  | 0x0B2 => some { fmts := fmtZ, dest := ['a'] }
  | 0x0C0 => some { fmts := elemFmt, dest := ['n'], a := .addr, b := .value, imm := .variant rlImm,
                    pol := some .writes }
  | 0x0C1 => some { fmts := elemFmt, dest := ['c'], a := .addr, imm := .variant rlImm, pol := some .reads }
  | 0x0C2 => some { fmts := elemFmt, dest := ['n'], a := .addr, b := .value, imm := .variant rredlImm,
                    pol := some .writes }
  | 0x0D0 => some { fmts := fmtZ, dest := ['n'], a := .value,
                    imm := .variant (fun f => 0 < f.imm.toNat && f.imm.toNat < 32) }
  | 0x0D1 => some { fmts := fmtZ, dest := ['c', 'q'] }
  | _ => none

/-- What a destination field names (R281): a letter of the Dest column. -/
def destLetter (kind idx : Nat) : Option Char :=
  match kind with
  | 0 => some 'c'
  | 1 => if idx ≤ 5 then some 'q' else if idx = 6 then some 'r' else none
  | 2 => if 1 ≤ idx ∧ idx ≤ 15 then some 'm' else none
  | _ => if idx < 16 then some 'a' else if idx = 0xFF then some 'n' else none

/-- A destination field permitted by a row, aq only at 64 bits (R281). -/
def destOk (sp : LaneSpec) (f : LaneF) : Bool :=
  (match destLetter f.dkind.toNat f.dest.toNat with
    | some c => sp.dest.contains c
    | none => false) &&
  !(f.dkind == 1 && (f.dest == 4 || f.dest == 5) && f.fmt != 3 && f.fmt != 7)

/-- A uniform index that names something (R280). -/
def uniformOk (i : Nat) : Bool := i ≤ 4 || (8 ≤ i && i ≤ 0x0C)

/-- The index and kind of a source field against what it may be (R280). -/
def srcIndexOk (k : SrcKind) (immSource : Bool) (o : Operand) : Bool :=
  let i := o.index.toNat
  match k with
  | .none => o == Operand.zero
  | .raw => true
  | .value => o.kind == 0 || (o.kind == 1 && i < 8) || (o.kind == 2 && uniformOk i && (i != 4 || immSource))
  | .slot => o.kind == 0 || (o.kind == 1 && i < 8) || (o.kind == 2 && i ≤ 3)
  | .addr => o.kind == 0 || (o.kind == 1 && i < 8) || (o.kind == 2 && i ≤ 3)
  | .mask => o.kind == 3 && i < 16
  | .acc => o.kind == 3 && 64 ≤ i && i < 80

/-- The negate and wait bits of a source field (R282); `fmt` is the format the source is read in. -/
def srcMarksOk (k : SrcKind) (neg : Bool) (fmt : Nat) (o : Operand) : Bool :=
  match k with
  | .none => true
  | .raw => true
  | .mask => !o.wait
  | .acc => !o.neg
  | .addr => !o.neg && (!o.wait || o.kind != 2)
  | .slot => !o.neg && (!o.wait || o.kind != 2)
  | .value => (!o.neg || (neg && !(4 ≤ fmt && fmt ≤ 7))) && (!o.wait || o.kind != 2)

/-- Source field i. -/
def sourceField (f : LaneF) (i : Nat) : Operand := match i with | 0 => f.a | 1 => f.b | _ => f.c

/-- The format source i is read in (R280, R370, R383, R399, R401 to R405, R408). -/
def sourceFmt (op : Nat) (f : LaneF) (i : Nat) : Nat :=
  if op = 0x060 ∨ op = 0x063 then f.imm.toNat
  else if op = 0x053 ∧ i = 1 then 0x02
  else if op = 0x061 ∨ op = 0x062 ∨ op = 0x064 ∨ op = 0x0D0 ∨ (op = 0x080 ∧ i = 1) then 0x06
  else if op = 0x074 then (if f.imm = 2 then 0x07 else 0x06)
  else if 0x0A0 ≤ op ∧ op ≤ 0x0C2 ∧ op ≠ 0x0B1 ∧ i = 0 then 0x07
  else f.fmt.toNat

/-- The format of the result (R398, R401, R404 to R407, R369, R409). -/
def resultFmt (op : Nat) (f : LaneF) : Nat :=
  if op = 0x064 then f.imm.toNat
  else if op = 0x052 ∨ op = 0x063 ∨ op = 0x075 ∨ op = 0x0D1 then 0x06
  else if op = 0x065 then (if f.imm = 2 then f.fmt.toNat else 0x06)
  else if op = 0x066 then (if f.imm.toNat % 4 = 0 then 0x06 else f.fmt.toNat)
  else f.fmt.toNat

/-- One source field (R280, R282). -/
def srcOk (sp : LaneSpec) (k : SrcKind) (fmt : Nat) (o : Operand) : Bool :=
  srcIndexOk k (match sp.imm with | .source => true | _ => false) o && srcMarksOk k sp.neg fmt o

/-- No value is popped or pushed in format 0x20, whose entry count would differ from lane to lane (R392); an operand of another
format is, as its statement says (R398, R399, R401, R406, R407). -/
def queuesOk (op : Nat) (sp : LaneSpec) (f : LaneF) : Bool :=
  [(sp.a, 0), (sp.b, 1), (sp.c, 2)].all (fun e =>
    !(e.1 == .value && (sourceField f e.2).kind == 1 && sourceFmt op f e.2 == 0x20)) &&
    !(f.dkind == 1 && resultFmt op f == 0x20)

/-- The immediate field (R283); where it may be a source it may hold any value (DEDUCED, assumption 11). -/
def immOk (sp : LaneSpec) (f : LaneF) : Bool :=
  match sp.imm with
  | .zero => f.imm == 0
  | .source => true
  | .variant ok => ok f

/-- The format sources A and B are read in: cvt's source format stands in its immediate (R401), fscale reads its B as
I32 (R399). -/
def srcFmt (op : Nat) (second : Bool) (f : LaneF) : Nat :=
  if op = 0x060 then f.imm.toNat else if op = 0x053 && second then 2 else f.fmt.toNat

/-- A lane instruction is legal in every field (R286). -/
def laneOk (op : Nat) (f : LaneF) : Bool :=
  match laneSpec op with
  | none => false
  | some sp =>
    sp.fmts f.fmt.toNat && destOk sp f && srcOk sp sp.a (srcFmt op false f) f.a &&
      srcOk sp sp.b (srcFmt op true f) f.b && srcOk sp sp.c f.fmt.toNat f.c && immOk sp f &&
      (!f.sat || sp.sat) && f.rnd != 7 && (f.rnd == 0 || sp.rnd) &&
      (match sp.pol with
        | some k => polFields k f.ord.toNat f.scope.toNat f.evict.toNat
        | none => f.ord == 0 && f.scope == 0 && f.evict == 0) &&
      (!sp.ctl || (f.guard == 0 && !f.gneg)) &&
      queuesOk op sp f

/-- The opcode and fields of a lane instruction (R283); none for any other instruction. -/
def laneParts : Instr → Option (Nat × LaneF)
  | .laneNop f => some (0x001, f)
  | .iadd f => some (0x010, f)
  | .isub f => some (0x011, f)
  | .imul f => some (0x012, f)
  | .imad f => some (0x013, f)
  | .imulh f => some (0x014, f)
  | .idiv f => some (0x015, f)
  | .irem f => some (0x016, f)
  | .imin f => some (0x017, f)
  | .imax f => some (0x018, f)
  | .iabs f => some (0x019, f)
  | .laneAnd f => some (0x01A, f)
  | .laneOr f => some (0x01B, f)
  | .laneXor f => some (0x01C, f)
  | .laneNot f => some (0x01D, f)
  | .laneShl f => some (0x01E, f)
  | .laneShr f => some (0x01F, f)
  | .laneSar f => some (0x020, f)
  | .rot f => some (0x021, f)
  | .laneClz f => some (0x022, f)
  | .lanePopc f => some (0x023, f)
  | .brev f => some (0x024, f)
  | .bfe f => some (0x025, f)
  | .bfi f => some (0x026, f)
  | .laneSel f => some (0x027, f)
  | .icmp f => some (0x028, f)
  | .fadd f => some (0x040, f)
  | .fsub f => some (0x041, f)
  | .fmul f => some (0x042, f)
  | .fma f => some (0x043, f)
  | .fdiv f => some (0x049, f)
  | .fmin f => some (0x044, f)
  | .fmax f => some (0x045, f)
  | .fminn f => some (0x046, f)
  | .fmaxn f => some (0x047, f)
  | .fcmp f => some (0x048, f)
  | .fsqrt f => some (0x04A, f)
  | .frcp f => some (0x04B, f)
  | .frsq f => some (0x04C, f)
  | .fexp2 f => some (0x04D, f)
  | .flog2 f => some (0x04E, f)
  | .fsin f => some (0x04F, f)
  | .fcos f => some (0x050, f)
  | .ftanh f => some (0x051, f)
  | .fclass f => some (0x052, f)
  | .fscale f => some (0x053, f)
  | .frint f => some (0x054, f)
  | .cvt f => some (0x060, f)
  | .pack f => some (0x061, f)
  | .unpack f => some (0x062, f)
  | .qblk f => some (0x063, f)
  | .dqblk f => some (0x064, f)
  | .vplen f => some (0x065, f)
  | .vpk f => some (0x066, f)
  | .mand f => some (0x070, f)
  | .mor f => some (0x071, f)
  | .mxor f => some (0x072, f)
  | .mnot f => some (0x073, f)
  | .mset f => some (0x074, f)
  | .mpopc f => some (0x075, f)
  | .shfl f => some (0x080, f)
  | .vote f => some (0x081, f)
  | .scan f => some (0x082, f)
  | .red f => some (0x083, f)
  | .laneLsplit f => some (0x090, f)
  | .ljoin f => some (0x091, f)
  | .lend f => some (0x092, f)
  | .lcall f => some (0x093, f)
  | .lret f => some (0x094, f)
  | .ldl f => some (0x0A0, f)
  | .stl f => some (0x0A1, f)
  | .atoml f => some (0x0A2, f)
  | .ldvp f => some (0x0A3, f)
  | .stvp f => some (0x0A4, f)
  | .prefl f => some (0x0A5, f)
  | .lfence f => some (0x0A6, f)
  | .accrd f => some (0x0B0, f)
  | .accwr f => some (0x0B1, f)
  | .accz f => some (0x0B2, f)
  | .rputl f => some (0x0C0, f)
  | .rgetl f => some (0x0C1, f)
  | .rredl f => some (0x0C2, f)
  | .precw f => some (0x0D0, f)
  | .precr f => some (0x0D1, f)
  | _ => none

/-- The lane instruction of an opcode (R283). -/
def laneMk (op : Nat) : Option (LaneF → Instr) :=
  match op with
  | 0x001 => some .laneNop
  | 0x010 => some .iadd
  | 0x011 => some .isub
  | 0x012 => some .imul
  | 0x013 => some .imad
  | 0x014 => some .imulh
  | 0x015 => some .idiv
  | 0x016 => some .irem
  | 0x017 => some .imin
  | 0x018 => some .imax
  | 0x019 => some .iabs
  | 0x01A => some .laneAnd
  | 0x01B => some .laneOr
  | 0x01C => some .laneXor
  | 0x01D => some .laneNot
  | 0x01E => some .laneShl
  | 0x01F => some .laneShr
  | 0x020 => some .laneSar
  | 0x021 => some .rot
  | 0x022 => some .laneClz
  | 0x023 => some .lanePopc
  | 0x024 => some .brev
  | 0x025 => some .bfe
  | 0x026 => some .bfi
  | 0x027 => some .laneSel
  | 0x028 => some .icmp
  | 0x040 => some .fadd
  | 0x041 => some .fsub
  | 0x042 => some .fmul
  | 0x043 => some .fma
  | 0x049 => some .fdiv
  | 0x044 => some .fmin
  | 0x045 => some .fmax
  | 0x046 => some .fminn
  | 0x047 => some .fmaxn
  | 0x048 => some .fcmp
  | 0x04A => some .fsqrt
  | 0x04B => some .frcp
  | 0x04C => some .frsq
  | 0x04D => some .fexp2
  | 0x04E => some .flog2
  | 0x04F => some .fsin
  | 0x050 => some .fcos
  | 0x051 => some .ftanh
  | 0x052 => some .fclass
  | 0x053 => some .fscale
  | 0x054 => some .frint
  | 0x060 => some .cvt
  | 0x061 => some .pack
  | 0x062 => some .unpack
  | 0x063 => some .qblk
  | 0x064 => some .dqblk
  | 0x065 => some .vplen
  | 0x066 => some .vpk
  | 0x070 => some .mand
  | 0x071 => some .mor
  | 0x072 => some .mxor
  | 0x073 => some .mnot
  | 0x074 => some .mset
  | 0x075 => some .mpopc
  | 0x080 => some .shfl
  | 0x081 => some .vote
  | 0x082 => some .scan
  | 0x083 => some .red
  | 0x090 => some .laneLsplit
  | 0x091 => some .ljoin
  | 0x092 => some .lend
  | 0x093 => some .lcall
  | 0x094 => some .lret
  | 0x0A0 => some .ldl
  | 0x0A1 => some .stl
  | 0x0A2 => some .atoml
  | 0x0A3 => some .ldvp
  | 0x0A4 => some .stvp
  | 0x0A5 => some .prefl
  | 0x0A6 => some .lfence
  | 0x0B0 => some .accrd
  | 0x0B1 => some .accwr
  | 0x0B2 => some .accz
  | 0x0C0 => some .rputl
  | 0x0C1 => some .rgetl
  | 0x0C2 => some .rredl
  | 0x0D0 => some .precw
  | 0x0D1 => some .precr
  | _ => none

/-- Every field an instruction holds has a value the spec assigns (R278, R286). Events hold no encoded field. -/
def instrOk (i : Instr) : Bool :=
  match i with
  | .cmp _ _ _ c => c.toNat < 6
  | .cmpImm c _ _ _ => c.toNat < 6
  | .loop d _ => d != 63
  | .rdc _ c => c.toNat ≤ 4
  | .waitc c n => c.toNat ≤ 4 && n.toNat ≤ 255
  | .srd _ r => srListed r.toNat
  | .swr _ r => srListed r.toNat
  | .ld _ _ size sext p => size.toNat ≤ 3 && !(size == 3 && sext) && polOk .reads p
  | .st _ _ size p => size.toNat ≤ 3 && polOk .writes p
  | .atom _ _ _ op size p => op.toNat ≤ 9 && (size == 2 || size == 3) && polOk .atomics p
  | .pref _ _ _ p => polOk .prefetch p
  | .vlq _ _ _ _ fmt p => elemFmt fmt.toNat && polOk .reads p
  | .vlqg _ _ _ _ fmt p => elemFmt fmt.toNat && polOk .reads p
  | .vsq q _ _ _ fmt p => q.toNat ≤ 3 && elemFmt fmt.toNat && polOk .writes p
  | .vsqs q _ _ _ fmt p => q.toNat ≤ 3 && elemFmt fmt.toNat && polOk .writes p
  | .mma _ a b ctl => mmaCtlOk a.toNat b.toNat ctl.toNat
  | .copy _ _ _ w => copyWordOk w.toNat
  | .copyx _ _ _ w => copyxWordOk w.toNat
  | .coll _ w => collWordOk w.toNat
  | .rput _ _ _ w => remoteWordOk w.toNat
  | .rget _ _ _ w => remoteWordOk w.toNat
  | .rred _ _ _ w => rredWordOk w.toNat
  | .waitm _ _ c p => c.toNat ≤ 3 && polOk .reads p
  | .sigAdd _ _ p => polOk .atomics p
  | .sigStore _ _ p => polOk .atomics p
  | .fence p => polOk .fences p
  | i =>
    match laneParts i with
    | some (op, f) => laneOk op f
    | none => true

end Sys2Proof
end

