-- ==== Sys2Proof/Config.lean ====
section
/-!
DEFINITION. What the spec leaves to an implementation or does not state, as constants without a body: nothing can
evaluate one or prove a value of it. -/
namespace Sys2Proof.Config

/-- Which of the turns that could be taken is taken next, when no turn is on the agenda (the order of agents is not
promised; DESIGN CHOICE, assumption 6). -/
opaque pick : Nat → Nat

/-- A free value for an effect whose result the spec does not state, drawn with the state's counter (DESIGN CHOICE, assumption
5). -/
opaque freeValue : Nat → Word

/-- The magnitude of a transcendental result that the working precision of the model did not resolve
(DESIGN CHOICE, assumption 13). -/
opaque unresolved : Nat → FVal → Exact

/-- Whether an Ed25519 signature verifies (R28): of a public key, the signed bytes and the signature (UNVERIFIED, assumption 8). -/
opaque ed25519Ok : List Byte → List Byte → List Byte → Bool

/-- Whether an ML-DSA-65 signature verifies (R28): of a public key, the signed bytes and the signature (UNVERIFIED,
assumption 8). -/
opaque mlDsaOk : List Byte → List Byte → List Byte → Bool

/-- A byte of the Ed25519 signature of a private key on some bytes (R28, R31; UNVERIFIED, assumption 8). -/
opaque ed25519Byte : List Byte → List Byte → Nat → Byte

/-- A byte of the ML-DSA-65 signature of a private key on some bytes, with what is drawn for it (R28, R31; UNVERIFIED,
assumption 8). -/
opaque mlDsaByte : List Byte → List Byte → Nat → Nat → Byte

/-- The vendor's Ed25519 public key (R30; UNVERIFIED, assumption 8). -/
opaque vendorEd : List Byte

/-- The vendor's ML-DSA-65 public key (R30; UNVERIFIED, assumption 8). -/
opaque vendorMl : List Byte

/-- The fused SHA-256 hashes of the vendor's two keys (R30; UNVERIFIED, assumption 8). -/
opaque fusedHashes : List Byte × List Byte

/-- The device's identity key for Ed25519, made in F0 at first boot (R31; UNVERIFIED, assumption 8). -/
opaque identityEd : List Byte

/-- The device's identity key for ML-DSA-65 (R31; UNVERIFIED, assumption 8). -/
opaque identityMl : List Byte

/-- The image of each firmware core that manufacture put into the module's flash (R26; UNVERIFIED, assumption 8). -/
opaque flashImage : Nat → List Byte

/-- What management reads of the cause of a failed boot step of a bring-up (R27; DESIGN CHOICE, assumption 10). -/
opaque bootCause : Nat → Nat → Word

/-- A word of what firmware puts into a report whose bytes the spec does not lay out (DESIGN CHOICE, assumption 9). -/
opaque reportWord : Nat → Nat → Word

/-- The price at an index of the n-th price table loaded after the shipped one (R73; DESIGN CHOICE, assumption 9). -/
opaque loadedPrice : Nat → Nat → Nat

/-- The version word of the n-th price table (R101; DESIGN CHOICE, assumption 9). -/
opaque priceVersion : Nat → BitVec 16

/-- The device base MAC address, fused in manufacture (R20; UNVERIFIED, assumption 8). -/
opaque baseMac : Nat

/-- The fused device serial (R31; UNVERIFIED, assumption 8). -/
opaque serial : Nat

/-- The code lengths that a sender of coded chunks chooses for its exponents, one for each field value (R345; DESIGN CHOICE,
assumption 23). -/
opaque codeLengths : List Nat → List Nat

/-- The set of a core cache that a line belongs to (R163; DESIGN CHOICE, assumption 5). -/
opaque cacheSet : Nat → Nat

/-- The ways of a set of a core cache in one bank, but one (R163; DESIGN CHOICE, assumption 5). -/
opaque cacheWays : Nat

/-- The set of a last-level cache that a line belongs to (R184; DESIGN CHOICE, assumption 5). -/
opaque llcSet : Nat → Nat

/-- The ways of a set of a last-level cache with nothing carved from it, but one (R181, R184; DESIGN CHOICE,
assumption 5). -/
opaque llcWays : Nat

/-- How long a send rate stays reduced, in ns, by management's parameters (R103; DESIGN CHOICE, assumption 54). -/
opaque rateRecovery : Nat

/-- The bytes of a die's HBM that firmware keeps (R142, R186; DESIGN CHOICE, assumption 14). -/
opaque hbmReserved : Nat → Nat

/-- Whether a boot step of a bring-up succeeds (R26, R27; DESIGN CHOICE, assumption 10). -/
opaque bootStepOk : Nat → Nat → Bool

/-- The transit time F0 adds when it loads TIME, in ns (R25; DESIGN CHOICE, assumption 10). -/
opaque transit : Nat

/-- The transit time between die 0 and a die over the links, in ns (R22; DESIGN CHOICE, assumption 10). -/
opaque linkTransit : Nat → Nat

/-- Bytes of a die's save pool beyond its 40 full-core contexts (R142; DESIGN CHOICE, assumption 14). -/
opaque savePoolMore : Nat → Nat

/-- The management key (R106; UNVERIFIED, assumption 8). -/
opaque managementKey : List Byte

end Sys2Proof.Config
end

