-- ==== Sys2Proof/Machine/Bfp.lean ====
section
/-!
DEFINITION. Block floating point (R221, R222), the matrix pass (R230), and the reduction tree and its combines (R231,
R232). -/
namespace Sys2Proof

/-- Mantissa bits of a BFP format code (R221). -/
def bfpBits (code : Nat) : Nat := code - 0x0E

/-- One element of a block (R221). -/
def bfpValue (m e : Nat) (q : Int) : FVal :=
  if e = 255 then .nan false else .fin (decide (q < 0)) q.natAbs ((e : Int) - 127 - (m - 2 : Nat))

/-- One element on its way into a block: its value, its mode and its two draws (R222). -/
structure BlkElem where
  x  : FVal
  rm : RMode
  d1 : Nat
  d2 : Nat
deriving DecidableEq, Repr

/-- A quantised block: E, the mantissas, the flags, and whether every mantissa was computed again. -/
structure BlkOut where
  e     : Nat
  q     : List Int
  flags : Flags
  again : Bool
deriving DecidableEq, Repr

/-- The leading exponent of a finite value, none for a zero. -/
def FVal.lead : FVal → Option Int
  | .fin _ m e => if m = 0 then none else some (e + (bitLen m : Int) - 1)
  | _ => none

/-- The mantissa of one element at shared exponent `E`; an infinity exceeds every mantissa. -/
def blkQ (m e : Nat) (rm : RMode) (d : Nat) (x : FVal) : Int :=
  match x with
  | .nan _ => 0
  | .inf n => sgn n (2 ^ 40)
  | .fin n mm ee => sgn n (roundInt rm n mm (ee + 127 + (m - 2 : Nat) - e) d).1

/-- q x 2^(E - 127 - (m - 2)) equals x. -/
def blkSame (m e : Nat) (q : Int) (x : FVal) : Bool :=
  match x with
  | .fin _ _ _ => fCompare (bfpValue m e q) x == .eq
  | _ => false

/-- A block that holds no number. -/
def blkNan (n : Nat) (fl : Flags) (again : Bool) : BlkOut :=
  { e := 255, q := List.replicate n 0, flags := fl, again := again }

/-- The rest of the rule of R222 once the mantissas stand: clamp them and raise the flags. -/
def blkClose (m e : Nat) (xs : List BlkElem) (qs : List Int) (again : Bool) : BlkOut :=
  let qmax : Int := 2 ^ (m - 1) - 1
  let cl := qs.map (clampI (-qmax) qmax)
  let ps := xs.zip cl
  { e := e, q := cl, again := again
    flags :=
      { of := cl != qs
        ix := ps.any (fun p => !blkSame m e p.2 p.1.x)
        uf := ps.any (fun p => !p.1.x.isNan && !p.1.x.isInf && !p.1.x.isZero && p.2 == 0) } }

/-- Block quantisation (R222). -/
def quantise (m : Nat) (sat : Bool) (xs : List BlkElem) : BlkOut :=
  let n := xs.length
  let qmax : Nat := 2 ^ (m - 1) - 1
  if xs.any (·.x.isNan) then blkNan n { nv := xs.any (·.x.isSnan) } false
  else
    let leads := xs.filterMap (·.x.lead)
    let e0 : Int := if leads.isEmpty then 0 else leads.foldl max (-100000) + 127
    let anyInf := xs.any (·.x.isInf)
    let tooBig := anyInf || decide (254 < e0)
    if tooBig && !sat then blkNan n { of := true } false
    else
      let e : Nat := if tooBig then 254 else (max e0 0).toNat
      let q1 := xs.map (fun x => blkQ m e x.rm x.d1 x.x)
      if q1.any (fun q => decide (qmax < q.natAbs)) && !tooBig then
        if e < 254 then
          let e' := e + 1
          blkClose m e' xs (xs.map (fun x => blkQ m e' x.rm x.d2 x.x)) true
        else if !sat then blkNan n { of := true } false
        else blkClose m e xs q1 false
      else blkClose m e xs q1 false

/-- Add integers times powers of two: the sum, at the least exponent. -/
def sumScaled (l : List (Int × Int)) : Int × Int :=
  let e := l.foldl (fun m p => min m p.2) (match l with | [] => 0 | p :: _ => p.2)
  (l.foldl (fun s p => s + p.1 * 2 ^ (p.2 - e).toNat) 0, e)

/-- One slice of a matrix operation for one element (R230): C plus the exact sum of products, rounded once. -/
def passElem (bf16 sat : Bool) (rm : RMode) (c : Nat) (terms : List (FVal × FVal)) : Nat :=
  let f := if bf16 then ffBf16 else ff32
  let cv := decF ff32 c
  let ps := terms.map (fun p => fMul p.1 p.2)
  let infs := (match cv with | .inf n => [n] | _ => []) ++
    ps.filterMap (fun r => match r with | .inf n _ _ => some n | _ => none)
  let r : FRes :=
    if cv.isNan || ps.any (fun r => match r with | .nan _ => true | _ => false) then .nan false
    else if infs.any (·) && infs.any (!·) then .nan true
    else match infs with
      | n :: _ => .inf n true false
      | [] =>
        let nums := (match cv with | .fin n m e => [(sgn n m, e)] | _ => []) ++
          ps.filterMap (fun r => match r with | .num x => some (sgn x.neg x.m, x.e) | _ => none)
        let allNeg := cv.isZero && cv.sign &&
          ps.all (fun r => match r with | .zero n => n | _ => false)
        let (s, e) := sumScaled nums
        ofInt s e (allNeg || decide (rm = .rdn))
  let b := (finishF f rm sat 0 r).1
  if bf16 then b * 2 ^ 16 else b

/-- One level of the reduction tree; an absent child passes the other through (R231). -/
def treeLevel {α : Type} (op : α → α → α) : List (Option α) → List (Option α)
  | some a :: some b :: t => some (op a b) :: treeLevel op t
  | some a :: none :: t => some a :: treeLevel op t
  | none :: b :: t => b :: treeLevel op t
  | [a] => [a]
  | [] => []

/-- The root of the tree tooBig at most 2^fuel leaves (R231). -/
def treeRoot {α : Type} (op : α → α → α) : Nat → List (Option α) → Option α
  | 0, l => (l[0]?).getD none
  | n + 1, l => treeRoot op n (treeLevel op l)

/-- The combines of R232, R344 and R372. -/
inductive COp where
  | add | min | max | and | or | xor | amax
deriving DecidableEq, Repr

/-- The lane codes of R372 and R373. -/
def cOpOf (c : Nat) : Option COp :=
  match c with
  | 0 => some .add | 1 => some .min | 2 => some .max | 3 => some .and | 4 => some .or | 5 => some .xor
  | 6 => some .amax | _ => none

/-- The absolute value of a value that is not NaN. -/
def FVal.magnitude : FVal → FVal
  | .nan s => .nan s
  | .inf _ => .inf false
  | .fin _ m e => .fin false m e

/-- A floating-point combine on bit patterns (R232). -/
def combineF (f : FFmt) (op : COp) (a b : Nat) : Nat :=
  let x := decF f a
  let y := decF f b
  let w := 1 + f.eb + f.fb
  if x.isNan || y.isNan then nanBits f
  else
    match op with
    | .add => (finishF f .rne false 0 (fAdd .rne x y)).1
    | .min => if fBelow y x then b else a
    | .max => if fBelow x y then b else a
    | .amax => if fBelow x.magnitude y.magnitude then b % 2 ^ (w - 1) else a % 2 ^ (w - 1)
    | .and => a
    | .or => a
    | .xor => a

/-- An integer combine on bit patterns (R211, R372). -/
def combineI (code : Nat) (op : COp) (a b : Nat) : Nat :=
  let w := fmtWidth code
  match op with
  | .add => (a + b) % 2 ^ w
  | .min => if intVal code b < intVal code a then b else a
  | .max => if intVal code a < intVal code b then b else a
  | .and => a &&& b
  | .or => a ||| b
  | .xor => a ^^^ b
  | .amax => a

/-- A combine in a format. -/
def combine (code : Nat) (op : COp) (a b : Nat) : Nat :=
  match ffOf code with
  | some f => combineF f op a b
  | none => combineI code op a b

/-- The identity of a combine (R372, R373). -/
def combineId (code : Nat) (op : COp) : Nat :=
  let w := fmtWidth code
  match ffOf code with
  | some f => (match op with | .min => infBits f false | .max => infBits f true | _ => 0)
  | none =>
    match op with
    | .and => 2 ^ w - 1
    | .min => ofS w (intMax code)
    | .max => ofS w (intMin code)
    | _ => 0

end Sys2Proof
end

