-- ==== Sys2Proof/Machine/Table.lean ====
section
/-!
DEFINITION. Keyed data in one canonical form: rising keys, and, where an unlisted key reads as a default, no entry
equal to that default. -/
namespace Sys2Proof

/-- The entry at key `i`, if one is listed. -/
def tblFind {α : Type} : Tbl α → Nat → Option α
  | [], _ => none
  | (k, v) :: t, i => if k = i then some v else tblFind t i

/-- Enter `v` at key `i`, in key order, in place of what stands there. -/
def tblPut {α : Type} : Tbl α → Nat → α → Tbl α
  | [], i, v => [(i, v)]
  | (k, w) :: t, i, v =>
    if i < k then (i, v) :: (k, w) :: t
    else if k = i then (i, v) :: t
    else (k, w) :: tblPut t i v

/-- Take key `i` out. -/
def tblDel {α : Type} : Tbl α → Nat → Tbl α
  | [], _ => []
  | (k, w) :: t, i => if k = i then tblDel t i else (k, w) :: tblDel t i

/-- The value at key `i`; an unlisted key reads as `d`. -/
def tblGet {α : Type} (d : α) (t : Tbl α) (i : Nat) : α := (tblFind t i).getD d

/-- Write the value at key `i`; writing what an unlisted key reads as takes the entry out. -/
def tblSet {α : Type} [DecidableEq α] (d : α) (t : Tbl α) (i : Nat) (v : α) : Tbl α :=
  if v = d then tblDel t i else tblPut t i v

/-- Rising keys. -/
def tblRising {α : Type} : Tbl α → Bool
  | [] => true
  | [_] => true
  | (k, _) :: (k', w) :: t => decide (k < k') && tblRising ((k', w) :: t)

/-- The canonical form of a table whose unlisted keys read as `d`. -/
def tblWf {α : Type} [DecidableEq α] (d : α) (t : Tbl α) : Bool :=
  tblRising t && t.all (fun e => decide (e.2 ≠ d))

/-- Apply `f` to the entry at key `i`, if one is listed. -/
def tblUpd {α : Type} (t : Tbl α) (i : Nat) (f : α → α) : Tbl α :=
  match tblFind t i with
  | some v => tblPut t i (f v)
  | none => t

/-- The keys listed, rising. -/
def tblKeys {α : Type} (t : Tbl α) : List Nat := t.map Prod.fst

/-- The values listed, in key order. -/
def tblVals {α : Type} (t : Tbl α) : List α := t.map Prod.snd

end Sys2Proof
end

