-- ==== Sys2Proof/Machine/State.lean ====
section
/-!
DEFINITION. The state of the package: groups, teams, grids, cores, dies and the package itself, as plain data, and the
state after reset. Tables are keyed by the number of what they hold; an unlisted key reads as the default named with
the field. -/
namespace Sys2Proof.Machine

/-- Why a run stops with a fault. Raised by the step alone; safe, for the spec gives such an instruction no agent. -/
inductive Fault where
  /-- a stream instruction with no such resident group to run it; raised by `exec`; safe -/
  | noStream
deriving DecidableEq, Repr

/-- Why an instruction has no meaning. -/
inductive Refusal where
  /-- the instruction is not modelled yet; raised by `exec` alone; safe -/
  | notModelled (mnemonic : String)
deriving DecidableEq, Repr

/-! ## A group -/

/-- One entry of a load, store or address queue (R151, R265): one value per lane (unlisted 0), lane mask, poison mask, whether
it is full, the number of the entry and that of the first of its element, whether it never fills after a fault (R314), and its
maker's place in group order. -/
structure QEntry where
  data   : Tbl Nat := []
  mask   : Lanes := 0
  poison : Lanes := 0
  full   : Bool := true
  id     : Nat := 0
  elem   : Nat := 0
  never  : Bool := false
  seq    : Nat := 0
deriving DecidableEq, Repr

/-- One entry of rq (R151, R317). -/
structure RqEntry where
  value  : Word := 0
  poison : Bool := false
  seq    : Nat := 0
deriving DecidableEq, Repr

/-- One entry of the lane block queue (R150): its address, k0 to k3, the trap level of the handler that pushed it, and
the place of its `lrun` in group order. -/
structure Block where
  pc    : Nat := 0
  k     : List Word := [0, 0, 0, 0]
  level : Nat := 0
  seq   : Nat := 0
deriving DecidableEq, Repr

/-- The running lane block (R150): its lane PC, k0 to k3, the stack depth at which it began (R238) and its trap
level. -/
structure LaneRun where
  pc    : Nat := 0
  k     : List Word := [0, 0, 0, 0]
  base  : Nat := 0
  level : Nat := 0
deriving DecidableEq, Repr

/-- Kinds of stack entry (R236). -/
inductive EntryKind where
  | div | call | trap
deriving DecidableEq, Repr

/-- A reconvergence stack entry (R236). `id` and `second` name the path of a DIV entry for R203, `base` and `blevel`
keep what the interrupted block needs to go on, `parkn` and `lbusy` are PARKN and LBUSY. -/
structure Entry where
  kind   : EntryKind := .div
  fmt    : BitVec 32 := 0
  amask  : Lanes := 0
  pend   : Lanes := 0
  pc1    : Nat := 0
  pc2    : Nat := 0
  tstat  : Word := 0
  tpc    : Word := 0
  tlpc   : Word := 0
  tmask  : Word := 0
  parkn  : Nat := 0
  lbusy  : Bool := false
  k      : List Word := [0, 0, 0, 0]
  base   : Nat := 0
  blevel : Nat := 0
  id     : Nat := 0
  second : Bool := false
deriving DecidableEq, Repr

/-- Kinds of access in the operand log (R187, R265), fences (R200) and prefetches (R296, R309) among them. -/
inductive AccKind where
  | load | store | atomic | fence | hint
deriving DecidableEq, Repr

/-- Where a value read goes (R187). -/
inductive Dest where
  /-- nowhere -/
  | none
  /-- a scalar register; the scalar stream is held for it (R296) -/
  | reg (d : Nat) (sext : Bool)
  /-- cells of the access's lane from index `idx`, widened by format (R209) -/
  | cells (idx fmt : Nat)
  /-- the access's lane of `n` load-queue entries from entry identifier `id`, widened by format (R312) -/
  | entry (q id part fmt : Nat)
  /-- the access's lane of the entries a lane load pushes when all its lanes have landed (R282) -/
  | push (part fmt : Nat)
  /-- the flag a `waitm` reads; `second` marks the ordered read that ends it (R350) -/
  | flag (second : Bool)
  /-- one cell of a VP value on its way to be cut to a working length (R384) -/
  | vp (id part : Nat)
  /-- bytes from `off` on of the access with identifier `id`, which is performed in naturally aligned pieces (R183) -/
  | piece (id off : Nat)
deriving DecidableEq, Repr

/-- One access of the operand log (R187): who issued it, where, what it does and where its value goes. `seq` is its place in its
stream, `seen` how far it follows the other stream (R195), `path` the sides of the divergences it stands in (R203); `behind`
that it was parked or refused, so that later accesses to its pages come behind it (R188), `own` that it was a peer address of
the device's own rank (R339), `kept` that it comes from the hold buffer of a Scrim group (R258), `rop` the ROP and format of a
remote fold (R389), and `answer` the value that came for it, with its poison, and is still to be recorded (R119). A prefetch
names its kind in `op`: 1 for ballast, 2 for a lane's (R386). -/
structure Access where
  id      : Nat := 0
  op      : Nat := 0
  lane    : Nat := 255
  stream  : Bool := false
  pc      : Nat := 0
  kind    : AccKind := .load
  addr    : Nat := 0
  size    : Nat := 0
  data    : Nat := 0
  cmp     : Nat := 0
  fp      : Nat := 0
  ord     : Nat := 0
  scope   : Nat := 0
  evict   : Nat := 0
  dest    : Dest := .none
  seq     : Nat := 0
  seen    : Nat := 0
  path    : List Nat := []
  parked  : Bool := false
  refused : Bool := false
  sent    : Bool := false
  behind  : Bool := false
  own     : Bool := false
  kept    : Bool := false
  rank    : Option Nat := none
  slot    : Nat := 0
  rop     : Option (Nat × Nat) := none
  answer  : Option (Nat × Bool) := none
deriving DecidableEq, Repr

/-- A long operation in flight (R154): the cells it will write, as (lane, cell, value), and the flags it will set, as
(lane, flags). -/
structure LongOp where
  id     : Nat := 0
  writes : List (Nat × Nat × Nat) := []
  flags  : List (Nat × Flags) := []
deriving DecidableEq, Repr

/-- A VP value of several cells being loaded: the cells landed so far; `raw` marks one of a fixed container, written unchanged
(R251, R384). -/
structure VpLoad where
  id    : Nat := 0
  lane  : Nat := 0
  idx   : Nat := 0
  s     : Nat := 0
  need  : Nat := 1
  raw   : Bool := false
  got   : Tbl Nat := []
  proto : Access := {}
deriving DecidableEq, Repr

/-- An access performed in pieces (R183): its identifier, the bytes come so far, and whether one was poisoned. -/
structure Join where
  id  : Nat := 0
  got : Tbl Byte := []
  bad : Bool := false
deriving DecidableEq, Repr

/-- A lane load or returning atomic that holds the lane port until it pushes (R282). -/
structure LanePush where
  q    : Nat := 0
  n    : Nat := 1
  mask : Lanes := 0
  data : Tbl Nat := []
  id   : Nat := 0
  dead : Lanes := 0
deriving DecidableEq, Repr

/-- What the scalar stream's issued instruction waits for. -/
inductive ScalarWait where
  | none
  /-- a value for a register (R296) -/
  | value (d : Nat)
  /-- the other groups at a bar (R352) -/
  | bar
  /-- the other groups at a cbar (R352) -/
  | cbar
  /-- the other groups at a regroup (R357) -/
  | regroup (k : Nat)
  /-- a flag in memory (R350): address, value, condition, ordering, scope, TIME of the first read -/
  | waitm (addr : Nat) (v : Word) (cond ord scope : Nat) (first : Option Nat)
deriving DecidableEq, Repr

/-- One held record of a Scrim group (R258, R259): the access, or the engine command, and the bytes it signs. -/
structure Held where
  acc  : Option Access := none
  sign : List Byte := []
deriving DecidableEq, Repr

/-- One operation outstanding in a class (R326): done, abandoned after a fault (R189), performed by the primary alone of a
Scrim pair (R257), and its number among those its class was entered by. -/
structure OutOp where
  id     : Nat := 0
  done   : Bool := false
  gone   : Bool := false
  mirror : Bool := false
  n      : Nat := 0
deriving DecidableEq, Repr

/-- The special registers of a group (R277), but for those read elsewhere. -/
structure Specials where
  args     : Word := 0
  fmt      : BitVec 32 := 0
  scb      : Word := 0
  scsh     : Word := 0
  wto      : Word := 0
  prog     : Word := 0xFFFFFFFF
  hintdrop : Word := 0
  misscnt  : Word := 0
  tkused   : Word := 0
  tkstall  : Word := 0
  tkindex  : BitVec 16 := 0
  tstat    : Word := 0
  tpc      : Word := 0
  tlpc     : Word := 0
  tmask    : Word := 0
  lbka     : List Word := [0, 0, 0, 0]
  cluid    : Word := 0
  clupos   : Word := 0
deriving DecidableEq, Repr

/-- A group (R149); before its launch no lane is live (R320). `pull` is what its waiting command reads of its descriptor in
remote memory: the command's place in its stream and the key of the reading (R342, R346). -/
structure Group where
  -- identity and resources
  team     : Nat := 0
  grpid    : Nat := 0
  slot     : Nat := 0
  window   : Nat := 256
  units    : List Nat := []
  reserve  : Nat := 0
  ceil     : Nat := 7
  exited   : Bool := false
  -- scalar stream
  pc       : Nat := 0
  sregs    : Tbl Word := []
  bools    : Tbl Bool := []
  swait    : ScalarWait := .none
  sgrant   : Bool := false
  -- lane stream
  run      : Option LaneRun := none
  active   : Lanes := 0
  ldead    : Lanes := BitVec.allOnes 64
  masks    : Tbl Lanes := []
  lgrant   : Bool := false
  lpush    : Option LanePush := none
  -- queues
  blocks   : List Block := []
  lq       : Tbl (List QEntry) := []
  sq       : Tbl (List QEntry) := []
  aq       : Tbl (List QEntry) := []
  rq       : List RqEntry := []
  -- stack
  stack    : List Entry := []
  -- lanes' own state
  cells    : Tbl Nat := []
  empties  : Tbl Nat := []
  errs     : List Nat := []
  prec     : Tbl (BitVec 32) := []
  z        : Tbl Word := []
  thread   : Tbl Word := []
  longs    : List LongOp := []
  vploads  : List VpLoad := []
  joins    : List Join := []
  -- tiles and engines
  accmap   : Tbl Nat := []
  tileset  : List Nat := []
  outs     : Tbl (List OutOp) := []
  entered  : Tbl Nat := []
  -- memory
  log      : List Access := []
  seq      : Nat := 1
  lseq     : Nat := 1
  sseen    : Nat := 0
  lseen    : Nat := 0
  pull     : Option (Nat × Nat) := none
  -- special registers
  sr       : Specials := {}
  rank     : Nat := 0
  arrived  : Nat := 0
  tbars    : Tbl Nat := []
  -- waits of each stream on the other, since which clock (R158)
  sblock   : Option Nat := none
  lblock   : Option Nat := none
  -- ready without issuing, since which clock (R146)
  sready   : Option Nat := none
  lready   : Option Nat := none
  -- Scrim (R257 to R260): the records held, and those of the instruction that brought the 512th which came after it
  held     : List Held := []
  extra    : List Held := []
  sig      : Word := BitVec.allOnes 64
  point    : Nat := 0
  atPoint  : Option Nat := none
  pointOk  : Bool := false
  inbox    : List Word := []
  -- recording (R119)
  recno    : Nat := 0
  bskip    : Bool := false
deriving DecidableEq, Repr

/-! ## A team and a grid -/

/-- What has become of a team (R142, R143, R262); `written` is a save whose last byte is out and whose place is still
held. -/
inductive TeamLife where
  | running | saving | written | saved | flushing | flushed | killing | ended
deriving DecidableEq, Repr

/-- A fault report (R189, R262): cause, address, stream, instruction address, lane, TIME. -/
structure Report where
  cause  : Nat := 0
  addr   : Nat := 0
  stream : Bool := false
  pc     : Nat := 0
  lane   : Nat := 0xFF
  time   : Nat := 0
deriving DecidableEq, Repr

/-- An accumulator tile (R155, R166, R250): elements by row x 128 + column (unlisted 0), poison, the operations
outstanding on it. -/
structure Tile where
  data    : Tbl Nat := []
  poison  : Bool := false
  pending : List Nat := []
deriving DecidableEq, Repr

/-- A rank table entry as it was read (R340). -/
structure RankEntry where
  qp   : Nat
  port : Nat
  key  : BitVec 32
  mac  : List Byte
deriving DecidableEq, Repr

/-- A copy engine operation (R173, R336, R337), or a remote operation served locally (R339): its group, addresses, length in
bytes (in elements for `copyx`, whose control word is `word`), the bytes done, signal (`peer` when it lies in a peer's space),
index array and fold. `asking` and `paid` are its chunk's request at the core bucket; `phase`, `need`, `buf` and `bad` hold what
a chunk reads from remote pages, `acks` the writes not yet acknowledged, `poison` whether anything moved carried poison, `tob`
the bank it fills, `signed` whether its signal was sent, `pkt` the packet it serves, `pc` the address of the instruction that
issued it (R189), and `ends` the rank entries it has read, by slot x 2^24 + rank (R116). -/
structure CopyOp where
  id       : Nat := 0
  grp      : Nat := 0
  cls      : Nat := 0
  dst      : Nat := 0
  src      : Nat := 0
  len      : Nat := 0
  done     : Nat := 0
  sig      : Option Nat := none
  peer     : Bool := false
  evict    : Nat := 0
  idx      : Option Nat := none
  word     : Nat := 0
  red      : Option (Nat × Nat) := none
  seq      : Nat := 0
  seen     : Nat := 0
  asking   : Bool := false
  paid     : Bool := false
  phase    : Nat := 0
  need     : Nat := 0
  buf      : Tbl Byte := []
  bad      : Bool := false
  acks     : Nat := 0
  poison   : Bool := false
  tob      : Option Nat := none
  signed   : Bool := false
  pkt      : Option Nat := none
  pc       : Nat := 0
  ends     : Tbl RankEntry := []
deriving DecidableEq, Repr

/-- A matrix operation on its way to or in an array (R168, R331): its group, quadrant and physical tile, control word, FMT, SCB
and SCSH, operand addresses, the cells copied for A and for a quarter of B by lane x 256 + cell, whether a supplying lane was
dead, the bank it names and whether it releases it, the boarding and rank of a follow-on and how far its A stands from the
boarding's base (R414), its quartet with what pairing gave it, the streaming clocks it has still to pay for, the lines of its
scales that remote ends hold (whether they were asked for, how many are to come, their bytes by address, the poisoned ones), and
the address of the instruction that issued it (R189). -/
structure MmaOp where
  id      : Nat := 0
  grp     : Nat := 0
  quad    : Nat := 0
  tile    : Nat := 0
  ctl     : Nat := 0
  fmt     : BitVec 32 := 0
  scb     : Word := 0
  scsh    : Word := 0
  aAddr   : Nat := 0
  bAddr   : Nat := 0
  aCells  : Tbl Nat := []
  bCells  : Tbl Nat := []
  dead    : Bool := false
  bank    : Option Nat := none
  release : Bool := false
  board   : Option (Nat × Nat) := none
  aOff    : Nat := 0
  quartet : Option Nat := none
  quarters : List (Tbl Nat) := []
  alone   : Bool := false
  clocks  : Nat := 0
  started : Bool := false
  sasked  : Bool := false
  sneed   : Nat := 0
  sbuf    : Tbl Byte := []
  sbad    : List Nat := []
  pc      : Nat := 0
deriving DecidableEq, Repr

/-- A boarding (R57 to R67): its group, key and descriptor; FMT, SCB and SCSH as its `board` found them (R230, R414);
whether it is ORDERED, the tap's slot time at arming and the lap it chose (R60); ranks released before a save (R67),
captured, landed with their banks in landing order, and issued as follow-ons; ranks `missed` that passed in the chosen lap and
were not taken; `off` when a save has stopped its tap, `done` once its BOARD entry has retired, `pc` the address of its `board`. -/
structure Boarding where
  id       : Nat := 0
  grp      : Nat := 0
  key      : Nat := 0
  desc     : List Byte := []
  fmt      : BitVec 32 := 0
  scb      : Word := 0
  scsh     : Word := 0
  ordered  : Bool := false
  since    : Nat := 0
  lap      : Option Nat := none
  released : List Nat := []
  captured : List Nat := []
  landed   : List (Nat × Nat) := []
  issued   : List Nat := []
  missed   : List Nat := []
  off      : Bool := false
  done     : Bool := false
  pc       : Nat := 0
deriving DecidableEq, Repr

/-- A team (R122 to R128); its groups are those of handle 128 x team + GRPID. `started` is TIME of its first issue,
`drain` and `deadline` its drain (R140), `copies`, `boards` and `mmas` what a save has suspended (R142), `heir` the team that took
its place after a flush (R143). -/
structure Team where
  grid     : Nat := 0
  teamid   : Nat := 0
  die      : Nat := 0
  core     : Nat := 0
  ngroups  : Nat := 1
  prio     : Nat := 1
  arrive   : Nat := 0
  order    : Nat := 0
  unit     : Nat := 0
  cluster  : Option Nat := none
  clupos   : Nat := 0
  cw       : Nat := 0
  ch       : Nat := 0
  scode    : Nat := 0
  lcode    : Nat := 0
  trapent  : Option Nat := none
  roles    : Bool := false
  entryP   : Nat := 0
  entryC   : Nat := 0
  np       : Nat := 0
  winP     : Nat := 1
  winC     : Nat := 1
  accP     : Nat := 0
  accC     : Nat := 0
  ceil     : Nat := 7
  spad     : Nat := 0
  tobn     : Nat := 0
  life     : TeamLife := .running
  started  : Option Nat := none
  deadline : Option Nat := none
  report   : Option Report := none
  further  : Nat := 0
  deaths   : Nat := 0
  twin     : Option Nat := none
  isTwin   : Bool := false
  copies   : List CopyOp := []
  boards   : List Boarding := []
  mmas     : List MmaOp := []
  drain    : Bool := false
  heir     : Option Nat := none
  logpos   : Nat := 0
deriving DecidableEq, Repr

/-- A grid (R122, R112 to R114); `fetch` is the key of the reading that holds its log where that lies in remote memory (R119),
`forced` a completion code that its end was given from outside (R110, R117). -/
structure Grid where
  gridid   : BitVec 32 := 0
  queue    : Nat := 0
  index    : Nat := 0
  home     : Nat := 0
  tag      : Nat := 0
  prio     : Nat := 1
  flags    : Nat := 0
  teams    : Nat := 1
  ended    : Nat := 0
  firstBad : Option (Nat × Report) := none
  logfull  : Bool := false
  csig     : Nat := 0
  cdelta   : Word := 0
  status   : Nat := 0
  args     : Word := 0
  desc     : List Byte := []
  groups   : Nat := 1
  cw       : Nat := 0
  ch       : Nat := 0
  diemask  : Nat := 1
  seed     : Word := 0
  logaddr  : Nat := 0
  loglen   : Nat := 0
  arrive   : Nat := 0
  fetch    : Option Nat := none
  forced   : Option Nat := none
deriving DecidableEq, Repr

/-! ## Messages to the outside -/

/-- Kinds of message to the outside, or between the requester and its peer. -/
inductive MsgKind where
  | response | rdmaWrite | rdmaWriteImm | rdmaRead | rdmaAtomic | send | ack | nak | cnp | readData | frame | link
deriving DecidableEq, Repr

/-- A message: port, queue pair, address or code, key, bytes. -/
structure Msg where
  kind  : MsgKind := .response
  port  : Nat := 0
  qp    : Nat := 0
  code  : Nat := 0
  addr  : Nat := 0
  rkey  : BitVec 32 := 0
  bytes : List Byte := []
  poison : List Nat := []
deriving DecidableEq, Repr

/-- What an unanswered request is for (R102, R105, R339). -/
inductive RemoteUse where
  /-- accesses of a group's operand log, one after another -/
  | access (grp : Nat) (l : List Access)
  /-- part of an engine operation: its identifier -/
  | engine (grp id : Nat)
  /-- a WAIT packet of a queue reads its signal -/
  | wait (queue : Nat)
  /-- a completion record has been sent -/
  | post (id : Nat)
  /-- a launch reads its kernel descriptor or its log in remote memory: the key of its reading -/
  | fetch (key : Nat)
  /-- a record of a grid's log has been sent (R119) -/
  | log (grid : Nat)
  /-- a SIGNAL packet has been sent -/
  | signal (queue index : Nat)
  /-- a completion signal has been added to -/
  | added
  /-- nothing waits for it -/
  | plain
deriving DecidableEq, Repr

/-- A request sent and not yet answered; `die` is the die that sent it, `via` the page whose translation it took (R182), `core`
the core whose engine sent it (R187). -/
structure RemoteOp where
  id   : Nat := 0
  port : Nat := 0
  qp   : Nat := 0
  use  : RemoteUse := .plain
  len  : Nat := 0
  dst  : Nat := 0
  read : Bool := false
  die  : Nat := 0
  via  : Option Nat := none
  core : Option Nat := none
deriving DecidableEq, Repr

/-! ## A core -/

/-- Roles of a local store bank (R162). -/
inductive BankRole where
  | cache | scratch | tob
deriving DecidableEq, Repr

/-- States of a TOB bank (R54). -/
inductive TobState where
  | free | armed | filling | full | draining | poisoned
deriving DecidableEq, Repr

/-- A bank of local store (R162, R54): its role, the team that holds it, its TOB state, how many outstanding operations
name it and how many of them are reading it, whether a release is pending, whether an `unboard` frees it once none names it,
and the boarding it is lent to. -/
structure Bank where
  role    : BankRole := .cache
  team    : Nat := 0
  state   : TobState := .free
  readers : Nat := 0
  reading : Nat := 0
  release : Bool := false
  leaving : Bool := false
  board   : Option Nat := none
deriving DecidableEq, Repr

/-- A store on its way from a core to its home, in the order it left (R184, R202): the group and identifier of its access,
and its bytes. -/
structure OutStore where
  grp   : Nat := 0
  id    : Nat := 0
  addr  : Nat := 0
  bytes : List Byte := []
deriving DecidableEq, Repr

/-- A line of 128 bytes at a core (R163, R184, R185): whether a copy is held, its bytes, which of them are dirty, its
eviction code and the bank it lies in; a dirty line that is not held was evicted and is on its way to its home, as are
the stores of `out`. -/
structure CLine where
  line  : Nat := 0
  held  : Bool := true
  bytes : List Byte := []
  dirty : BitVec 128 := 0
  code  : Nat := 4
  bank  : Nat := 0
  out   : List OutStore := []
deriving DecidableEq, Repr

/-- A line held in a last-level cache (R184, R185); its bytes are those of memory. -/
structure LLine where
  line : Nat := 0
  code : Nat := 4
deriving DecidableEq, Repr

/-- What waits for request entries of a core (R187): an instruction, with its group and stream, the place it stands at and how
many it needs; or an engine's request, which needs one. -/
structure EntryWait where
  grp  : Nat := 0
  lane : Bool := false
  pc   : Nat := 0
  seq  : Nat := 0
  n    : Nat := 0
  send : Option (RemoteOp × Msg) := none
deriving DecidableEq, Repr

/-- A token request at a core bucket (R80): the requester 0 to 13, the amount, the group it is for. -/
structure TokenReq where
  port   : Nat := 0
  amount : Nat := 0
  grp    : Nat := 0
  since  : Nat := 0
deriving DecidableEq, Repr

/-- A refill request (R78): the core's local number or the die that asks, the clock it was made in, and its distance then from the
bucket's pointer. -/
structure RefillReq where
  who   : Nat := 0
  clock : Nat := 0
  place : Nat := 0
deriving DecidableEq, Repr

/-- A remote operation on its way (R339): kind 0 `rput`, 1 `rget`, 2 `rred`; its addresses and length, the rank and slot,
fold, signal and eviction code; whether its messages and its signal were sent, and how many are unanswered; the job's
identifier and rank and the rank's entry as it read them (R116); the address of the instruction that issued it (R189); the key under
which a local source in remote memory is read, and the bytes an `rget` has read and not yet written, with their poisoned parts. -/
structure RemoteJob where
  id     : Nat := 0
  grp    : Nat := 0
  kind   : Nat := 0
  loc    : Nat := 0
  rem    : Nat := 0
  len    : Nat := 0
  rank   : Nat := 0
  slot   : Nat := 0
  rop    : Nat := 0
  fmt    : Nat := 0
  sig    : Option Nat := none
  evict  : Nat := 0
  seq    : Nat := 0
  seen   : Nat := 0
  sent   : Bool := false
  need   : Nat := 0
  signed : Bool := false
  job    : BitVec 32 := 0
  me     : Nat := 0
  ent    : Option RankEntry := none
  pc     : Nat := 0
  fetch  : Option Nat := none
  got    : Option (List Byte) := none
  gotBad : List Nat := []
deriving DecidableEq, Repr

/-- A capture in progress (R51): the boarding, the bank, the rank, the bytes as they landed, whether they are corrupt (R52), and
the tap's slot time. -/
structure Capture where
  board   : Nat := 0
  bank    : Nat := 0
  rank    : Nat := 0
  header  : List Byte := []
  scales  : List Byte := []
  payload : List Byte := []
  corrupt : Bool := false
  time    : Nat := 0
deriving DecidableEq, Repr

/-- A core (R148): local store, banks, tiles, cache, engines, tap and bucket. `past` are boardings complete but for follow-ons
not begun (R66), `posNext` RINGPOS as the slot under way will leave it (R51), `chose` the clock in which each issue port last
had a grant (R146). Numbers 0 to 319 are the cores; 320 + t holds the local store and tiles of a saved team t (R142, R263). -/
structure Core where
  store    : Tbl Byte := []
  lpoison  : Tbl Bool := []
  banks    : Tbl Bank := []
  tiles    : Tbl Tile := []
  cache    : List CLine := []
  entryq   : List EntryWait := []
  arrays   : Tbl (List MmaOp) := []
  copies   : List CopyOp := []
  boards   : List Boarding := []
  fills    : List Capture := []
  past     : List Boarding := []
  follow   : List MmaOp := []
  debt     : Int := 0
  caps     : List Nat := []
  ringpos  : Word := 0
  posNext  : Option Word := none
  tapTime  : Nat := 0
  bucket   : Int := 0
  flight   : List Nat := []
  reqs     : List TokenReq := []
  chose    : Tbl Nat := []
deriving DecidableEq, Repr

/-! ## Memory -/

/-- Page kinds (R179). -/
inductive PageKind where
  | hbm | scratch | window | peer | kick | desc
deriving DecidableEq, Repr

/-- How far a move of a page has come (R192). -/
inductive MoveStep where
  | none | moving | copied
deriving DecidableEq, Repr

/-- Who beside a logged access waits for a page's backing (R188): an engine operation or a record on its way, by its identifier; the
fetch, or the command at issue, of a group's stream. -/
inductive Waiter where
  | op (id : Nat)
  | stream (grp : Nat) (lane : Bool)
deriving DecidableEq, Repr

/-- A page of mapped space (R179, R180). `wanted` is that its backing is waited for, `waits` who beside logged accesses waits
for it and `failed` those of them for whom no die had room (R188). -/
structure Page where
  size     : Nat := 65536
  kind     : PageKind := .hbm
  home     : Nat := 0
  perm     : BitVec 8 := 0
  rank     : Nat := 0
  job      : Nat := 0
  rva      : Nat := 0
  port     : Nat := 0
  qp       : Nat := 0
  rkey     : Option (BitVec 32) := none
  backed   : Bool := true
  wanted   : Bool := false
  waits    : List Waiter := []
  failed   : List Waiter := []
  move     : MoveStep := .none
  newHome  : Nat := 0
  movedAt  : Nat := 0
  unit     : Nat := 0
  counts   : Tbl Nat := []
deriving DecidableEq, Repr

/-! ## Queues, jobs and armed commands -/

/-- States of a user queue (R108). -/
inductive QState where
  | active | stopped | error
deriving DecidableEq, Repr

/-- A WAIT packet that holds its queue (R112). -/
structure WaitPkt where
  index   : Nat := 0
  sig     : Nat := 0
  cond    : Nat := 0
  value   : Word := 0
  timeout : Nat := 0
  taken   : Nat := 0
  status  : Nat := 0
  tag     : Nat := 0
deriving DecidableEq, Repr

/-- A user queue (R108). `pending` holds the indices of packets taken and not completed (R111). -/
structure Queue where
  base    : Nat := 0
  log2    : Nat := 6
  die     : Nat := 0
  state   : QState := .active
  priomax : Nat := 0
  rdidx   : Nat := 0
  kicked  : Nat := 0
  kickva  : Nat := 0
  descva  : Nat := 0
  erridx  : Nat := 0
  errcode : Nat := 0
  waiting : Option WaitPkt := none
  pending : List Nat := []
  empty   : Bool := false
  skip    : Bool := false
deriving DecidableEq, Repr

/-- A job (R116). -/
structure Job where
  job   : BitVec 32 := 0
  rank  : Nat := 0
  n     : Nat := 1
  stag  : Nat := 0
  vlan  : Nat := 0
  key   : List Byte := []
  peers : Nat := 0
  seq   : Nat := 0
deriving DecidableEq, Repr

/-- An armed command (R346): its group, its entry in the group's class, the counter, the threshold, both command words and the
slots; `bank` the TOB bank it fills and `claimed` that its firing has taken that bank (R413), `touch` that it reaches local
store (R262), `fetch` the key under which a fired `coll` reads its descriptor in remote memory, `pc` the address of its `trig`
(R189), `when` the turn in which it fired (R347). -/
structure Arm where
  id    : Nat := 0
  grp   : Nat := 0
  cls   : Nat := 0
  addr  : Nat := 0
  thr   : Nat := 0
  w1    : Nat := 0
  w2    : Nat := 0
  slots : List Word := []
  seq   : Nat := 0
  seen  : Nat := 0
  bank  : Option Nat := none
  claimed : Bool := false
  touch : Bool := false
  fetch : Option Nat := none
  pc    : Nat := 0
  when  : Nat := 0
deriving DecidableEq, Repr

/-- A completion record and its signal on their way (R113): the die that writes them, the addresses, the record's bytes, what
is added, the cores whose stores it releases, the identifier of the request whose acknowledgement the signal waits for, and
the queue and index of the packet that is then over. -/
structure Post where
  id     : Nat := 0
  die    : Nat := 0
  status : Nat := 0
  record : List Byte := []
  csig   : Nat := 0
  cdelta : Word := 0
  cores  : List Nat := []
  wait   : Bool := false
  queue  : Nat := 0
  index  : Nat := 0
deriving DecidableEq, Repr

/-- What is read in remote memory before it is used: by a launch, or by an engine operation or command for its local source or
descriptor (R112, R119, R204): the bytes come so far by their place, how many requests are unanswered, whether one was refused, and
the places of poisoned parts of 64 B. -/
structure Fetch where
  got  : Tbl Byte := []
  need : Nat := 0
  bad  : Bool := false
  marks : List Nat := []
deriving DecidableEq, Repr

/-- An UNMAP whose pages are gone and which waits for the accesses already translated to them (R182): the response to
send, and the pages. -/
structure Unmap where
  msg   : Msg := {}
  pages : List Nat := []
deriving DecidableEq, Repr

/-- An entry of a ballast queue (R90): address, length, eviction code, TIME of posting, and the tokens drawn for it so far (R89). -/
structure Ballast where
  addr : Nat := 0
  len  : Nat := 128
  ev   : Nat := 0
  time : Nat := 0
  paid : Nat := 0
deriving DecidableEq, Repr


/-! ## Dispatchers and grids' shares (R121 to R137) -/

/-- A packet that completes by a record and a signal: COPY, GATE, WAIT and SIGNAL (R111 to R113). -/
structure Packet where
  queue  : Nat := 0
  die    : Nat := 0
  index  : Nat := 0
  tag    : Nat := 0
  csig   : Nat := 0
  cdelta : Word := 0
  status : Nat := 0
deriving DecidableEq, Repr

/-- A packet read from the slot at RDIDX of a queue and not yet started (R109, R111): its kernel descriptor, TIME when it was
read, the key of what is still read for it from remote memory, whether it has passed its checks and is taken, so that RDIDX has
passed it, and whether it stands on the prompt list (R121). -/
structure Taken where
  queue  : Nat := 0
  index  : Nat := 0
  bytes  : List Byte := []
  desc   : List Byte := []
  time   : Nat := 0
  fetch  : Option Nat := none
  ok     : Bool := false
  prompt : Bool := false
deriving DecidableEq, Repr

/-- One die's share of a grid (R121 to R123): units `first` to `first + n - 1`, of which `next` have been admitted; or a saved
or flushed unit that waits to come back (`back`, its teams, `next` being one past it). `taken` is TIME when the packet was
taken, `failed` TIME since which the head has not fitted (R137). -/
structure Share where
  grid   : Nat := 0
  first  : Nat := 0
  n      : Nat := 0
  next   : Nat := 0
  prio   : Nat := 0
  arrive : Nat := 0
  taken  : Nat := 0
  failed : Option Nat := none
  back   : List Nat := []
deriving DecidableEq, Repr

/-- A message in a dispatcher group's mailbox (R117, R121): an F2 order, which has the record of a completed grid written (R113,
R122), or a FORWARD packet with the key of its grid. -/
inductive DispMsg where
  | order (grid : Nat) (code cause team : Nat)
  | forward (grid : Nat) (bytes : List Byte)
deriving DecidableEq, Repr

/-- A message to a firmware core (R117): to F2, that a grid was launched, or that a team of it has ended, with its report if it was
killed (R122); to F6, an error (R235). -/
inductive Note where
  | launched (grid : Nat)
  | ended (grid team : Nat) (report : Option Report)
  | error (die : Nat) (report : Report)
deriving DecidableEq, Repr

/-- A place held for the head (R137): the core of each team of the unit, the share's grid and unit, and TIME since. -/
structure Hold where
  cores : List Nat := []
  grid  : Nat := 0
  unit  : Nat := 0
  since : Nat := 0
deriving DecidableEq, Repr

/-! ## Links (R13 to R15) -/

/-- One direction of a die-to-die link: the receive buffer and stall signal of each class with the clock of its last change, the
sender's replay buffer, whether a replay is awaited, how many flits of the buffer a replay would send, those of a replay still
to be sent, the times one flit came bad, and whether the link is down. -/
structure LinkDir where
  bufs   : Tbl (List Flit) := []
  stall  : Tbl Bool := []
  since  : Tbl Nat := []
  replay : List Flit := []
  wants  : Bool := false
  behind : Nat := 0
  resend : List Flit := []
  fails  : Nat := 0
  down   : Bool := false
deriving DecidableEq, Repr

/-! ## The Cornice (R32 to R48) -/

/-- A lap table entry (R40). -/
structure LapEntry where
  layer : Nat := 0
  die   : Nat := 0
  phase : Nat := 0
  fmt   : Nat := 0
  first : Nat := 0
  count : Nat := 0
  vbase : Nat := 0
  pad   : Nat := 0
deriving DecidableEq, Repr

/-- An image of the lap table (R33, R41): its entries, Q, and which of the two images of F4 it is. -/
structure LapImage where
  entries : List LapEntry := []
  q       : Nat := 0
  img     : Nat := 0
deriving DecidableEq, Repr

/-- A station's read of a tile record (R42, R45): the record's address and layer, the gate change it followed, the bytes read,
and whether they were bad. -/
structure StationRead where
  addr  : Nat := 0
  layer : Nat := 0
  epoch : Nat := 0
  bytes : List Byte := []
  bad   : Bool := false
deriving DecidableEq, Repr

/-- A slot (R35, R36): the header's fields (LAP, whose low 48 bits the header shows, counted on), the scale region and the
payload. -/
structure Slot where
  kind    : Nat := 0
  bad     : Bool := false
  die     : Nat := 0
  phase   : Nat := 0
  layer   : Nat := 0
  tile    : Nat := 0
  fmt     : Nat := 0
  sclen   : Nat := 0
  pos     : Nat := 0
  lap     : Nat := 0
  payload : List Byte := []
  scales  : List Byte := []
deriving DecidableEq, Repr

/-- What F4 holds of the ring: the images in force by the lap they began at, the pending one, gates (R43) and the count
of each gate's changes, slots injected and still on the loop by 8 x octet + ordinal, and the gap rate (R47, R48): G in
force, G before it and the octet it began at, the announced G and the octet of its announcement, and the G that F5 has
passed on. -/
structure Ring where
  images   : Tbl LapImage := []
  pending  : Option LapImage := none
  lastImg  : Nat := 0
  gates    : Tbl Bool := []
  changes  : Tbl Nat := []
  slots    : Tbl Slot := []
  gaps     : Nat := 0
  gapsOld  : Nat := 0
  gapsFrom : Nat := 0
  next     : Option (Nat × Nat) := none
  chosen   : Option Nat := none
deriving DecidableEq, Repr

/-- A die's station (R42, R47): the octets it has passed, its lap, its slot of the stream, and its reads in flight by
lap x 2^32 + slot. -/
structure Station where
  octet : Nat := 0
  lap   : Nat := 0
  q     : Nat := 0
  reads : Tbl StationRead := []
deriving DecidableEq, Repr

/-! ## Power (R78 to R101); a rate is held in microwatts, which is tokens per microsecond -/

/-- An intent entry (R94, R95): the floor, when it applies, when the step comes, and what is told of it. -/
structure Intent where
  floor   : Int := 0
  start   : Nat := 0
  step    : Nat := 0
  stop    : Nat := 0
  size    : Int := 0
  job     : Option (BitVec 32) := none
  origin  : Nat := 0
  seq     : Nat := 0
  on      : Bool := false
  late    : Bool := false
deriving DecidableEq, Repr

/-- A remembered intent pair (R96). -/
structure Pair where
  job    : BitVec 32 := 0
  origin : Nat := 0
  seq    : Nat := 0
  stop   : Nat := 0
deriving DecidableEq, Repr

/-- The Float and the package bucket (R78, R82 to R94). `shorts` are floors that P had not reached at t_step, with that time, and
`lates` the times P then took to reach such floors, in ns (R95). `pkg` is the package bucket in units of 10^-12 token, `cal` is
c in millionths, `leak` the static charge in microwatts, `reqs` the dies that wait for a quantum, oldest first, `ptr`
the pointer; `granted`, `stalls`, `coat` and `short` gather the running interval, which ends at TIME `due`; `dhist` and
`shist` hold D and the stall counts of the last intervals, newest first. -/
structure Power where
  p       : Int := 0
  ps      : Int := 0
  flcfg   : BitVec 64 := 0
  flstat  : BitVec 64 := 0
  limit   : Option Nat := none
  cal     : Nat := 1000000
  leak    : Nat := 0
  pkg     : Int := 0
  reqs    : List RefillReq := []
  ptr     : Nat := 0
  granted : Nat := 0
  stalls  : Nat := 0
  coat    : Nat := 0
  short   : Bool := false
  due     : Nat := 0
  count   : Nat := 0
  dhist   : List Int := []
  shist   : List Nat := []
  intents : Tbl Intent := []
  pairs   : List Pair := []
  shorts  : List (Int × Nat) := []
  lates   : List Nat := []
deriving DecidableEq, Repr

/-- A die's CHARGE (R93): STORED in microjoules, FRAC, and STATE. -/
structure Charge where
  stored : Nat := 0
  frac   : Nat := 0
  state  : Nat := 0
deriving DecidableEq, Repr

/-! ## Firmware and the always-on domain (R21, R25 to R31, R117, R118) -/

/-- A firmware core: whether it runs, the heartbeats it has missed, the security version and the digest of its image, and the
address the image was loaded at (R29). -/
structure FwCore where
  running : Bool := false
  missed  : Nat := 0
  secver  : Nat := 0
  digest  : BitVec 256 := 0
  base    : Nat := 0
deriving DecidableEq, Repr

/-- The always-on domain and the firmware cores. `step` is the last boot step done, `up` whether the compute side is up,
`recovery` whether a boot step failed, `stopped` whether a link loss has stopped the device (R15), `time` the reference copy of
TIME, `boots` how many bring-ups were tried, `load` the chunks of an image by core, `log` the attestation log, `errors` what was
reported to F6, `telem` the telemetry counts, `since` the clock of the last bring-up, `reviewed` TIME of F3's last review
(R191), `resetting` the RESET that waits for the last records (R118), `failed` the boot step at which the device stopped in
recovery and `cause` what management reads of it (R27), `regs` the dies whose regulators are enabled (R26), `flash` the images
in the module's flash by core, an unlisted one being the image of manufacture, and `mail` the inbound mailboxes of the firmware
cores (R117). -/
structure Firm where
  powered  : Bool := true
  step     : Nat := 1
  up       : Bool := false
  recovery : Bool := false
  failed   : Nat := 0
  cause    : Word := 0
  regs     : Nat := 0
  stopped  : Bool := false
  time     : Nat := 0
  boots    : Nat := 0
  since    : Nat := 0
  cores    : Tbl FwCore := []
  rollback : Tbl Nat := []
  load     : Tbl (List Byte) := []
  flash    : Tbl (List Byte) := []
  mail     : Tbl (List Note) := []
  log      : List (Nat × BitVec 256) := []
  errors   : List Report := []
  telem    : Tbl Nat := []
  reviewed : Nat := 0
  resetting : Option CmdHdr := none
deriving DecidableEq, Repr

/-- A queue pair of a port (R102, R103): in the error state, its send rate as a congestion notification reduced it, and TIME of
that. -/
structure Qp where
  err  : Bool := false
  rate : Option Nat := none
  cut  : Nat := 0
deriving DecidableEq, Repr

/-! ## Collectives (R342 to R345, R417, R418) -/

/-- A collective in progress (R342 to R344): its group and job slot, the descriptor's fields, its relative rank `me`, and TIME
of its limit. `parts` holds the elements come from each child by its relative rank, `own` what its own node holds, `result` what
came down, each with the list of poisoned elements; `comp` whether chunks may be coded; `up` whether its partial was sent;
`unacked` its messages not yet acknowledged, `writes` its writes to remote pages not yet acknowledged, `aborts` the ranks that
sent an abort, `closing` that it completes with `code` and rank `who`, `wrote` that STATUS has been written, `fin` whether only
the acknowledgement of its signal is awaited; the job and the entries of the ranks it serves as it read them (R116), the address
of its `coll` (R189), the key under which a contribution in remote memory is read, and whether its own contribution has been
`read`. -/
structure Coll where
  id      : Nat := 0
  grp     : Nat := 0
  slot    : Nat := 0
  tag     : Nat := 0
  op      : Nat := 0
  red     : Nat := 0
  fmt     : Nat := 0
  first   : Nat := 0
  n       : Nat := 1
  root    : Nat := 0
  count   : Nat := 1
  me      : Nat := 0
  src     : Nat := 0
  dst     : Nat := 0
  status  : Nat := 0
  sig     : Option Nat := none
  limit   : Option Nat := none
  parts   : Tbl (Tbl Nat) := []
  pbad    : Tbl (List Nat) := []
  own     : Tbl Nat := []
  obad    : List Nat := []
  result  : Tbl Nat := []
  rbad    : List Nat := []
  comp    : Bool := false
  up      : Bool := false
  unacked : Nat := 0
  aborts  : List Nat := []
  closing : Bool := false
  code    : Nat := 0
  who     : Nat := 0
  wrote   : Bool := false
  writes  : Nat := 0
  fin     : Bool := false
  job     : BitVec 32 := 0
  ranks   : Tbl RankEntry := []
  pc      : Nat := 0
  fetch   : Option Nat := none
  read    : Bool := false
deriving DecidableEq, Repr

/-- A held chunk (R417): its bytes, the port it came by, and TIME of arrival. -/
structure HeldChunk where
  bytes : List Byte := []
  port  : Nat := 0
  time  : Nat := 0
deriving DecidableEq, Repr

/-- The dispatcher group of a die (R120): group slot 31 of Q3 on the die's core of local number 39, with a window of 256 cells
above the register file that teams are offered, and no tiles. -/
def dispatcherGroup : Group :=
  { grpid := 31, slot := 31, window := 256, units := (List.range 64).map (320 + ·), active := BitVec.allOnes 64, ldead := 0 }

/-- Handles 0 to 7 stand for the dispatcher groups of dies 0 to 7; those of teams begin at 128. -/
def isDispatcher (h : Nat) : Bool := decide (h < 8)

/-- A die (R7): TIME and whether it slews by how much (R22), its bucket (R78, R79), ballast queue (R90), CHARGE, Undercoat rate
and what was drawn, its station, the lines its last-level cache holds, least recently used first (R184), and its dispatcher
(R121): its group, mailbox, the messages it has still to send to firmware cores, each with its core (R117), prompt list, pending
list, packets taken, pointer, launch count, the place held for the head (R137), and the places being cleared for PROMPT units
(R138). `told` is the TIME it last reported to the reference copy (R25), `synced` that at which die 0 last sent it to the others
(R22). -/
structure Die where
  time     : Nat := 0
  slew     : Bool := false
  skip     : Bool := false
  slewTo   : Nat := 0
  told     : Nat := 0
  synced   : Nat := 0
  bucket   : Int := 0
  flight   : List Nat := []
  reqs     : List RefillReq := []
  ptr      : Nat := 0
  choked   : Bool := false
  ballast  : List Ballast := []
  charge   : Charge := {}
  coatRate : Int := 0
  coatAt   : Nat := 0
  station  : Station := {}
  llc      : List LLine := []
  disp     : Group := dispatcherGroup
  mailbox  : List DispMsg := []
  notes    : List (Nat × Note) := []
  prompt   : List Share := []
  pending  : List Share := []
  taken    : List Taken := []
  visit    : Nat := 0
  launches : Nat := 0
  hold     : Option Hold := none
  cleared  : List Hold := []
  frames   : List (List Byte) := []
deriving DecidableEq, Repr

/-- How the instruction just run ended, for the charge of R76. -/
inductive Mark where
  | issued | waiting | uncharged
deriving DecidableEq, Repr

/-- Who takes the next turn. -/
inductive Turn where
  | scalar (grp : Nat)
  | lane (grp : Nat)
  | event (i : Instr)
deriving DecidableEq, Repr

/-- The state of the machine. `mem` is the bytes of mapped space by virtual address, an unlisted one 0 (R180). `posts` are
records and signals on their way, `fetches` what launches read in remote memory, `unmaps` UNMAPs that wait, `parked` requests of
hosts and peers that a page on the move or a choked die refused, oldest first (R79, R193). `cur`, `agenda`, `turnNo`, `freeNo`,
`nextId` and `mark` are the model's own: the group whose stream runs, the turns and inputs to come, how many turns were taken,
free values drawn, identifiers given, and how the last instruction ended. -/
structure State where
  groups  : Tbl Group := []
  teams   : Tbl Team := []
  grids   : Tbl Grid := []
  cores   : Tbl Core := []
  dies    : Tbl Die := []
  pages   : Tbl Page := []
  mem     : Tbl Byte := []
  poison  : Tbl Bool := []
  ticket  : Nat := 0
  clock   : Nat := 0
  pricever : Nat := 0
  remote  : List RemoteOp := []
  remotes : List RemoteJob := []
  out     : List Msg := []
  queues  : Tbl Queue := []
  packets : Tbl Packet := []
  jobs    : Tbl Job := []
  arms    : Tbl (List Arm) := []
  arming  : List Arm := []
  fired   : Tbl (List Arm) := []
  ring    : Ring := {}
  power   : Power := {}
  firm    : Firm := {}
  links   : Tbl LinkDir := []
  qps     : Tbl Qp := []
  kickKey : Option (BitVec 32) := none
  colls   : List Coll := []
  ended   : Tbl (List Nat) := []
  chunks  : Tbl (List HeldChunk) := []
  posts   : List Post := []
  fetches : Tbl Fetch := []
  unmaps  : List Unmap := []
  parked  : List Instr := []
  cur     : Nat := 0
  agenda  : List Turn := []
  turnNo  : Nat := 0
  freeNo  : Nat := 0
  nextId  : Nat := 1
  mark    : Mark := .issued
deriving DecidableEq, Repr

/-- The canonical form of memory: rising addresses, and no entry equal to what an unlisted byte reads as, 0 (R180).
DESIGN CHOICE: assumption 47. -/
def Memory.wf (m : Tbl Byte) : Bool := tblWf 0 m

/-- FLCFG after reset (R86): PMAX 3,000, PFLOOR 400, SF 10, SS 200, BAND 100, GMAX 48. -/
def flcfgReset : BitVec 64 :=
  BitVec.ofNat 64 (3000 + 400 * 2 ^ 12 + 10 * 2 ^ 24 + 200 * 2 ^ 30 + 100 * 2 ^ 42 + 48 * 2 ^ 51)

/-- The core of local number 39 on a die holds the die's dispatcher group, with banks 30 and 31 in scratchpad role, held
by no team of a grid (R120). -/
def dispatcherCore : Core := { banks := [(30, { role := .scratch }), (31, { role := .scratch })] }

/-- The machine when 48 V has just been applied (R25, R26): the always-on domain is powered, the TIME reference stands
at 0, boot step 1 is done, and every other step, the mapping of memory and every launch are still to come. -/
def State.reset : State :=
  { cores := [(39, dispatcherCore), (79, dispatcherCore), (119, dispatcherCore), (159, dispatcherCore),
      (199, dispatcherCore), (239, dispatcherCore), (279, dispatcherCore), (319, dispatcherCore)]
    power := { flcfg := flcfgReset } }

end Sys2Proof.Machine
end

