-- ==== Sys2Proof/Machine/Ops.lean ====
section
/-!
DEFINITION. The named operations on the state: registers, fault reports, taking an exception and returning from one,
memory by scope, the operand log, kicks and armed commands. -/
namespace Sys2Proof.Machine

/-! ## Parts of the state -/

/-- A group; one that is not resident reads as an empty one. -/
def State.group (s : State) (h : Nat) : Group := tblGet {} s.groups h
/-- Put a group back. -/
def State.setGroup (s : State) (h : Nat) (g : Group) : State := { s with groups := tblPut s.groups h g }
/-- Change a group. -/
def State.updGroup (s : State) (h : Nat) (f : Group → Group) : State := { s with groups := tblUpd s.groups h f }
/-- A team. -/
def State.team (s : State) (t : Nat) : Team := tblGet {} s.teams t
/-- Change a team. -/
def State.updTeam (s : State) (t : Nat) (f : Team → Team) : State := { s with teams := tblUpd s.teams t f }
/-- A grid. -/
def State.grid (s : State) (i : Nat) : Grid := tblGet {} s.grids i
/-- Change a grid. -/
def State.updGrid (s : State) (i : Nat) (f : Grid → Grid) : State := { s with grids := tblUpd s.grids i f }
/-- A core, 0 to 319. -/
def State.core (s : State) (c : Nat) : Core := tblGet {} s.cores c
/-- Put a core back. -/
def State.setCore (s : State) (c : Nat) (k : Core) : State := { s with cores := tblPut s.cores c k }
/-- Change a core. -/
def State.updCore (s : State) (c : Nat) (f : Core → Core) : State := s.setCore c (f (s.core c))
/-- A die, 0 to 7. -/
def State.die (s : State) (d : Nat) : Die := tblGet {} s.dies d
/-- Change a die. -/
def State.updDie (s : State) (d : Nat) (f : Die → Die) : State := { s with dies := tblPut s.dies d (f (s.die d)) }

/-- The team of a group handle. -/
def teamOf (h : Nat) : Nat := h / 128
/-- The core a group's team stands on. -/
def State.coreOf (s : State) (h : Nat) : Nat := (s.team (teamOf h)).core
/-- The die of a core (R8). -/
def dieOfCore (c : Nat) : Nat := c / 40
/-- The die a group stands on. -/
def State.dieOf (s : State) (h : Nat) : Nat := dieOfCore (s.coreOf h)
/-- The grid of a group. -/
def State.gridOf (s : State) (h : Nat) : Grid := s.grid (s.team (teamOf h)).grid
/-- TIME as a group reads it (R22). -/
def State.timeOf (s : State) (h : Nat) : Nat := (s.die (s.dieOf h)).time
/-- The handles of a team's groups that have not exited. -/
def State.liveGroups (s : State) (t : Nat) : List Nat :=
  (tblKeys s.groups).filter (fun h => teamOf h == t && !(s.group h).exited)
/-- All handles of a team's groups. -/
def State.teamGroups (s : State) (t : Nat) : List Nat := (tblKeys s.groups).filter (fun h => teamOf h == t)
/-- Draw an identifier. -/
def State.fresh (s : State) : Nat × State := (s.nextId, { s with nextId := s.nextId + 1 })
/-- Draw a free value (DESIGN CHOICE, assumption 5). -/
def State.free (s : State) : Word × State := (Config.freeValue s.freeNo, { s with freeNo := s.freeNo + 1 })
/-- The quadrant of a group (R124). -/
def Group.quad (g : Group) : Nat := g.grpid % 4

/-! ## Registers -/

/-- s0 to s63; s63 reads 0 (R269). -/
def Group.sread (g : Group) (r : SReg) : Word := if r = 63 then 0 else tblGet 0 g.sregs r.toNat
/-- Write a scalar register; s63 discards (R269). -/
def Group.swrite (g : Group) (r : SReg) (v : Word) : Group :=
  if r = 63 then g else { g with sregs := tblSet 0 g.sregs r.toNat v }
/-- b0 to b7; b0 reads true (R149). -/
def Group.bread (g : Group) (p : BitVec 3) : Bool := if p = 0 then true else tblGet false g.bools p.toNat
/-- Write a boolean; b0 discards (R269). -/
def Group.bwrite (g : Group) (p : BitVec 3) (v : Bool) : Group :=
  if p = 0 then g else { g with bools := tblSet false g.bools p.toNat v }
/-- m0 to m15; m0 reads all ones (R149). -/
def Group.mread (g : Group) (i : Nat) : Lanes := if i = 0 then allLanes else tblGet 0 g.masks i
/-- Write m1 to m15. -/
def Group.mwrite (g : Group) (i : Nat) (v : Lanes) : Group :=
  if i = 0 then g else { g with masks := tblSet 0 g.masks i v }
/-- The key of one lane's copy of one cell. -/
def cellKey (lane idx : Nat) : Nat := lane * 256 + idx
/-- One lane's copy of one cell (R159). -/
def Group.cell (g : Group) (lane idx : Nat) : Nat := tblGet 0 g.cells (cellKey lane idx)
/-- Write one lane's copy of one cell. -/
def Group.setCell (g : Group) (lane idx v : Nat) : Group :=
  { g with cells := tblSet 0 g.cells (cellKey lane idx) (v % 2 ^ 32), errs := g.errs.filter (· != cellKey lane idx) }
/-- The cell is full in the lane (R155). -/
def Group.cellFull (g : Group) (lane idx : Nat) : Bool := (tblFind g.empties (cellKey lane idx)).isNone
/-- The live lanes. -/
def Group.live (g : Group) : Lanes := ~~~ g.ldead
/-- The active mask, dead lanes never in it (R252). -/
def Group.act (g : Group) : Lanes := g.active &&& g.live
/-- The scalar stream goes on at an address; the instruction has issued and takes its place in group order. Neither stream waits
on the other any more until it finds that it does (R158). -/
def Group.goTo (g : Group) (pc : Nat) : Group := { g with pc := pc % 2 ^ 56, seq := g.seq + 1, sblock := none, lblock := none }
/-- The scalar stream moves on by `n` bytes. -/
def Group.advance (g : Group) (n : Nat) : Group := g.goTo (g.pc + n)
/-- The lane stream goes on at an address; the instruction has issued, and ends what waits there were between the streams (R158). -/
def Group.laneTo (g : Group) (pc : Nat) : Group :=
  { g with run := g.run.map (fun r => { r with pc := pc % 2 ^ 56 }), lseq := g.lseq + 1, bskip := false, sblock := none, lblock := none }
/-- The sides of the divergences the lane stream stands in (R203). -/
def Group.path (g : Group) : List Nat :=
  (g.stack.filter (fun e => e.kind == .div)).map (fun e => 2 * e.id + e.second.toNat)
/-- The TRAP entries on the stack (R242). -/
def Group.level (g : Group) : Nat := (g.stack.filter (fun e => e.kind == .trap)).length
/-- A TRAP entry is on the top of the stack (R244). -/
def Group.inHandler (g : Group) : Bool :=
  match g.stack.head? with
  | some e => e.kind == .trap
  | none => false
/-- The lane stream is idle and no block it may take waits (R316, R158): in a handler only the handler's own blocks
count. -/
def Group.laneIdle (g : Group) : Bool :=
  g.run.isNone && g.lpush.isNone && g.blocks.all (fun b => b.level != g.level)

/-- A capture slot of the running block (R150). -/
def Group.slotK (g : Group) (i : Nat) : Word :=
  match g.run with
  | some r => r.k[i]?.getD 0
  | none => 0

/-! ## How an instruction ends -/

/-- The outcome type of every meaning. -/
abbrev Out := Host.Outcome State Fault Refusal

/-- The instruction waits: nothing but the mark changes (R158, R295). -/
def State.waits (s : State) : State := { s with mark := .waiting }

/-- Run a stream instruction's effect on the group whose stream runs. -/
def onGroup (s : State) (f : Group → State) : Out :=
  match tblFind s.groups s.cur with
  | none => .fault .noStream
  | some g => .next (f g)

/-- Put the current group back. -/
def State.put (s : State) (g : Group) : State := s.setGroup s.cur g

/-- The scalar instruction waits on something other than the lane stream. -/
def State.scalarWaits (s : State) (g : Group) : State := (s.put { g with sblock := none }).waits
/-- The scalar instruction waits on the lane stream, since the clock it began to (R158). -/
def State.scalarWaitsLane (s : State) (g : Group) : State :=
  (s.put { g with sblock := some (g.sblock.getD s.clock) }).waits
/-- The lane instruction waits on something other than the scalar stream. -/
def State.laneWaits (s : State) (g : Group) : State := (s.put { g with lblock := none }).waits
/-- The lane instruction waits on the scalar stream, since the clock it began to (R158). -/
def State.laneWaitsScalar (s : State) (g : Group) : State :=
  (s.put { g with lblock := some (g.lblock.getD s.clock) }).waits

/-- The group belongs to a Scrim team (R257). -/
def State.inScrim (s : State) (h : Nat) : Bool := (s.team (teamOf h)).twin.isSome
/-- The group is of the twin copy (R257). -/
def State.inTwin (s : State) (h : Nat) : Bool := (s.team (teamOf h)).isTwin

/-- A release point (R258): outside Scrim the instruction goes on; in a Scrim team its record, if it has one, joins the
signature once, and it waits until the comparison has succeeded. -/
def State.atRelease (s : State) (g : Group) (f : Group → State) (sign : List Byte := []) : State :=
  if !s.inScrim s.cur then f g
  else if g.pointOk then f { g with pointOk := false }
  else
    (s.put { g with
      sig := if g.atPoint.isNone then crc64 g.sig sign else g.sig
      atPoint := some (g.atPoint.getD (s.timeOf s.cur)), sblock := none, lblock := none }).waits

/-- The group's team is running: the compute side is up, no cause stands against the team and nothing stops its issue
(R85, R142, R262). -/
def State.issues (s : State) (h : Nat) : Bool :=
  s.firm.up && (s.team (teamOf h)).life == .running && (s.team (teamOf h)).report.isNone

/-- The scalar stream may issue: the team issues, the group has not exited, and nothing holds the stream (R295,
R296). -/
def State.scalarReady (s : State) (g : Group) : Bool := s.issues s.cur && !g.exited && g.swait == .none

/-- Run a scalar instruction's effect: a stream that may not issue waits (R295, R296), and a full hold buffer is a
release point (R258). -/
def onScalar (s : State) (f : Group → State) : Out :=
  onGroup s (fun g =>
    if !s.scalarReady g then s.waits
    else if 512 ≤ g.held.length then s.atRelease g f
    else f g)

/-! ## Fault reports (R189, R235, R262) -/


/-- Report a cause against a team, or against the one that took its place: the first is recorded with its details, further
ones are counted. -/
def State.report (s : State) (t : Nat) (r : Report) : State :=
  s.updTeam ((s.team t).heir.getD t) (fun tm =>
    match tm.report with
    | none => { tm with report := some r }
    | some _ => { tm with further := tm.further + 1 })

/-- Report a cause against the team of a group. -/
def State.reportGroup (s : State) (h cause addr : Nat) (stream : Bool) (pc lane : Nat) : State :=
  s.report (teamOf h) { cause := cause, addr := addr, stream := stream, pc := pc, lane := lane, time := s.timeOf h }

/-- Count an event in management telemetry. -/
def State.count (s : State) (i : Nat) : State :=
  { s with firm := { s.firm with telem := tblSet 0 s.firm.telem i (tblGet 0 s.firm.telem i + 1) } }

/-! ## Outstanding operations (R326) -/

/-- The count of a class. -/
def Group.outCount (g : Group) (cls : Nat) : Nat := (tblGet [] g.outs cls).length
/-- Apply to the entry of an operation in a class, then retire what is done, in issue order. -/
def Group.updOut (g : Group) (cls id : Nat) (f : OutOp → OutOp) : Group :=
  { g with
    outs := tblPut g.outs cls (((tblGet [] g.outs cls).map (fun o => if o.id == id then f o else o)).dropWhile (·.done)) }
/-- An operation enters its class; `mirror` marks one that only the primary of a Scrim pair performs (R257). -/
def Group.enter (g : Group) (cls id : Nat) (mirror : Bool := false) : Group :=
  let n := tblGet 0 g.entered cls
  { g with
    outs := tblPut g.outs cls (tblGet [] g.outs cls ++ [{ id := id, mirror := mirror, n := n }])
    entered := tblPut g.entered cls (n + 1) }
/-- An operation has completed; operations retire in issue order. -/
def Group.complete (g : Group) (cls id : Nat) : Group := g.updOut cls id (fun o => { o with done := true })
/-- An operation is abandoned after a fault: its entry stands until its team is killed (R189, R332). -/
def Group.abandon (g : Group) (cls id : Nat) : Group := g.updOut cls id (fun o => { o with gone := true })
/-- An operation is withdrawn: it leaves its class uncounted (R66). -/
def Group.withdraw (g : Group) (cls id : Nat) : Group :=
  { g with
    outs := tblPut g.outs cls (((tblGet [] g.outs cls).filter (fun o => o.id != id)).dropWhile (·.done)) }

/-! ## Taking an exception (R239, R240) and returning from one (R245) -/

/-- A program cause on its way to the handler (R234, R242). -/
structure Trap where
  cause  : Nat
  stream : Bool := false
  wmode  : Bool := false
  opnd   : Nat := 0
  code   : Nat := 0
  mask   : Lanes := 0
  after  : Nat := 0
  bskip  : Bool := false

/-- TSTAT as a trap entry writes it (R242). -/
def trapStatus (tr : Trap) (lbusy bskip : Bool) (level : Nat) : Word :=
  BitVec.ofNat 64 (tr.cause % 256 + tr.stream.toNat * 2 ^ 8 + tr.wmode.toNat * 2 ^ 9 + (tr.opnd % 4) * 2 ^ 10 +
    lbusy.toNat * 2 ^ 12 + bskip.toNat * 2 ^ 13 + (tr.code % 256) * 2 ^ 16 + (level % 64) * 2 ^ 32)

/-- The TRAP entry that saves the interrupted state (R236, R239). -/
def trapFrame (g : Group) : Entry :=
  { kind := .trap, fmt := g.sr.fmt, amask := g.act, tstat := g.sr.tstat, tpc := g.sr.tpc, tlpc := g.sr.tlpc,
    tmask := g.sr.tmask, parkn := g.blocks.length, lbusy := g.run.isSome,
    k := (g.run.map (·.k)).getD [0, 0, 0, 0], base := (g.run.map (·.base)).getD 0,
    blevel := (g.run.map (·.level)).getD 0 }

/-- The group after trap entry: the frame pushed, TSTAT, TPC, TLPC and TMASK written, every live lane active, the
scalar stream at the trap entry (R239). `idle` is TLPC.PC when no lane block was interrupted (DESIGN CHOICE, assumption 12). -/
def Group.enterTrap (g : Group) (tr : Trap) (entry : Nat) (idle : Word) : Group :=
  let lbusy := g.run.isSome
  { g with
    stack := trapFrame g :: g.stack
    sr := { g.sr with
      tstat := trapStatus tr lbusy (tr.bskip || g.bskip) (g.level + 1)
      tpc := BitVec.ofNat 64 ((g.pc + tr.after) % 2 ^ 56)
      tlpc := (match g.run with | some r => BitVec.ofNat 64 r.pc | none => BitVec.ofNat 64 (idle.toNat % 2 ^ 56))
      tmask := tr.mask }
    run := none
    bskip := false
    active := g.live
    swait := (match g.swait with | .value d => .value d | _ => .none)
    sblock := none
    lblock := none
    sgrant := false
    sready := none
    lgrant := false
    lready := none
    seq := g.seq + 1
    pc := entry }

/-- A core's requests of some groups' issue ports are withdrawn and charge nothing (R76). -/
def State.withdrawTokens (s : State) (c : Nat) (p : Nat → Bool) : State :=
  { s with cores := tblUpd s.cores c (fun k => { k with reqs := k.reqs.filter (fun r => !(decide (r.port < 8) && p r.grp)) }) }

/-- Raise a program cause in a group (R233, R237, R239). Without a trap entry the team is reported with the cause's
own code; with the stack full, as double trap (0x15). -/
def State.trap (s : State) (h : Nat) (tr : Trap) : State :=
  let g := s.group h
  let s := { s with mark := if tr.cause = 1 ∨ tr.cause = 3 then Mark.uncharged else s.mark }
  let lane := if tr.stream then (lanesOf tr.mask).head?.getD 0xFF else 0xFF
  let pc := if tr.stream then (g.run.map (·.pc)).getD 0 else g.pc
  match (s.team (teamOf h)).trapent with
  | none => (s.reportGroup h tr.cause 0 tr.stream pc lane)
  | some e =>
    if 64 ≤ g.stack.length then s.reportGroup h 0x15 0 tr.stream pc lane
    else
      let (idle, s) := s.free
      (s.withdrawTokens (s.coreOf h) (· == h)).setGroup h (g.enterTrap tr e idle)

/-- Reserved bits of TSTAT (R242). -/
def tstatReserved (v : Word) : Bool := fld v.toNat 14 2 != 0 || fld v.toNat 24 8 != 0 || fld v.toNat 38 26 != 0

/-- The frame registers break a check of R245. -/
def badFrame (g : Group) (e : Entry) (lcode : Nat) : Bool :=
  let tpc := g.sr.tpc.toNat
  let tl := g.sr.tlpc.toNat
  tstatReserved g.sr.tstat || 2 ^ 56 ≤ tpc || 2 ^ 56 ≤ tl || tpc % 4 != 0 ||
    (e.lbusy && (decide (tl < lcode) || (tl - lcode) % 12 != 0))

/-- The group after `tret` pops a TRAP entry (R245). -/
def Group.leaveTrap (g : Group) (e : Entry) (rest : List Entry) : Group :=
  { g with
    stack := rest
    pc := g.sr.tpc.toNat
    run := if e.lbusy then some { pc := g.sr.tlpc.toNat, k := e.k, base := e.base, level := e.blevel } else none
    bskip := e.lbusy && g.sr.tstat.getLsbD 13
    active := e.amask &&& g.live
    sr := { g.sr with fmt := e.fmt, tstat := e.tstat, tpc := e.tpc, tlpc := e.tlpc, tmask := e.tmask } }

/-- Return from an exception (R245): wait for the handler's blocks, check, and resume. -/
def State.returnTrap (s : State) (h : Nat) : State :=
  let g := s.group h
  match g.stack with
  | [] => s.trap h { cause := 0x0A }
  | e :: rest =>
    if g.level != 0 && !g.laneIdle then s.waits
    else if e.kind != .trap then s.trap h { cause := 0x0A }
    else if badFrame g e (s.team (teamOf h)).lcode then s.reportGroup h 0x14 0 false g.pc 0xFF
    else s.setGroup h (g.leaveTrap e rest)

/-! ## Lane death (R252) -/

/-- A lane dies: out of the active mask, of AMASK and PEND of every entry, and of what is still to be written. -/
def Group.killLane (g : Group) (l : Nat) : Group :=
  let keep := ~~~ oneLane l
  { g with
    ldead := g.ldead ||| oneLane l
    active := g.active &&& keep
    stack := g.stack.map (fun e => { e with amask := e.amask &&& keep, pend := e.pend &&& keep })
    longs := g.longs.map (fun o => { o with
      writes := o.writes.filter (fun w => w.1 != l)
      flags := o.flags.filter (fun w => w.1 != l) })
    vploads := g.vploads.filter (fun v => v.lane != l) }

/-- Lanes of a group die; each death is reported for telemetry. -/
def State.killLanes (s : State) (h : Nat) (m : Lanes) : State :=
  let dying := lanesOf (m &&& (s.group h).live)
  (s.updGroup h (fun g => dying.foldl Group.killLane g)).updTeam (teamOf h)
    (fun t => { t with deaths := t.deaths + dying.length })

/-! ## Queue descriptors and kick registers (R108, R109, R421) -/

/-- The number of a queue state (R108). -/
def QState.code : QState → Nat
  | .active => 0 | .stopped => 1 | .error => 2

/-- A queue's descriptor as memory shows it (R108). -/
def Queue.bytes (q : Queue) : List Byte :=
  leBytes 8 q.base ++ leBytes 1 q.log2 ++ leBytes 1 q.die ++ leBytes 1 q.state.code ++ leBytes 1 q.priomax ++
    leBytes 4 0 ++ leBytes 8 q.rdidx ++ leBytes 8 q.kicked ++ leBytes 8 q.kickva ++ leBytes 8 q.erridx ++
    leBytes 2 q.errcode ++ leBytes 14 0

/-- A kick of value n (R109). -/
def Queue.kick (q : Queue) (n : Nat) : Queue :=
  let q := { q with empty := false }
  if n ≤ q.kicked then q
  else if n ≤ q.rdidx + 2 ^ q.log2 then { q with kicked := n }
  else { q with state := .error, errcode := 8, erridx := q.rdidx }

/-- A kick register is written; one of no live queue is inert (R109, R110). -/
def State.kickAt (s : State) (addr n : Nat) : State :=
  { s with queues := s.queues.map (fun e => if e.2.kickva = addr then (e.1, e.2.kick n) else e) }

/-- A byte of a KICK or DESC page (R109, R108); what no queue stands at reads 0. -/
def State.deviceByte (s : State) (addr : Nat) : Byte :=
  (s.queues.findSome? (fun e =>
    if e.2.kickva ≤ addr ∧ addr < e.2.kickva + 8 then some ((leBytes 8 e.2.kicked)[addr - e.2.kickva]?.getD 0)
    else if e.2.descva ≤ addr ∧ addr < e.2.descva + 64 then some (e.2.bytes[addr - e.2.descva]?.getD 0)
    else none)).getD 0

/-! ## Prices and die charges (R73, R74, R79) -/

/-- Pick by VP length. -/
def byLen (l a b c d : Nat) : Nat := if l = 0 then a else if l = 1 then b else if l = 2 then c else d

/-- A VP format code. -/
def vpCode (f : Nat) : Bool := isVpFmt f

/-- The shipped price of a class, format and L (R74). -/
def shippedPrice (cls f l : Nat) : Nat :=
  let w := fmtWidth f
  match cls with
  | 0x00 => 1 | 0x01 => 4 | 0x02 => 10 | 0x03 => 40 | 0x04 => 4 | 0x05 => 12 | 0x06 => 48 | 0x07 => 8 | 0x08 => 32
  | 0x10 => if vpCode f then byLen l 20 40 60 80 else if w ≤ 16 then 12 else if w = 32 then 20 else 40
  | 0x11 => if w ≤ 16 then 14 else if w = 32 then 24 else 48
  | 0x12 => if w = 8 then 24 else if w = 16 then 40 else if w = 32 then 72 else 240
  | 0x13 => if w ≤ 32 then 640 else 1600
  | 0x14 => if vpCode f then byLen l 60 150 300 480 else if w = 8 then 16 else if w = 16 then 32
            else if w = 32 then 56 else 150
  | 0x15 => if vpCode f then byLen l 100 320 720 1280 else if w = 8 then 22 else if w = 16 then 44
            else if w = 32 then 96 else 260
  | 0x16 => if vpCode f then byLen l 380 1200 2400 4000 else if w ≤ 32 then 360 else 1100
  | 0x17 => if vpCode f then byLen l 440 1500 3000 4095 else if w ≤ 32 then 420 else 1400
  | 0x18 => if vpCode f && l == 3 then 160 else 40
  | 0x19 => 96 | 0x1A => 64 | 0x1B => 128 | 0x1C => 8
  | 0x20 => 600 | 0x21 => 1200 | 0x22 => 1850
  | 0x30 => 1024 | 0x31 => 96 | 0x32 => 320 | 0x33 => 9000 | 0x34 => 1600
  | _ => 0

/-- The classes of the price table (R74). -/
def classListed (cls : Nat) : Bool :=
  cls ≤ 0x08 || (0x10 ≤ cls && cls ≤ 0x1C) || (0x20 ≤ cls && cls ≤ 0x22) || (0x30 ≤ cls && cls ≤ 0x34)

/-- The price of the class does not depend on format and L (R73, R74). -/
def flatClass (cls : Nat) : Bool := cls < 0x10 || 0x19 ≤ cls

/-- Whether an instruction or engine can present a class with a format and L (R73, R74); of a class whose price depends on
neither, every format and L gives the same entry. -/
def presentable (cls f l : Nat) : Bool :=
  let vp := (f == 0x20 && l ≤ 3) || (f == 0x21 && l == 0) || (f == 0x22 && l == 1) || (f == 0x23 && l == 2) ||
    (f == 0x24 && l == 3)
  let flt := (isIeeeFmt f && l == 0) || vp
  let int := f ≤ 7 && l == 0
  match cls with
  | 0x10 => int || flt
  | 0x11 => int
  | 0x12 => int
  | 0x13 => int
  | 0x14 => flt
  | 0x15 => flt
  | 0x16 => flt
  | 0x17 => flt
  | 0x18 => int || flt || (isBfpFmt f && l == 0)
  | _ => classListed cls

/-- The price at an index (R73, R101): the shipped table until another F5 image is loaded. -/
def State.price (s : State) (index : Nat) : Nat :=
  let cls := fld index 8 8
  let f := fld index 2 6
  let l := fld index 0 2
  if !presentable cls f l then 0
  else if s.pricever = 0 then shippedPrice cls f l
  else Config.loadedPrice s.pricever (if flatClass cls then cls * 256 else index) % 4096

/-- A price index (R73). -/
def priceIndex (cls f l : Nat) : Nat := cls * 256 + f * 4 + l

/-- A die bucket asks for a quantum (R78). -/
def Die.asks (k : Die) : Bool := decide (k.bucket + 65536 * k.flight.length ≤ 983040)

/-- A die's request for a quantum is made as soon as its bucket asks, once (R78). -/
def State.askDie (s : State) (d : Nat) : State :=
  if !(s.die d).asks || s.power.reqs.any (·.who == d) then s
  else { s with power := { s.power with
    reqs := s.power.reqs ++ [{ who := d, clock := s.clock, place := (d + 8 - s.power.ptr % 8) % 8 }] } }

/-- Deduct die-class work from a die's bucket, which may go negative and then choke new requests (R79, R83). -/
def State.charge (s : State) (d n : Nat) : State :=
  let s := (s.updDie d (fun k =>
    let b := k.bucket - n
    { k with bucket := b, choked := k.choked || decide (b < -1048576) })).askDie d
  { s with power := { s.power with granted := s.power.granted + n } }

/-- The dies a message passes, the sender first and the receiver last: along the row, then along the column (R12). -/
def route (a b : Nat) : List Nat :=
  let row := a / 4
  let along := if a % 4 ≤ b % 4 then (List.range (b % 4 - a % 4 + 1)).map (fun i => row * 4 + a % 4 + i)
    else (List.range (a % 4 - b % 4 + 1)).map (fun i => row * 4 + a % 4 - i)
  if row = b / 4 then along else along ++ [b]

/-- The forward rule (R16, R22): a die that a message from another die reaches is moved past the sender's TIME. -/
def State.forwardTime (s : State) (src dst : Nat) : State :=
  let t := (s.die src).time
  if src ≠ dst ∧ (s.die dst).time ≤ t then s.updDie dst (fun k => { k with time := (t + 1) % 2 ^ 64 }) else s

/-- The page that holds a mapped address (R179). DEDUCED: assumption 16. -/
def pageAt : Tbl Page → Nat → Option (Nat × Page)
  | [], _ => none
  | (b, p) :: t, a => if b ≤ a ∧ a < b + p.size then some (b, p) else pageAt t a

/-- The home die of a mapped address; 0 where nothing is mapped. -/
def State.homeDie (s : State) (a : Nat) : Nat := ((pageAt s.pages a).map (·.2.home)).getD 0

/-! ## The last-level cache (R181, R184, R185) -/

/-- The order in which lines of a set are evicted, by eviction code, the lowest first (R185). -/
def evictRank (code : Nat) : Nat :=
  match code with
  | 2 => 0 | 3 => 1 | 5 => 3 | 6 => 4 | 7 => 5 | _ => 2

/-- The code a line takes that is filled into a set of `ways` ways, `codes` being those of its other lines: persist holds at
most a quarter of the ways (R185). -/
def fillCode (ways : Nat) (codes : List Nat) (code : Nat) : Nat :=
  if code = 7 ∧ ways < 4 * ((codes.filter (· == 7)).length + 1) then 6 else code

/-- The code of a resident line once an access has touched it: code 1 does not change it (R185). -/
def touchCode (old code : Nat) : Nat := if code = 1 then old else code

/-- The place in a list of the line to evict: the earliest code, the least recently used of those (R185). -/
def victim (codes : List Nat) : Nat :=
  (codes.zip (List.range codes.length)).foldl (fun (m : Nat × Nat) e => if evictRank e.1 < m.1 then (evictRank e.1, e.2) else m)
    (6, 0) |>.2

/-- The units of 16 MiB carved from a die's last-level cache (R181). -/
def State.carved (s : State) (d : Nat) : Nat :=
  ((s.pages.filter (fun e => e.2.kind == .scratch && e.2.home == d)).map (fun e => e.2.unit / 256)).eraseDups.length

/-- The ways left to a set of a die's last-level cache of 512 MiB (R7, R181). -/
def State.llcWays (s : State) (d : Nat) : Nat := max 1 ((Config.llcWays + 1) * (32 - s.carved d) / 32)

/-- A line joins a last-level cache as the most recently used one, and its set gives up a victim where that makes it too large. -/
def llcAdd (ways : Nat) (l : List LLine) (x : LLine) : List LLine :=
  let set := l.filter (fun y => Config.llcSet y.line == Config.llcSet x.line)
  (if set.length < ways then l
    else match set[victim (set.map (·.code))]? with
      | some v => l.filter (·.line != v.line)
      | none => l) ++ [x]

/-- A line is touched in a last-level cache: it becomes the most recently used one, with room made for it where it is not
held; a miss of code 1 does not fill, and persist holds at most a quarter of the ways (R185). -/
def llcTouch (ways : Nat) (l : List LLine) (line code : Nat) : List LLine :=
  let others := l.filter (·.line != line)
  let codes := (others.filter (fun x => Config.llcSet x.line == Config.llcSet line)).map (·.code)
  match l.find? (·.line == line) with
  | some x => others ++ [{ x with code := touchCode x.code (fillCode ways codes code) }]
  | none => if code = 1 then l else llcAdd ways l { line := line, code := fillCode ways codes code }

/-- A die's last-level cache keeps the lines that the ways left to its sets hold (R181). -/
def State.trimLlc (s : State) (d : Nat) : State :=
  let ways := s.llcWays d
  s.updDie d (fun k => { k with llc := k.llc.foldl (llcAdd ways) [] })

/-- The lines of 128 bytes that a range touches. -/
def linesOf (a n : Nat) : List Nat :=
  if n = 0 then [] else (List.range ((a + n - 1) / 128 - a / 128 + 1)).map (fun i => a / 128 + i)

/-- An access of n bytes reaches the home of its page: of an HBM page, the lines not held in the last-level cache are read
or written at the HBM stack, 64 bytes at a time, and filled (R74, R184, R185); die scratch is the cache itself. -/
def State.llcAccess (s : State) (a n code : Nat) : State :=
  match pageAt s.pages a with
  | some (_, p) =>
    if p.kind == .hbm then
      let die := s.die p.home
      let missing := (linesOf a n).filter (fun l => !die.llc.any (·.line == l))
      let ways := s.llcWays p.home
      let s := s.updDie p.home (fun k => { k with llc := (linesOf a n).foldl (fun t l => llcTouch ways t l code) k.llc })
      s.charge p.home (min (2 * missing.length) ((n + 63) / 64) * s.price (priceIndex 0x30 0 0))
    else s
  | none => s

/-- A message of n bytes of payload is sent or received on an Ethernet port, port p standing on die p (R74, R77): every 256 B
or part of it is charged, one part at least (DESIGN CHOICE, assumption 9). -/
def State.ethernet (s : State) (port n : Nat) : State :=
  if port < 8 then s.charge port (max 1 ((n + 255) / 256) * s.price (priceIndex 0x34 0 0)) else s

/-- The ten die-to-die links (R11); direction 2i of link i runs from its first die to its second, 2i + 1 back. -/
def dieLinks : List (Nat × Nat) :=
  [(0, 1), (1, 2), (2, 3), (4, 5), (5, 6), (6, 7), (0, 4), (1, 5), (2, 6), (3, 7)]

/-- The link that joins two neighbouring dies. -/
def linkOf (a b : Nat) : Nat := dieLinks.findIdx (fun e => e == (a, b) || e == (b, a))

/-- The direction of the link that joins two neighbouring dies, from the first to the second. -/
def linkDirOf (a b : Nat) : Nat := 2 * linkOf a b + (if dieLinks.contains (a, b) then 0 else 1)

/-- Message classes of a link (R13): 0 REQ: reads, writes, atomics and page migration; 1 RSP: what answers them; 2 WORK: FORWARD
packets and dispatcher messages; 3 MGMT: TIME, mailboxes, error reports. -/
abbrev clsReq : Nat := 0
/-- Class RSP. -/
abbrev clsRsp : Nat := 1
/-- Class WORK. -/
abbrev clsWork : Nat := 2
/-- Class MGMT. -/
abbrev clsMgmt : Nat := 3

/-- The stall signal of a class as its sender sees it, 3 clocks late (R14). -/
def LinkDir.sees (k : LinkDir) (cls clock : Nat) : Bool :=
  let v := tblGet false k.stall cls
  match tblFind k.since cls with
  | some c => if clock < c + 3 then !v else v
  | none => v

/-- The stall signal of a class after its buffer has changed: raised at 4 free entries of 16 or fewer, lowered at 8 or more
(R14). -/
def LinkDir.restall (k : LinkDir) (cls clock : Nat) : LinkDir :=
  let free := 16 - (tblGet [] k.bufs cls).length
  let old := tblGet false k.stall cls
  let new := if free ≤ 4 then true else if 8 ≤ free then false else old
  if new = old then k else { k with stall := tblSet false k.stall cls new, since := tblPut k.since cls clock }

/-- Flits enter the receive buffer of a class, which holds 16 (R13, R14). -/
def LinkDir.enter (k : LinkDir) (cls clock : Nat) (l : List Flit) : LinkDir :=
  let old := tblGet [] k.bufs cls
  ({ k with bufs := tblPut k.bufs cls (old ++ l.take (16 - old.length)) } : LinkDir).restall cls clock

/-- Flits of a message. -/
def flitsOf (n : Nat) : Nat := max 1 ((n + 255) / 256)

/-- A flit of a message of the device's own as a receive buffer holds it. -/
def meshFlit (cls : Nat) : Flit := { cls := cls, first := false, time := 0, data := [], crc := 0 }

/-- A message of n bytes of a class crosses from one die to another (R12, R13, R74, R79): each link of its route charges its
flits, one at least, to the sending die, and what its receive buffer still holds of them afterwards fills it up; the first flit
carries TIME (R16). DESIGN CHOICE: assumption 44. -/
def State.crossMesh (s : State) (cls a b n : Nat) : State :=
  let r := route a b
  (r.zip (r.drop 1)).foldl (fun (s : State) e =>
    let l := linkDirOf e.1 e.2
    let s := s.charge e.1 (flitsOf n * s.price (priceIndex 0x32 0 0))
    { s with links := tblPut s.links l ((tblGet ({} : LinkDir) s.links l).enter cls s.clock
        (List.replicate (min 16 (flitsOf n)) (meshFlit cls))) }) (s.forwardTime a b)

/-- A request of `n` bytes goes to a home and an answer of `back` bytes comes from it (R13, R16, R74). -/
def State.roundTrip (s : State) (src home n back : Nat) : State :=
  if src = home then s else (s.crossMesh clsReq src home n).crossMesh clsRsp home src back

/-- The charges of an access of n bytes at an address from a die (R74, R79): the home's cache slice, the HBM of what misses
there, and the links of the route, which the data cross towards the home for a write and away from it for a read. -/
def State.chargeHome (s : State) (src a n : Nat) (code : Nat := 4) (write : Bool := false) : State :=
  let home := s.homeDie a
  ((s.roundTrip src home (if write then n else 0) (if write then 0 else n)).charge home
    ((n + 63) / 64 * s.price (priceIndex 0x31 0 0))).llcAccess a n code

/-- Some sender on the way from one die to another sends no new flit of a class: its link's class is stalled (R14), or its die's
bucket is choked (R79). -/
def State.pathBlocked (s : State) (cls a b : Nat) : Bool :=
  let r := route a b
  (r.zip (r.drop 1)).any (fun e =>
    (s.die e.1).choked || (tblGet ({} : LinkDir) s.links (linkDirOf e.1 e.2)).sees cls s.clock)

/-- A request cannot go from one die to another now, or its answer back (R13, R14, R79). -/
def State.tripBlocked (s : State) (a b : Nat) : Bool := s.pathBlocked clsReq a b || s.pathBlocked clsRsp b a

/-- A route between two dies crosses a link that is down (R15). -/
def State.routeDown (s : State) (a b : Nat) : Bool :=
  let r := route a b
  (r.zip (r.drop 1)).any (fun e => (tblGet ({} : LinkDir) s.links (2 * linkOf e.1 e.2)).down)

/-! ## Messages to the firmware cores (R117, R235) -/

/-- A firmware core's mailbox has room for a message: it holds 64 (R117). -/
def Firm.mailRoom (f : Firm) (core : Nat) : Bool := decide ((tblGet [] f.mail core).length < 64)

/-- A message reaches a firmware core's mailbox (R117). -/
def State.mailTo (s : State) (core : Nat) (n : Note) : State :=
  { s with firm := { s.firm with mail := tblPut s.firm.mail core (tblGet [] s.firm.mail core ++ [n]) } }

/-- A message can go from a die to a firmware core now: its mailbox has room, and the MGMT class of the way to die 0 takes it (R13,
R117). -/
def State.mailOpen (s : State) (die core : Nat) : Bool :=
  s.firm.mailRoom core && !s.pathBlocked clsMgmt die 0 && !s.routeDown die 0

/-- A die sends a message of 64 B to a firmware core; one that is not taken is sent again later, in order (R117). DESIGN CHOICE:
assumption 44 (the firmware cores stand on die 0). -/
def State.sendMail (s : State) (die core : Nat) (n : Note) : State :=
  if s.mailOpen die core && !(s.die die).notes.any (fun e => e.1 == core) then (s.crossMesh clsMgmt die 0 64).mailTo core n
  else s.updDie die (fun k => { k with notes := k.notes ++ [(core, n)] })

/-- The messages that a die could not send are sent again, in order (R117). -/
def State.resendNotes (s : State) (die : Nat) : State :=
  (s.die die).notes.foldl (fun (s : State) e => s.sendMail die e.1 e.2) (s.updDie die (fun k => { k with notes := [] }))

/-- A system cause is reported to F6, with where it was found (R235). -/
def State.tellCause (s : State) (cause place die : Nat) : State :=
  s.sendMail die 6 (.error die { cause := cause, addr := place, time := (s.die die).time })

/-- An event reported to F6 that has no cause code, with where it was found (R42, R49, R52). -/
def State.tellF6 (s : State) (place die : Nat) : State := s.tellCause 0 place die

/-! ## Memory at its home -/

/-- `n` bytes at their home. -/
def State.homeRead (s : State) (a n : Nat) : List Byte := (List.range n).map (fun i => tblGet 0 s.mem (a + i))

/-- Write a list of bytes into a table of bytes. -/
def putBytes : Tbl Byte → Nat → List Byte → Tbl Byte
  | m, _, [] => m
  | m, a, b :: t => putBytes (tblSet 0 m a b) (a + 1) t

/-- The granules a range touches (R250). -/
def granules (a n : Nat) : List Nat :=
  if n = 0 then [] else (List.range ((a + n - 1) / 64 - a / 64 + 1)).map (fun i => a / 64 + i)

/-- Some granule of the range is poisoned at its home. -/
def State.homePoison (s : State) (a n : Nat) : Bool := (granules a n).any (fun i => tblGet false s.poison i)

/-- Poison after a write: a granule the write covers whole is cleared, another keeps its mark (R250). -/
def coverPoison (p : Tbl Bool) (a n : Nat) : Tbl Bool :=
  (granules a n).foldl (fun p i => if a ≤ 64 * i ∧ 64 * i + 64 ≤ a + n then tblSet false p i false else p) p

/-- The arming team has exited or been killed (R348, R413). -/
def State.teamGone (s : State) (t : Nat) : Bool :=
  (s.team t).life == .ended || (s.team t).life == .killing || (s.liveGroups t).isEmpty

/-- A fired command whose TOB bank is its team's and FREE when it fires takes it, as a copy at its issue does (R54, R413); while the
team is away it is checked as it enters. DEDUCED: assumption 24. -/
def State.claimBank (s : State) (a : Arm) : Option (State × Arm) :=
  match a.bank with
  | none => some (s, a)
  | some n =>
    let t := teamOf a.grp
    let b := tblGet {} (s.core (s.coreOf a.grp)).banks n
    if (s.team t).life != .running then some (s, a)
    else if b.role == .tob && b.team == t && b.state == .free then
      some ({ s with cores := tblUpd s.cores (s.coreOf a.grp) (fun k => { k with
        banks := tblPut k.banks n { b with state := .filling } }) }, { a with claimed := true })
    else none

/-- A command fires (R347, R413): it goes to its engine's door, or retires without effect after its team is gone; a copy whose
TOB bank is not FREE takes the protection fault at the bank's first byte (R189). -/
def State.fireArm (s : State) (die : Nat) (a : Arm) : State :=
  if s.teamGone (teamOf a.grp) then s.updGroup a.grp (fun g => g.complete a.cls a.id)
  else
    match s.claimBank a with
    | some (s, a) => { s with fired := tblPut s.fired die (tblGet [] s.fired die ++ [a]) }
    | none =>
      (s.updGroup a.grp (fun g => g.abandon a.cls a.id)).reportGroup a.grp 0x11 (0xF0 * 2 ^ 48 + 65536 * a.bank.getD 0) false a.pc 0xFF

/-- Armed commands of one word that the value now there fires, in firing order (R347). -/
def State.fireWord (s : State) (w : Nat) : State :=
  match tblFind s.arms w with
  | none => s
  | some l =>
    let v := leNat (s.homeRead w 8)
    let fires := (sortBy (·.thr) (l.filter (fun a => a.thr ≤ v))).map (fun a => { a with when := s.turnNo })
    fires.foldl (fun s a => s.fireArm (s.homeDie w) a) { s with
      arms := (let rest := l.filter (fun a => v < a.thr); if rest.isEmpty then tblDel s.arms w else tblPut s.arms w rest) }

/-- Armed commands fired by a write to a range (R347). -/
def State.fire (s : State) (a n : Nat) : State :=
  if s.arms.isEmpty then s
  else ((tblKeys s.arms).filter (fun w => a < w + 8 ∧ w < a + n)).foldl State.fireWord s

/-- A write performed at its home: the bytes, poison of covered granules, and what it fires. -/
def State.homeWrite (s : State) (a : Nat) (bs : List Byte) : State :=
  ({ s with mem := putBytes s.mem a bs, poison := coverPoison s.poison a bs.length } : State).fire a bs.length

/-- Mark the granules of a range poisoned (R250). -/
def State.poisonHome (s : State) (a n : Nat) : State :=
  { s with poison := (granules a n).foldl (fun p i => tblSet false p i true) s.poison }

/-- The counters of accesses of 128 B that reach a 64 KiB part of an HBM page from a die, of 12 bits each (R191). -/
def countVisit (pages : Tbl Page) (d a n : Nat) : Tbl Page :=
  match pageAt pages a with
  | some (b, p) =>
    if p.kind == .hbm then
      let key := (a - b) / 65536 * 8 + d
      tblPut pages b { p with counts := tblPut p.counts key (min 4095 (tblGet 0 p.counts key + (n + 127) / 128)) }
    else pages
  | none => pages

/-- A range cut at multiples of 64 KiB, which no page or bank boundary divides. -/
def segments : Nat → Nat → Nat → List (Nat × Nat)
  | 0, _, _ => []
  | k + 1, a, n =>
    if n = 0 then []
    else
      let m := min n (65536 - a % 65536)
      (a, m) :: segments k (a + m) (n - m)

/-- The segments of a range. -/
def segs (a n : Nat) : List (Nat × Nat) := segments (n / 65536 + 2) a n

/-- An access of n bytes from a die reaches its home: it is charged (R79) and counted in each 64 KiB part it touches (R191). -/
def State.visitHome (s : State) (d a n : Nat) (code : Nat := 4) (write : Bool := false) : State :=
  ({ s with pages := (segs a n).foldl (fun t e => countVisit t d e.1 e.2) s.pages } : State).chargeHome d a n code write

/-- Take an access out of the log. -/
def State.unlog (s : State) (h id : Nat) : State :=
  s.updGroup h (fun g => { g with log := g.log.filter (fun a => a.id != id) })

/-- The home of an address takes no write now: its page is on the move (R192), or its die's bucket is choked (R79). -/
def State.homeStuck (s : State) (a : Nat) : Bool :=
  match pageAt s.pages a with
  | some (_, p) => p.move == .moving || (s.die p.home).choked
  | none => false

/-! ## The core cache (R163, R184, R185) -/

/-- A bank of a core. -/
def Core.bank (k : Core) (b : Nat) : Bank := tblGet {} k.banks b
/-- Change a bank of a core. -/
def Core.updBank (k : Core) (b : Nat) (f : Bank → Bank) : Core := { k with banks := tblPut k.banks b (f (k.bank b)) }
/-- The banks in cache role, which together form the cache (R163). -/
def Core.cacheBanks (k : Core) : List Nat := (List.range 32).filter (fun i => (k.bank i).role == .cache)
/-- A line at a core. -/
def Core.line? (k : Core) (l : Nat) : Option CLine := k.cache.find? (·.line == l)
/-- A copy of a line is held. -/
def Core.holds (k : Core) (l : Nat) : Bool := (k.line? l).any (·.held)
/-- The line holds something that its home does not have yet. -/
def CLine.owed (x : CLine) : Bool := x.dirty != 0 || !x.out.isEmpty

/-- The 128 bytes of a line at their home. -/
def State.homeLine (s : State) (l : Nat) : List Byte := s.homeRead (128 * l) 128
/-- A line's dirty bytes over the bytes of its home. -/
def CLine.homed (x : CLine) (home : List Byte) : List Byte :=
  (home.zip (List.range 128)).map (fun e => if x.dirty.getLsbD e.2 then x.bytes[e.2]?.getD 0 else e.1)

/-- The runs of dirty bytes of a line from an address on. -/
def dirtyRuns : List (Byte × Bool) → Nat → List (Nat × List Byte)
  | [], _ => []
  | (_, false) :: t, a => dirtyRuns t (a + 1)
  | (b, true) :: t, a =>
    match dirtyRuns t (a + 1) with
    | (x, bs) :: r => if x = a + 1 then (a, b :: bs) :: r else (a, [b]) :: (x, bs) :: r
    | [] => [(a, [b])]

/-- What a core sees at an address: the newest store on its way there, else the byte of the line, else the home's (R184,
R202). -/
def State.coreByte (s : State) (k : Core) (a : Nat) : Byte :=
  match k.line? (a / 128) with
  | none => tblGet 0 s.mem a
  | some x =>
    let b := if x.held || x.dirty.getLsbD (a % 128) then x.bytes[a % 128]?.getD 0 else tblGet 0 s.mem a
    x.out.foldl (fun b o => if o.addr ≤ a ∧ a < o.addr + o.bytes.length then o.bytes[a - o.addr]?.getD 0 else b) b

/-- Every store of a line that its home does not have yet is performed there, in order; a copy that is held stays, as its home
has it. -/
def State.flushLine (s : State) (c l : Nat) : State :=
  match (s.core c).line? l with
  | none => s
  | some x =>
    let d := dieOfCore c
    let s := x.out.foldl (fun s o => ((s.homeWrite o.addr o.bytes).visitHome d o.addr o.bytes.length x.code true).unlog o.grp o.id) s
    let s := if x.dirty = 0 then s
      else ((dirtyRuns (x.bytes.zip ((List.range 128).map x.dirty.getLsbD)) (128 * l)).foldl
        (fun s e => s.homeWrite e.1 e.2) s).visitHome d (128 * l) 128 x.code true
    let new := { x with bytes := s.homeLine l, dirty := 0, out := [] }
    s.updCore c (fun k => { k with
      cache := if x.held then k.cache.map (fun y => if y.line == l then new else y) else k.cache.filter (·.line != l) })

/-- Every line of a range is flushed where something is owed. -/
def State.flushRange (s : State) (c a n : Nat) : State :=
  (linesOf a n).foldl (fun s l => if ((s.core c).line? l).any CLine.owed then s.flushLine c l else s) s

/-- A core's lines that pass a test are flushed. -/
def State.writeBack (s : State) (c : Nat) (p : CLine → Bool := fun _ => true) : State :=
  (((s.core c).cache.filter (fun x => x.owed && p x)).map (·.line)).foldl (fun s l => s.flushLine c l) s

/-- Nothing that a core owes is owed to a home that takes no write now. -/
def State.canFlush (s : State) (c : Nat) (p : CLine → Bool := fun _ => true) : Bool :=
  (s.core c).cache.all (fun x => !(x.owed && p x) || !s.homeStuck (128 * x.line))

/-- Make a copy of a line held, if the core has a bank in cache role and its set has room or a line to evict; an evicted line
that is dirty is on its way to its home (R163, R185). -/
def State.fillLine (s : State) (c l code : Nat) : State :=
  let k := s.core c
  let old := (k.line? l).getD { line := l, held := false }
  let others := k.cache.filter (·.line != l)
  let banks := k.cacheBanks
  let set := others.filter (fun x => x.held && Config.cacheSet x.line == Config.cacheSet l)
  let ways := Config.cacheWays + 1
  if old.held then
    s.updCore c (fun k => { k with
      cache := others ++ [{ old with code := touchCode old.code (fillCode (ways * banks.length) (set.map (·.code)) code) }] })
  else
    let new := fun (b : Nat) => { old with
      held := true, bytes := old.homed (s.homeLine l), bank := b
      code := fillCode (ways * banks.length) (set.map (·.code)) code }
    if code = 1 ∨ banks = [] then s
    else
      match banks.find? (fun b => decide ((set.filter (·.bank == b)).length < ways)) with
      | some b => s.updCore c (fun k => { k with cache := others ++ [new b] })
      | none =>
        match set[victim (set.map (·.code))]? with
        | none => s
        | some v =>
          let rest := if v.owed then others.map (fun y => if y.line == v.line then { y with held := false } else y)
            else others.filter (·.line != v.line)
          s.updCore c (fun k => { k with cache := rest ++ [new v.bank] })

/-- Touch the lines of a range in a core's cache: those held by their code, the others with an access of their home, which
fills them (R184, R185). -/
def State.touchLines (s : State) (c a n code : Nat) : State :=
  (linesOf a n).foldl (fun s l =>
    if (s.core c).holds l then s.fillLine c l code
    else (s.visitHome (dieOfCore c) (max a (128 * l)) (min (a + n) (128 * l + 128) - max a (128 * l)) code).fillLine c l code) s

/-- The copies held of a range take their clean bytes from their home. -/
def State.refresh (s : State) (c a n : Nat) : State :=
  if (linesOf a n).any (fun l => (s.core c).holds l) then
    s.updCore c (fun k => { k with cache := k.cache.map (fun x =>
      if x.held && (linesOf a n).contains x.line then { x with bytes := x.homed (s.homeLine x.line) } else x) })
  else s

/-- Some line of a range is dirty at a core. -/
def Core.dirtyIn (k : Core) (a n : Nat) : Bool := (linesOf a n).any (fun l => (k.line? l).any (fun x => x.dirty != 0))

/-- The dirty lines of a range reach their home before a read there, or the read returns what the core holds of them before that:
which is a free value (R202; DESIGN CHOICE, assumption 5). -/
def State.meetDirty (s : State) (c a n : Nat) : State :=
  if (s.core c).dirtyIn a n then
    let (w, s) := s.free
    if w.getLsbD 0 then s
    else (linesOf a n).foldl (fun s l => if ((s.core c).line? l).any (fun x => x.dirty != 0) then s.flushLine c l else s) s
  else s

/-- Read mapped bytes for a core at a scope (R184, R202): at group and team scope through its cache, filled unless the eviction
code streams; otherwise at the home, with the core's copies refreshed. Stores of the core that its home does not have yet are
seen. -/
def State.readAt (s : State) (c scope evict a n : Nat) : State × List Byte :=
  let s :=
    if scope ≤ 1 then s.touchLines c a n evict
    else
      let s := s.meetDirty c a n
      (s.visitHome (dieOfCore c) a n evict).refresh c a n
  let k := s.core c
  (s, (List.range n).map (fun i => s.coreByte k (a + i)))

/-- Write bytes that lie in one line into a core's cache, or at the home, which the miss has reached, where the line is not held. -/
def State.writeLine (s : State) (c a : Nat) (bs : List Byte) : State :=
  let l := a / 128
  match (s.core c).line? l with
  | some x =>
    s.updCore c (fun k => { k with cache := k.cache.map (fun y =>
      if y.line == l then
        { x with
          bytes := (x.bytes.zip (List.range 128)).map (fun e =>
            if a % 128 ≤ e.2 ∧ e.2 < a % 128 + bs.length then bs[e.2 - a % 128]?.getD 0 else e.1)
          dirty := x.dirty ||| ((BitVec.allOnes 128 >>> (128 - bs.length)) <<< (a % 128)) }
      else y) })
  | none => s.homeWrite a bs

/-- Write mapped bytes for a core at a scope (R184): into its cache, or at the home with its own copy updated. What the core
owes the lines of the range is performed first. -/
def State.writeAt (s : State) (c scope evict a : Nat) (bs : List Byte) : State :=
  if scope ≤ 1 ∧ evict ≠ 1 then
    let s := (linesOf a bs.length).foldl (fun s l =>
      if ((s.core c).line? l).any (fun x => !x.out.isEmpty) then s.flushLine c l else s) s
    (linesOf a bs.length).foldl (fun s l =>
      let lo := max a (128 * l)
      (s.writeLine c lo (bytesAt bs (lo - a) (min (a + bs.length) (128 * l + 128) - lo)))) (s.touchLines c a bs.length evict)
  else
    let s := s.flushRange c a bs.length
    (((s.homeWrite a bs).visitHome (dieOfCore c) a bs.length evict true)).refresh c a bs.length

/-- A release at a scope: at cluster scope and wider everything the core owes reaches its home (R198, R208). -/
def State.releaseAt (s : State) (c scope : Nat) : State := if 2 ≤ scope then s.writeBack c else s
/-- A release at a scope can be made now. -/
def State.canRelease (s : State) (c scope : Nat) : Bool := decide (scope < 2) || s.canFlush c

/-- A core's copies are dropped, but for dirty bytes, whose lines take the rest from their home (an acquire at cluster scope or
wider; DEDUCED, assumption 7). -/
def State.dropClean (s : State) (c : Nat) : State :=
  s.updCore c (fun k => { k with cache := (k.cache.filter CLine.owed).map (fun x =>
    if x.dirty = 0 then { x with held := false }
    else if x.held then { x with bytes := x.homed (s.homeLine x.line) } else x) })

/-- An acquire at a scope; the release it may read from became visible at least 8 clocks, which are 4 ns, before (R23), so
that TIME has moved on (R24): by exactly 4, at every acquire (DESIGN CHOICE, assumption 10). -/
def State.acquireAt (s : State) (c scope : Nat) : State :=
  let s := s.updDie (dieOfCore c) (fun k => { k with time := (k.time + 4) % 2 ^ 64 })
  if 2 ≤ scope then s.dropClean c else s

/-- A ticket is taken from the sequencer on die 0 (R201), by a request and a response of no data (R16, R74). -/
def State.takeTicket (s : State) (d : Nat) : State := ({ s with ticket := s.ticket + 1 } : State).roundTrip d 0 0 0

/-- The granules of a range are poisoned as a core reads them: at their home, and not overwritten whole in the core's cache. -/
def State.corePoison (s : State) (c a n : Nat) : Bool :=
  (granules a n).any (fun i => tblGet false s.poison i &&
    !((s.core c).line? (i / 2)).any (fun x => (List.range 64).all (fun j => x.dirty.getLsbD (i % 2 * 64 + j))))

/-! ## Local store (R161, R165, R178) -/

/-- `n` bytes of local store. DESIGN CHOICE: assumption 3. -/
def Core.lread (k : Core) (a n : Nat) : List Byte := (List.range n).map (fun i => tblGet 0 k.store (a + i))
/-- Write local store; a covered granule's poison is cleared. -/
def Core.lwrite (k : Core) (a : Nat) (bs : List Byte) : Core :=
  { k with store := putBytes k.store a bs, lpoison := coverPoison k.lpoison a bs.length }
/-- Some granule of the range is poisoned. -/
def Core.lpoisoned (k : Core) (a n : Nat) : Bool := (granules a n).any (fun i => tblGet false k.lpoison i)
/-- Mark the granules of a range poisoned. -/
def Core.lpoison! (k : Core) (a n : Nat) : Core :=
  { k with lpoison := (granules a n).foldl (fun p i => tblSet false p i true) k.lpoison }
/-- The range lies in banks the team holds in scratchpad role. -/
def Core.inScratch (k : Core) (t a n : Nat) : Bool :=
  decide (a + n ≤ 2 ^ 21) &&
    (List.range ((a + n - 1) / 65536 - a / 65536 + 1)).all (fun i =>
      let b := k.bank (a / 65536 + i)
      b.role == .scratch && b.team == t)

/-! ## Where an address leads (R177 to R180) -/

/-- What an address reaches. -/
inductive Target where
  /-- mapped space: the page -/
  | page (base : Nat) (p : Page)
  /-- a byte of a core's local store, poisoned if its TOB bank is -/
  | bank (core addr : Nat) (poison : Bool)
  /-- a fault: the cause -/
  | fault (cause : Nat)
deriving DecidableEq, Repr

/-- Where a team's local store is: on its core, or in its saved image (R142). -/
def State.storeOf (s : State) (t : Nat) : Nat :=
  if (s.team t).life = .saved ∨ (s.team t).life = .written then 320 + t else (s.team t).core

/-- The core of a cluster member by CLUPOS (R177, R178). -/
def State.clusterCore (s : State) (h pos : Nat) : Option (Nat × Nat) :=
  let tm := s.team (teamOf h)
  match tm.cluster with
  | none => none
  | some u =>
    if tm.cw * tm.ch ≤ pos then none
    else (s.teams.find? (fun e => e.2.cluster == some u && e.2.grid == tm.grid && e.2.clupos == pos &&
      e.2.isTwin == tm.isTwin && e.2.heir.isNone)).map (fun e => (e.1, s.storeOf e.1))

/-- A team-window byte (R165): scratchpad read and written, a landed TOB bank read. -/
def bankTarget (k : Core) (t c a : Nat) (write : Bool) : Target :=
  let b := k.bank (a / 65536)
  if b.team != t then .fault 0x11
  else
    match b.role with
    | .cache => .fault 0x11
    | .scratch => .bank c a false
    | .tob =>
      if write then .fault 0x11
      else
        match b.state with
        | .full => .bank c a false
        | .draining => .bank c a false
        | .poisoned => .bank c a true
        | _ => .fault 0x11

/-- Where an address leads for a group (R177). -/
def State.target (s : State) (h addr : Nat) (write : Bool) : Target :=
  let a := addr % 2 ^ 56
  if a < 0xF0 * 2 ^ 48 then
    match pageAt s.pages a with
    | some (b, p) => .page b p
    | none => .fault 0x10
  else if a < 0xF0 * 2 ^ 48 + 2 ^ 21 then
    bankTarget (s.core (s.storeOf (teamOf h))) (teamOf h) (s.storeOf (teamOf h)) (a - 0xF0 * 2 ^ 48) write
  else if 0xF1 * 2 ^ 48 ≤ a ∧ a < 0xF1 * 2 ^ 48 + 12 * 2 ^ 21 then
    let off := a - 0xF1 * 2 ^ 48
    match s.clusterCore h (off / 2 ^ 21) with
    | none => .fault 0x11
    | some (t, c) =>
      let b := (s.core c).bank (off % 2 ^ 21 / 65536)
      if b.role == .scratch && b.team == t then .bank c (off % 2 ^ 21) false else .fault 0x11
  else .fault 0x11

/-- What kind of access a page is asked for. -/
inductive Want where
  | read | write | atomic | code | laneCode
deriving DecidableEq, Repr

/-- PERM allows the access (R180). -/
def Page.allows (p : Page) (w : Want) : Bool :=
  match w with
  | .read => p.perm.getLsbD 0
  | .write => p.perm.getLsbD 1
  | .atomic => p.perm.getLsbD 2
  | .code => p.perm.getLsbD 3
  | .laneCode => p.perm.getLsbD 4

/-- The page's kind and PERM permit an access of a size at an address (R105, R179, R308); `fetch` marks an 8-byte
fetch-and-add or compare-and-swap. -/
def Page.permits (p : Page) (w : Want) (fetch : Bool) : Bool :=
  match p.kind with
  | .kick => w == .read || w == .write
  | .desc => w == .read
  | .window => p.allows w && (w != .atomic || fetch)
  | .peer => p.allows w && (w != .atomic || fetch)
  | _ => p.allows w

/-! ## The operand log (R187, R198) -/

/-- The access reads. -/
def Access.reads (a : Access) : Bool := a.kind == .load || a.kind == .atomic
/-- The access writes. -/
def Access.writes (a : Access) : Bool := a.kind == .store || a.kind == .atomic
/-- The access is a fence or a prefetch, which touch no value. -/
def Access.bare (a : Access) : Bool := a.kind == .fence || a.kind == .hint
/-- Two accesses touch a common byte. -/
def Access.meets (a b : Access) : Bool :=
  !a.bare && !b.bare && a.rank == b.rank && a.slot == b.slot && decide (a.addr < b.addr + b.size) &&
    decide (b.addr < a.addr + a.size)
/-- Two paths of one divergence (R203): they name the same entry with different sides. -/
def siblings (p q : List Nat) : Bool := p.any (fun x => q.any (fun y => x / 2 == y / 2 && x != y))
/-- `a` precedes `b` in group order (R195, R203). -/
def Access.before (a b : Access) : Bool :=
  if a.stream == b.stream then decide (a.seq < b.seq) && !siblings a.path b.path else decide (a.seq ≤ b.seen)
/-- `a`, which precedes `b`, is ordered before it (R198, R200); a prefetch changes no value and is ordered with nothing (R309). -/
def Access.orders (a b : Access) : Bool :=
  if a.kind == .hint || b.kind == .hint then false
  else if a.kind == .fence then (if a.ord = 2 then b.writes || b.kind == .fence else true)
  else if b.kind == .fence then (if b.ord = 1 then a.reads else true)
  else a.ord == 1 || a.ord == 3 || b.ord == 2 || b.ord == 3 || a.meets b
/-- `a` holds back `b`: it is ordered before it, or both are of one instruction and meet, the lower lane first (R196). -/
def Access.holds (a b : Access) : Bool :=
  (a.before b && a.orders b) || (a.stream == b.stream && a.seq == b.seq && a.meets b && decide (a.lane < b.lane))

/-- The job in a slot of JOBSET order. -/
def State.jobAt (s : State) (slot : Nat) : Option Job := tblFind s.jobs slot
/-- The rank is the device's own (R339, R389). -/
def State.ownRank (s : State) (slot rank : Nat) : Bool :=
  match s.jobAt slot with
  | some j => j.rank == rank
  | none => false

/-- An access by the place it reaches, so that two names of one place are one: bits [63:56] are ignored, the cluster window at
a group's own CLUPOS is its team window, a PEER page is its rank's memory, and that of the device's own rank is its own (R177
to R179, R339). -/
def State.placed (s : State) (h : Nat) (a : Access) : Access :=
  let x := a.addr % 2 ^ 56
  let own := fun (r slot addr : Nat) =>
    if s.ownRank slot r then { a with addr := addr, rank := none, slot := 0 } else { a with addr := addr, rank := some r, slot := slot }
  match a.rank with
  | some r => own r a.slot x
  | none =>
    if 0xF1 * 2 ^ 48 ≤ x then
      let tm := s.team (teamOf h)
      let off := x - 0xF1 * 2 ^ 48
      if tm.cluster.isSome ∧ off / 2 ^ 21 = tm.clupos then { a with addr := 0xF0 * 2 ^ 48 + off % 2 ^ 21 }
      else { a with addr := x }
    else
      match pageAt s.pages x with
      | some (b, p) => if p.kind == .peer then own p.rank p.job (p.rva + (x - b)) else { a with addr := x }
      | none => { a with addr := x }

/-- The pages of the first and last byte of an access. -/
def State.pagesOf (s : State) (a : Access) : List Nat :=
  [a.addr % 2 ^ 56, (a.addr + a.size - 1) % 2 ^ 56].filterMap (fun x => (pageAt s.pages x).map Prod.fst)
/-- `b`, issued after `a`, waits behind it: `a` was parked or refused on a page that `b` touches (R188, R193). -/
def State.waitsBehind (s : State) (a b : Access) : Bool :=
  (a.parked || a.refused || a.behind) && a.rank.isNone && b.rank.isNone && !a.bare && !b.bare &&
    (s.pagesOf b).any (fun p => (s.pagesOf a).contains p)
/-- The access may be performed now: none that is ordered before it is still to be performed, nor one it waits behind; what
comes from the hold buffer of a Scrim group is performed in order (R258). -/
def State.eligible (s : State) (h : Nat) (a : Access) : Bool :=
  let log := (s.group h).log
  log.all (fun d => d.id == a.id || !(s.placed h d).holds (s.placed h a)) &&
    (log.takeWhile (fun d => d.id != a.id)).all (fun d => !s.waitsBehind d a && !(d.kept && a.kept))

/-! ## Request entries (R187) -/

/-- The flag read that the group's `waitm` waits for (R350). -/
def Group.ownFlag (g : Group) (a : Access) : Bool :=
  match a.dest, g.swait with
  | .flag _, .waitm addr _ _ _ _ _ => a.addr == addr && a.seq == g.seq && a.pc == g.pc
  | _, _ => false
/-- The access is a piece of one that the log holds (R183). -/
def Access.isPiece (a : Access) : Bool :=
  match a.dest with
  | .piece _ _ => true
  | _ => false
/-- Request entries a group holds: one for each access of its log, one for a `waitm` between two reads of its flag, and those
that a VP load whose length is not known yet may still need (R187, R350, R384). -/
def Group.entries (g : Group) : Nat :=
  (g.log.filter (fun a => !a.isPiece)).length + 3 * (g.vploads.filter (·.need == 1)).length +
    (match g.swait with
     | .waitm .. => if g.log.any g.ownFlag then 0 else 1
     | _ => 0)
/-- Request entries in use on a core: those of its groups, one for each access its engines have not yet performed, and one for
each page whose walk accesses have merged on (R187). -/
def State.entriesUsed (s : State) (c : Nat) : Nat :=
  let here := s.groups.filter (fun e => (s.team (teamOf e.1)).core = c)
  (here.map (fun e => e.2.entries)).foldl (· + ·) 0 +
    (s.remote.filter (fun r => r.core == some c)).length +
    (here.flatMap (fun e => (e.2.log.filter (·.parked)).flatMap s.pagesOf)).eraseDups.length
/-- What asked for entries still waits for them. -/
def State.stillWaits (s : State) (w : EntryWait) : Bool :=
  w.send.isSome ||
  match tblFind s.groups w.grp with
  | some g =>
    s.issues w.grp && !g.exited &&
      (if w.lane then g.lseq == w.seq && (match g.run with | some r => r.pc == w.pc | none => false)
       else g.seq == w.seq && g.pc == w.pc && g.swait == .none)
  | none => false
/-- The request entries `n` more accesses need are free, and no instruction waits for any (R187). -/
def State.entriesFree (s : State) (h n : Nat) : Bool :=
  decide (s.entriesUsed (s.coreOf h) + n ≤ 4096) && (s.core (s.coreOf h)).entryq.all (fun w => !s.stillWaits w)
/-- A stream is granted `n` entries: they are free, and it is the first of those that wait on its core, which are granted in
issue order (R187). -/
def State.entriesGranted (s : State) (h : Nat) (lane : Bool) (n : Nat) : Bool :=
  decide (s.entriesUsed (s.coreOf h) + n ≤ 4096) &&
    (match (s.core (s.coreOf h)).entryq.find? s.stillWaits with
     | none => true
     | some w => w.send.isNone && w.grp == h && w.lane == lane)
/-- A stream of a group begins to wait for `n` request entries, if it does not yet. -/
def State.awaitEntries (s : State) (h : Nat) (lane : Bool) (n : Nat) : State :=
  let g := s.group h
  let w : EntryWait := { grp := h, lane := lane, n := n, seq := if lane then g.lseq else g.seq
                         pc := if lane then (g.run.map (·.pc)).getD 0 else g.pc }
  s.updCore (s.coreOf h) (fun k => { k with
    entryq := let q := k.entryq.filter s.stillWaits
              if q.contains w then q else q ++ [w] })

/-- Change an access of the log. -/
def State.updLog (s : State) (h id : Nat) (f : Access → Access) : State :=
  s.updGroup h (fun g => { g with log := g.log.map (fun a => if a.id == id then f a else a) })

/-! ## Widening and delivery (R209, R312) -/

/-- Cells of an element format (R311). -/
def fmtCells (fmt : Nat) : Nat :=
  if fmt = 3 ∨ fmt = 7 ∨ fmt = 0x0B then 2 else if isVpFmt fmt then fmt - 0x20 else 1
/-- Bytes of an element format (R311). -/
def fmtBytes (fmt : Nat) : Nat := fmtWidth fmt / 8
/-- A value of a format as it stands in a cell or cells (R209): In sign-extended, others zero-filled; 64-bit values
stay whole. -/
def widenTo (fmt v : Nat) : Nat :=
  let w := fmtWidth fmt
  if w < 32 ∧ isSInt fmt then ofS 32 (toS w v) else v % 2 ^ w
/-- The cells of a value of a format, lowest first. -/
def cellsOf (fmt v : Nat) : List Nat :=
  let x := widenTo fmt v
  if fmtCells fmt = 2 then [x % 2 ^ 32, x / 2 ^ 32 % 2 ^ 32] else [x % 2 ^ 32]

/-- Write cells of a lane from an index, and make them full. -/
def Group.land (g : Group) (lane idx : Nat) (vs : List Nat) : Group :=
  (vs.zip (List.range vs.length)).foldl (fun g e =>
    { g.setCell lane (idx + e.2) e.1 with empties := tblDel g.empties (cellKey lane (idx + e.2)) }) g

/-- Apply to the entry of a load queue with an identifier. -/
def Group.updEntry (g : Group) (q id : Nat) (f : QEntry → QEntry) : Group :=
  { g with lq := tblPut g.lq q ((tblGet [] g.lq q).map (fun e => if e.id == id then f e else e)) }

/-- A lane of every entry of an element of a load queue is poisoned (R312). -/
def Group.poisonElem (g : Group) (q elem lane : Nat) : Group :=
  { g with lq := tblPut g.lq q ((tblGet [] g.lq q).map (fun e =>
      if e.elem == elem then { e with poison := e.poison ||| oneLane lane } else e)) }

/-- Full state of a group's load-queue entries: an entry is full when no access of the log is still to fill it
(R312). -/
def Group.settleEntries (g : Group) : Group :=
  { g with lq := g.lq.map (fun q => (q.1, q.2.map (fun e =>
      if e.full || e.never then e
      else { e with full := g.log.all (fun a =>
        match a.dest with
        | .entry _ id part fmt => !(decide (id + part ≤ e.id) && decide (e.id < id + part + fmtCells fmt) && e.id != 0)
        | _ => true) }))) }

/-- The condition of a `waitm` or a WAIT packet (R112, R350). -/
def flagHolds (cond : Nat) (x v : Word) : Bool :=
  match cond with
  | 0 => decide (v.toNat ≤ x.toNat)
  | 1 => x == v
  | 2 => x != v
  | _ => v.sle x

/-- A value arrives at its destination; poison kills the lane or, for a scalar, raises 0x09 at its instruction (R251), in a handler
entered since as well (DESIGN CHOICE, assumption 12). -/
def State.deliver (s : State) (h : Nat) (a : Access) (v : Nat) (poison : Bool) : State :=
  match a.dest with
  | .none => s
  | .reg d sext =>
    if poison then
      let s := s.updGroup h (fun g => { g with pc := a.pc, swait := .none })
      s.trap h { cause := 0x09 }
    else
      let x := if sext then ofS 64 (toS (8 * a.size) v) else v
      s.updGroup h (fun g => { g.swrite (BitVec.ofNat 6 d) (BitVec.ofNat 64 x) with swait := .none })
  | .cells idx fmt =>
    if poison then s.killLanes h (oneLane a.lane)
    else s.updGroup h (fun g => if g.ldead.getLsbD a.lane then g else g.land a.lane idx (cellsOf fmt v))
  | .entry q id part fmt =>
    s.updGroup h (fun g =>
      let vs := cellsOf fmt v
      (vs.zip (List.range vs.length)).foldl (fun g e => g.updEntry q (id + part + e.2) (fun x =>
        { x with data := tblSet 0 x.data a.lane e.1 })) (if poison then g.poisonElem q id a.lane else g))
  | .push part fmt =>
    s.updGroup h (fun g =>
      match g.lpush with
      | none => g
      | some p =>
        let vs := cellsOf fmt v
        { g with lpush := some { p with
          data := (vs.zip (List.range vs.length)).foldl (fun t e => tblSet 0 t (a.lane * 4 + part + e.2) e.1) p.data
          dead := if poison then p.dead ||| oneLane a.lane else p.dead } })
  | .flag second =>
    if !(s.group h).ownFlag a then s
    else if poison then (s.updGroup h (fun g => { g with swait := .none })).trap h { cause := 0x09 }
    else
      { s with nextId := s.nextId + 1 }.updGroup h (fun g =>
        match g.swait with
        | .waitm _ w cond ord scope _ =>
          if !flagHolds cond (BitVec.ofNat 64 v) w then g
          else if ord = 0 || second then { g.advance 8 with swait := .none }
          else { g with log := g.log ++ [{ a with id := s.nextId, ord := ord, scope := scope, dest := .flag true }] }
        | _ => g)
  | .vp id part =>
    if poison then s.killLanes h (oneLane a.lane)
    else s.updGroup h (fun g => { g with vploads := g.vploads.map (fun x =>
      if x.id == id then { x with got := tblPut x.got part (v % 2 ^ 32) } else x) })
  | .piece id off =>
    s.updGroup h (fun g => { g with joins := g.joins.map (fun j =>
      if j.id == id then { j with
        got := ((leBytes a.size v).zip (List.range a.size)).foldl (fun t e => tblPut t (off + e.2) e.1) j.got
        bad := j.bad || poison }
      else j) })

end Sys2Proof.Machine
end

