-- ==== Sys2Proof/Machine/Vp.lean ====
section
/-!
DEFINITION. Variable precision (R223 to R228): the VP layout, rounding to a working length, and known bits. -/
namespace Sys2Proof

/-- A VP value as read: its value, its extra cells, its K, its exponent and whether K is well formed (R223). -/
structure Vp where
  v   : FVal
  l   : Nat
  k   : Nat
  exp : Nat
deriving DecidableEq, Repr

/-- Fraction bits of a VP value of `l` extra cells (R223). -/
def vpFrac (l : Nat) : Nat := 7 + 32 * l

/-- Extra cells for a working length (R159). -/
def vpLenOf (s : Nat) : Nat := if s ≤ 7 then 0 else if s ≤ 39 then 1 else if s ≤ 71 then 2 else 3

/-- L as cell 0 stores it. -/
def vpStoredLen (c0 : Nat) : Nat := fld c0 14 2

/-- K as cell 0 stores it. -/
def vpStoredK (c0 : Nat) : Nat := fld c0 7 7

/-- Cell 0 holds a K that is malformed for its own L (R223). -/
def vpMalformed (c0 : Nat) : Bool :=
  decide (vpFrac (vpStoredLen c0) < vpStoredK c0) && vpStoredK c0 != 127

/-- The fraction held by FTOP and the extra cells, most significant first. -/
def vpFracOf : Nat → List Nat → Nat
  | acc, [] => acc
  | acc, c :: t => vpFracOf (acc * 2 ^ 32 + c % 2 ^ 32) t

/-- Decode a VP value from its cells, cell 0 first; the cells beyond its own length are not passed (R223). -/
def vpDecode (c0 : Nat) (rest : List Nat) : Vp :=
  let l := rest.length
  let x := fld c0 16 15
  let neg := fld c0 31 1 == 1
  let fr := vpFracOf (fld c0 0 7) rest
  let v :=
    if x = 0 then FVal.fin neg 0 0
    else if x = 32767 then (if fr = 0 then .inf neg else .nan false)
    else .fin neg (2 ^ vpFrac l + fr) ((x : Int) - 16383 - vpFrac l)
  { v := v, l := l, k := vpStoredK c0, exp := x }

/-- The extra cells of a fraction of 7 + 32 l bits, most significant first. -/
def vpTail : Nat → Nat → List Nat
  | 0, _ => []
  | l + 1, fr => fld fr (32 * l) 32 :: vpTail l fr

/-- Encode a VP value (R223). -/
def vpEncode (neg : Bool) (exp l k fr : Nat) : List Nat :=
  (neg.toNat * 2 ^ 31 + exp * 2 ^ 16 + l * 2 ^ 14 + k * 2 ^ 7 + fr / 2 ^ (32 * l)) :: vpTail l fr

/-- The canonical VP NaN (R214). -/
def vpNan (l : Nat) : List Nat := vpEncode false 32767 l 127 (2 ^ (6 + 32 * l))
/-- A VP infinity (R223). -/
def vpInf (neg : Bool) (l : Nat) : List Nat := vpEncode neg 32767 l 127 0
/-- A VP zero (R223). -/
def vpZero (neg : Bool) (l k : Nat) : List Nat := vpEncode neg 0 l k 0

/-- What a source contributes to the known bits of a result (R226). -/
structure KSrc where
  k    : Nat
  eps  : Int
  zero : Bool
deriving DecidableEq, Repr

/-- The source vouches for every bit. -/
def KSrc.exact (s : KSrc) : Bool := s.k == 127

/-- The contribution of a VP source. -/
def Vp.src (x : Vp) : KSrc :=
  { k := x.k, eps := (x.exp : Int) - 16383 - x.k, zero := x.v.isZero && x.k != 127 }

/-- An exact source, such as an operand of another format. -/
def KSrc.exactSrc : KSrc := { k := 127, eps := 0, zero := false }

/-- How the K of a result is found: by a row of the table of R226, or copied from the source returned. -/
inductive KRule where
  | rule (srcs : List KSrc) (k : Int → Int)
  | copy (k : Nat)

/-- The largest of a list of integers, `d` for none. -/
def maxInt (d : Int) : List Int → Int
  | [] => d
  | x :: t => if t.isEmpty then x else max x (maxInt d t)

/-- The row of fadd, fsub and frint. -/
def kAdd (srcs : List KSrc) (er : Int) : Int :=
  let ine := srcs.filter (fun s => !s.exact)
  if ine.any (·.zero) then 0 else er - maxInt 0 (ine.map (·.eps))

/-- The row of fmul and fdiv. -/
def kMul (a b : KSrc) (_er : Int) : Int :=
  if a.zero || b.zero then 0
  else if a.exact then b.k
  else if b.exact then a.k
  else (min a.k b.k : Nat) - 1

/-- The product of an fma as a source of the fadd row; `ep` is its exponent, none for a zero product. -/
def kProduct (a b : KSrc) (ep : Option Int) : KSrc :=
  if a.exact && b.exact then .exactSrc
  else
    match ep with
    | none => { k := 0, eps := 0, zero := true }
    | some e => { k := 0, eps := e - kMul a b 0, zero := a.zero || b.zero }

/-- A unary row of R226. -/
def kUnary (f : KSrc → Int → Int) (a : KSrc) (er : Int) : Int := if a.zero then 0 else f a er

/-- What a VP result writes: its cells, the flags raised, and the K to hold against FLOOR, if the check of R228
applies. -/
structure VpOut where
  cells : List Nat
  flags : Flags
  low   : Option Nat
deriving DecidableEq, Repr

/-- Round to a working length: significand of s + 1 bits, exponent of its leading bit, inexactness. -/
def vpRound (s : Nat) (rm : RMode) (x : Exact) (draw : Nat) : Nat × Int × Bool :=
  let q := x.top - s
  let (n, ix) := roundAt rm x q draw
  if n = 2 ^ (s + 1) then (2 ^ s, q + 1 + s, ix) else (n, q + s, ix)

/-- The K of a finite result and whether FLOOR applies to it (R226, R228). -/
def vpK (s : Nat) (kr : KRule) (er : Int) (ix : Bool) : Nat × Option Nat :=
  match kr with
  | .rule srcs k =>
    if srcs.all (·.exact) then (if ix then s else 127, none)
    else
      let r := (clampI 0 s (k er)).toNat
      (r, some r)
  | .copy k => (if k = 127 then (if ix then s else 127) else min k s, none)

/-- The rule makes a zero result exact (R226, R394). DEDUCED: assumption 39. -/
def vpZeroOut (neg : Bool) (l : Nat) (kr : KRule) (fl : Flags) (under : Bool) : VpOut :=
  match kr with
  | .rule srcs _ =>
    if srcs.all (·.exact) then { cells := vpZero neg l (if under then 0 else 127), flags := fl, low := none }
    else { cells := vpZero neg l 0, flags := fl, low := some 0 }
  | .copy k => { cells := vpZero neg l (if k = 127 && !under then 127 else 0), flags := fl, low := none }

/-- Write a finite non-zero VP result of s + 1 significand bits. -/
def vpFinOut (s l : Nat) (neg : Bool) (n : Nat) (er : Int) (ix : Bool) (kr : KRule) (fl : Flags) : VpOut :=
  let (k, low) := vpK s kr er ix
  { cells := vpEncode neg (er + 16383).toNat l k ((n - 2 ^ s) * 2 ^ (vpFrac l - s)), flags := fl, low := low }

/-- Finish an operation in VP: working length s, l extra cells (R216, R217, R219, R223, R226). -/
def vpFinish (s l : Nat) (rm : RMode) (sat : Bool) (draw : Nat) (r : FRes) (kr : KRule) : VpOut :=
  match r with
  | .nan nv => { cells := vpNan l, flags := { nv := nv }, low := none }
  | .inf neg fromInf dz =>
    if sat && !fromInf then vpFinOut s l neg (2 ^ (s + 1) - 1) 16383 true kr { dz := dz }
    else { cells := vpInf neg l, flags := { dz := dz }, low := none }
  | .zero neg => vpZeroOut neg l kr {} false
  | .num x =>
    let (n, er, ix) := vpRound s rm x draw
    if er < -16382 then vpZeroOut x.neg l kr { uf := true, ix := true } true
    else if 16383 < er then
      if ovfInf rm x.neg && !sat then { cells := vpInf x.neg l, flags := { of := true, ix := true }, low := none }
      else vpFinOut s l x.neg (2 ^ (s + 1) - 1) 16383 true kr { of := true, ix := true }
    else vpFinOut s l x.neg n er ix kr { ix := ix }

/-- A value already of some format, as an outcome of a move. -/
def resOf : FVal → FRes
  | .nan s => .nan s
  | .inf n => .inf n true false
  | .fin n m e => if m = 0 then .zero n else .num { neg := n, m := m, e := e, st := false }

end Sys2Proof
end

