-- ==== Sys2Proof/Machine/Price.lean ====
section
/-!
DEFINITION. Prices (R73 to R75): the price class of every stream instruction, which of its sources it reads and in what format,
and the price index of a lane instruction. -/
namespace Sys2Proof.Machine

/-- The price class of a scalar instruction (R270 to R272); none for an event or a lane instruction. -/
def scalarClass (i : Instr) : Option Nat :=
  match i with
  | .add _ _ _ => some 1 | .sub _ _ _ => some 1 | .and _ _ _ => some 1 | .or _ _ _ => some 1 | .xor _ _ _ => some 1
  | .andn _ _ _ => some 1 | .shl _ _ _ => some 1 | .shr _ _ _ => some 1 | .sar _ _ _ => some 1
  | .min _ _ _ => some 1 | .max _ _ _ => some 1 | .minn _ _ _ => some 1 | .maxn _ _ _ => some 1
  | .clz _ _ => some 1 | .popc _ _ => some 1
  | .addImm _ _ _ => some 1 | .andImm _ _ _ => some 1 | .orImm _ _ _ => some 1 | .xorImm _ _ _ => some 1
  | .shlImm _ _ _ => some 1 | .shrImm _ _ _ => some 1 | .sarImm _ _ _ => some 1
  | .cmp _ _ _ _ => some 1 | .cmpImm _ _ _ _ => some 1 | .sel _ _ _ _ _ => some 1 | .li _ _ => some 1
  | .lih _ _ _ => some 1 | .srd _ _ => some 1 | .swr _ _ => some 1 | .sfmt _ => some 1
  | .mul _ _ _ => some 2 | .mulh _ _ _ => some 2 | .mulhn _ _ _ => some 2 | .mulImm _ _ _ => some 2
  | .div _ _ _ => some 3 | .divn _ _ _ => some 3 | .rem _ _ _ => some 3 | .remn _ _ _ => some 3
  | .br _ _ _ => some 4 | .jmp _ => some 4 | .call _ => some 4 | .jmpr _ _ => some 4 | .loop _ _ => some 4
  | .trap _ => some 4 | .tret => some 4 | .brk => some 4
  | .ld _ _ _ _ _ => some 5 | .st _ _ _ _ => some 5 | .atom _ _ _ _ _ _ => some 5 | .pref _ _ _ _ => some 5
  | .vlq _ _ _ _ _ _ => some 6 | .vlqg _ _ _ _ _ _ => some 6 | .vsq _ _ _ _ _ _ => some 6
  | .vsqs _ _ _ _ _ _ => some 6
  | .lrun _ _ _ _ _ => some 7 | .lsync => some 7 | .rqpop _ => some 7
  | .nop => some 0
  | .board _ => some 8 | .unboard _ => some 8 | .rdc _ _ => some 8 | .bar => some 8 | .cbar => some 8
  | .tbar _ _ => some 8 | .kick _ _ => some 8 | .exit => some 8 | .regroup _ => some 8 | .accalloc _ => some 8
  | .accfree _ => some 8 | .rgateClose _ => some 8 | .rgateOpen _ => some 8 | .pintentDev _ _ _ => some 8
  | .pintentJob _ _ _ => some 8 | .tkrd _ _ => some 8 | .waitc _ _ => some 8
  | .mma _ _ _ _ => some 8 | .copy _ _ _ _ => some 8 | .copyx _ _ _ _ => some 8 | .coll _ _ => some 8
  | .rput _ _ _ _ => some 8 | .rget _ _ _ _ => some 8 | .rred _ _ _ _ => some 8 | .trig _ _ _ _ => some 8
  | .waitm _ _ _ _ => some 8 | .sigAdd _ _ _ => some 8 | .sigStore _ _ _ => some 8 | .fence _ => some 8
  | _ => none

/-- The price class of a lane opcode (R283). -/
def laneClass (op : Nat) : Nat :=
  if op = 1 then 0
  else if op ≤ 0x011 ∨ op = 0x017 ∨ op = 0x018 ∨ op = 0x019 then 0x11
  else if op ≤ 0x014 then 0x12
  else if op ≤ 0x016 then 0x13
  else if op ≤ 0x021 then 0x10
  else if op ≤ 0x024 ∨ op = 0x028 then 0x11
  else if op ≤ 0x027 then 0x10
  else if op = 0x042 ∨ op = 0x043 then 0x15
  else if op ≤ 0x048 ∨ (0x052 ≤ op ∧ op ≤ 0x054) then 0x14
  else if op ≤ 0x04C then 0x16
  else if op ≤ 0x051 then 0x17
  else if op ≤ 0x066 ∨ 0x0D0 ≤ op then 0x18
  else if op ≤ 0x075 then 0x10
  else if op ≤ 0x083 then 0x19
  else if op ≤ 0x094 then 0x1C
  else if op ≤ 0x0A6 ∨ 0x0C0 ≤ op then 0x1A
  else 0x1B

/-- The sources of a lane instruction that are read as values or addresses, of A, B and C (R283). -/
def readsSource (op : Nat) (f : LaneF) (i : Nat) : Bool :=
  match laneSpec op with
  | none => false
  | some sp =>
    match (match i with | 0 => sp.a | 1 => sp.b | _ => sp.c) with
    | .value => !(op == 0x0A2 && i == 2 && f.imm != 9) && !(op == 0x0C1 && i == 1)
    | .slot => true
    | .addr => true
    | _ => false

/-- The lanes a lane instruction acts on (R279). -/
def Group.lanes (g : Group) (f : LaneF) : Lanes :=
  let m := g.mread f.guard.toNat
  g.act &&& (if f.gneg then ~~~ m else m)

/-- The 64-bit value of a uniform source other than the immediate (R280). -/
def State.uniformOf (s : State) (g : Group) (i l : Nat) : Nat :=
  if i < 4 then (g.slotK i).toNat
  else
    match i with
    | 0x08 => l
    | 0x09 => (tblGet 0 g.thread l).toNat % 2 ^ 32
    | 0x0A => (tblGet 0 g.thread l).toNat / 2 ^ 32
    | 0x0B => g.grpid
    | _ => (s.team (teamOf s.cur)).teamid

/-- The extra cells of a source of format 0x20 in a lane, as read. -/
def State.sourceLen (s : State) (g : Group) (lane : Nat) (o : Operand) : Nat :=
  if o.kind = 0 then vpStoredLen (g.cell lane o.index.toNat)
  else if o.kind = 2 ∧ o.index ≠ 4 then vpStoredLen (s.uniformOf g o.index.toNat lane % 2 ^ 32)
  else 0

/-- L of source i in a lane as read (R75): a fixed container has its own, and a source that is no VP value none. -/
def State.readLen (s : State) (g : Group) (op : Nat) (f : LaneF) (lane i : Nat) : Nat :=
  let fmt := sourceFmt op f i
  if !readsSource op f i then 0
  else if fmt = 0x20 then s.sourceLen g lane (sourceField f i)
  else if 0x21 ≤ fmt ∧ fmt ≤ 0x24 then fmt - 0x21
  else 0

/-- The working length of a lane (R225). -/
def Group.workLen (g : Group) (lane : Nat) : Nat := fld (tblGet 0 g.prec lane).toNat 0 7

/-- The price index a lane instruction presents (R75): class 0x00 with no lane to act on; in format 0x20 the largest L
of its VP sources as read and of the length that PREC.S sets. -/
def State.laneIndex (s : State) (g : Group) (op : Nat) (f : LaneF) : Nat :=
  let ls := g.lanes f
  if ls = 0 then priceIndex 0 0 0
  else
    let cls := laneClass op
    let fmt := f.fmt.toNat
    let l :=
      if fmt = 0x20 then
        ((lanesOf ls).map (fun x =>
          (List.range 3).foldl (fun m i => max m (s.readLen g op f x i)) (vpLenOf (g.workLen x)))).foldl max 0
      else if 0x21 ≤ fmt ∧ fmt ≤ 0x24 then fmt - 0x21
      else 0
    if flatClass cls then priceIndex cls 0 0 else priceIndex cls fmt l

end Sys2Proof.Machine
end

