-- ==== Sys2Proof/Machine/Cornice.lean ====
section
/-!
DEFINITION. The Cornice (R32 to R71): the lap table, stations, gates, rate control, the tap and its captures. -/
namespace Sys2Proof.Machine

/-! ## Ordinals and tiles (R32, R38) -/

/-- The ring ordinal of a die, and the die of an ordinal (R32). -/
def ringOrd (d : Nat) : Nat := if d < 4 then d else 11 - d

/-- A format the ring carries (R38). -/
def ringFmt (f : Nat) : Bool := f == 8 || f == 9 || f == 0x0C || f == 0x0D || isBfpFmt f

/-- The element width of a tile or matrix operand format (R38). -/
def elemBits (f : Nat) : Nat := if isBfpFmt f then bfpBits f else fmtWidth f

/-- Rows of a tile (R38). -/
def tileK (f : Nat) : Nat :=
  if isBfpFmt f then min 512 (32 * (64 / bfpBits f)) else if fmtWidth f = 16 then 128 else 256

/-- Payload bytes in use of a tile (R38). -/
def payloadBytes (f : Nat) : Nat := 128 * tileK f * elemBits f / 8

/-- Scale bytes of a tile (R38). -/
def scaleBytes (f : Nat) : Nat := if isBfpFmt f then 128 * tileK f / 32 else 0

/-! ## The lap table (R33, R40, R41) -/

/-- A lap table entry as 32 bytes hold it (R40). -/
def lapEntryOf (b : List Byte) : LapEntry :=
  let w := leNat b
  { layer := fld w 0 16, die := fld w 16 3, phase := fld w 19 4, fmt := fld w 23 6, first := fld w 32 24,
    count := fld w 64 24, vbase := fld w 96 56, pad := fld w 160 32 }

/-- Reserved fields of an entry are zero (R41). -/
def lapReserved (b : List Byte) : Bool :=
  let w := leNat b
  fld w 29 3 == 0 && fld w 56 8 == 0 && fld w 88 8 == 0 && fld w 152 8 == 0 && fld w 192 64 == 0

/-- Every page of a range is mapped and passes a test. -/
def rangePages (pages : Tbl Page) (p : Page → Bool) : Nat → Nat → Nat → Bool
  | 0, _, n => n == 0
  | k + 1, a, n =>
    n == 0 ||
      match pageAt pages a with
      | none => false
      | some (b, pg) => p pg && rangePages pages p k (b + pg.size) (a + n - (b + pg.size))

/-- A range is mapped throughout in pages that pass a test. -/
def State.allMapped (s : State) (a n : Nat) (p : Page → Bool) : Bool := rangePages s.pages p (s.pages.length + 1) a n

/-- An entry on its own meets R40 and R41. -/
def State.lapEntryOk (s : State) (e : LapEntry) : Bool :=
  e.count != 0 && decide (e.first + e.count ≤ 2 ^ 24) && e.phase != 0 && ringFmt e.fmt && e.vbase % 4096 == 0 &&
    s.allMapped e.vbase (36864 * e.count) (fun p => p.allows .read && p.home == e.die && (p.kind == .hbm || p.kind == .scratch))

/-- Two entries name a common tile (R41). -/
def LapEntry.clash (a b : LapEntry) : Bool :=
  a.layer == b.layer && a.phase == b.phase && decide (a.first < b.first + b.count) && decide (b.first < a.first + a.count)

/-- No two entries of a list clash. -/
def lapDisjoint : List LapEntry → Bool
  | [] => true
  | e :: t => t.all (fun x => !e.clash x) && lapDisjoint t

/-- The length of a die's stream (R33). -/
def streamLen (l : List LapEntry) (d : Nat) : Nat :=
  ((l.filter (·.die == d)).map (fun e => e.count + e.pad)).foldl (· + ·) 0

/-- Q (R33). -/
def lapQ (l : List LapEntry) : Nat := (List.range 8).foldl (fun m d => max m (streamLen l d)) 0

/-- The slots of a lap per station: an empty image runs as though Q were 1 (R41). -/
def LapImage.turns (i : LapImage) : Nat := max i.q 1

/-- Slot q of a stream: the entry and the tile within it, or none for an EMPTY slot (R33). -/
def streamSlot : List LapEntry → Nat → Option (LapEntry × Nat)
  | [], _ => none
  | e :: t, q =>
    if q < e.count then some (e, q)
    else if q < e.count + e.pad then none
    else streamSlot t (q - (e.count + e.pad))

/-- The slot of a die's stream in an image. -/
def LapImage.slot (i : LapImage) (d q : Nat) : Option (LapEntry × Nat) := streamSlot (i.entries.filter (·.die == d)) q

/-- The image in force in a lap. -/
def Ring.image (r : Ring) (lap : Nat) : LapImage := (r.images.filter (fun e => e.1 ≤ lap)).getLast?.map (·.2) |>.getD {}

/-- The images in force in a lap and in those after it. -/
def Ring.imagesFrom (r : Ring) (lap : Nat) : Tbl LapImage :=
  let from_ := ((r.images.filter (fun e => e.1 ≤ lap)).getLast?.map (·.1)).getD 0
  r.images.filter (fun e => from_ ≤ e.1)

/-- The lap in which some station still is. -/
def State.lastLap (s : State) : Nat :=
  (List.range 8).foldl (fun m d => min m (s.die d).station.lap) (s.die 0).station.lap

/-- Images of laps that no station is in and of which no slot is on the loop are forgotten. -/
def State.pruneImages (s : State) : State :=
  let low := s.ring.slots.foldl (fun m e => if e.2.kind = 3 then m else min m e.2.lap) s.lastLap
  { s with ring := { s.ring with images := s.ring.imagesFrom low } }

/-- The active image: that of the lap die 0's station is in. -/
def State.activeImage (s : State) : LapImage := s.ring.image (s.die 0).station.lap

/-! ## Gates (R43 to R45) -/

/-- Change a gate; a gate already so is not changed (R415). -/
def State.setGate (s : State) (layer : Nat) (isOpen : Bool) : State :=
  if tblGet false s.ring.gates layer == isOpen then s
  else { s with ring := { s.ring with
    gates := tblSet false s.ring.gates layer isOpen
    changes := tblPut s.ring.changes layer (tblGet 0 s.ring.changes layer + 1) } }

/-! ## Rate control (R47, R48, R70) -/

/-- The first frame boundary at least 128 octets after an announcement (R48). -/
def gapBoundary (ann : Nat) : Nat := (ann + 128 + 63) / 64 * 64

/-- G in force at an octet (R48). -/
def Ring.gapsAt (r : Ring) (n : Nat) : Nat :=
  let old := if n < r.gapsFrom then r.gapsOld else r.gaps
  match r.next with
  | some (g, ann) => if gapBoundary ann ≤ n then g else old
  | none => old

/-- Octet i of a frame is a gap octet (R47). -/
def gapOctet (g i : Nat) : Bool := decide (i * g / 64 < (i + 1) * g / 64)

/-- The announced G is in force from its boundary on (R48). -/
def Ring.settleGaps (r : Ring) (octet : Nat) : Ring :=
  match r.next with
  | none => r
  | some (g, ann) =>
    if octet < gapBoundary ann then r
    else { r with gapsOld := r.gapsAt (gapBoundary ann - 1), gaps := g, gapsFrom := gapBoundary ann, next := none }

/-- GAP_ANNOUNCEMENT (R48, R92): F4 announces the G that F5 chose, to take effect at its own boundary; one already due is first
in force, and one still pending is replaced. -/
def execGapAnnouncement (s : State) : Out :=
  let octet := (s.die 0).station.octet
  let r := s.ring.settleGaps octet
  match r.chosen with
  | none => .next s
  | some g => .next { s with ring := { r with next := some (g, octet), chosen := none } }

/-- GAP_RATE_CHANGE (R48): due at the frame boundary. -/
def execGapRateChange (s : State) : Out := .next { s with ring := s.ring.settleGaps (s.die 0).station.octet }

/-! ## Stations (R42, R45, R47) -/

/-- The image of a lap that a station is in or comes to: a pending one becomes active at die 0's next boundary (R41). -/
def State.imageAt (s : State) (lap : Nat) : LapImage :=
  if lap ≤ (s.die 0).station.lap then s.ring.image lap else s.ring.pending.getD (s.ring.image lap)

/-- The lap, image and slot that stand `k` slots after the start of a lap. -/
def State.walkLaps (s : State) : Nat → Nat → Nat → Nat × LapImage × Nat
  | 0, lap, k => (lap, s.imageAt lap, k)
  | n + 1, lap, k =>
    let im := s.imageAt lap
    if k < im.turns then (lap, im, k) else State.walkLaps s n (lap + 1) (k - im.turns)

/-- Where a die's stream stands `i` injections ahead: lap, image and slot. -/
def State.ahead (s : State) (d i : Nat) : Nat × LapImage × Nat :=
  let st := (s.die d).station
  s.walkLaps (i + 2) st.lap (st.q + i)

/-- The injections that are due within 512 slot times, which are 64 octets, gap octets among them (R42, R47). -/
def State.injections (s : State) (d : Nat) : Nat :=
  let o := (s.die d).station.octet
  ((List.range 65).filter (fun i => !gapOctet (s.ring.gapsAt (o + i)) ((o + i) % 64))).length

/-- The key of a station's read. -/
def readKey (lap q : Nat) : Nat := lap * 2 ^ 32 + q

/-- The address of the record of tile t of an entry (R40). -/
def LapEntry.record (e : LapEntry) (t : Nat) : Nat := e.vbase + 36864 * t

/-- A read is of the record that a slot carries. -/
def StationRead.isOf (r : StationRead) (e : LapEntry) (t : Nat) : Bool := r.addr == e.record t && r.layer == e.layer

/-- STATION_READ_ISSUE (R42): the read of the next DATA slot due within 512 slot times is issued at device scope at the record's
home. -/
def execStationReadIssue (die : Nat) (s : State) : Out :=
  let st := (s.die die).station
  let next := (List.range (s.injections die)).findSome? (fun i =>
    let (lap, im, q) := s.ahead die i
    match im.slot die q with
    | some (e, t) => if (tblFind st.reads (readKey lap q)).any (fun r => r.isOf e t) then none else some (readKey lap q, e, t)
    | none => none)
  match (if s.firm.up then next else none) with
  | none => .next s
  | some (key, e, t) =>
    let a := e.record t
    let r : StationRead :=
      { addr := a, layer := e.layer, epoch := tblGet 0 s.ring.changes e.layer
        bytes := s.homeRead a 34816, bad := s.homePoison a 34816 }
    .next ((s.updDie die (fun k => { k with station := { k.station with reads := tblPut k.station.reads key r } })).visitHome
      die a 34816)

/-- The slot a station injects for a tile of its stream (R36, R38, R42, R44, R45); one whose own read has not been made, as where
the image has changed, is LATE. DEDUCED: assumption 26. -/
def tileSlot (s : State) (die lap q pos : Nat) (e : LapEntry) (t : Nat) : Slot :=
  let base : Slot := { die := die, phase := e.phase, layer := e.layer, tile := e.first + t, fmt := e.fmt, pos := pos, lap := lap }
  if !tblGet false s.ring.gates e.layer then { base with kind := 2 }
  else
    match (tblFind (s.die die).station.reads (readKey lap q)).filter (fun r => r.isOf e t) with
    | none => { base with kind := 4 }
    | some r =>
      if r.epoch ≠ tblGet 0 s.ring.changes e.layer then { base with kind := 2 }
      else
        { base with kind := 1, bad := r.bad, sclen := scaleBytes e.fmt / 64, payload := r.bytes.take (payloadBytes e.fmt)
                    scales := (r.bytes.drop 32768).take 2048 }

/-- A station's turn comes when no station stands earlier on the loop: ordinal o treats octet n at slot time
8 (n + o) (R32, R47). -/
def State.injectionDue (s : State) (die : Nat) : Bool :=
  s.firm.up && decide (die < 8) &&
    (List.range 8).all (fun d => decide ((s.die die).station.octet + ringOrd die ≤ (s.die d).station.octet + ringOrd d))

/-- SLOT_INJECTION (R42, R47): the station injects its slot of the octet, or passes a gap octet; as POS 0 passes die 0's
station, a pending image becomes active (R41). The die pays for the octet's 8 slot times (R74): a GAP slot costs 2,000 under a
loaded table too, which has no entry of its own for it (DESIGN CHOICE, assumption 9). -/
def execSlotInjection (die : Nat) (s : State) : Out :=
  if !s.injectionDue die then .next s
  else
    let st := (s.die die).station
    let key := 8 * st.octet + ringOrd die
    if gapOctet (s.ring.gapsAt st.octet) (st.octet % 64) then
      .next (({ s with ring := { s.ring with slots := tblPut s.ring.slots key { kind := 3 } } }.updDie die
        (fun k => { k with station := { k.station with octet := st.octet + 1 } })).charge die (8 * 2000))
    else
      let (lap, im, q) := s.ahead die 0
      let pos := 8 * q + ringOrd die
      let slot : Slot :=
        match im.slot die q with
        | some (e, t) => tileSlot s die lap q pos e t
        | none => { kind := 0, pos := pos, lap := lap }
      let s := if slot.bad then s.tellF6 slot.tile die else s
      let ring := { s.ring with slots := tblPut s.ring.slots key slot }
      let ring :=
        match (if die == 0 && lap != st.lap then ring.pending else none) with
        | some p => { ring with images := tblPut ring.images lap p, pending := none, lastImg := p.img }
        | none => ring
      .next (({ s with ring := ring }.updDie die (fun k => { k with station := { k.station with
        octet := st.octet + 1, lap := lap, q := q + 1
        reads := tblDel k.station.reads (readKey lap q) } })).pruneImages.charge die
          (8 * (if s.pricever = 0 then 9000 else s.price (priceIndex 0x33 0 0))))

/-! ## A slot's bytes and checks (R35 to R37) -/

/-- The header of a slot, 64 bytes (R36). -/
def Slot.header (x : Slot) : List Byte :=
  leBytes 64 (x.kind + x.bad.toNat * 2 ^ 3 + x.die * 2 ^ 8 + x.phase * 2 ^ 11 + x.layer * 2 ^ 16 + x.tile * 2 ^ 32 +
    x.fmt * 2 ^ 64 + x.sclen * 2 ^ 72 + x.pos * 2 ^ 96 + x.lap % 2 ^ 48 * 2 ^ 128)

/-- The fields of a header as received. -/
def slotOfHeader (b : List Byte) : Slot :=
  let w := leNat b
  { kind := fld w 0 3, bad := fld w 3 1 == 1, die := fld w 8 3, phase := fld w 11 4, layer := fld w 16 16,
    tile := fld w 32 24, fmt := fld w 64 6, sclen := fld w 72 6, pos := fld w 96 32, lap := fld w 128 48 }

/-- Fill a byte list with zeros up to a length. -/
def padTo (n : Nat) (l : List Byte) : List Byte := l ++ List.replicate (n - l.length) 0

/-- Beat 0 of a slot as injected: header, scale region, zeros, check fields (R35, R37). -/
def Slot.beat0 (x : Slot) : List Byte :=
  let hdr := x.header
  let sc := padTo 2048 x.scales
  let pay := padTo 32768 x.payload
  let crcs := crc32 hdr :: crc32 sc :: (List.range 8).map (fun i => crc32 (bytesAt pay (4096 * i) 4096))
  hdr ++ sc ++ List.replicate 1944 0 ++ crcs.flatMap (fun c => leBytes 4 c.toNat)

/-- Bytes with some of them disturbed: `noise` gives offsets within the slot, the list begins at offset `off`. -/
def disturb (off : Nat) (noise : List (Nat × Byte)) (l : List Byte) : List Byte :=
  noise.foldl (fun l e => if off ≤ e.1 then updAt l (e.1 - off) (· ^^^ e.2) else l) l

/-- HCRC is good in a beat 0 as received (R49). -/
def headerGood (b : List Byte) : Bool := crc32 (bytesAt b 0 64) == BitVec.ofNat 32 (numAt b 4056 4)

/-- SCRC and every PCRC are good (R52). -/
def payloadGood (b pay : List Byte) : Bool :=
  crc32 (bytesAt b 64 2048) == BitVec.ofNat 32 (numAt b 4060 4) &&
    (List.range 8).all (fun i => crc32 (bytesAt pay (4096 * i) 4096) == BitVec.ofNat 32 (numAt b (4064 + 4 * i) 4))

/-! ## Boardings as the tap sees them (R57, R59, R60) -/

/-- Fields of the boarding descriptor (R57). -/
def Boarding.field (b : Boarding) (lo n : Nat) : Nat := fld (leNat b.desc) lo n
/-- FIRST. -/
def Boarding.first (b : Boarding) : Nat := b.field 32 24
/-- COUNT. -/
def Boarding.count (b : Boarding) : Nat := b.field 64 16
/-- STRIDE. -/
def Boarding.stride (b : Boarding) : Nat := b.field 80 16
/-- FOLLOW. -/
def Boarding.follow (b : Boarding) : Bool := b.field 22 1 == 1
/-- POLICY FAULT. -/
def Boarding.faults (b : Boarding) : Bool := b.field 21 1 == 1
/-- RELEASE. -/
def Boarding.releases (b : Boarding) : Bool := b.field 23 1 == 1

/-- The rank of a tile the boarding selects (R57). -/
def Boarding.rankOf (b : Boarding) (tile : Nat) : Option Nat :=
  if tile < b.first ∨ (tile - b.first) % b.stride ≠ 0 ∨ b.count ≤ (tile - b.first) / b.stride then none
  else some ((tile - b.first) / b.stride)

/-- The boarding selects a layer's occurrence (R57). -/
def Boarding.selects (b : Boarding) (layer phase : Nat) : Bool :=
  b.field 0 16 == layer && (b.field 16 4 == 0 || b.field 16 4 == phase)

/-- TSEQ of a lap position at a tap on the die of ordinal o (R34). -/
def tapSeq (o pos : Nat) : Nat := if pos % 8 ≤ o then pos else pos + 56

/-- The first tile of an entry that the boarding selects and has not released: its place in the entry (R57, R67). -/
def Boarding.firstIn (b : Boarding) (e : LapEntry) : Option Nat :=
  if !b.selects e.layer e.phase then none
  else (List.range b.count).findSome? (fun j =>
    let t := b.first + j * b.stride
    if !b.released.contains j && decide (e.first ≤ t) && decide (t < e.first + e.count) then some (t - e.first) else none)

/-- Lap positions at which each entry of a die's stream first shows a tile still wanted. -/
def Boarding.firstSlots (b : Boarding) (d : Nat) : Nat → List LapEntry → List Nat
  | _, [] => []
  | q, e :: t =>
    let rest := b.firstSlots d (q + e.count + e.pad) t
    match b.firstIn e with
    | some i => (8 * (q + i) + ringOrd d) :: rest
    | none => rest

/-- The lap position of the wanted tile that arrives first at a tap on the die of ordinal o (R60, R67). -/
def Boarding.earliest (b : Boarding) (im : LapImage) (o : Nat) : Option Nat :=
  let ps := (List.range 8).flatMap (fun d => b.firstSlots d 0 (im.entries.filter (·.die == d)))
  ps.foldl (fun m p => match m with | none => some p | some x => if tapSeq o p < tapSeq o x then some p else some x) none

/-- A lap position's slot has still to pass a tap that stands at slot time u on the die of ordinal o: it is on its way there, or its
station has not injected it yet (R33, R34). -/
def State.slotToCome (s : State) (o u lap pos : Nat) : Bool :=
  match s.ring.slots.find? (fun e => e.2.kind != 3 && e.2.lap == lap && e.2.pos == pos) with
  | some e => decide (u < (if e.1 % 8 ≤ o then e.1 else e.1 + 56))
  | none =>
    let st := (s.die (ringOrd (pos % 8))).station
    decide (st.lap < lap) || (st.lap == lap && decide (st.q ≤ pos / 8))

/-- An ORDERED boarding with no lap yet chooses one as the slot passes where a lap's earliest wanted tile stands: that lap, or
one begun before it whose own earliest tile has still to pass, as at a change of images; it is the first such lap whose tile had
not passed at arming (R60). -/
def State.chooseLap (s : State) (o u : Nat) (x : Slot) (b : Boarding) : Boarding :=
  if b.ordered && b.lap.isNone && x.kind != 3 && b.earliest (s.ring.image x.lap) o == some x.pos then
    { b with lap := some (((List.range 8).findSome? (fun i =>
        let n := x.lap + i - 7
        match (if 7 ≤ x.lap + i && i < 7 then b.earliest (s.ring.image n) o else none) with
        | some p => if s.slotToCome o u n p then some n else none
        | none => none)).getD x.lap) }
  else b

/-- The boarding may take a rank from a slot of a lap, of which the header shows 48 bits: any if ANY; else its lap, or a later
one where the tile passed in its lap untaken (R59, R60). -/
def Boarding.mayTake (b : Boarding) (lap j : Nat) : Bool :=
  !b.ordered ||
    (match b.lap with
    | some n => lap == n % 2 ^ 48 || (b.missed.contains j && decide ((lap + 2 ^ 48 - n % 2 ^ 48) % 2 ^ 48 < 2 ^ 47))
    | none => false)

/-- A tile that passes in the chosen lap and is not taken waits for a later one (R60). -/
def Boarding.passBy (b : Boarding) (x : Slot) : Boarding :=
  match (if b.ordered && b.lap == some x.lap && x.kind != 0 && x.kind != 3 && b.selects x.layer x.phase then b.rankOf x.tile else none) with
  | some j => if b.captured.contains j || b.missed.contains j then b else { b with missed := b.missed ++ [j] }
  | none => b

/-! ## The tap (R49 to R52, R68, R71, R175, R176) -/

/-- Add 1 to a field of MISSCNT, which sticks at all ones (R71). -/
def missAdd (w : Word) (lo n : Nat) : Word :=
  if fld w.toNat lo n = 2 ^ n - 1 then w else w + BitVec.ofNat 64 (2 ^ lo)

/-- Count in a group's MISSCNT. -/
def State.miss (s : State) (h lo n : Nat) : State :=
  s.updGroup h (fun g => { g with sr := { g.sr with misscnt := missAdd g.sr.misscnt lo n } })

/-- Add to the tap's debt, and to TKUSED of the group it is for (R99, R176); the tap keeps one request for at most 8,192
tokens at the core bucket, at port 13. -/
def State.owe (s : State) (c h n : Nat) : State :=
  (s.updGroup h (fun g => { g with sr := { g.sr with tkused := g.sr.tkused + BitVec.ofNat 64 n } })).updCore c (fun k =>
    let d := k.debt + n
    { k with
      debt := d
      reqs := if k.reqs.any (·.port == 13) then k.reqs
              else k.reqs ++ [{ port := 13, amount := (min d 8192).toNat, since := s.clock }] })

/-- The lowest-numbered ARMED bank of a boarding (R61). -/
def Core.armedBank (k : Core) (id : Nat) : Option Nat :=
  (List.range 32).find? (fun i => let b := k.bank i; b.role == .tob && b.state == .armed && b.board == some id)

/-- The header and the scale region of a capture land in its bank with beat 0 (R51, R53). -/
def Core.landHead (k : Core) (f : Capture) : Core :=
  (k.lwrite (65536 * f.bank + 32768) f.scales).lwrite (65536 * f.bank + 34816) f.header

/-- One boarding's request for a slot: captured, or deferred and counted (R49, R50, R59, R60). -/
def State.tapServe (s : State) (c : Nat) (x : Slot) (beat pay : List Byte) (id : Nat) : State :=
  let k := s.core c
  match k.boards.find? (·.id == id) with
  | none => s
  | some b =>
    match (if b.selects x.layer x.phase then b.rankOf x.tile else none) with
    | none => s
    | some j =>
      if b.off || b.captured.contains j || b.released.contains j || !b.mayTake x.lap j then s
      else if x.kind = 4 then s.miss b.grp 0 24
      else if x.kind ≠ 1 then s
      else
        match (if (k.caps.filter (fun t => k.tapTime < t + 8)).length < 2 then k.armedBank id else none) with
        | none => s.miss b.grp 0 24
        | some n =>
          let cap : Capture :=
            { board := id, bank := n, rank := j, header := bytesAt beat 0 64, scales := bytesAt beat 64 2048
              payload := pay, corrupt := x.bad || !payloadGood beat pay, time := k.tapTime }
          (s.updCore c (fun k => { (k.updBank n (fun y => { y with state := .filling })).landHead cap with
            caps := k.tapTime :: k.caps.take 1
            fills := k.fills ++ [cap]
            boards := k.boards.map (fun y => if y.id == id then { y with captured := y.captured ++ [j] } else y) })).owe c
              b.grp (s.price (priceIndex 0x22 0 0))

/-- The key of the slot that arrives at a tap at its slot time u, on the die of ordinal o; none before the loop has
filled (R34). -/
def slotKey (o u : Nat) : Option Nat := if u % 8 ≤ o then some u else if 56 ≤ u then some (u - 56) else none

/-- Slots that every tap has seen are retired (R18). -/
def State.retireSlots (s : State) : State :=
  let low := (List.range 320).foldl (fun m c => min m (s.core c).tapTime) (s.core 0).tapTime
  { s with ring := { s.ring with slots := s.ring.slots.filter (fun e => decide (low ≤ e.1 + 56)) } }

/-- The place of a tap in the snake order of its die, and the tap at a place: the same sum (R17). -/
def snake (i : Nat) : Nat := i / 8 * 8 + (if i / 8 % 2 = 0 then i % 8 else 7 - i % 8)

/-- The next slot can be at a core's tap: it has passed the tap before it on the loop, or comes from the die's own station (R17,
R18). -/
def State.tapDue (s : State) (core : Nat) : Bool :=
  let d := dieOfCore core
  let o := ringOrd d
  let u := (s.core core).tapTime
  let p := snake (core % 40)
  if p ≠ 0 then decide (u < (s.core (40 * d + snake (p - 1))).tapTime)
  else if u % 8 = o then true
  else if o = 0 then decide (u < (s.core (40 * ringOrd 7 + 39)).tapTime + 56)
  else decide (u < (s.core (40 * ringOrd (o - 1) + 39)).tapTime)

/-- TAP_SLOT_ARRIVAL (R49, R51, R60): the next slot of the loop reaches a core's tap, disturbed by `noise`; what the slot before
made of RINGPOS is now seen. -/
def execTapSlotArrival (core : Nat) (noise : List (Nat × Byte)) (s : State) : Out :=
  let k := s.core core
  let o := ringOrd (dieOfCore core)
  let tick := fun s : State => (s.updCore core (fun k => { k with tapTime := k.tapTime + 1 })).retireSlots
  if !s.firm.up || 320 ≤ core || !s.tapDue core then .next s
  else
    match slotKey o k.tapTime with
    | none => .next (tick s)
    | some key =>
      match tblFind s.ring.slots key with
      | none => .next s
      | some x =>
        let beat := disturb 0 noise x.beat0
        let pay := disturb 4096 noise (padTo 32768 x.payload)
        let y := slotOfHeader (bytesAt beat 0 64)
        let s := s.updCore core (fun k => { k with
          ringpos := k.posNext.getD k.ringpos, posNext := none
          boards := k.boards.map (s.chooseLap o k.tapTime x) })
        let s :=
          if !headerGood beat || 4 < y.kind then s.tellF6 core (dieOfCore core)
          else
            let s := if y.kind = 3 then s
              else s.updCore core (fun k => { k with posNext := some (BitVec.ofNat 64 (y.pos + y.lap % 2 ^ 32 * 2 ^ 32)) })
            (k.boards.map (·.id)).foldl (fun s id => s.tapServe core y beat pay id) s
        .next (tick (s.updCore core (fun k => { k with boards := k.boards.map (fun b => b.passBy x) })))

/-- A boarding has every tile landed and, with FOLLOW, every follow-on issued (R63). -/
def Boarding.complete (b : Boarding) : Bool :=
  (List.range b.count).all (fun j =>
    b.released.contains j || (b.landed.any (·.1 == j) && (!b.follow || b.issued.contains j)))

/-- Banks a boarding did not use return to FREE (R61). -/
def Core.freeUnused (k : Core) (id : Nat) : Core :=
  (List.range 32).foldl (fun k i =>
    let b := k.bank i
    if b.role == .tob && b.state == .armed && b.board == some id then
      k.updBank i (fun b => { b with state := .free, board := none }) else k) k

/-- Operations outstanding on a core. -/
def Core.mmas (k : Core) : List MmaOp := k.arrays.flatMap (·.2) ++ k.follow

/-- A boarding still has a follow-on that has not begun (R66). -/
def Core.owesFollow (k : Core) (b : Boarding) : Bool :=
  k.mmas.any (fun o => !o.started && (match o.board with | some (i, _) => i == b.id | none => false))

/-- BOARDING_COMPLETE (R63): the boarding leaves the tap and its BOARD entry retires; what a save would still need of it stays
(R66). -/
def State.settleBoard (s : State) (c id : Nat) : State :=
  match (s.core c).boards.find? (·.id == id) with
  | none => s
  | some b =>
    if !b.complete then s
    else
      (s.updCore c (fun k => { k.freeUnused id with
        boards := k.boards.filter (·.id != id)
        past := k.past.filter k.owesFollow ++ (if b.follow then [{ b with done := true }] else []) })).updGroup b.grp
        (fun g => g.complete 2 id)

/-- CAPTURE_COMPLETE (R51 to R54): the last payload beat of the oldest capture lands and its outcome is known, and RINGPOS with it.
A bank whose boarding has ended goes FREE. -/
def execCaptureComplete (core : Nat) (s : State) : Out :=
  match (s.core core).fills with
  | [] => .next s
  | f :: rest =>
    let s := s.updCore core (fun k => { (k.lwrite (65536 * f.bank) f.payload).landHead f with
      fills := rest
      ringpos := if f.time + 1 = k.tapTime then k.posNext.getD k.ringpos else k.ringpos
      posNext := if f.time + 1 = k.tapTime then none else k.posNext })
    let s := if f.corrupt then s.tellF6 core (dieOfCore core) else s
    match (s.core core).boards.find? (fun b => b.id == f.board && !b.off) with
    | none => .next (s.updCore core (fun k => k.updBank f.bank (fun b => { b with state := .free, board := none })))
    | some b =>
      let upd := fun (k : Core) (st : TobState) (g : Boarding → Boarding) =>
        { k.updBank f.bank (fun b => { b with state := st }) with boards := k.boards.map (fun y => if y.id == b.id then g y else y) }
      if f.corrupt && !b.faults then
        .next ((s.updCore core (fun k => upd k .armed (fun y => { y with
          captured := y.captured.filter (· != f.rank)
          missed := if y.missed.contains f.rank then y.missed else y.missed ++ [f.rank] }))).miss b.grp 24 20)
      else
        let s := s.updCore core (fun k => upd k (if f.corrupt then .poisoned else .full) (fun y => { y with
          landed := y.landed ++ [(f.rank, f.bank)] }))
        let s := if f.corrupt then s.miss b.grp 44 20 else s
        .next (s.settleBoard core b.id)

end Sys2Proof.Machine
end

