-- ==== Sys2Proof/Machine/Access.lean ====
section
/-!
DEFINITION. Performing an access: recording and replay (R119), read-modify-writes (R308, R383), remote accesses (R105,
R389), and the step from the operand log to memory and back (R188 to R201). -/
namespace Sys2Proof.Machine

/-! ## Rank tables (R340) -/

/-- The entry of a rank in a job's table; none when it is invalid (R340, R344). -/
def State.rankEntry (s : State) (slot rank : Nat) : Option RankEntry :=
  match s.jobAt slot with
  | none => none
  | some j =>
    if j.n ≤ rank then none
    else
      let a := j.peers + 32 * rank
      if (pageAt s.pages a).isNone then none
      else
        let b := s.homeRead a 32
        if numAt b 5 1 % 2 = 0 ∨ numAt b 5 1 ≠ 1 ∨ numAt b 3 1 ≠ 0 ∨ 7 < numAt b 4 1 ∨ !zeroAt b 6 2 ∨
            !zeroAt b 18 14 then none
        else some { qp := numAt b 0 3, port := numAt b 4 1, key := BitVec.ofNat 32 (numAt b 8 4), mac := bytesAt b 12 6 }

/-- An entry is invalid; the device's own needs only VALID (R340). -/
def State.rankBad (s : State) (slot rank : Nat) : Bool :=
  if s.ownRank slot rank then
    match s.jobAt slot with
    | some j => decide (j.n ≤ rank) || (pageAt s.pages (j.peers + 32 * rank)).isNone ||
        (s.homeRead (j.peers + 32 * rank + 5) 1).all (fun b => b.toNat % 2 == 0)
    | none => true
  else (s.rankEntry slot rank).isNone

/-- The rank is the device's own, by a valid entry (R339, R340). -/
def State.ownValid (s : State) (slot rank : Nat) : Bool := s.ownRank slot rank && !s.rankBad slot rank

/-! ## Remote ends (R105, R340) -/

/-- Where a remote page's accesses go (R105, R340): port, queue pair, address and key, and the page they go by. -/
structure FarEnd where
  port : Nat
  qp   : Nat
  addr : Nat
  key  : BitVec 32
  via  : Option Nat := none
deriving DecidableEq, Repr

/-- A message to a remote end. -/
def FarEnd.msg (e : FarEnd) (m : Msg) : Msg := { m with port := e.port, qp := e.qp, addr := e.addr, rkey := e.key }

/-- Send a request to a remote end from a die: over the links to its port, and out of it (R74, R79, R105). `via` is the page
whose translation it took. -/
def State.sendFar (s : State) (die : Nat) (r : RemoteOp) (m : Msg) : State :=
  let (i, s) := s.fresh
  let s := (if m.port < 8 then s.crossMesh clsReq die m.port m.bytes.length else s).ethernet m.port m.bytes.length
  { s with remote := s.remote ++ [{ r with id := i, port := m.port, qp := m.qp, die := die }], out := s.out ++ [m] }

/-- The remote end of a mapped address, if its page is a WINDOW page, or a PEER page of another rank. -/
def State.farPage (s : State) (a : Nat) : Option FarEnd :=
  match pageAt s.pages a with
  | some (b, p) =>
    let x := p.rva + (a - b)
    (match p.kind with
    | .window => some { port := p.port, qp := p.qp, addr := x, key := p.rkey.getD 0, via := some b }
    | .peer =>
      if s.ownValid p.job p.rank then none
      else (s.rankEntry p.job p.rank).map (fun e => { port := e.port, qp := e.qp, addr := x, key := e.key, via := some b })
    | _ => none)
  | none => none

/-- The mapped address that a PEER page of the device's own rank stands for (R339, R389); another stands for itself. -/
def State.ownAddr (s : State) (a : Nat) : Nat :=
  match pageAt s.pages a with
  | some (b, p) => if p.kind == .peer && s.ownValid p.job p.rank then p.rva + (a - b) else a
  | none => a

/-! ## Values recorded, replayed or passed to a Scrim twin (R119, R260) -/

/-- The bytes of one record of a LOG segment (R119). -/
def recordBytes (src lane grp seq : Nat) (v : Word) : List Byte :=
  leBytes 1 src ++ leBytes 1 lane ++ leBytes 1 grp ++ leBytes 1 0 ++ leBytes 4 seq ++ leBytes 8 v.toNat

/-- Bytes of a grid's log (R119): as they were read at the launch where it lies in remote memory, the kernel descriptor before
them. -/
def State.logBytes (s : State) (gr : Grid) (a n : Nat) : List Byte :=
  match gr.fetch with
  | some key => (List.range n).map (fun i => tblGet 0 (tblGet {} s.fetches key).got (64 + (a + i - gr.logaddr)))
  | none => s.homeRead (s.ownAddr a) n

/-- The next record of a group in a segment, searched from a record on. -/
def findRecord (s : State) (gr : Grid) (base grp seq : Nat) : Nat → Nat → Option (List Byte)
  | 0, _ => none
  | n + 1, i =>
    let r := s.logBytes gr (base + 16 * i) 16
    if numAt r 2 1 = grp ∧ numAt r 4 4 = seq ∧ numAt r 0 1 ≠ 0 then some r else findRecord s gr base grp seq n (i + 1)

/-- The address of the next record of a group's team, where its grid records and the segment is not full (R119). -/
def State.recordAt (s : State) (h : Nat) : Option Nat :=
  let tm := s.team (teamOf h)
  let gr := s.grid tm.grid
  let seg := gr.loglen / max gr.teams 1
  if gr.flags.testBit 4 && !tm.isTwin && decide (tm.logpos + 16 ≤ seg) then some (gr.logaddr + tm.teamid * seg + tm.logpos) else none

/-- The home of an address takes no write now: its page has no backing yet, is on the move, or its die's bucket is choked (R79,
R188, R192). -/
def State.homeShut (s : State) (a : Nat) : Bool :=
  match pageAt s.pages a with
  | some (_, p) => (!p.backed && (p.kind == .hbm || p.kind == .scratch)) || s.homeStuck a
  | none => false

/-- A value of a group can be recorded now, or need not be. -/
def State.recordReady (s : State) (h : Nat) : Bool :=
  match s.recordAt h with
  | some a => !s.homeShut (s.ownAddr a)
  | none => true

/-- The page of an address is marked as wanted, where it has no backing (R188). -/
def State.wantPageOf (s : State) (addr : Nat) : State :=
  match pageAt s.pages addr with
  | some (b, p) => if p.backed then s else { s with pages := tblPut s.pages b { p with wanted := true } }
  | none => s

/-- What a record waits for is asked for. -/
def State.wantRecord (s : State) (h : Nat) : State :=
  match s.recordAt h with
  | some a => s.wantPageOf (s.ownAddr a)
  | none => s

/-- Append a record to the team's segment; one that has filled marks the log full (R119). A log in remote memory is written by
messages, which the grid's completion waits for. -/
def State.recordValue (s : State) (h src lane : Nat) (v : Word) : State :=
  let t := teamOf h
  let tm := s.team t
  let gr := s.grid tm.grid
  let seg := gr.loglen / max gr.teams 1
  let g := s.group h
  let a := gr.logaddr + tm.teamid * seg + tm.logpos
  let b := recordBytes src lane g.grpid g.recno v
  let full := fun (s : State) => s.updGrid tm.grid (fun x => { x with logfull := true })
  if seg < tm.logpos + 16 then full s
  else
    let s :=
      match s.farPage a with
      | some e => s.sendFar (s.dieOf h) { use := .log tm.grid, len := 16, via := e.via } (e.msg { kind := .rdmaWrite, bytes := b })
      | none => s.homeWrite (s.ownAddr a) b
    let s := (s.updTeam t (fun x => { x with logpos := x.logpos + 16 })).updGroup h (fun x => { x with recno := x.recno + 1 })
    if seg < tm.logpos + 32 then full s else s

/-- A value R119 lists, as the group gets it: the live one, recorded under REC, replayed under REPLAY (SRC 0 is neither), or for
a twin the primary's (R260). None when a twin must wait for it, or when the replay does not match and the team is reported. -/
def State.observe (s : State) (h src lane : Nat) (v : Word) : State × Option Word :=
  let tm := s.team (teamOf h)
  let gr := s.grid tm.grid
  let g := s.group h
  if tm.isTwin then
    match g.inbox with
    | [] => (s, none)
    | x :: t => (s.updGroup h (fun k => { k with inbox := t }), some x)
  else if gr.flags.testBit 5 && src != 0 then
    let seg := gr.loglen / max gr.teams 1
    match findRecord s gr (gr.logaddr + tm.teamid * seg) g.grpid g.recno (seg / 16) 0 with
    | some r =>
      if numAt r 0 1 = src ∧ numAt r 1 1 = lane then
        (s.updGroup h (fun k => { k with recno := k.recno + 1 }), some (BitVec.ofNat 64 (numAt r 8 8)))
      else (s.reportGroup h 0x16 0 (lane != 0xFF) g.pc lane, none)
    | none => (s.reportGroup h 0x16 0 (lane != 0xFF) g.pc lane, none)
  else
    let s := if gr.flags.testBit 4 && src != 0 then s.recordValue h src lane v else s
    match tm.twin with
    | some w => (s.updGroup (w * 128 + h % 128) (fun k => { k with inbox := k.inbox ++ [v] }), some v)
    | none => (s, some v)

/-! ## Read-modify-write (R308, R383) -/

/-- The new value of an atomic; none when a cas fails and writes nothing. Codes of R275; `fp` is the code of a
floating-point format, 0 for integers. -/
def atomicNew (op w old v cmp fp : Nat) : Option Nat :=
  let m := 2 ^ w
  let o := old % m
  let x := v % m
  match ffOf fp with
  | some lay =>
    (match op with
    | 0 => some x
    | 1 => some (combineF lay .add o x)
    | 5 => some (combineF lay .min o x)
    | 6 => some (combineF lay .max o x)
    | _ => if o = cmp % m then some x else none)
  | none =>
    match op with
    | 0 => some x
    | 1 => some ((o + x) % m)
    | 2 => some (o &&& x)
    | 3 => some (o ||| x)
    | 4 => some (o ^^^ x)
    | 5 => some (if toS w x < toS w o then x else o)
    | 6 => some (if toS w o < toS w x then x else o)
    | 7 => some (if x < o then x else o)
    | 8 => some (if o < x then x else o)
    | _ => if o = cmp % m then some x else none

/-! ## Queue pushes that were held for a load (R282) -/

/-- Capacity of a store or address queue (R151). -/
def queueCap : Nat := 4

/-- Push the entries of an element to sq0 to sq3 or to an address queue; `data` is keyed lane x 4 + part, and an
address entry holds both halves (R151). -/
def Group.pushQueue (g : Group) (q n : Nat) (mask : Lanes) (data : Tbl Nat) (seq : Nat) : Group :=
  let at_ := fun (part l : Nat) => tblGet 0 data (l * 4 + part)
  let fill := fun (f : Nat → Nat) => (lanesOf mask).foldl (fun t l => tblSet 0 t l (f l)) ([] : Tbl Nat)
  if q < 4 then
    let es := (List.range n).map (fun p => ({ data := fill (at_ p), mask := mask, seq := seq } : QEntry))
    { g with sq := tblPut g.sq q (tblGet [] g.sq q ++ es) }
  else
    let e : QEntry := { data := fill (fun l => at_ 0 l + at_ 1 l * 2 ^ 32), mask := mask, seq := seq }
    { g with aq := tblPut g.aq (q - 4) (tblGet [] g.aq (q - 4) ++ [e]) }

/-- Finish a held push once every lane has landed: the entries are pushed and poisoned lanes die (R251, R282). -/
def State.settlePush (s : State) (h : Nat) : State :=
  let g := s.group h
  match g.lpush with
  | none => s
  | some p =>
    if g.log.any (fun a => match a.dest with | .push _ _ => true | _ => false) then s
    else
      let s := s.killLanes h p.dead
      s.updGroup h (fun g => { (g.pushQueue p.q p.n (p.mask &&& g.live) p.data (g.lseq - 1)) with lpush := none, sblock := none })

/-! ## VP loads (R384) -/

/-- Cut a loaded VP value, an infinity and a NaN as any other, to a working length: its cells, and whether a non-zero bit was cut
(R384); a zero's fraction bits count for nothing (R223). -/
def vpCut (s c0 : Nat) (rest : List Nat) : List Nat × Bool :=
  let lm := rest.length
  let ls := vpLenOf s
  let x := fld c0 16 15
  let neg := fld c0 31 1 == 1
  let k := vpStoredK c0
  let fr := vpFracOf (fld c0 0 7) rest
  let fm := vpFrac lm
  let lost := x != 0 && decide (s < fm) && fr % 2 ^ (fm - s) != 0
  let top := if x = 0 then 0 else if s ≤ fm then fr >>> (fm - s) else fr <<< (s - fm)
  let k' :=
    if vpMalformed c0 then k
    else if k = 127 then (if lost then s else 127)
    else min k s
  (vpEncode neg x ls k' (top * 2 ^ (vpFrac ls - s)), lost)

/-- Set flags in a lane's PREC (R220). -/
def Group.setFlags (g : Group) (lane : Nat) (f : Flags) : Group :=
  if f.bits = 0 then g
  else { g with prec := tblSet 0 g.prec lane (tblGet 0 g.prec lane ||| BitVec.ofNat 32 f.bits) }

/-- Carry a VP load on: ask for the cells its cell 0 names, or write the value. -/
def State.settleVp (s : State) (h : Nat) : State :=
  (s.group h).vploads.foldl (fun s v =>
    match tblFind v.got 0 with
    | none => s
    | some c0 =>
      let l := vpStoredLen c0
      if !v.raw && v.need = 1 && 0 < l then
        let new := (List.range l).map (fun i =>
          { v.proto with id := s.nextId + i, addr := (v.proto.addr + 4 * (i + 1)) % 2 ^ 56, dest := .vp v.id (i + 1) })
        let s := { s with nextId := s.nextId + l }
        s.updGroup h (fun g => { g with
          log := g.log ++ new
          vploads := g.vploads.map (fun x => if x.id == v.id then { x with need := 1 + l } else x) })
      else if v.got.length < v.need then s
      else
        let (cs, lost) := if v.raw then ((List.range v.need).map (fun i => tblGet 0 v.got i), false) else vpCut v.s c0 ((List.range l).map (fun i => tblGet 0 v.got (i + 1)))
        s.updGroup h (fun g =>
          let g := { g with vploads := g.vploads.filter (fun x => x.id != v.id) }
          if g.ldead.getLsbD v.lane then g
          else (g.land v.lane v.idx cs).setFlags v.lane { ix := lost })) s

/-! ## Performing one access -/

/-- The bytes a load of a group reads, with what its own held stores of the same place, earlier in group order, put over them
(R258). -/
def State.overlay (s : State) (h : Nat) (a : Access) (bs : List Byte) : List Byte :=
  let p := s.placed h a
  ((s.group h).held ++ (s.group h).extra).foldl (fun bs r =>
    match r.acc with
    | some x =>
      let q := s.placed h x
      if x.kind == .store && q.rank == p.rank && q.slot == p.slot && x.before a then
        (bs.zip (List.range bs.length)).map (fun e =>
          if q.addr ≤ p.addr + e.2 ∧ p.addr + e.2 < q.addr + x.size then BitVec.ofNat 8 (fld x.data (8 * (p.addr + e.2 - q.addr)) 8)
          else e.1)
      else bs
    | none => bs) bs

/-- An access whose pieces have all been performed is taken out of the log, and its value delivered (R183). -/
def State.settleJoins (s : State) (h : Nat) : State :=
  (s.group h).joins.foldl (fun s j =>
    let waits := (s.group h).log.any (fun x => match x.dest with | .piece id _ => id == j.id | _ => false)
    match (s.group h).log.find? (fun a => a.id == j.id) with
    | some a =>
      if waits then s
      else
        let s := (s.updGroup h (fun g => { g with joins := g.joins.filter (fun x => x.id != j.id) })).unlog h a.id
        if a.kind == .load then s.deliver h a (leNat (tblVals j.got)) j.bad else s
    | none => s) s

/-- After an access is performed it leaves the log, and what it completes is carried on. -/
def State.finish (s : State) (h : Nat) (a : Access) : State :=
  ((((s.unlog h a.id).settleJoins h).updGroup h Group.settleEntries).settlePush h).settleVp h

/-- The access returns an atomic's old value. -/
def Access.returns (a : Access) : Bool :=
  match a.dest with
  | .none => false
  | _ => true

/-- An atomic's returned value is one R119 records: SRC 3 for the scalar stream, 4 for a lane. -/
def State.atomicValue (s : State) (h : Nat) (a : Access) (old : Nat) : State × Option Nat :=
  if a.returns then
    match s.observe h (if a.stream then 4 else 3) a.lane (BitVec.ofNat 64 old) with
    | (s, some v) => (s, some v.toNat)
    | (s, none) => (s, none)
  else (s, some old)

/-- The scope at which an access is performed: a sequentially consistent one at cluster scope at least (R201). -/
def Access.reach (a : Access) : Nat := if a.ord = 3 then max a.scope 2 else a.scope

/-- What comes before an access or fence takes effect: its ticket (R201), and what a release orders before it (R198). -/
def State.orderBefore (s : State) (h : Nat) (a : Access) : State :=
  let s := if a.ord = 3 then s.takeTicket (s.dieOf h) else s
  if a.ord = 2 ∨ a.ord = 3 then s.releaseAt (s.coreOf h) a.reach else s

/-- What an acquire hides from the group's later accesses (R199). -/
def State.orderAfter (s : State) (h : Nat) (a : Access) : State :=
  if a.ord = 1 ∨ a.ord = 3 then s.acquireAt (s.coreOf h) a.reach else s

/-- What an access orders before it can be performed now (R192, R198). -/
def State.orderReady (s : State) (h : Nat) (a : Access) : Bool :=
  !(a.ord == 2 || a.ord == 3) || s.canRelease (s.coreOf h) a.reach

/-- Perform an access of mapped HBM or SCRATCH space, or of local store: `rd` reads its bytes and their poison, `wr`
writes bytes. DEDUCED: assumption 7. -/
def State.performLocal (s : State) (h : Nat) (a : Access) (rd : State → State × List Byte × Bool)
    (wr : State → List Byte → State) : State :=
  let s := (s.orderBefore h a).orderAfter h a
  match a.kind with
  | .fence => s
  | .hint => s
  | .store => (wr s (leBytes a.size a.data)).finish h a
  | .load =>
    let (s, bs, p) := rd s
    let v := leNat (s.overlay h a bs)
    (s.unlog h a.id).deliver h a v p |>.finish h a
  | .atomic =>
    let twin := (s.team (teamOf h)).isTwin
    let (s, bs, p) := rd s
    let old := leNat bs
    let s1 :=
      match atomicNew a.op (8 * a.size) old a.data a.cmp a.fp with
      | some v => wr s (leBytes a.size v)
      | none => s
    match s1.atomicValue h a old with
    | (s2, some v) => (s2.unlog h a.id).deliver h a v (p && a.returns) |>.finish h a
    | (s2, none) => if twin then s else s2.finish h a

/-- A remote reduce message (R341): its header, its poison map and its elements. -/
def reduceMessage (rop fmt : Nat) (job : BitVec 32) (sender addr : Nat) (bs : List Byte) (bad : List Nat) : List Byte :=
  leBytes 1 1 ++ leBytes 1 3 ++ leBytes 1 rop ++ leBytes 1 fmt ++ leBytes 4 job.toNat ++ leBytes 8 (addr % 2 ^ 56) ++
    leBytes 2 (bs.length / fmtBytes fmt) ++ leBytes 2 0 ++ leBytes 4 sender ++ leBytes 8 0 ++
    leBytes 8 (bad.foldl (fun v i => v ||| 2 ^ i) 0) ++ bs

/-- A request to a host or a peer for accesses that follow one another (R105, R389): what is sent; `job` is that of a remote
fold. -/
def requestOf (a : Access) (l : List Access) (job : Option Job) : Msg :=
  let bytes := l.flatMap (fun x => leBytes x.size x.data)
  match a.rop, job with
  | some (rop, fmt), some j => { kind := .send, bytes := reduceMessage rop fmt j.job j.rank a.addr bytes [] }
  | _, _ =>
    match a.kind with
    | .store => { kind := .rdmaWrite, bytes := bytes }
    | .atomic => { kind := .rdmaAtomic, code := a.op, bytes := leBytes 8 a.data ++ leBytes 8 a.cmp }
    | _ => { kind := .rdmaRead, code := (l.map (·.size)).foldl (· + ·) 0 }

/-- Send accesses to their remote end; they stay in the log until the end has answered (R105). -/
def State.sendAccess (s : State) (h : Nat) (l : List Access) (e : FarEnd) (msg : Msg) : State :=
  let s := l.foldl (fun (s : State) a => s.updLog h a.id (fun x => { x with sent := true, parked := false, refused := false })) s
  s.sendFar (s.dieOf h) { use := .access h l, len := (l.map (·.size)).foldl (· + ·) 0, via := e.via } (e.msg msg)

/-- An access is abandoned after a fault: with the one it is a piece of (R183), and the load-queue entries it was to fill never fill
(R314). -/
def Group.forsake (g : Group) (a : Access) : Group :=
  let g := match a.dest with
    | .piece id _ => { g with log := g.log.filter (fun x => x.id != id), joins := g.joins.filter (fun j => j.id != id) }
    | .entry q id part fmt =>
      (List.range (fmtCells fmt)).foldl (fun g i => g.updEntry q (id + part + i) (fun e => { e with never := true })) g
    | _ => g
  { g with log := g.log.filter (fun x => x.id != a.id) }

/-- A fault of an access: reported, and the access is abandoned (R189). -/
def State.accessFault (s : State) (h : Nat) (a : Access) (cause addr : Nat) : State :=
  (s.updGroup h (fun g => g.forsake a)).reportGroup h cause (addr % 2 ^ 56) a.stream a.pc a.lane

/-- The page kind an address reaches, if it is mapped. -/
def State.pageKind (s : State) (addr : Nat) : Option PageKind := (pageAt s.pages (addr % 2 ^ 56)).map (·.2.kind)

/-- An access must be naturally aligned (R183). -/
def Access.aligned (a : Access) : Bool := (a.kind != .atomic && a.ord == 0) || a.addr % a.size == 0

/-- The cause an access that is not aligned takes: 0x12 (R183, R189), but an atomic in the RDMA window, where one that is not
naturally aligned takes the protection fault (R105). DEDUCED: assumption 52. -/
def State.alignCause (s : State) (a : Access) : Nat :=
  if a.kind == .atomic && a.rank.isNone && s.pageKind a.addr == some .window then 0x11 else 0x12

/-- What an access asks of a page (R180). -/
def Access.want (a : Access) : Want :=
  match a.kind with
  | .store => .write
  | .atomic => .atomic
  | _ => .read

/-- The access is an 8-byte fetch-and-add or compare-and-swap (R105). -/
def Access.fetch (a : Access) : Bool := a.kind == .atomic && a.size == 8 && (a.op == 1 || a.op == 9) && a.fp == 0

/-- Refused by a page on the move (R192): writes and atomics from step 1 until the translation names the new home. -/
def Page.refuses (p : Page) (w : Bool) : Bool := p.move == .moving && w

/-- A KICK page permits naturally aligned loads of 8 bytes, and drops other stores (R179). -/
def kickLoadOk (addr size : Nat) : Bool := size == 8 && addr % 8 == 0

/-- The first byte of a range whose target is a fault or whose page does not permit the access. -/
def State.firstFault (s : State) (h : Nat) (a : Access) : Option (Nat × Nat) :=
  (List.range a.size).findSome? (fun i =>
    match s.target h (a.addr + i) a.writes with
    | .fault c => some (c, a.addr + i)
    | .page _ p =>
      if p.permits a.want a.fetch && (p.kind != .kick || a.kind == .store || kickLoadOk a.addr a.size) then none
      else some (0x11, a.addr + i)
    | .bank _ _ _ => none)

/-- A range reaches an on-demand page that is not backed. -/
def State.unbacked (s : State) (h a n : Nat) : Bool :=
  (List.range n).any (fun i =>
    match s.target h (a + i) false with
    | .page _ p => !p.backed
    | _ => false)

/-- Pages of a range that await their backing are marked as wanted (R188). -/
def State.wantBacking (s : State) (h a n : Nat) : Tbl Page :=
  [a, a + n - 1].foldl (fun t x =>
    match s.target h x false with
    | .page b p => if p.backed then t else tblPut t b { p with wanted := true }
    | _ => t) s.pages

/-- An access is parked on a page that awaits its backing (R188); one of a team that has been killed is discarded (R262). -/
def State.parkAccess (s : State) (h : Nat) (a : Access) : State :=
  if (s.team (teamOf h)).life == .killing || (s.team (teamOf h)).life == .ended then s.updGroup h (fun g => g.forsake a)
  else
    ({ s with pages := s.wantBacking h a.addr a.size } : State).updLog h a.id (fun x => { x with parked := true, behind := true })

/-- A range reaches a page that refuses the access. -/
def State.isRefused (s : State) (h : Nat) (a : Access) : Bool :=
  (List.range a.size).any (fun i =>
    match s.target h (a.addr + i) false with
    | .page _ p => p.refuses a.writes
    | _ => false)

/-- A page's memory, or a link on the way to it from a die, accepts no new request, for a die's bucket is choked (R79). -/
def State.pageChoked (s : State) (d : Nat) (p : Page) : Bool :=
  match p.kind with
  | .hbm => (s.die p.home).choked || s.tripBlocked d p.home
  | .scratch => (s.die p.home).choked || s.tripBlocked d p.home
  | .window => s.tripBlocked d p.port
  | .peer =>
    (match s.rankEntry p.job p.rank with
    | some e => s.tripBlocked d e.port
    | none => false)
  | .kick => s.tripBlocked d p.home
  | .desc => s.tripBlocked d p.home

/-- The access would be a new request where a die's bucket is choked (R79). -/
def State.chokedAt (s : State) (h : Nat) (a : Access) : Bool :=
  match s.target h a.addr false with
  | .page _ p => s.pageChoked (s.dieOf h) p
  | _ => false

/-- The longest naturally aligned piece at an address within n bytes, of 1, 2, 4 or 8 bytes (R183). -/
def naturalLen (a n : Nat) : Nat := (([8, 4, 2].find? (fun k => decide (k ≤ n) && a % k == 0))).getD 1

/-- The naturally aligned pieces of a range, each with its address and length (R183). -/
def naturalPieces : Nat → Nat → Nat → List (Nat × Nat)
  | 0, _, _ => []
  | k + 1, a, n => if n = 0 then [] else (a, naturalLen a n) :: naturalPieces k (a + naturalLen a n) (n - naturalLen a n)

/-- The access is performed whole: it is naturally aligned, or a remote end takes its bytes in a message (R183, R389). -/
def Access.whole (a : Access) : Bool := a.rank.isSome || a.addr % a.size == 0

/-- An access that is not naturally aligned is split: its pieces are performed each alone, in no order among themselves, and it
waits for all (R183). -/
def State.splitAccess (s : State) (h : Nat) (a : Access) : State :=
  let ps := naturalPieces a.size a.addr a.size
  let new := (ps.zip (List.range ps.length)).map (fun e =>
    { a with id := s.nextId + e.2, addr := e.1.1, size := e.1.2, data := fld a.data (8 * (e.1.1 - a.addr)) (8 * e.1.2)
             dest := .piece a.id (e.1.1 - a.addr) })
  ({ s with nextId := s.nextId + ps.length } : State).updGroup h (fun g => { g with
    log := g.log.flatMap (fun x => if x.id == a.id then { x with sent := true } :: new else [x])
    joins := g.joins ++ [{ id := a.id }] })

/-- Perform an access on memory the device holds, at its address (R184). -/
def State.performHere (s : State) (h : Nat) (a : Access) : State :=
  let c := s.coreOf h
  match s.target h a.addr a.writes with
  | .bank k la p =>
    s.performLocal h a (fun s => (s, (s.core k).lread la a.size, p || (s.core k).lpoisoned la a.size))
      (fun s bs => s.updCore k (fun x => x.lwrite la bs))
  | _ =>
    let addr := a.addr % 2 ^ 56
    let sc := a.reach
    s.performLocal h a
      (fun s =>
        let s := if a.kind == .atomic || a.ord == 3 then s.flushRange c addr a.size else s
        let (s, bs) := s.readAt c sc a.evict addr a.size
        (s, bs, s.corePoison c addr a.size))
      (fun s bs => s.writeAt c sc a.evict addr bs)

/-- Whether two accesses belong to one lane instruction at one rank. -/
def Access.mate (a b : Access) : Bool :=
  a.stream == b.stream && a.seq == b.seq && a.kind == b.kind && a.rank == b.rank && a.slot == b.slot

/-- The accesses that follow one another in memory, from the first of a list on. -/
def runFrom : List Access → List Access
  | [] => []
  | [a] => [a]
  | a :: b :: t => if b.addr % 2 ^ 56 = a.addr % 2 ^ 56 + a.size then a :: runFrom (b :: t) else [a]

/-- A list of accesses cut into runs that follow one another. -/
def runs : Nat → List Access → List (List Access)
  | 0, _ => []
  | k + 1, l => if l.isEmpty then [] else runFrom l :: runs k (l.drop (runFrom l).length)

/-- The elements of the instruction that travel in one message with an access by rank: those whose remote addresses follow one
another in ascending LANEID (R341, R389). -/
def Group.runOf (g : Group) (a : Access) : List Access :=
  let mates := g.log.filter (fun x => a.mate x && !x.sent)
  ((runs mates.length mates).find? (fun r => r.any (fun x => x.id == a.id))).getD [a]

/-- An access of a peer's memory by rank (R388 to R390): it is sent with the others of its message; a peer address of the
device's own rank becomes an access of its own memory, as every other (R339, R389). -/
def State.performRank (s : State) (h : Nat) (a : Access) (rank : Nat) : State :=
  if s.rankBad a.slot rank then s.accessFault h a 0x11 a.addr
  else if s.ownRank a.slot rank then
    s.updLog h a.id (fun x => { x with rank := none, slot := 0, rop := none, own := true, scope := max x.scope 2 })
  else
    match s.rankEntry a.slot rank with
    | none => s.accessFault h a 0x11 a.addr
    | some e =>
      let l := (s.group h).runOf a
      if !l.all (s.eligible h) || s.tripBlocked (s.dieOf h) e.port then s
      else
        let first := l.headD a
        (s.orderBefore h a).sendAccess h l { port := e.port, qp := e.qp, addr := first.addr % 2 ^ 56, key := e.key }
          (requestOf first l (s.jobAt a.slot))

/-- What the core owes the lines of an access cannot reach its home now, so that an access there waits (R192). -/
def State.lineStuck (s : State) (h : Nat) (a : Access) : Bool :=
  (decide (2 ≤ a.reach) || a.kind != .load) && !s.canFlush (s.coreOf h) (fun x => (linesOf (a.addr % 2 ^ 56) a.size).contains x.line)

/-- The access acts beyond the core: on anything but the group's own local store (R178, R257, R258). -/
def State.beyond (s : State) (h : Nat) (a : Access) : Bool :=
  let p := s.placed h a
  p.rank.isSome || !(decide (0xF0 * 2 ^ 48 ≤ p.addr) && decide (p.addr < 0xF0 * 2 ^ 48 + 2 ^ 21))

/-- An atomic of a twin beyond its core: it is performed at no home, and its value is the primary's (R257, R260). -/
def State.twinAtomic (s : State) (h : Nat) (a : Access) : State :=
  match s.atomicValue h a 0 with
  | (s, some v) => ((s.unlog h a.id).deliver h a v false).finish h a
  | (s, none) => s

/-- An atomic's value that has come from a remote end is recorded and delivered, as soon as it can be (R119). -/
def State.settleAnswer (s : State) (h : Nat) (a : Access) (v : Nat) (bad : Bool) : State :=
  if a.returns && !s.recordReady h then (s.wantRecord h).updLog h a.id (fun x => { x with answer := some (v, bad) })
  else
    match s.atomicValue h a v with
    | (s, some v) => ((s.unlog h a.id).deliver h a v (bad && a.returns)).finish h a
    | (s, none) => s.finish h a

/-! ## Prefetches (R190, R296, R309, R386) -/

/-- Add to HINTDROP, which sticks at all ones (R190). -/
def Group.dropHint (g : Group) : Group :=
  { g with sr := { g.sr with hintdrop := if g.sr.hintdrop = 0xFFFFFFFF then 0xFFFFFFFF else g.sr.hintdrop + 1 } }

/-- A hint survives at an address (R190). -/
def State.hintOk (s : State) (addr : Nat) : Bool :=
  match pageAt s.pages (addr % 2 ^ 56) with
  | some (_, p) => (p.kind == .hbm || p.kind == .scratch) && p.allows .read && p.backed
  | none => false

/-- A part of a prefetch within one page: dropped, entered in the ballast queue, or filled (R309). -/
def State.hintPart (s : State) (h addr len scope evict : Nat) (ballast : Bool) : State :=
  let drop := s.updGroup h Group.dropHint
  if !s.hintOk addr then drop
  else if ballast then
    let d := s.homeDie (addr % 2 ^ 56)
    if 1024 ≤ (s.die d).ballast.length then drop
    else s.updDie d (fun k => { k with
      ballast := k.ballast ++ [{ addr := addr % 2 ^ 56, len := len, ev := evict, time := k.time }] })
  else if scope ≤ 1 then (s.readAt (s.coreOf h) scope evict (addr % 2 ^ 56) len).1
  else s.visitHome (s.dieOf h) (addr % 2 ^ 56) len evict

/-- The parts of an extent, cut where the page changes (R309); where a side has no page, at 64 KiB (DESIGN CHOICE, assumption
55). -/
def State.hintParts (s : State) (a len : Nat) : List (Nat × Nat) :=
  let cut := (a / 65536 + 1) * 65536
  if a + len ≤ cut then [(a, len)]
  else
    match pageAt s.pages (a % 2 ^ 56), pageAt s.pages (cut % 2 ^ 56) with
    | some x, some y => if x.1 = y.1 then [(a, len)] else [(a, cut - a), (cut, a + len - cut)]
    | _, _ => [(a, cut - a), (cut, a + len - cut)]

/-- A prefetch of the log is performed; one whose memory, or the way there, takes no new request waits (R79). Of a lane's
prefetch that is dropped, every lane merged into it counts (R386). -/
def State.performHint (s : State) (h : Nat) (a : Access) : State :=
  let ps := s.hintParts a.addr a.size
  let shut := fun (e : Nat × Nat) => s.hintOk e.1 &&
    (match pageAt s.pages (e.1 % 2 ^ 56) with
     | some (_, p) => s.pageChoked (s.dieOf h) p
     | none => false)
  if ps.any shut then s
  else if a.op == 2 && !s.hintOk a.addr then
    ((List.range a.data).foldl (fun s _ => s.updGroup h Group.dropHint) s).finish h a
  else (ps.foldl (fun s e => s.hintPart h e.1 e.2 a.scope a.evict (a.op == 1)) s).finish h a

/-! ## Performing -/

/-- Perform an access on the target that its translation gave: memory, a device register, or a remote page, to which it is sent. -/
def State.performTarget (s : State) (h : Nat) (a : Access) : State :=
  match s.target h a.addr a.writes with
  | .page b p =>
    let x := a.addr % 2 ^ 56
    (match p.kind with
    | .hbm => s.performHere h a
    | .scratch => s.performHere h a
    | .kick =>
      if a.kind == .store && !s.canRelease (s.coreOf h) 5 then s
      else
        let s := ((s.orderBefore h a).orderAfter h a).roundTrip (s.dieOf h) p.home 8 8
        if a.kind == .store then
          (if kickLoadOk a.addr a.size then (s.releaseAt (s.coreOf h) 5).kickAt x a.data else s).finish h a
        else
          let v := leNat ((List.range 8).map (fun i => s.deviceByte (x + i)))
          ((s.unlog h a.id).deliver h a v false).finish h a
    | .desc =>
      let s := ((s.orderBefore h a).orderAfter h a).roundTrip (s.dieOf h) p.home 0 a.size
      let v := leNat ((List.range a.size).map (fun i => s.deviceByte (x + i)))
      ((s.unlog h a.id).deliver h a v false).finish h a
    | .window =>
      (s.orderBefore h a).sendAccess h [a] { port := p.port, qp := p.qp, addr := p.rva + (x - b), key := p.rkey.getD 0, via := some b }
        (requestOf a [a] none)
    | .peer =>
      let ra := p.rva + (x - b)
      if s.rankBad p.job p.rank || (a.own && s.ownRank p.job p.rank) then s.accessFault h a 0x11 a.addr
      else if s.ownRank p.job p.rank then
        s.updLog h a.id (fun y => { y with addr := ra, own := true, scope := max y.scope 2 })
      else
        match s.rankEntry p.job p.rank with
        | none => s.accessFault h a 0x11 a.addr
        | some e =>
          (s.orderBefore h a).sendAccess h [a] { port := e.port, qp := e.qp, addr := ra, key := e.key, via := some b }
            (requestOf a [a] none))
  | _ => s.performHere h a

/-- Perform one access of the log, or let it wait on what it meets: misalignment before translation, then faults, an
unbacked page (parked), a split into aligned pieces, a moving page (refused), and its target (R183 to R193). -/
def State.performAccess (s : State) (h id : Nat) : State :=
  match (s.group h).log.find? (fun a => a.id == id) with
  | none => s
  | some a =>
    if a.sent then (match a.answer with | some v => s.settleAnswer h a v.1 v.2 | none => s)
    else if !s.eligible h a || !s.orderReady h a then s
    else if a.kind == .fence then ((s.orderBefore h a).orderAfter h a).finish h a
    else if a.kind == .hint then s.performHint h a
    else if !a.aligned then s.accessFault h a (s.alignCause a) a.addr
    else if a.kind == .atomic && s.inTwin h && s.beyond h a then s.twinAtomic h a
    else
      match a.rank with
      | some r => s.performRank h a r
      | none =>
        match s.firstFault h a with
        | some (c, x) => s.accessFault h a c x
        | none =>
          if s.unbacked h a.addr a.size then s.parkAccess h a
          else if !a.whole then s.splitAccess h a
          else if s.chokedAt h a then s
          else if s.isRefused h a then s.updLog h id (fun x => { x with refused := true, behind := true })
          else if s.lineStuck h a then s
          else if a.kind == .atomic && a.returns && !s.recordReady h then s.wantRecord h
          else s.performTarget h a

/-- A store of cluster scope or wider leaves its core: it is on its way to its home, and the groups of the core see it (R184,
R202). Sequentially consistent stores do not. -/
def State.leaveCore (s : State) (h : Nat) (a : Access) : State :=
  let c := s.coreOf h
  let addr := a.addr % 2 ^ 56
  let l := addr / 128
  let s := (s.orderBefore h a).flushRange c addr a.size
  let o : OutStore := { grp := h, id := a.id, addr := addr, bytes := leBytes a.size a.data }
  (s.updCore c (fun k => { k with
    cache := if k.cache.any (·.line == l)
      then k.cache.map (fun x => if x.line == l then { x with out := x.out ++ [o] } else x)
      else k.cache ++ [{ line := l, held := false, code := a.evict, out := [o] }] })).updLog h a.id
      (fun x => { x with sent := true })

/-- The access is a store that may leave its core before it is performed at its home (R202): to one line of an HBM or SCRATCH page,
of cluster scope or wider, and not sequentially consistent. -/
def State.mayLeave (s : State) (h : Nat) (a : Access) : Bool :=
  a.kind == .store && a.rank.isNone && decide (2 ≤ a.scope) && a.ord != 3 && decide ((linesOf (a.addr % 2 ^ 56) a.size).length = 1) &&
    a.whole && s.orderReady h a && !s.chokedAt h a && !s.isRefused h a && !s.lineStuck h a &&
    (match s.pageKind a.addr with
     | some .hbm => true
     | some .scratch => true
     | _ => false)

/-- The store has left its core and is not yet performed at its home. -/
def State.hasLeft (s : State) (h : Nat) (a : Access) : Bool :=
  (s.core (s.coreOf h)).cache.any (fun x => x.out.any (fun o => o.grp == h && o.id == a.id))

/-- Post accesses to the group's log (R187). -/
def State.post (s : State) (h : Nat) (l : List Access) : State :=
  let l' := (l.zip (List.range l.length)).map (fun e => { e.1 with id := s.nextId + e.2 })
  { s with nextId := s.nextId + l.length }.updGroup h (fun g => { g with log := g.log ++ l' })

/-! ## Issue of accesses, outside Scrim and in it (R257 to R259) -/

/-- The record of an access that the signature covers (R259). DEDUCED: assumption 42. -/
def Access.record (a : Access) : List Byte :=
  leBytes 8 a.addr ++ leBytes 1 a.size ++ leBytes 1 (if a.kind == .atomic then 1 else 0) ++ leBytes 1 a.lane ++
    leBytes a.size a.data ++ (if a.kind == .atomic then leBytes a.size a.cmp else [])

/-- The record of an engine command that the signature covers (R259): its address, size 8, kind 2, lane 0xFF, and its
descriptor bytes. -/
def commandRecord (addr : Nat) (bytes : List Byte) : List Byte :=
  leBytes 8 addr ++ leBytes 1 8 ++ leBytes 1 2 ++ leBytes 1 0xFF ++ bytes

/-- Hold an access of a Scrim group (R258, R259); one that finds the 512 records of the buffer there is held over the comparison
that they bring. -/
def Group.holdAccess (g : Group) (a : Access) : Group :=
  let r : Held := { acc := some a, sign := a.record }
  if g.held.length < 512 then { g with held := g.held ++ [r], sig := crc64 g.sig a.record } else { g with extra := g.extra ++ [r] }

/-- The access is held in a Scrim team: a store or an atomic beyond the core (R258). -/
def State.holdable (s : State) (h : Nat) (a : Access) : Bool := a.writes && s.beyond h a

/-- What a group posts of the accesses that a comparison has let go: the primary all, in order, and its twin only the atomics
whose value the primary will send it (R257, R258, R260). -/
def releasedOf (twin : Bool) (l : List Access) : List Access :=
  (if twin then l.filter Access.returns else l).map (fun a => { a with kept := true })

/-- Issue accesses of the current group: to the operand log, but in a Scrim team to the hold buffer where R258 says so;
`direct` marks accesses whose own release point has passed. -/
def State.issue (s : State) (g : Group) (l : List Access) (direct : Bool) : State :=
  let h := s.cur
  if !s.inScrim h then (s.put g).post h l
  else if direct then (s.put g).post h (l.filter (fun a => !(s.inTwin h && s.holdable h a) || a.returns))
  else (s.put ((l.filter (s.holdable h)).foldl Group.holdAccess g)).post h (l.filter (fun a => !s.holdable h a))

/-- An access is a release point of R258: release or sequentially consistent ordering, or a store to a WINDOW, PEER or KICK page. An
atomic whose value holds its stream is compared at once, for its stream could reach no other (DESIGN CHOICE, assumption 42). -/
def State.isReleasePoint (s : State) (a : Access) : Bool :=
  a.ord == 2 || a.ord == 3 ||
    (a.kind == .atomic && (match a.dest with | .reg _ _ => true | .push _ _ => true | _ => false)) ||
    (a.kind == .store && a.rank.isNone && (match s.pageKind a.addr with
      | some .window => true
      | some .peer => true
      | some .kick => true
      | _ => false))

/-- Issue a list of accesses of one instruction, waiting for request entries (R187), at a release point for the comparison
(R258); the comparison that a 512th record brings comes before the next instruction. DESIGN CHOICE: assumption 42. `wait` is how the
stream waits, `f` what the group is once the instruction has issued, `lane` whether the lane stream issues, `more` how many
accesses may follow from what these find. -/
def State.issueAll (s : State) (g : Group) (l : List Access) (wait : Group → State) (f : Group → Group) (lane : Bool := false)
    (more : Nat := 0) : State :=
  if !s.entriesGranted s.cur lane (l.length + more) then (wait g).awaitEntries s.cur lane (l.length + more)
  else if l.any s.isReleasePoint then
    s.atRelease g (fun g => s.issue (f g) l true) (l.flatMap (fun a => if a.writes then a.record else []))
  else s.issue (f g) l false

/-- Perform the accesses of a group with identifiers from `id` on, as far as they may be performed now. DEDUCED:
assumption 45. -/
def State.performFrom (s : State) (h id n : Nat) : State :=
  (List.range n).foldl (fun s i => s.performAccess h (id + i)) s

end Sys2Proof.Machine
end

