-- ==== Sys2Proof/Machine/ScalarMem.lean ====
section
/-!
DEFINITION. Scalar loads, stores, atomics, prefetches, signals, flag waits and fences (R305 to R309, R349 to R351). -/
namespace Sys2Proof.Machine

/-- EA of the memory forms (R305). -/
def effAddr (g : Group) (base : SReg) (p : Policy) : Nat := (g.sread base + p.offset.signExtend 64).toNat

/-- An access of the scalar stream at EA under a policy word; its place in group order is the stream's next. -/
def scalarAccess (g : Group) (base : SReg) (p : Policy) (kind : AccKind) (size : Nat) : Access :=
  { pc := g.pc, kind := kind, addr := effAddr g base p, size := size, ord := p.ord.toNat, scope := p.scope.toNat,
    evict := p.evict.toNat, seq := g.seq, seen := g.sseen }

/-- LD (R306): the stream is held for d until the value has come (R296). -/
def execLd (d base : SReg) (size : BitVec 3) (sext : Bool) (p : Policy) (s : State) : Out :=
  onScalar s (fun g =>
    let a := { scalarAccess g base p .load (2 ^ size.toNat) with dest := .reg d.toNat sext }
    s.issueAll g [a] s.scalarWaits (fun g => { g.advance 8 with swait := .value d.toNat }) |>.performFrom s.cur s.nextId 1)

/-- ST (R307). -/
def execSt (d base : SReg) (size : BitVec 3) (p : Policy) (s : State) : Out :=
  onScalar s (fun g =>
    let a := scalarAccess g base p .store (2 ^ size.toNat)
    s.issueAll g [{ a with data := (g.sread d).toNat % 2 ^ (8 * a.size) }] s.scalarWaits (fun g => g.advance 8))

/-- ATOM (R308); naming s63 it returns nothing and does not hold the stream. -/
def execAtom (d base o : SReg) (op : BitVec 4) (size : BitVec 3) (p : Policy) (s : State) : Out :=
  onScalar s (fun g =>
    let a := { scalarAccess g base p .atomic (2 ^ size.toNat) with
      op := op.toNat, data := (g.sread o).toNat % 2 ^ (8 * 2 ^ size.toNat)
      cmp := (g.sread d).toNat % 2 ^ (8 * 2 ^ size.toNat) }
    if d = 63 then s.issueAll g [a] s.scalarWaits (fun g => g.advance 8)
    else
      s.issueAll g [{ a with dest := .reg d.toNat false }] s.scalarWaits
        (fun g => { g.advance 8 with swait := .value d.toNat }) |>.performFrom s.cur s.nextId 1)

/-! ## Prefetches (R309) -/

/-- PREF (R296, R309): its access enters the operand log. -/
def execPref (base : SReg) (ballast : Bool) (ext : BitVec 3) (p : Policy) (s : State) : Out :=
  onScalar s (fun g =>
    s.issueAll g [{ pc := g.pc, kind := .hint, addr := effAddr g base p / 128 * 128, size := 128 * 2 ^ ext.toNat
                    op := if ballast then 1 else 0, scope := p.scope.toNat, evict := p.evict.toNat, seq := g.seq
                    seen := g.sseen }] s.scalarWaits (fun g => g.advance 8))

/-! ## Signals (R349) -/

/-- A signal's access: 8 bytes at EA, aligned or the team takes the misalignment fault. -/
def signal (s : State) (base : SReg) (p : Policy) (mk : Group → Access → Access) : Out :=
  onScalar s (fun g =>
    let a := mk g (scalarAccess g base p .store 8)
    if a.addr % 8 ≠ 0 then (s.put (g.advance 8)).reportGroup s.cur 0x12 (a.addr % 2 ^ 56) false g.pc 0xFF
    else s.issueAll g [a] s.scalarWaits (fun g => g.advance 8))

/-- SIG_ADD (R349). -/
def execSigAdd (a v : SReg) (p : Policy) (s : State) : Out :=
  signal s a p (fun g x => { x with kind := .atomic, op := 1, data := (g.sread v).toNat })

/-- SIG_STORE (R349). -/
def execSigStore (a v : SReg) (p : Policy) (s : State) : Out :=
  signal s a p (fun g x => { x with data := (g.sread v).toNat })

/-! ## Flag waits (R350) -/

/-- Perform the reads a `waitm` has posted. -/
def State.performFlags (s : State) (h : Nat) : State :=
  (s.group h).log.foldl (fun s a => if (s.group h).ownFlag a then s.performAccess h a.id else s) s

/-- One poll of a waiting `waitm`: a relaxed read is posted unless one is outstanding, and performed; the ordered read
follows when the condition holds. -/
def State.pollFlag (s : State) (h : Nat) : State :=
  let g := s.group h
  match g.swait with
  | .waitm addr v cond ord scope first =>
    let s := s.updGroup h (fun g => { g with swait := .waitm addr v cond ord scope (some (first.getD (s.timeOf h))) })
    let s := if g.log.any g.ownFlag then s
      else s.post h [{ pc := g.pc, addr := addr, size := 8, scope := scope, dest := .flag false, seq := g.seq,
                       seen := g.sseen }]
    (s.performFlags h).performFlags h
  | _ => s

/-- WAITM (R350): the first read is made at once. -/
def execWaitm (a v : SReg) (c : BitVec 3) (p : Policy) (s : State) : Out :=
  onScalar s (fun g =>
    let wait := fun g : Group => { g with
      swait := .waitm (effAddr g a p) (g.sread v) c.toNat p.ord.toNat p.scope.toNat none, sblock := none }
    if !s.entriesGranted s.cur false 1 then (s.scalarWaits g).awaitEntries s.cur false 1
    else if p.ord = 3 then s.atRelease g (fun g => (s.put (wait g)).pollFlag s.cur)
    else (s.put (wait g)).pollFlag s.cur)

/-- WAITM_POLL (R350): the flag of a waiting group is read again. -/
def execWaitmPoll (grp : Nat) (s : State) : Out := .next (s.pollFlag grp)

/-- WAITM_TIMEOUT (R247, R350): due when TIME has passed the first read by more than WTO.LIMIT, in a team that issues. -/
def execWaitmTimeout (grp : Nat) (s : State) : Out :=
  let g := s.group grp
  match g.swait with
  | .waitm _ _ _ _ _ (some t) =>
    let lim := fld g.sr.wto.toNat 0 40
    if lim ≠ 0 ∧ t + lim < s.timeOf grp ∧ s.issues grp then
      .next ((s.updGroup grp (fun g => { g with
        swait := .none
        log := g.log.filter (fun a => !g.ownFlag a) })).trap grp { cause := 0x05 })
    else .next s
  | _ => .next s

/-! ## Fences (R351) -/

/-- FENCE (R351): it enters the log, where it orders under R200; with release it is a release point (R258). -/
def execFence (p : Policy) (s : State) : Out :=
  onScalar s (fun g =>
    s.issueAll g [{ pc := g.pc, kind := .fence, ord := p.ord.toNat, scope := p.scope.toNat, seq := g.seq,
                    seen := g.sseen }] s.scalarWaits (fun g => g.advance 8))

end Sys2Proof.Machine
end

