-- ==== Sys2Proof/Machine/ScalarQueue.lean ====
section
/-!
DEFINITION. Decoupled vector access and lane blocks: vlq, vlqg, vsq, vsqs (R310 to R314), lrun, lsync, rqpop (R315 to
R317), and the lane stream's and the load queues' own steps (R150, R152, R158). -/
namespace Sys2Proof.Machine

/-- A scalar instruction that names a frozen queue is illegal in a handler (R244). -/
def unfrozen (s : State) (f : Group → State) : Out :=
  onScalar s (fun g => if g.inHandler then s.trap s.cur { cause := 0x01 } else f g)

/-- The queue waited for is empty: an orphan wait when nothing can push it, else a wait on the lane stream (R157,
R158). -/
def State.awaitPush (s : State) (g : Group) : State :=
  if g.laneIdle then s.trap s.cur { cause := 0x03, opnd := 3 } else s.scalarWaitsLane g

/-- Accesses per lane of a format: one, or one for each cell of a VP value (R311). -/
def elemParts (fmt : Nat) : Nat := if isVpFmt fmt then fmt - 0x20 else 1
/-- Bytes of each. -/
def partBytes (fmt : Nat) : Nat := if isVpFmt fmt then 4 else fmtBytes fmt

/-- The lane addresses of a stride form (R311). -/
def strideAddr (g : Group) (base stride : SReg) (p : Policy) (l : Nat) : Nat :=
  (effAddr g base p + l * (g.sread stride).toNat) % 2 ^ 64
/-- The lane addresses of a gather or scatter form: the popped address in place of the stride term (R311). -/
def gatherAddr (g : Group) (base : SReg) (p : Policy) (x : QEntry) (l : Nat) : Nat :=
  (effAddr g base p + tblGet 0 x.data l) % 2 ^ 64

/-- Under an ordering other than relaxed an element must lie at a multiple of its size, or of 4 for VP (R311): a lane
whose element does not. Its VP pieces are each checked by the access itself. -/
def queueAccesses (g : Group) (fmt : Nat) (p : Policy) (kind : AccKind) (lanes : Lanes) (addr : Nat → Nat)
    (data : Nat → Nat → Nat) (dest : Nat → Dest) : List Access :=
  (lanesOf lanes).flatMap (fun l => (List.range (elemParts fmt)).map (fun k =>
    { pc := g.pc, lane := l, kind := kind, addr := (addr l + 4 * k) % 2 ^ 64, size := partBytes fmt, data := data l k,
      ord := p.ord.toNat, scope := p.scope.toNat, evict := p.evict.toNat, dest := dest k, seq := g.seq,
      seen := g.sseen }))

/-- A queue load once its lane set and addresses stand: entries reserved, accesses issued (R312). -/
def State.queueLoad (s : State) (g : Group) (q fmt : Nat) (p : Policy) (lanes : Lanes) (addr : Nat → Nat)
    (pop : Group → Group) : State :=
  let n := fmtCells fmt
  let old := tblGet [] g.lq q
  if 4 < n then s.trap s.cur { cause := 0x01 }
  else if 4 < old.length + n then s.scalarWaitsLane g
  else
    let id := s.nextId
    let s := { s with nextId := s.nextId + n }
    let es := (List.range n).map (fun k =>
      ({ mask := lanes, full := lanes == 0, id := id + k, elem := id, seq := g.seq } : QEntry))
    let l := queueAccesses (pop g) fmt p .load lanes addr (fun _ _ => 0)
      (fun k => .entry q id k (if isVpFmt fmt then 0x06 else fmt))
    s.issueAll g l s.scalarWaits (fun g => { (pop g).advance 8 with lq := tblPut g.lq q (old ++ es) })

/-- VLQ (R312). -/
def execVlq (q : BitVec 3) (m : BitVec 4) (base stride : SReg) (fmt : BitVec 6) (p : Policy) (s : State) : Out :=
  unfrozen s (fun g =>
    s.queueLoad g q.toNat fmt.toNat p (g.mread m.toNat &&& g.live) (strideAddr g base stride p) id)

/-- Take the head of an address queue; what it was pushed by is followed from then on (R195). -/
def Group.popAq (g : Group) (j : Nat) : Group :=
  { g with aq := tblPut g.aq j (tblGet [] g.aq j).tail
           sseen := max g.sseen (((tblGet [] g.aq j).head?.map (·.seq)).getD 0) }

/-- VLQG (R312). -/
def execVlqg (q : BitVec 3) (m : BitVec 4) (base : SReg) (j : BitVec 1) (fmt : BitVec 6) (p : Policy) (s : State) : Out :=
  unfrozen s (fun g =>
    match tblGet [] g.aq j.toNat with
    | [] => s.awaitPush g
    | x :: _ =>
      s.queueLoad g q.toNat fmt.toNat p (g.mread m.toNat &&& g.live &&& x.mask) (gatherAddr g base p x)
        (fun g => g.popAq j.toNat))

/-- Pop the n entries of an element from sq[q]. -/
def Group.popSq (g : Group) (q n : Nat) : Group :=
  let l := tblGet [] g.sq q
  { g with sq := tblPut g.sq q (l.drop n)
           sseen := (l.take n).foldl (fun m e => max m e.seq) g.sseen }

/-- A queue store once its entries stand at the head of sq[q] (R313). -/
def State.queueStore (s : State) (g : Group) (q fmt : Nat) (p : Policy) (lanes : Lanes) (addr : Nat → Nat)
    (pop : Group → Group) : State :=
  let n := fmtCells fmt
  let es := (tblGet [] g.sq q).take n
  let lanes := es.foldl (fun m e => m &&& e.mask) lanes
  let value := fun l => (es.zip (List.range n)).foldl (fun v e => v + tblGet 0 e.1.data l * 2 ^ (32 * e.2)) 0
  let l := queueAccesses (pop g) fmt p .store lanes addr
    (fun l k => value l / 2 ^ (32 * k) % 2 ^ (8 * partBytes fmt)) (fun _ => .none)
  s.issueAll g l s.scalarWaits (fun g => (pop g).advance 8)

/-- VSQ (R313). -/
def execVsq (q : BitVec 3) (m : BitVec 4) (base stride : SReg) (fmt : BitVec 6) (p : Policy) (s : State) : Out :=
  unfrozen s (fun g =>
    let n := fmtCells fmt.toNat
    if (tblGet [] g.sq q.toNat).length < n then s.awaitPush g
    else
      s.queueStore g q.toNat fmt.toNat p (g.mread m.toNat &&& g.live) (strideAddr g base stride p)
        (fun g => g.popSq q.toNat n))

/-- VSQS (R313). -/
def execVsqs (q : BitVec 3) (m : BitVec 4) (base : SReg) (j : BitVec 1) (fmt : BitVec 6) (p : Policy) (s : State) : Out :=
  unfrozen s (fun g =>
    let n := fmtCells fmt.toNat
    match tblGet [] g.aq j.toNat with
    | [] => s.awaitPush g
    | x :: _ =>
      if (tblGet [] g.sq q.toNat).length < n then s.awaitPush g
      else
        s.queueStore g q.toNat fmt.toNat p (g.mread m.toNat &&& g.live &&& x.mask) (gatherAddr g base p x)
          (fun g => (g.popSq q.toNat n).popAq j.toNat))

/-! ## Lane blocks -/

/-- Entries the lane block queue may hold for the pushing code: 32, and 2 more for handler blocks (R150, R244). -/
def blockCap (g : Group) : Nat := if g.inHandler then 34 else 32

/-- LRUN (R315). -/
def execLrun (k0 k1 k2 k3 : SReg) (idx : BitVec 32) (s : State) : Out :=
  onScalar s (fun g =>
    if blockCap g ≤ g.blocks.length then s.scalarWaitsLane g
    else
      let b : Block := { pc := ((s.team (teamOf s.cur)).lcode + 12 * idx.toNat) % 2 ^ 56
                         k := [g.sread k0, g.sread k1, g.sread k2, g.sread k3], level := g.level, seq := g.seq }
      s.put ({ g with blocks := g.blocks ++ [b] }.advance 8))

/-- LSYNC (R316): every lane instruction of the blocks precedes what the scalar stream does next (R195). -/
def execLsync (s : State) : Out :=
  onScalar s (fun g =>
    if !g.laneIdle then s.scalarWaitsLane g
    else s.put ({ g with sseen := g.lseq - 1 }.advance 4))

/-- RQPOP (R317). -/
def execRqpop (d : SReg) (s : State) : Out :=
  unfrozen s (fun g =>
    match g.rq with
    | [] => s.awaitPush g
    | e :: t =>
      if e.poison then s.trap s.cur { cause := 0x09 }
      else s.put ({ g.swrite d e.value with rq := t, sseen := max g.sseen e.seq }.advance 4))

/-- Take the first block the lane stream may run: its own level's, in push order (R150, R244). -/
def takeBlock (level : Nat) : List Block → Option (Block × List Block)
  | [] => none
  | b :: t =>
    if b.level = level then some (b, t)
    else
      match takeBlock level t with
      | some (x, r) => some (x, b :: r)
      | none => none

/-- LANE_BLOCK_BEGIN (R150): the lane stream, idle, pops the head entry and begins the block with every live lane active;
the block's instructions follow the scalar stream up to its `lrun` (R195). While cells are being copied no block begins
(R169): the copy is part of the `mma` that makes it. -/
def execLaneBlockBegin (grp : Nat) (s : State) : Out :=
  let g := s.group grp
  if g.run.isSome || g.lpush.isSome || g.exited then .next s
  else
    match takeBlock g.level g.blocks with
    | none => .next s
    | some (b, t) =>
      .next (s.setGroup grp { g with
        run := some { pc := b.pc, k := b.k, base := g.stack.length, level := b.level }
        blocks := t
        active := g.live
        lseen := max g.lseen b.seq
        sblock := none })

/-- LOAD_QUEUE_FILL (R152): an entry whose data has all landed turns full. -/
def execLoadQueueFill (grp queue : Nat) (s : State) : Out :=
  .next (s.updGroup grp (fun g =>
    { g with lq := (g.settleEntries.lq.filter (fun e => e.1 == queue)).foldl (fun t e => tblPut t e.1 e.2) g.lq }))

/-- STREAM_DEADLOCK (R158): due when each stream has waited on the other for 64 consecutive clocks; taken at the scalar
stream's waiting instruction. -/
def execStreamDeadlock (grp : Nat) (s : State) : Out :=
  let g := s.group grp
  match g.sblock, g.lblock with
  | some a, some b => if a + 64 ≤ s.clock ∧ b + 64 ≤ s.clock then .next (s.trap grp { cause := 0x04 }) else .next s
  | _, _ => .next s

end Sys2Proof.Machine
end

