-- ==== Sys2Proof/Machine/TeamOps.lean ====
section
/-!
DEFINITION. Team operations: barriers (R352, R144), exit (R356, R416), regroup (R357), accumulator names (R358), ending
boardings (R65, R335), and the end of a team (R128, R262). -/
namespace Sys2Proof.Machine

/-! ## Banks (R54, R65) -/

/-- The boarding still has tiles to capture (R61). -/
def Core.uncaptured (k : Core) (id : Nat) : Bool :=
  match k.boards.find? (·.id == id) with
  | some b => decide (b.captured.length + b.released.length < b.count)
  | none => false

/-- A bank none names any more is released: to its boarding while that has tiles to capture, else FREE (R54). -/
def Core.freeBank (k : Core) (n : Nat) : Core :=
  k.updBank n (fun b =>
    match b.board with
    | some id => if k.uncaptured id then { b with state := .armed, release := false }
                 else { b with state := .free, release := false, board := none }
    | none => { b with state := .free, release := false, leaving := false })

/-- An operation's reading of a bank ends (R54). -/
def Core.endRead (k : Core) (n : Nat) (rel : Bool) : Core :=
  let b := k.bank n
  let b' := { b with readers := b.readers - 1, reading := b.reading - 1, release := b.release || rel }
  let st := if b.state == .draining && (b'.release || b'.reading == 0) then TobState.full else b.state
  let k := k.updBank n (fun _ => { b' with state := st })
  if (b'.release || b'.leaving) && b'.readers == 0 then k.freeBank n else k

/-- A boarding ends at once: its banks change as R54 gives and its BOARD entry retires (R65). -/
def State.endBoard (s : State) (c id : Nat) : State :=
  match (s.core c).boards.find? (·.id == id) with
  | none => s
  | some b =>
    let s := s.updCore c (fun k =>
      let k := { k with boards := k.boards.filter (·.id != id) }
      (List.range 32).foldl (fun k n =>
        let x := k.bank n
        if x.board != some id then k
        else
          match x.state with
          | .armed => k.updBank n (fun x => { x with state := .free, board := none })
          | .filling => k
          | .free => k.updBank n (fun x => { x with board := none })
          | _ => if x.readers = 0 then k.updBank n (fun x => { x with state := .free, board := none, release := false })
                 else k.updBank n (fun x => { x with board := none, leaving := true })) k)
    s.updGroup b.grp (fun g => g.complete 2 id)

/-- End every boarding of some groups. -/
def State.endBoards (s : State) (c : Nat) (p : Nat → Bool) : State :=
  (((s.core c).boards.filter (fun b => p b.grp)).map (·.id)).foldl (fun s id => s.endBoard c id) s

/-- UNBOARD (R335): the oldest outstanding boarding of the group with the key in s[a]. -/
def execUnboard (a : SReg) (s : State) : Out :=
  onScalar s (fun g =>
    s.atRelease g (fun g =>
      let c := s.coreOf s.cur
      let s := s.put (g.advance 4)
      match (s.core c).boards.find? (fun b => b.grp == s.cur && b.key == (g.sread a).toNat && !b.done) with
      | some b => s.endBoard c b.id
      | none => s) (commandRecord (g.sread a).toNat []))

/-! ## The end of a team (R128, R208, R262) -/

/-- The completion code of a cause (R235). -/
def causeCode (c : Nat) : Nat :=
  if c = 0x13 ∨ c = 0x19 then 5 else if c = 0x16 then 6 else if c = 0x17 ∨ c = 0x1A then 2 else 1

/-- An address lies in a local window. -/
def localAddr (a : Nat) : Bool := decide (0xF0 * 2 ^ 48 ≤ a % 2 ^ 56)

/-- A remote operation or a collective that touches local store is outstanding for a team. DEDUCED: assumption 22. -/
def State.localRemote (s : State) (t : Nat) : Bool :=
  s.remotes.any (fun j => teamOf j.grp == t && (localAddr j.loc || (j.kind == 1 && (j.sig.map localAddr).getD false))) ||
    s.colls.any (fun k => teamOf k.grp == t &&
      (localAddr k.dst || localAddr k.status || (k.sig.map localAddr).getD false))

/-- An access touches the core: it lands a value, or reaches local store (R143). -/
def Access.touchesCore (a : Access) : Bool := a.returns || (!a.bare && a.rank.isNone && localAddr a.addr)

/-- An operation that touches the core's register file, local store or accumulators is outstanding for a team (R143). -/
def State.coreBusy (s : State) (t : Nat) : Bool :=
  let k := s.core (s.team t).core
  k.fills.any (fun f => (k.bank f.bank).team == t) ||
    k.follow.any (fun o => teamOf o.grp == t) ||
    k.arrays.any (fun q => q.2.any (fun o => teamOf o.grp == t)) ||
    k.copies.any (fun o => o.pkt.isNone && teamOf o.grp == t &&
      (localAddr o.dst || localAddr o.src || (o.sig.map localAddr).getD false)) ||
    s.fired.any (fun e => e.2.any (fun a => teamOf a.grp == t && a.touch)) ||
    s.localRemote t || (s.teamGroups t).any (fun h => (s.group h).log.any Access.touchesCore)

/-- The team's resources return: its banks to cache role, its tiles, units and slots to the core (R128); what it wrote
in the core cache reaches its home (R208). -/
def State.freeTeam (s : State) (t : Nat) : State :=
  let c := (s.team t).core
  let tiles := (s.teamGroups t).flatMap (fun h => (s.group h).tileset.map (fun n => (s.group h).quad * 16 + n))
  (s.writeBack c).updCore c (fun k => { k with
    banks := k.banks.filter (fun b => b.2.team != t)
    past := k.past.filter (fun b => teamOf b.grp != t)
    tiles := k.tiles.filter (fun x => !tiles.contains x.1) })

/-- A firmware core takes a message: F2 counts an ended team in its grid, with the first cause in TIME order (R114, R122); F6
keeps an error, and those of each die are counted (R118, R235). -/
def State.takeNote (s : State) (n : Note) : State :=
  match n with
  | .launched _ => s
  | .error die r => ({ s with firm := { s.firm with errors := s.firm.errors ++ [r] } } : State).count (24 + die)
  | .ended grid team report =>
    s.updGrid grid (fun g => { g with
      ended := g.ended + 1
      firstBad := (match report, g.firstBad with
        | none, x => x
        | some r, none => some (team, r)
        | some r, some (i, q) => if r.time < q.time then some (team, r) else some (i, q)) })

/-- A firmware core takes the messages in its mailbox, oldest first, and what waits for room there is sent again (R117). -/
def State.takeMail (s : State) (core : Nat) : State :=
  (List.range 8).foldl State.resendNotes
    ((tblGet [] s.firm.mail core).foldl State.takeNote { s with firm := { s.firm with mail := tblDel s.firm.mail core } })

/-- F2 takes its messages (R117, R122). -/
def State.f2Turn (s : State) : State := s.takeMail 2

/-- The end of a team is reported to F2 by its die's dispatcher (R122). -/
def State.countEnd (s : State) (t : Nat) : State :=
  let tm := s.team t
  if tm.isTwin then s else s.sendMail (dieOfCore tm.core) 2 (.ended tm.grid tm.teamid tm.report)

/-- The accesses that a team's groups issued have been performed (R356). -/
def State.logsEmpty (s : State) (t : Nat) : Bool := (s.teamGroups t).all (fun h => (s.group h).log.isEmpty)

/-- End a team whose groups have all ended: one that exited once its accesses have been performed (R356), one that is killed once
nothing touches its core (R128, R262), and what its core owes can be written back (R208). -/
def State.tryEndTeam (s : State) (t : Nat) : State :=
  let tm := s.team t
  if ((tm.life == .running && s.logsEmpty t) || tm.life == .killing) && (s.liveGroups t).isEmpty && !s.coreBusy t &&
      s.canFlush tm.core then
    ((s.freeTeam t).updTeam t (fun x => { x with life := .ended })).countEnd t
  else s

/-- A group ends (R356): its boardings end; its outstanding operations and its log run on. -/
def State.endGroup (s : State) (h : Nat) : State :=
  ((s.endBoards (s.coreOf h) (· == h)).updGroup h (fun g => { g with
    exited := true, swait := .none, run := none, blocks := [], sblock := none, lblock := none })).tryEndTeam (teamOf h)

/-- EXIT (R356). Outside a handler it also waits while a load queue holds an entry (R377); in a handler it waits for the
handler's blocks only, which is no wait on the lane stream, and discards the queues' entries (R416). DEDUCED: assumption
40. -/
def execExit (s : State) : Out :=
  onScalar s (fun g =>
    if !g.laneIdle then (if g.level != 0 then s.scalarWaits g else s.scalarWaitsLane g)
    else if g.level == 0 && g.lq.any (fun q => !q.2.isEmpty) then s.scalarWaits g
    else
      s.atRelease g (fun g =>
        ((s.put { g.advance 4 with
          stack := [], lq := [], sq := [], aq := [], rq := [] }).endGroup s.cur)))

/-- What a save had suspended of a team is abandoned (R142, R262). -/
def State.dropSaved (s : State) (t : Nat) : State :=
  let tm := s.team t
  let s := tm.copies.foldl (fun (s : State) o => s.updGroup o.grp (fun g => g.abandon o.cls o.id)) s
  let s := tm.boards.foldl (fun (s : State) b => s.updGroup b.grp (fun g => g.complete 2 b.id)) s
  let s := tm.mmas.foldl (fun (s : State) o => s.updGroup o.grp (fun g => g.abandon 1 o.id)) s
  let s := if tm.life ≠ .saved then s else
    (s.teamGroups t).foldl (fun (s : State) h => s.updGroup h (fun g => { g with units := [], tileset := [] })) s
  { s.updTeam t (fun x => { x with copies := [], boards := [], mmas := [] }) with cores := tblDel s.cores (320 + t) }

/-- Kill a team (R262): issue stops, boardings end, blocks, held records and parked accesses are discarded, and the team
ends when nothing touches its core. What it has logged runs on, but for atomics whose values a Scrim twin would wait for in vain. -/
def State.killTeam (s : State) (t : Nat) : State :=
  let s := (s.dropSaved t).updTeam t (fun x => if x.life == .ended then x else { x with life := .killing })
  let c := (s.team t).core
  let s := (s.endBoards c (fun h => teamOf h == t)).withdrawTokens c (fun h => teamOf h == t)
  let s := (s.teamGroups t).foldl (fun s h => s.updGroup h (fun g => { g with
    exited := true, swait := .none, run := none, blocks := [], held := [], extra := [], sblock := none, lblock := none
    longs := [], vploads := [], lpush := none })) s
  let s := (s.teamGroups t).foldl (fun s h =>
    ((s.group h).log.filter (fun a => a.parked || a.refused || (s.inTwin h && a.kind == .atomic && s.beyond h a))).foldl
      (fun s a => s.updGroup h (fun g => g.forsake a)) s) s
  s.tryEndTeam t

/-- The kill messages of a team's die, its report to F6 on die 0 and what F6 orders, cannot cross now (R13, R117). -/
def State.killBlocked (s : State) (d : Nat) : Bool := s.pathBlocked clsMgmt d 0 || s.pathBlocked clsMgmt 0 d

/-- TEAM_KILL (R262): due when a cause stands against the team, which its die reports to F6 and F6 orders (R117); both copies of
a Scrim team die together (R261). -/
def execTeamKill (team : Nat) (s : State) : Out :=
  let tm := s.team team
  let d := dieOfCore tm.core
  if tm.report.isNone || tm.life == .ended || s.killBlocked d then .next s
  else
    let s := (s.crossMesh clsMgmt d 0 64).crossMesh clsMgmt 0 d 64
    match tm.twin with
    | none => .next (s.killTeam team)
    | some w =>
      .next (((s.updTeam w (fun x => if x.report.isNone then { x with report := tm.report } else x)).killTeam team).killTeam w)

/-! ## Barriers (R352, R144) -/

/-- Arrive at a barrier: the lane stream idle, the arrival noted, the stream held. -/
def arrive (s : State) (w : ScalarWait) : Out :=
  onScalar s (fun g =>
    if !g.laneIdle then s.scalarWaitsLane g
    else s.atRelease g (fun g => s.put { g with swait := w, arrived := s.clock + 1, sblock := none }))

/-- BAR (R352). -/
def execBar (s : State) : Out := arrive s .bar

/-- CBAR (R352): without clusters it acts as `bar`. -/
def execCbar (s : State) : Out :=
  arrive s (if (s.team (teamOf s.cur)).cluster.isSome then .cbar else .bar)

/-- The teams of a team's cluster on its die, the team itself without one (R131). -/
def State.clusterTeams (s : State) (t : Nat) : List Nat :=
  let tm := s.team t
  match tm.cluster with
  | none => [t]
  | some u => tblKeys (s.teams.filter (fun e => e.2.cluster == some u && e.2.grid == tm.grid && e.2.isTwin == tm.isTwin &&
      e.2.life == tm.life))

/-- Barrier rank: the groups that arrived earlier, or in the same clock with a lower GRPID (R144). -/
def barRank (s : State) (hs : List Nat) (h : Nat) : Nat :=
  (hs.filter (fun x =>
    decide ((s.group x).arrived < (s.group h).arrived) ||
      ((s.group x).arrived == (s.group h).arrived && decide ((s.group x).grpid < (s.group h).grpid)))).length

/-- Every group of a list has arrived, and every access before the barrier has been performed (R352, R198). -/
def State.allAt (s : State) (hs : List Nat) (w : ScalarWait) : Bool :=
  !hs.isEmpty && hs.all (fun h => (s.group h).swait == w && (s.group h).log.isEmpty)

/-- The release and acquire fences of a barrier or a `regroup` on the cores of its groups (R352). -/
def State.fences (s : State) (cores : List Nat) (scope : Nat) : State :=
  cores.foldl (fun s c => s.acquireAt c scope) (cores.foldl (fun s c => s.releaseAt c scope) s)

/-- Let the groups of a completed barrier go on; `rank` sets barrier ranks. -/
def State.passBar (s : State) (hs : List Nat) (rank : Bool) : State :=
  hs.foldl (fun x h => x.updGroup h (fun g => { g.advance 4 with
    swait := .none, arrived := 0, rank := if rank then barRank s hs h else g.rank })) s

/-- BARRIER_RELEASE (R352): a `bar` of the team, or a `cbar` of its cluster, at which every group has arrived. -/
def execBarrierRelease (team : Nat) (s : State) : Out :=
  let hs := s.liveGroups team
  if s.allAt hs .bar then .next ((s.fences [(s.team team).core] 1).passBar hs true)
  else
    let ts := s.clusterTeams team
    let cs := ts.flatMap s.liveGroups
    let cores := ts.map (fun t => (s.team t).core)
    if s.allAt cs .cbar && cores.all (fun c => s.canRelease c 2) then .next ((s.fences cores 2).passBar cs false)
    else .next s

/-! ## Regroup (R357) -/

/-- Some queue of the group holds an entry. -/
def Group.queued (g : Group) : Bool :=
  g.lq.any (fun q => !q.2.isEmpty) || g.sq.any (fun q => !q.2.isEmpty) || g.aq.any (fun q => !q.2.isEmpty) || !g.rq.isEmpty

/-- REGROUP (R357). -/
def execRegroup (k : BitVec 4) (s : State) : Out :=
  onScalar s (fun g =>
    if (s.team (teamOf s.cur)).roles || !g.blocks.isEmpty then s.trap s.cur { cause := 0x01 }
    else if !g.laneIdle then s.scalarWaitsLane g
    else if !g.stack.isEmpty || g.queued then s.trap s.cur { cause := 0x01 }
    else s.atRelease g (fun g => s.put { g with swait := .regroup k.toNat, arrived := s.clock + 1, sblock := none }))

/-- The mask a waiting group regroups by. -/
def Group.regroupMask (g : Group) : Lanes :=
  match g.swait with
  | .regroup k => g.mread k &&& g.live
  | _ => 0

/-- One lane's thread taken out of a group: cells with their error marks, PREC, z, THREADID and its bits of m1 to m15. -/
structure Thread where
  cells  : List (Nat × Nat)
  errs   : List Nat
  prec   : BitVec 32
  z      : Word
  thread : Word
  bits   : List (Nat × Bool)

/-- The thread of a lane. -/
def Group.thread1 (g : Group) (l : Nat) : Thread :=
  { cells := (List.range g.window).map (fun i => (i, g.cell l i))
    errs := (List.range g.window).filter (fun i => g.errs.contains (cellKey l i))
    prec := tblGet 0 g.prec l, z := tblGet 0 g.z l, thread := tblGet 0 g.thread l
    bits := (List.range 15).map (fun i => (i + 1, (g.mread (i + 1)).getLsbD l)) }

/-- Put a thread at a lane. -/
def Group.putThread (g : Group) (l : Nat) (t : Thread) : Group :=
  let g := t.cells.foldl (fun g e => g.setCell l e.1 e.2) g
  let g := t.bits.foldl (fun g e =>
    g.mwrite e.1 (if e.2 then g.mread e.1 ||| oneLane l else g.mread e.1 &&& ~~~ oneLane l)) g
  { g with prec := tblSet 0 g.prec l t.prec, z := tblSet 0 g.z l t.z, thread := tblSet 0 g.thread l t.thread
           errs := g.errs ++ t.errs.map (cellKey l)
           ldead := g.ldead &&& ~~~ oneLane l }

/-- A group filled with threads from lane 0 on; positions without one are dead, without report.
No operation is outstanding, so no cell is empty (R357). -/
def Group.refill (g : Group) (ts : List Thread) : Group :=
  let g := { g with ldead := allLanes, empties := [], errs := []
                    masks := g.masks.map (fun (e : Nat × Lanes) => (e.1, (0 : Lanes))) }
  let g := (ts.zip (List.range ts.length)).foldl (fun (g : Group) (e : Thread × Nat) => g.putThread e.2 e.1) g
  { g with masks := g.masks.filter (fun e => e.2 != 0), active := g.live }

/-- REGROUP_COMPLETE (R357): every group has issued its `regroup`, and no long operation or access is outstanding. A group that
keeps lanes takes its order of arrival as its barrier rank (R412). -/
def execRegroupComplete (team : Nat) (s : State) : Out :=
  let hs := s.liveGroups team
  let at_ := !hs.isEmpty && hs.all (fun h =>
    let g := s.group h
    (match g.swait with | .regroup _ => true | _ => false) && g.log.isEmpty && g.longs.isEmpty && g.vploads.isEmpty)
  if !at_ then .next s
  else
    let ts := hs.flatMap (fun h => (lanesOf (s.group h).regroupMask).map ((s.group h).thread1))
    let u := (hs.zip (List.range hs.length)).foldl (fun (u : State) (e : Nat × Nat) =>
      u.updGroup e.1 (fun g => { (g.refill ((ts.drop (64 * e.2)).take 64)).advance 4 with
        swait := .none, arrived := 0, rank := barRank s hs e.1 })) (s.fences [(s.team team).core] 1)
    .next (hs.foldl (fun s h => if (s.group h).ldead = allLanes then s.endGroup h else s) u)

/-! ## Accumulator names (R358, R130) -/

/-- The physical tile of a name, as keyed on the core. -/
def Group.tileKey (g : Group) (t : Nat) : Option Nat := (tblFind g.accmap t).map (fun n => g.quad * 16 + n)

/-- A tile of a core. -/
def Core.tile (k : Core) (i : Nat) : Tile := tblGet {} k.tiles i
/-- Change a tile of a core. -/
def Core.updTile (k : Core) (i : Nat) (f : Tile → Tile) : Core := { k with tiles := tblPut k.tiles i (f (k.tile i)) }

/-- ACCALLOC (R358). -/
def execAccalloc (t : BitVec 4) (s : State) : Out :=
  onScalar s (fun g =>
    if (tblFind g.accmap t.toNat).isSome then s.trap s.cur { cause := 0x01 }
    else
      match g.tileset.find? (fun n => !(tblVals g.accmap).contains n) with
      | none => s.trap s.cur { cause := 0x08 }
      | some n =>
        (s.put ({ g with accmap := tblPut g.accmap t.toNat n }.advance 4)).updCore (s.coreOf s.cur)
          (fun k => k.updTile (g.quad * 16 + n) (fun _ => {})))

/-- ACCFREE (R358). It waits for a boarding that has retired and is to issue again follow-ons that a save withdrew (R66). -/
def execAccfree (t : BitVec 4) (s : State) : Out :=
  onScalar s (fun g =>
    let k := s.core (s.coreOf s.cur)
    match g.tileKey t.toNat with
    | none => s.trap s.cur { cause := 0x01 }
    | some i =>
      let names := fun (b : Boarding) => b.grp == s.cur && b.follow && b.field 128 4 == t.toNat
      if k.boards.any (fun b => names b && !b.done) then s.trap s.cur { cause := 0x01 }
      else if !(k.tile i).pending.isEmpty || k.boards.any names then s.scalarWaits g
      else s.put ({ g with accmap := tblDel g.accmap t.toNat }.advance 4))

end Sys2Proof.Machine
end

