-- ==== Sys2Proof/Machine/ScalarSys.lean ====
section
/-!
DEFINITION. Special registers (R277, R318 to R320, R162, R242, R243), FMT (R321, R229), outstanding-operation counts
(R327, R328), prices (R361), transaction barriers (R353, R354), kicks (R355) and gates (R359). -/
namespace Sys2Proof.Machine

/-! ## Reading special registers -/

/-- COREID (R8). -/
def coreIdOf (c : Nat) : Nat :=
  c % 40 % 8 + c % 40 / 8 * 2 ^ 3 + c / 40 * 2 ^ 6 + c % 128 * 2 ^ 9

/-- LSROLE as a team reads it (R162). -/
def lsroleOf (k : Core) (t : Nat) : Nat :=
  (List.range 32).foldl (fun v i =>
    let b := k.bank i
    let r := if b.role = .cache then 0 else if b.team ≠ t then 3 else if b.role = .scratch then 1 else 2
    v + r * 2 ^ (2 * i)) 0

/-- RINGLEN (R69). -/
def State.ringLen (s : State) : Nat :=
  let im := s.activeImage
  8 * im.q + im.entries.length * 2 ^ 32 + im.img * 2 ^ 49

/-- RINGRATE at a die (R70): the rate in force there, and what is announced and not yet in force there. -/
def State.ringRate (s : State) (d : Nat) : Nat :=
  let n := (s.die d).station.octet
  s.ring.gapsAt n +
    (match s.ring.next with
    | some (g, ann) => if gapBoundary ann ≤ n then 0 else g * 2 ^ 8 + 2 ^ 14
    | none => if n < s.ring.gapsFrom then s.ring.gaps * 2 ^ 8 + 2 ^ 14 else 0)

/-- CHARGE of a die (R93). -/
def Charge.word (c : Charge) : Nat := c.stored % 2 ^ 24 + c.frac % 2 ^ 16 * 2 ^ 24 + c.state % 4 * 2 ^ 40

/-- TKLVL (R98). -/
def State.tkLvl (s : State) (c d : Nat) : Nat :=
  ((s.core c).bucket.toNat % 2 ^ 16) + ofS 24 (max (s.die d).bucket (-8388608)) * 2 ^ 16 +
    ((s.power.pkg / 10 ^ 12).toNat / 1024 % 2 ^ 24) * 2 ^ 40

/-- TKPRICE (R101). PRICE shows the low 12 bits of a price that does not fit, as class 0x33's 9,000, which `tkrd` gives whole
(DESIGN CHOICE, assumption 9). -/
def State.tkPrice (s : State) (g : Group) : Nat :=
  g.sr.tkindex.toNat + s.price g.sr.tkindex.toNat % 2 ^ 12 * 2 ^ 16 +
    (Config.priceVersion s.pricever).toNat * 2 ^ 32

/-- The active mask as `srd` reads it: the live lanes while the lane stream is idle (R320). -/
def Group.activeWord (g : Group) : Word := if g.run.isSome then g.act else g.live

/-- Keep the low n bits. -/
def lowBits (n : Nat) (v : Word) : Word := v &&& BitVec.ofNat 64 (2 ^ n - 1)

/-- The reserved bits of TSTAT (R242). A write keeps them, for `tret` to check; a read gives 0 (R4, R318; DEDUCED,
assumption 51). -/
def tstatReservedBits : Word := 0xFFFFFFC0FF00C000

/-- The bits of TSTAT that a write leaves as they are: LBUSY and LEVEL (R242, R277; DEDUCED, assumption 51). -/
def tstatFixedBits : Word := 0x0000003F00001000

/-- The live value of a special register of R277. -/
def State.special (s : State) (h : Nat) (g : Group) (r : Nat) : Word :=
  let tm := s.team (teamOf h)
  let c := tm.core
  let d := dieOfCore c
  match r with
  | 0x001 => BitVec.ofNat 64 g.grpid
  | 0x002 => BitVec.ofNat 64 tm.teamid
  | 0x003 => g.sr.cluid
  | 0x004 => g.sr.clupos
  | 0x005 => BitVec.ofNat 64 (coreIdOf c)
  | 0x006 => BitVec.ofNat 64 g.quad
  | 0x007 => BitVec.ofNat 64 d
  | 0x008 => g.sr.args
  | 0x009 => (s.grid tm.grid).gridid.setWidth 64
  | 0x010 => BitVec.ofNat 64 (s.timeOf h)
  | 0x020 => (s.core c).ringpos
  | 0x021 => BitVec.ofNat 64 s.ringLen
  | 0x022 => BitVec.ofNat 64 (s.ringRate d)
  | 0x023 => g.sr.misscnt
  | 0x030 => BitVec.ofNat 64 (s.die d).charge.word
  | 0x031 => BitVec.ofNat 64 (s.tkLvl c d)
  | 0x032 => g.sr.tkused
  | 0x033 => g.sr.tkstall
  | 0x034 => BitVec.ofNat 64 (s.tkPrice g)
  | 0x040 => g.sr.fmt.setWidth 64
  | 0x041 => g.sr.scb
  | 0x042 => g.sr.scsh
  | 0x050 => g.sr.wto
  | 0x051 => g.sr.prog
  | 0x052 => g.sr.hintdrop
  | 0x053 => g.ldead
  | 0x054 => g.activeWord
  | 0x060 => BitVec.ofNat 64 (lsroleOf (s.core c) (teamOf h))
  | 0x070 => g.sr.tstat &&& ~~~ tstatReservedBits
  | 0x071 => lowBits 56 g.sr.tpc
  | 0x072 => lowBits 56 g.sr.tlpc
  | 0x073 => g.sr.tmask
  | 0x078 => g.sr.lbka[0]?.getD 0
  | 0x079 => g.sr.lbka[1]?.getD 0
  | 0x07A => g.sr.lbka[2]?.getD 0
  | 0x07B => g.sr.lbka[3]?.getD 0
  | _ => 0

/-- SRC of a register's record under REC (R119): 1 TIME, 2 the special registers it lists; 0 is not recorded. -/
def recordSrc (r : Nat) : Nat :=
  if r = 0x010 then 1
  else if r = 0x020 ∨ r = 0x022 ∨ r = 0x023 ∨ r = 0x030 ∨ r = 0x031 ∨ r = 0x032 ∨ r = 0x033 then 2
  else 0

/-- A Scrim twin takes the register's value from the primary (R260). -/
def twinTakes (r : Nat) : Bool := recordSrc r != 0 || r == 0x003 || (0x005 ≤ r && r ≤ 0x007)

/-- The read follows every acquire before it: one in the log that precedes it holds a TIME read back (R206). -/
def Group.acquiring (g : Group) : Bool :=
  let probe : Access := { seq := g.seq, seen := g.sseen }
  g.log.any (fun a => (a.ord == 1 || a.ord == 3) && a.before probe)

/-- A value as the group gets it, written to d; the instruction waits while it has to come from elsewhere. -/
def State.observeTo (s : State) (g : Group) (d : SReg) (src : Nat) (v : Word) : State :=
  match s.observe s.cur src 0xFF v with
  | (s', some x) => s'.updGroup s.cur (fun g => (g.swrite d x).advance 4)
  | (s', none) => (s'.updGroup s.cur (fun k => { k with sblock := g.sblock.map (fun _ => s.clock) })).waits

/-- SRD (R318). -/
def execSrd (d : SReg) (r : BitVec 12) (s : State) : Out :=
  onScalar s (fun g =>
    let n := r.toNat
    if !srListed n then s.trap s.cur { cause := 0x01 }
    else if n = 0x010 ∧ g.acquiring then s.scalarWaits g
    else if twinTakes n then s.observeTo g d (recordSrc n) (s.special s.cur g n)
    else s.put ((g.swrite d (s.special s.cur g n)).advance 4))

/-! ## Writing special registers -/

/-- A write of LSROLE moves the team's banks between scratchpad and TOB roles (R162, R55). -/
def Core.setRoles (k : Core) (t : Nat) (v : Word) : Core :=
  (List.range 32).foldl (fun k i =>
    let b := k.bank i
    let f := fld v.toNat (2 * i) 2
    if b.team ≠ t then k
    else
      match b.role with
      | .cache => k
      | .tob => if f = 1 ∧ b.state = .free then k.updBank i (fun b => { b with role := .scratch }) else k
      | .scratch => if f = 2 then k.updBank i (fun b => { b with role := .tob, state := .free, readers := 0, reading := 0,
                                                                 release := false, board := none }) else k) k

/-- Write a breakpoint register: ADDR and EN (R248). -/
def Specials.setLbka (r : Specials) (i : Nat) (v : Word) : Specials :=
  { r with lbka := setAt r.lbka i (v &&& BitVec.ofNat 64 (2 ^ 63 + 2 ^ 56 - 1)) }

/-- The special registers after a write to register r (R277, R319); a register it does not write is unchanged. -/
def Specials.write (x : Specials) (r : Nat) (v : Word) : Specials :=
  match r with
  | 0x023 => { x with misscnt := v }
  | 0x032 => { x with tkused := v }
  | 0x033 => { x with tkstall := v }
  | 0x034 => { x with tkindex := v.setWidth 16 }
  | 0x041 => { x with scb := lowBits 56 v }
  | 0x042 => { x with scsh := lowBits 6 v }
  | 0x050 => { x with wto := lowBits 40 v }
  | 0x051 => { x with prog := lowBits 48 v }
  | 0x052 => { x with hintdrop := lowBits 32 v }
  | 0x070 => { x with tstat := (v &&& ~~~ tstatFixedBits) ||| (x.tstat &&& tstatFixedBits) }
  | 0x071 => { x with tpc := v }
  | 0x072 => { x with tlpc := v }
  | 0x078 => x.setLbka 0 v
  | 0x079 => x.setLbka 1 v
  | 0x07A => x.setLbka 2 v
  | 0x07B => x.setLbka 3 v
  | _ => x

/-- SWR (R319). -/
def execSwr (r : SReg) (n : BitVec 12) (s : State) : Out :=
  onScalar s (fun g =>
    if !srListed n.toNat then s.trap s.cur { cause := 0x01 }
    else if n = 0x060 then
      (s.put (g.advance 4)).updCore (s.coreOf s.cur) (fun k => k.setRoles (teamOf s.cur) (g.sread r))
    else s.put ({ g with sr := g.sr.write n.toNat (g.sread r) }.advance 4))

/-- A matrix operand format (R229). -/
def matFmt (f : Nat) : Bool := f == 8 || f == 9 || f == 0x0C || f == 0x0D || isBfpFmt f

/-- A value FMT may hold (R229). -/
def fmtOk (v : Nat) : Bool :=
  matFmt (fld v 0 6) && matFmt (fld v 6 6) && (fld v 12 6 == 0x0A || fld v 12 6 == 0x09) && decide (fld v 19 3 ≤ 4) &&
    fld v 22 42 == 0

/-- SFMT (R321). -/
def execSfmt (a : SReg) (s : State) : Out :=
  onScalar s (fun g =>
    let v := g.sread a
    if fmtOk v.toNat then s.put ({ g with sr := { g.sr with fmt := v.setWidth 32 } }.advance 4)
    else s.trap s.cur { cause := 0x0D })

/-! ## Counters (R327, R328) -/

/-- What the count shows of retired operations is ordered before the group's later accesses (R204): stale clean copies
of what they wrote leave the core cache. -/
def State.afterEngines (s : State) (h : Nat) : State := s.dropClean (s.coreOf h)

/-- WAITC (R327). -/
def execWaitc (c : BitVec 3) (n : BitVec 14) (s : State) : Out :=
  onScalar s (fun g =>
    if n.toNat < g.outCount c.toNat then s.scalarWaits g
    else (s.put (g.advance 4)).afterEngines s.cur)

/-- RDC (R328); the count is recorded under REC with SRC 5 (R119). -/
def execRdc (d : SReg) (c : BitVec 3) (s : State) : Out :=
  onScalar s (fun g => (s.afterEngines s.cur).observeTo g d 5 (BitVec.ofNat 64 (g.outCount c.toNat)))

/-- TKRD (R361). -/
def execTkrd (d a : SReg) (s : State) : Out :=
  onScalar s (fun g =>
    let v := (g.sread a).toNat
    if 2 ^ 16 ≤ v then s.trap s.cur { cause := 0x01 }
    else s.put ((g.swrite d (BitVec.ofNat 64 (s.price v))).advance 4))

/-! ## Transaction barriers (R353, R354) -/

/-- REMAIN of a barrier word, signed. -/
def tbRemain (w : Nat) : Int := toS 40 w
/-- ARMED. -/
def tbArmed (w : Nat) : Bool := fld w 40 1 == 1
/-- PHASE. -/
def tbPhase (w : Nat) : Bool := fld w 41 1 == 1

/-- The word with REMAIN, ARMED, PHASE and POISON set and the rest left (R353). -/
def tbWord (w : Nat) (remain : Int) (armed phase poison : Bool) : Nat :=
  ofS 40 remain + armed.toNat * 2 ^ 40 + phase.toNat * 2 ^ 41 + poison.toNat * 2 ^ 42 + fld w 43 21 * 2 ^ 43

/-- Release the phase when due (R354). -/
def tbSettle (w : Nat) : Nat :=
  if tbArmed w && decide (tbRemain w ≤ 0) then tbWord w (tbRemain w) false (!tbPhase w) (fld w 42 1 == 1) else w

/-- An expectation is added (R354). -/
def tbExpect (w : Nat) (b : Word) : Nat :=
  if b = 0 then w else tbWord w (tbRemain w + toS 40 b.toNat) true (tbPhase w) (fld w 42 1 == 1)

/-- A chunk of n bytes lands (R354, R254). -/
def tbLand (w n : Nat) (poison : Bool) : Nat :=
  tbSettle (tbWord w (tbRemain w - n) (tbArmed w) (tbPhase w) (fld w 42 1 == 1 || poison))

/-- The scratchpad word a barrier address names: core and local address (R353, R354). -/
def State.barWord (s : State) (h addr : Nat) : Option (Nat × Nat) :=
  if addr % 8 ≠ 0 then none
  else
    match s.target h addr true with
    | .bank c a _ => some (c, a)
    | _ => none

/-- The value fits 40 signed bits (R354). -/
def fits40 (b : Word) : Bool := decide (-(2 ^ 39 : Int) ≤ b.toInt) && decide (b.toInt < 2 ^ 39)

/-- Read a barrier word. -/
def Core.word (k : Core) (a : Nat) : Nat := leNat (k.lread a 8)

/-- TBAR (R354): its expectation is added once, after the group's earlier writes of the word (R198); it completes when the phase
changes. A trap between the two finds it noted for its trap level, so that it is not added again (R240). -/
def execTbar (a b : SReg) (s : State) : Out :=
  onScalar s (fun g =>
    match s.barWord s.cur (g.sread a).toNat, fits40 (g.sread b) with
    | some (c, x), true =>
      let note := tblFind g.tbars g.level
      let pass := fun (s : State) =>
        (s.acquireAt (s.coreOf s.cur) 2).updGroup s.cur (fun g => { g.advance 4 with tbars := tblDel g.tbars g.level })
      let w := (s.core c).word x
      match (note.filter (fun n => n / 2 == g.pc)) with
      | some n => if tbPhase w != (n % 2 == 1) then pass s else s.scalarWaits g
      | none =>
        let probe : Access := { kind := .atomic, addr := (g.sread a).toNat, size := 8, seq := g.seq, seen := g.sseen }
        if g.log.any (fun d => d.writes && d.before probe && (s.placed s.cur d).meets (s.placed s.cur probe)) then s.scalarWaits g
        else
        let w1 := tbExpect w (g.sread b)
        let w2 := tbSettle w1
        let s1 := s.updCore c (fun k => k.lwrite x (leBytes 8 w2))
        if tbPhase w2 != tbPhase w then pass s1
        else s1.scalarWaits { g with tbars := tblPut g.tbars g.level (g.pc * 2 + (tbPhase w).toNat) }
    | _, _ => s.trap s.cur { cause := 0x01 })

/-! ## Kicks (R355) -/

/-- The cause of a kick at an address that is no kick register (R355, R183, R188, R189). -/
def State.kickFault (s : State) (addr : Nat) : Option Nat :=
  if addr % 8 ≠ 0 then some 0x12
  else if 0xF0 * 2 ^ 48 ≤ addr % 2 ^ 56 then some 0x11
  else
    match s.pageKind addr with
    | some .kick => none
    | some _ => some 0x11
    | none => some 0x10

/-- KICK (R355): an 8-byte store with release ordering at system scope. -/
def execKick (a b : SReg) (s : State) : Out :=
  onScalar s (fun g =>
    let addr := (g.sread a).toNat
    match s.kickFault addr with
    | some c => (s.put (g.advance 4)).reportGroup s.cur c (addr % 2 ^ 56) false g.pc 0xFF
    | none =>
      s.issueAll g [{ pc := g.pc, kind := .store, addr := addr, size := 8, data := (g.sread b).toNat, ord := 2, scope := 5,
                      seq := g.seq, seen := g.sseen }] s.scalarWaits (fun g => g.advance 4))

/-! ## Gates (R359, R44, R45) -/

/-- A gate command: a layer number alone, and ring control rights (R359). -/
def State.gateOk (s : State) (g : Group) (a : SReg) : Bool :=
  decide ((g.sread a).toNat < 2 ^ 16) && (s.gridOf s.cur).flags.testBit 1

/-- RGATE_CLOSE (R359): the close is in effect at every station when it completes (R44); not performed in a twin
(R257). -/
def execRgateClose (a : SReg) (s : State) : Out :=
  onScalar s (fun g =>
    if !s.gateOk g a then s.trap s.cur { cause := 0x01 }
    else
      s.atRelease g (fun g =>
        let s := s.put (g.advance 4)
        if s.inTwin s.cur then s else s.setGate (g.sread a).toNat false) (commandRecord (g.sread a).toNat []))

/-- RGATE_OPEN (R359): a system-scope release, which waits for the group's earlier accesses (R45, R198), then the open,
observed by every station when it completes. -/
def execRgateOpen (a : SReg) (s : State) : Out :=
  onScalar s (fun g =>
    if !s.gateOk g a then s.trap s.cur { cause := 0x01 }
    else if g.log.any (fun x => x.before { seq := g.seq, seen := g.sseen }) || !s.canRelease (s.coreOf s.cur) 5 then
      s.scalarWaits g
    else
      s.atRelease g (fun g =>
        let s := (s.put (g.advance 4)).releaseAt (s.coreOf s.cur) 5
        if s.inTwin s.cur then s else s.setGate (g.sread a).toNat true) (commandRecord (g.sread a).toNat []))

end Sys2Proof.Machine
end

