-- ==== Sys2Proof/Machine/Engine.lean ====
section
/-!
DEFINITION. What the copy, remote and collective engines share (R173, R204, R336 to R341): ranges of memory read and
written on a group's behalf, faults, requests to remote ends, signals and packets' completions. -/
namespace Sys2Proof.Machine

/-! ## Ranges -/

/-- An address on a PEER page of the device's own rank leads to the address it stands for (R339, R389). -/
def State.localize (s : State) (h a : Nat) : Nat :=
  match s.target h a false with
  | .page b p => if p.kind == .peer && s.ownValid p.job p.rank then p.rva + (a % 2 ^ 56 - b) else a
  | _ => a

/-- The destination of an engine command lies in the team window, so that each copy of a Scrim pair performs it (R257). -/
def State.inWindow (s : State) (h a : Nat) : Bool := !s.beyond h { addr := a }

/-- The first byte of a range at which the access of an engine, or of another that waits as `who`, faults, and its cause (R189):
no die had room for a page without backing (R188), among others. `fold` marks an 8-byte fetch-and-add. -/
def State.rangeFault (s : State) (who : Waiter) (h : Nat) (w : Want) (fold : Bool) (a n : Nat) : Option (Nat × Nat) :=
  (segs a n).findSome? (fun e =>
    let x := s.localize h e.1
    match s.target h x (w == .write || w == .atomic) with
    | .fault c => some (c, e.1)
    | .page _ p =>
      if !p.permits w fold || (p.kind == .kick && w != .write && !kickLoadOk e.1 e.2) then some (0x11, e.1)
      else if !p.backed && p.failed.contains who then some (0x10, e.1)
      else none
    | .bank _ _ _ => none)

/-- The pages of a range that have no backing are asked for, and `who` waits for them (R188). -/
def State.awaitBacking (s : State) (who : Waiter) (h a n : Nat) : State :=
  (segs a n).foldl (fun (s : State) e =>
    match s.target h (s.localize h e.1) false with
    | .page b p =>
      if p.backed then s
      else { s with pages := tblPut s.pages b { p with
        wanted := true, waits := if p.waits.contains who then p.waits else p.waits ++ [who] } }
    | _ => s) s

/-- A range reaches a page that has no backing yet, that refuses the access while it moves, or whose memory takes no new request
(R79, R188, R193); or what a core holds of it cannot go to its home now (R192). -/
def State.rangeWaits (s : State) (h c : Nat) (write : Bool) (a n : Nat) : Bool :=
  (segs a n).any (fun e =>
    let x := s.localize h e.1
    match s.target h x false with
    | .page _ p => !p.backed || p.refuses write || s.pageChoked (dieOfCore c) p ||
        !s.canFlush c (fun y => (linesOf (x % 2 ^ 56) e.2).contains y.line)
    | _ => false)

/-- Bytes an engine reads on the device, with their poison: at the home for mapped space (R204), at the bank for local
store. -/
def State.engineRead (s : State) (h c a n evict : Nat) : State × List Byte × Bool :=
  (segs a n).foldl (fun acc e =>
    let (s, bs, p) := acc
    match s.target h (s.localize h e.1) false with
    | .bank k la q => (s, bs ++ (s.core k).lread la e.2, p || q || (s.core k).lpoisoned la e.2)
    | .page _ pg =>
      let x := s.localize h e.1 % 2 ^ 56
      if pg.kind == .kick || pg.kind == .desc then
        (s.roundTrip (dieOfCore c) pg.home 0 e.2, bs ++ (List.range e.2).map (fun i => s.deviceByte (x + i)), p)
      else
        let (s, b) := s.readAt c 4 evict x e.2
        (s, bs ++ b, p || s.homePoison x e.2)
    | .fault _ => (s, bs ++ List.replicate e.2 0, p)) (s, [], false)

/-- The key of a rank's entry among those an operation keeps (R116). -/
def entryKey (slot rank : Nat) : Nat := slot * 2 ^ 24 + rank

/-- The remote end of an address, if its page is a WINDOW or PEER page; none inside for an invalid rank entry. `kept` are entries
that were read before (R116). -/
def State.farEnd (s : State) (h a : Nat) (kept : Tbl RankEntry := []) : Option (Option FarEnd) :=
  match s.target h (s.localize h a) false with
  | .page b p =>
    let x := p.rva + (a % 2 ^ 56 - b)
    (match p.kind with
    | .window => some (some { port := p.port, qp := p.qp, addr := x, key := p.rkey.getD 0, via := some b })
    | .peer => some (((tblFind kept (entryKey p.job p.rank)).or (s.rankEntry p.job p.rank)).map (fun e =>
        { port := e.port, qp := e.qp, addr := x, key := e.key, via := some b }))
    | _ => none)
  | _ => none

/-- The rank entries that reaching some addresses takes, beside those kept (R116). -/
def State.readEnds (s : State) (h : Nat) (kept : Tbl RankEntry) (l : List Nat) : Tbl RankEntry :=
  l.foldl (fun t a =>
    match s.target h (s.localize h a) false with
    | .page _ p =>
      if p.kind == .peer && (tblFind t (entryKey p.job p.rank)).isNone then
        (match s.rankEntry p.job p.rank with
         | some e => tblPut t (entryKey p.job p.rank) e
         | none => t)
      else t
    | _ => t) kept

/-- Send a request of an engine of a core, which takes one of its request entries: while none is free, or others wait for them, it
waits its turn (R187). -/
def State.sendCore (s : State) (c : Nat) (r : RemoteOp) (e : FarEnd) (m : Msg) : State :=
  let r := { r with core := some c, via := e.via }
  if s.entriesUsed c < 4096 ∧ (s.core c).entryq.all (fun w => !s.stillWaits w) then s.sendFar (dieOfCore c) r (e.msg m)
  else s.updCore c (fun k => { k with entryq := k.entryq ++ [{ grp := 0, n := 1, send := some (r, e.msg m) }] })

/-- The requests of a core's engines that are next to have request entries go out as these become free (R187). -/
def State.drainEntries (s : State) (c : Nat) : State :=
  ((s.core c).entryq.filter s.stillWaits).foldl (fun (acc : State × Bool) w =>
    match acc.2, w.send with
    | true, some (r, m) =>
      if 4096 ≤ acc.1.entriesUsed c then (acc.1, false)
      else ((acc.1.updCore c (fun k => { k with entryq := (k.entryq.filter (fun x => acc.1.stillWaits x)).tail })).sendFar (dieOfCore c) r m,
        true)
    | _, _ => (acc.1, false)) (s, true) |>.1

/-- Send a request for an engine operation of a core. -/
def State.sendEngine (s : State) (c grp id : Nat) (e : FarEnd) (read : Bool) (len dst : Nat) (m : Msg) : State :=
  s.sendCore c { use := .engine grp id, len := len, dst := dst, read := read } e m

/-- A range reaches a remote page. -/
def State.farRange (s : State) (h a n : Nat) : Bool := (segs a n).any (fun e => (s.farEnd h e.1).isSome)

/-- What lies in remote memory of a range is asked for, under a key, to stand from a place on (R105, R204). -/
def State.gatherInto (s : State) (key off h c a n : Nat) : State :=
  (segs a n).foldl (fun (s : State) e =>
    match s.farEnd h e.1 with
    | some (some f) =>
      ({ s with fetches := tblUpd s.fetches key (fun x => { x with need := x.need + 1 }) } : State).sendCore c
        { use := .fetch key, len := e.2, dst := off + (e.1 - a), read := true } f { kind := .rdmaRead, code := e.2 }
    | some none => { s with fetches := tblUpd s.fetches key (fun x => { x with bad := true }) }
    | none => s) s

/-- What lies in remote memory of a range is asked for, under a new key. -/
def State.gather (s : State) (h c a n : Nat) : State × Nat :=
  let (key, s) := s.fresh
  (({ s with fetches := tblPut s.fetches key {} } : State).gatherInto key 0 h c a n, key)

/-- How far what a key was given for has come. -/
inductive Gathered where
  | here | waits | refused
deriving DecidableEq, Repr

/-- The state of a gathering. -/
def State.gathered (s : State) (key : Nat) : Gathered :=
  let f := tblGet {} s.fetches key
  if f.need ≠ 0 then .waits else if f.bad then .refused else .here

/-- A gathering is over. -/
def State.dropGather (s : State) (key : Option Nat) : State :=
  match key with
  | some k => { s with fetches := tblDel s.fetches k }
  | none => s

/-- Bytes of a range that begins at `base`, with their poison: what lies in remote memory as it was gathered. -/
def State.gatherRead (s : State) (h c : Nat) (key : Option Nat) (base a n evict : Nat) : State × List Byte × Bool :=
  (segs a n).foldl (fun acc e =>
    let (s, bs, p) := acc
    match key, s.farEnd h e.1 with
    | some k, some _ =>
      let f := tblGet {} s.fetches k
      let off := e.1 - base
      (s, bs ++ (List.range e.2).map (fun i => tblGet 0 f.got (off + i)),
        p || f.marks.any (fun m => decide (m < off + e.2) && decide (off < m + 64)))
    | _, _ =>
      let (s, b, q) := s.engineRead h c e.1 e.2 evict
      (s, bs ++ b, p || q)) (s, [], false)

/-- The mark of a request that writes memory for an operation, 2 where it writes poisoned bytes; other requests have none. -/
def writeMark (poison : Bool) : Nat := 1 + poison.toNat
/-- The mark of the increment of an operation's signal. -/
def signalMark : Nat := 3

/-- The parts of 64 B of a payload (R255, R341, R345). -/
def mapParts (n : Nat) : List Nat := List.range ((n + 63) / 64)

/-- The probe an engine's reads are ordered by: what precedes it in group order is performed first (R204). -/
def State.logClear (s : State) (h seq seen : Nat) : Bool :=
  (s.group h).log.all (fun a => !(a.writes && a.before { seq := seq, seen := seen }))

/-- What becomes of the reading of a descriptor at issue. -/
inductive Pulled where
  | bytes (b : List Byte)
  | wait (s : State)
  | fault (cause addr : Nat)

/-- The 64 bytes of a descriptor, as a command of the current group reads them at its issue, once the group's earlier writes are
performed (R204, R342, R346): what lies in remote memory is asked for, and kept from place `off` on until the command has
issued. An address in the cluster window is read there (DESIGN CHOICE, assumption 56). -/
def State.pull (s : State) (g : Group) (a off : Nat) : Pulled :=
  let h := s.cur
  let c := s.coreOf h
  let who := Waiter.stream h false
  if !s.logClear h g.seq g.sseen then .wait (s.scalarWaits g)
  else
    match s.rangeFault who h .read false a 64 with
    | some (cause, x) => .fault cause x
    | none =>
      if s.rangeWaits h c false a 64 then .wait ((s.awaitBacking who h a 64).scalarWaits g)
      else if !s.farRange h a 64 then .bytes (s.engineRead h c a 64 0).2.1
      else
        match g.pull.filter (fun e => e.1 == g.seq) with
        | none =>
          let (key, s) := (s.dropGather (g.pull.map (·.2))).fresh
          .wait (((({ s with fetches := tblPut s.fetches key {} } : State).gatherInto key off h c a 64)).scalarWaits
            { g with pull := some (g.seq, key) })
        | some (_, key) =>
          match s.gathered key with
          | .waits => .wait (s.scalarWaits g)
          | .refused => .fault 0x11 a
          | .here =>
            if (tblFind (tblGet {} s.fetches key).got off).isNone then .wait ((s.gatherInto key off h c a 64).scalarWaits g)
            else .bytes ((List.range 64).map (fun i => tblGet 0 (tblGet {} s.fetches key).got (off + i)))

/-- Bytes of an operation written to a remote page; the operation waits for their acknowledgement (R204). -/
def State.writeFar (s : State) (h c id x : Nat) (bs : List Byte) (poison : Bool) : State :=
  match s.farEnd h x with
  | some (some e) =>
    s.sendEngine c h id e false bs.length (writeMark poison) { kind := .rdmaWrite, bytes := bs, poison := if poison then mapParts bs.length else [] }
  | _ => s

/-- The writes to remote pages that writing a range takes. -/
def State.farWrites (s : State) (h a n : Nat) : Nat :=
  ((segs a n).filter (fun e => match s.farEnd h e.1 with | some (some _) => true | _ => false)).length

/-- The bytes of a range that lie on the device. -/
def State.nearBytes (s : State) (h a n : Nat) (kept : Tbl RankEntry := []) : Nat :=
  ((segs a n).map (fun e => if (s.farEnd h e.1 kept).isSome then 0 else e.2)).foldl (· + ·) 0

/-- The fault of a range that an operation is about to write: a page's, or that of a rank whose entry is invalid (R189, R340). -/
def State.writeFault (s : State) (id h a n : Nat) : Option (Nat × Nat) :=
  (s.rangeFault (.op id) h .write false a n).or
    ((segs a n).findSome? (fun e => if s.farEnd h e.1 == some none then some (0x11, e.1) else none))

/-- Bytes of a range lie on a page of the RDMA window, where poisoned ones may not go (R255). -/
def State.inHostWindow (s : State) (h a n : Nat) : Bool :=
  (segs a n).any (fun e => match s.target h e.1 false with | .page _ p => p.kind == .window | _ => false)

/-- Write bytes an engine moves for an operation; poisoned ones mark their granules (R173, R250). -/
def State.engineWrite (s : State) (h c id a : Nat) (bs : List Byte) (poison : Bool) (evict : Nat) : State :=
  ((segs a bs.length).foldl (fun (acc : State × List Byte) e =>
    let (s, rest) := acc
    let b := rest.take e.2
    let s :=
      match s.target h (s.localize h e.1) true with
      | .bank k la _ => s.updCore k (fun x => let y := x.lwrite la b; if poison then y.lpoison! la e.2 else y)
      | .page _ pg =>
        let x := s.localize h e.1 % 2 ^ 56
        if pg.kind == .kick then
          (let s := s.roundTrip (dieOfCore c) pg.home 8 0
           if e.2 = 8 ∧ x % 8 = 0 then s.kickAt x (leNat b) else s)
        else if pg.kind == .window || pg.kind == .peer then s.writeFar h c id x b poison
        else
          let s := s.writeAt c 4 evict x b
          if poison then s.poisonHome x e.2 else s
      | .fault _ => s
    (s, rest.drop e.2)) (s, bs)).1

/-! ## Faults and completion -/

/-- An engine operation faults: its team is reported at the instruction that issued it, and its entry stands until the team
is killed (R189). -/
def State.engineFault (s : State) (h cls id pc cause addr : Nat) : State :=
  (s.updGroup h (fun g => g.abandon cls id)).reportGroup h cause (addr % 2 ^ 56) false pc 0xFF

/-- Add to the 8-byte word of an address at its home, or read-modify-write it by a function, with a release of everything
the core wrote (R113, R338). -/
def State.addWord (s : State) (c a : Nat) (v : Word) : State :=
  let s := s.releaseAt c 5
  let w := BitVec.ofNat 64 (leNat (s.homeRead a 8)) + v
  s.writeAt c 5 0 a (leBytes 8 w.toNat)

/-! ## Signals (R338) -/

/-- What becomes of a signal. -/
inductive SignalEnd where
  | done (s : State)
  | sent (s : State)
  | wait (s : State)
  | fault (cause addr : Nat)

/-- Perform the signal increment of an operation at its completion (R338); a window barrier word has been counted
already. `id` is the operation the acknowledgement of a remote increment belongs to. DEDUCED: assumption 20. -/
def State.signal (s : State) (h c id : Nat) (sig : Option Nat) (kept : Tbl RankEntry := []) : SignalEnd :=
  match sig with
  | none => .done s
  | some g =>
    if 0xF0 * 2 ^ 48 ≤ g % 2 ^ 56 then .done s
    else if g % 8 ≠ 0 then .fault 0x12 g
    else
      match s.rangeFault (.op id) h .atomic true g 8 with
      | some (cause, x) => .fault cause x
      | none =>
        if s.rangeWaits h c true g 8 || !s.canRelease c 5 then .wait (s.awaitBacking (.op id) h g 8)
        else
        match s.farEnd h g kept with
        | some (some e) => .sent (s.sendEngine c h id e false 8 signalMark { kind := .rdmaAtomic, code := 1, bytes := leBytes 16 1 })
        | some none => .fault 0x11 g
        | none => .done (s.addWord c (s.localize h g % 2 ^ 56) 1)

/-- A chunk of n bytes lands, counted in the barrier word its signal names (R338, R354). -/
def State.countChunk (s : State) (h : Nat) (sig : Option Nat) (n : Nat) (poison : Bool) : State :=
  match sig with
  | none => s
  | some g =>
    if g % 2 ^ 56 < 0xF0 * 2 ^ 48 then s
    else
      match s.barWord h g with
      | none => s
      | some (k, x) => s.updCore k (fun y => y.lwrite x (leBytes 8 (tbLand (y.word x) n poison)))

/-- The bytes of a chunk written to a range that lie on the device have landed; those on remote pages are counted as they are
acknowledged (R338). -/
def State.countNear (s : State) (h a n : Nat) (sig : Option Nat) (poison : Bool) (kept : Tbl RankEntry := []) : State :=
  let near := s.nearBytes h a n kept
  if near = 0 ∧ n ≠ 0 then s else s.countChunk h sig near poison

/-! ## Completion records (R113, R114) -/

/-- Bytes of a completion record. -/
def recordOf (code cause tag time team rflags : Nat) : List Byte :=
  leBytes 2 code ++ leBytes 2 cause ++ leBytes 4 tag ++ leBytes 8 time ++ leBytes 4 team ++ leBytes 4 rflags ++ leBytes 8 0

/-- A packet has completed: it no longer holds back a BARRIER packet (R111). -/
def State.packetDone (s : State) (queue index : Nat) : State :=
  { s with queues := tblUpd s.queues queue (fun q => { q with pending := q.pending.filter (· != index) }) }

/-- The page of an address takes no write now, or has no backing yet (R79, R188, R192). -/
def State.postStuck (s : State) (die addr : Nat) : Bool :=
  match pageAt s.pages addr with
  | some (_, p) => !p.backed || p.refuses true || s.pageChoked die p
  | none => false

/-- Write bytes where a packet's STATUS or SIG stands: on the device, 8 of them in a kick register being a kick (R179), or in
host memory through the RDMA window (R105, R113); where nothing is mapped any more they are lost (DESIGN CHOICE, assumption 53). -/
def State.postBytes (s : State) (die : Nat) (use : RemoteUse) (addr : Nat) (bs : List Byte) : State :=
  match s.farEnd 0 addr with
  | some (some e) => s.sendFar die { use := use, len := bs.length, via := e.via } (e.msg { kind := .rdmaWrite, bytes := bs })
  | some none => s
  | none =>
    let x := s.localize 0 addr % 2 ^ 56
    match pageAt s.pages x with
    | none => s
    | some (_, p) =>
      if p.kind == .kick || p.kind == .desc then
        (let s := s.roundTrip die p.home bs.length 0
         if p.kind == .kick && bs.length == 8 && x % 8 == 0 then s.kickAt x (leNat bs) else s)
      else (s.homeWrite x bs).visitHome die x bs.length 4 true

/-- Add to the word at an address with a fetching atomic: on the device, or in host memory through the RDMA window (R105,
R112, R113); where nothing is mapped any more nothing is added (DESIGN CHOICE, assumption 53). -/
def State.signalAdd (s : State) (die : Nat) (use : RemoteUse) (addr : Nat) (delta : Word) : State :=
  match s.farEnd 0 addr with
  | some (some e) =>
    s.sendFar die { use := use, len := 8, via := e.via }
      (e.msg { kind := .rdmaAtomic, code := 1, bytes := leBytes 8 delta.toNat ++ leBytes 8 0 })
  | some none => s
  | none =>
    let x := s.localize 0 addr % 2 ^ 56
    if (pageAt s.pages x).isNone then s
    else (s.homeWrite x (leBytes 8 (BitVec.ofNat 64 (leNat (s.homeRead x 8)) + delta).toNat)).visitHome die x 8 4 true

/-- Change a record on its way. -/
def State.updPost (s : State) (id : Nat) (f : Post → Post) : State :=
  { s with posts := s.posts.map (fun p => if p.id == id then f p else p) }

/-- A release of a die's dispatcher to an address may be performed: in the RDMA window, once every write that the dispatcher
made there before has been acknowledged (R105). -/
def State.windowAcked (s : State) (die addr : Nat) : Bool :=
  (s.farEnd 0 addr).isNone ||
    s.remote.all (fun r =>
      match r.use with
      | .post _ => r.die != die
      | .signal _ _ => r.die != die
      | .added => r.die != die
      | _ => true)

/-- The next step of a record on its way (R113): it is written, with TIME of its die then (R114); once it is performed or
acknowledged, CDELTA is added by an atomic that releases everything its cores hold; and then its packet is over. A page that
takes no write is waited for. -/
def State.stepPost (s : State) (p : Post) : State :=
  if p.wait then s
  else if p.status ≠ 0 then
    if s.postStuck p.die p.status then s.wantPageOf p.status
    else
      ((s.updPost p.id (fun q => { q with status := 0, wait := (match s.farEnd 0 p.status with | some (some _) => true | _ => false) })).postBytes
        p.die (.post p.id) p.status (p.record.take 8 ++ leBytes 8 (s.die p.die).time ++ p.record.drop 16))
  else if p.csig ≠ 0 then
    if s.postStuck p.die p.csig then s.wantPageOf p.csig
    else if !p.cores.all (s.canRelease · 5) || !s.windowAcked p.die p.csig then s
    else ((p.cores.foldl (fun s c => s.releaseAt c 5) s).updPost p.id (fun q => { q with csig := 0 })).signalAdd p.die .added p.csig
      p.cdelta
  else ({ s with posts := s.posts.filter (fun q => q.id != p.id) } : State).packetDone p.queue p.index

/-- Carry a record on as far as it goes now. -/
def State.drivePost (s : State) (id : Nat) : State :=
  (List.range 3).foldl (fun s _ =>
    match s.posts.find? (fun p => p.id == id) with
    | some p => s.stepPost p
    | none => s) s

/-- Carry on the records of a die (R113). -/
def State.drivePosts (s : State) (die : Nat) : State :=
  ((s.posts.filter (·.die == die)).map (·.id)).foldl State.drivePost s

/-- Write the completion record, then add CDELTA to CSIG, and then the packet of a queue and index is over (R113); an address of
0 is none. The addition releases what the dispatcher's core and others that worked for the packet owe (R115). -/
def State.completion (s : State) (die code cause tag team rflags status csig : Nat) (delta : Word) (queue index : Nat)
    (cores : List Nat := []) : State :=
  let id := s.nextId
  ({ s with
    nextId := id + 1
    posts := s.posts ++ [{ id := id, die := die, status := status, record := recordOf code cause tag (s.die die).time team rflags
                           csig := csig, cdelta := delta, cores := (40 * die + 39) :: cores, queue := queue, index := index }] } : State).drivePost id

/-- A record's write has been acknowledged (R105). -/
def State.ackPost (s : State) (id : Nat) : State := (s.updPost id (fun p => { p with wait := false })).drivePost id

/-- A packet that serves a record and a signal completes (R113, R420). -/
def State.endPacket (s : State) (key code cause : Nat) : State :=
  match tblFind s.packets key with
  | none => s
  | some p =>
    { s with packets := tblDel s.packets key }.completion p.die code cause p.tag 0xFFFFFFFF 0 p.status p.csig p.cdelta p.queue p.index

/-- A WAIT packet ends with a code: its record is written and the queue goes on (R112). -/
def State.endWait (s : State) (queue code : Nat) : State :=
  match tblFind s.queues queue with
  | none => s
  | some q =>
    match q.waiting with
    | none => s
    | some w =>
      ({ s with queues := tblUpd s.queues queue (fun q => { q with waiting := none }) } : State).completion q.die code 0 w.tag
        0xFFFFFFFF 0 w.status 0 0 queue w.index

/-- A WAIT packet's signal word has been read (R112). -/
def State.answerWait (s : State) (queue v : Nat) : State :=
  match (tblFind s.queues queue).bind (·.waiting) with
  | none => s
  | some w => if flagHolds w.cond (BitVec.ofNat 64 v) w.value then s.endWait queue 0 else s

/-! ## Commands in Scrim pairs (R257 to R259) -/

/-- Issue an engine command of `n` bytes of code as a release point; in a twin, one that acts beyond the core enters its
class without effect (R257). -/
def State.command (s : State) (g : Group) (cls n : Nat) (beyond : Bool) (sign : List Byte) (f : State → State) : State :=
  s.atRelease g (fun g =>
    let id := s.nextId
    let s := { s with nextId := s.nextId + 1 }
    if beyond && s.inTwin s.cur then s.put ((g.advance n).enter cls id true)
    else f (s.put ((g.advance n).enter cls id))) sign

end Sys2Proof.Machine
end

