-- ==== Sys2Proof/Machine/Coll.lean ====
section
/-!
DEFINITION. Collectives (R342 to R345, R231, R232, R417, R418): the descriptor, the tree, chunks, status, and the chunks
held for a collective not yet issued. -/
namespace Sys2Proof.Machine

/-! ## The tree (R231, R343): relative rank m combines every node (h, j) with j x 2^h = m -/

/-- Level of the highest node a relative rank combines, below a bound. -/
def nodeLevel : Nat → Nat → Nat
  | 0, _ => 0
  | k + 1, m => if m % 2 = 1 then 0 else nodeLevel k (m / 2) + 1

/-- ⌈log2 n⌉. -/
def treeHeight (n : Nat) : Nat := if n ≤ 1 then 0 else Nat.log2 (n - 1) + 1

/-- The level of a rank's highest node in a set of n. -/
def topLevel (n m : Nat) : Nat := if m = 0 then treeHeight n else nodeLevel 24 m

/-- The ranks whose partials a rank takes, in the order it combines them. -/
def treeChildren (n m : Nat) : List Nat := ((List.range (topLevel n m)).map (fun i => m + 2 ^ i)).filter (· < n)

/-- The rank that combines the parent of a rank's highest node. -/
def treeParent (n m : Nat) : Nat := m - 2 ^ topLevel n m

/-- Relative rank q lies under the highest node of m. -/
def underNode (n m q : Nat) : Bool := decide (m ≤ q) && decide (q < min n (m + 2 ^ topLevel n m))

/-- Ranks under the highest node of m. -/
def nodeSize (n m : Nat) : Nat := min n (m + 2 ^ topLevel n m) - m

/-- Elements of the whole result vector. -/
def Coll.total (k : Coll) : Nat := if k.op = 3 ∨ k.op = 4 then k.n * k.count else k.count

/-- The elements that a rank's partial carries upward: first and number (R343). -/
def Coll.upRange (k : Coll) (m : Nat) : Nat × Nat :=
  match k.op with
  | 2 => (0, if underNode k.n m k.root then k.count else 0)
  | 3 => (m * k.count, nodeSize k.n m * k.count)
  | _ => (0, k.total)

/-- The elements that are sent down to a rank (R343). -/
def Coll.downRange (k : Coll) (m : Nat) : Nat × Nat :=
  match k.op with
  | 1 => (0, if underNode k.n m k.root then k.count else 0)
  | 4 => (m * k.count, nodeSize k.n m * k.count)
  | _ => (0, k.total)

/-- The elements of the result that a rank writes to DST, and the element DST begins with (R343). -/
def Coll.dstRange (k : Coll) : Nat × Nat :=
  match k.op with
  | 1 => (0, if k.me = k.root then k.count else 0)
  | 4 => (k.me * k.count, k.count)
  | _ => (0, k.total)

/-- The ranks a device serves (R418). -/
def Coll.served (k : Coll) : List Nat := (if k.me = 0 then [] else [treeParent k.n k.me]) ++ treeChildren k.n k.me

/-- The combine of RED (R342). -/
def redOp (red : Nat) : COp :=
  match red with
  | 0 => .add | 1 => .min | 2 => .max | 3 => .amax | _ => .or

/-- Combine elements into elements: absent ones pass unchanged (R231). -/
def combineElems (fmt red : Nat) (a b : Tbl Nat) : Tbl Nat :=
  b.foldl (fun t e => tblPut t e.1 (match tblFind t e.1 with | some v => combine fmt (redOp red) v e.2 | none => e.2)) a

/-! ## Descriptors (R342) -/

/-- A descriptor is within its limits (R342). -/
def collOk (b : List Byte) : Bool :=
  let op := numAt b 0 1
  let red := numAt b 1 1
  let fmt := numAt b 2 1
  let flt := isIeeeFmt fmt
  decide (op ≤ 4) && decide (red ≤ 4) && (!(op == 2 || op == 3) || red == 0) && decide (fmt ≤ 0x0D) &&
    (red != 3 || flt) && (red != 4 || !flt) && decide (numAt b 3 1 < 8) &&
    (numAt b 3 1 % 2 == 0 || fmt == 8 || fmt == 9 || fmt == 0x0A || fmt == 0x0C || fmt == 0x0D) &&
    decide (numAt b 8 4 < 2 ^ 24) && decide (1 ≤ numAt b 12 4) && decide (numAt b 12 4 < 2 ^ 24) &&
    decide (numAt b 16 4 < numAt b 12 4) && decide (1 ≤ numAt b 40 8) && decide (numAt b 40 8 < 2 ^ 32) && zeroAt b 56 8

/-- A collective of a descriptor. -/
def collOf (b : List Byte) (id grp : Nat) (sig : Option Nat) : Coll :=
  { id := id, grp := grp, op := numAt b 0 1, red := numAt b 1 1, fmt := numAt b 2 1, slot := fld (numAt b 3 1) 1 2
    comp := numAt b 3 1 % 2 == 1
    tag := numAt b 4 4, first := numAt b 8 4, n := numAt b 12 4, root := numAt b 16 4, src := numAt b 24 8
    dst := numAt b 32 8, count := numAt b 40 8, status := numAt b 48 8, sig := sig }

/-! ## Messages (R345) -/

/-- The header of a chunk. -/
def Coll.header (k : Coll) (kind mode node job me firstel nel : Nat) : List Byte :=
  leBytes 1 1 ++ leBytes 1 kind ++ leBytes 1 mode ++ leBytes 1 0 ++ leBytes 4 job ++ leBytes 4 k.tag ++ leBytes 4 me ++
    leBytes 4 node ++ leBytes 8 firstel ++ leBytes 2 nel ++ leBytes 2 0 ++ leBytes 1 k.op ++ leBytes 1 k.red ++
    leBytes 1 k.fmt ++ leBytes 1 0 ++ leBytes 4 k.first ++ leBytes 4 k.n ++ leBytes 4 k.root ++ leBytes 4 k.count ++ leBytes 12 0

/-- NODE of the highest node of a relative rank. -/
def nodeWord (n m : Nat) : Nat := topLevel n m * 2 ^ 27 + m / 2 ^ topLevel n m

/-- Change a collective. -/
def State.updColl (s : State) (id : Nat) (f : Coll → Coll) : State :=
  { s with colls := s.colls.map (fun k => if k.id == id then f k else k) }

/-- Send a message to a relative rank of the set, by the entry the collective read at its start (R116). -/
def State.sendRank (s : State) (k : Coll) (c : Nat) (bytes : List Byte) : State :=
  match tblFind k.ranks c with
  | none => s
  | some e =>
    (s.sendEngine (s.coreOf k.grp) k.grp k.id { port := e.port, qp := e.qp, addr := 0, key := 0 } false bytes.length 0
      { kind := .send, bytes := bytes }).updColl k.id (fun k => { k with unacked := k.unacked + 1 })

/-- Canonical codes of a table of lengths: (value, length, code), by length and then value (R345). -/
def canonCodes (lens : List Nat) : List (Nat × Nat × Nat) :=
  let vs := (List.range 15).flatMap (fun l => ((List.range lens.length).filter (fun x => lens[x]?.getD 0 == l + 1)).map (fun x => (x, l + 1)))
  (vs.foldl (fun (acc : List (Nat × Nat × Nat) × Nat × Nat) e =>
    let (out, prev, len) := acc
    let code := if out.isEmpty then 0 else (prev + 1) <<< (e.2 - len)
    (out ++ [(e.1, e.2, code)], code, e.2)) ([], 0, 0)).1

/-- Bits of a code, most significant first (R345). -/
def codeBits (len code : Nat) : List Nat := (List.range len).map (fun i => code >>> (len - 1 - i) % 2)

/-- A bit stream in bytes, from bit 0 of the first, padded to a whole byte (R345). -/
def bitBytes (l : List Nat) : List Byte := leBytes ((l.length + 7) / 8) (l.foldr (fun b v => b + 2 * v) 0)

/-- The Kraft sum of a table of lengths, in units of 2^-15 (R345). -/
def kraftSum (lens : List Nat) : Nat := (lens.map (fun l => if l = 0 then 0 else 2 ^ (15 - l))).foldl (· + ·) 0

/-- A payload in coded form (R345): the table of the lengths that the sender chooses, signs and fractions, and exponent codes; none
where its choice gives no code. DESIGN CHOICE: assumption 23. -/
def encodeCoded (fmt : Nat) (vals : List Nat) : Option (List Byte) :=
  match ffOf fmt with
  | none => none
  | some f =>
    let exps := vals.map (fun v => fld v f.fb f.eb)
    let lens := (List.range 256).map (fun x => (Config.codeLengths exps)[x]?.getD 0 % 16)
    let codes := canonCodes lens
    if 2 ^ 15 < kraftSum lens || exps.any (fun x => lens[x]?.getD 0 == 0) then none
    else
      let w := f.fb + 1
      let table := (List.range 128).map (fun i => BitVec.ofNat 8 (lens[2 * i]?.getD 0 + 16 * lens[2 * i + 1]?.getD 0))
      let fixed := vals.flatMap (fun v => (List.range w).map (fun i => fld v (if i < f.fb then i else f.fb + f.eb) 1))
      let stream := exps.flatMap (fun x =>
        match codes.find? (fun c => c.1 == x) with
        | some c => codeBits c.2.1 c.2.2
        | none => [])
      some (table ++ bitBytes fixed ++ bitBytes stream)

/-- The payload of a chunk and its MODE: coded only where that is allowed and shorter (R345). -/
def Coll.payload (k : Coll) (vals : List Nat) : Nat × List Byte :=
  let raw := vals.flatMap (leBytes (fmtBytes k.fmt))
  match (if k.comp then encodeCoded k.fmt vals else none) with
  | some b => if b.length < raw.length then (1, b) else (0, raw)
  | none => (0, raw)

/-- Send elements to a relative rank in chunks of at most 4,096 B, each with its poison map. -/
def State.sendElems (s : State) (k : Coll) (kind c : Nat) (vals : Tbl Nat) (bad : List Nat) : Nat → Nat → Nat → State
  | 0, _, _ => s
  | fuel + 1, first, n =>
    if n = 0 then s
    else
      let size := fmtBytes k.fmt
      let m := min n (4024 / size)
      let (mode, data) := k.payload ((List.range m).map (fun i => tblGet 0 vals (first + i)))
      let parts := (List.range ((m * size + 63) / 64)).filter (fun p =>
        (List.range m).any (fun i => i * size / 64 == p && bad.contains (first + i)))
      let map := leBytes (((m * size + 63) / 64 + 63) / 64 * 8) (parts.foldl (fun v i => v ||| 2 ^ i) 0)
      let node := nodeWord k.n (if kind = 0 then k.me else c)
      State.sendElems (s.sendRank k c (k.header kind mode node k.job.toNat (k.first + k.me) first m ++ map ++ data)) k kind c vals bad fuel
        (first + m) (n - m)

/-! ## Completion (R343, R344) -/

/-- The status word of a code and a rank (R344). -/
def statusWord (code rank : Nat) : Nat := code + rank * 2 ^ 32

/-- No rank. -/
def noRank : Nat := 0xFFFFFF

/-- A TAG whose collective has ended is remembered in its job slot (R417). -/
def State.rememberTag (s : State) (slot tag : Nat) : State :=
  { s with ended := tblPut s.ended slot ((tblGet [] s.ended slot).filter (· != tag) ++ [tag]) }

/-- A collective leaves the engine and its entry retires; a duplicate leaves its TAG to the one that is active. -/
def State.dropColl (s : State) (k : Coll) : State :=
  let s := { s with colls := s.colls.filter (fun x => x.id != k.id) }
  ((if k.code = 5 then s else s.rememberTag k.slot k.tag).updGroup k.grp (fun g => g.complete 3 k.id)).tryEndTeam (teamOf k.grp)

/-- A collective is abandoned on a fault (R189). -/
def State.failColl (s : State) (k : Coll) (cause addr : Nat) : State :=
  (({ s with colls := s.colls.filter (fun x => x.id != k.id) }.rememberTag k.slot k.tag).engineFault k.grp 3 k.id k.pc cause
    addr).tryEndTeam (teamOf k.grp)

/-- A collective's writes to remote pages are counted, to be acknowledged before its signal (R204). -/
def State.owesWrites (s : State) (k : Coll) (n : Nat) : State := s.updColl k.id (fun k => { k with writes := k.writes + n })

/-- A collective that completes writes STATUS, performs its signal once its writes are performed, and then retires (R338, R343);
a page that takes no write now is waited for. -/
def State.closeColl (s : State) (id : Nat) : State :=
  match s.colls.find? (·.id == id) with
  | none => s
  | some k =>
    let c := s.coreOf k.grp
    match (if k.wrote || k.status = 0 then none else s.writeFault k.id k.grp k.status 8) with
    | some (cause, a) => s.failColl k cause a
    | none =>
      if !k.wrote && k.status ≠ 0 && s.rangeWaits k.grp c true k.status 8 then s.awaitBacking (.op k.id) k.grp k.status 8
      else
        let far := if k.status = 0 then 0 else s.farWrites k.grp k.status 8
        let writes := if k.wrote then k.writes else k.writes + far
        let s := if k.wrote || k.status = 0 then s
          else (s.engineWrite k.grp c k.id k.status (leBytes 8 (statusWord k.code k.who)) false 0).countNear k.grp k.status 8 k.sig false
        let s := s.updColl id (fun k => { k with wrote := true, writes := writes })
        if writes ≠ 0 then s
        else
          match s.signal k.grp c k.id k.sig with
          | .fault cause a => s.failColl k cause a
          | .done s => s.dropColl k
          | .wait s => s
          | .sent s => s.updColl k.id (fun k => { k with fin := true })

/-- A collective completes with a code and a rank (R343, R344). -/
def State.endColl (s : State) (k : Coll) (code rank : Nat) : State :=
  (s.updColl k.id (fun k => { k with closing := true, code := code, who := rank })).closeColl k.id

/-- Send abort chunks to ranks: FIRSTEL holds the STATUS word (R345, R418). -/
def State.sendAborts (s : State) (k : Coll) (code rank : Nat) (ranks : List Nat) : State :=
  ranks.foldl (fun s c => s.sendRank k c
    (k.header 2 0 (nodeWord k.n k.me) k.job.toNat (k.first + k.me) (statusWord code rank) 0)) s

/-- The collective is abandoned: no DST, aborts to the ranks it serves but those that sent one (R344, R418). -/
def State.abandonColl (s : State) (k : Coll) (code rank : Nat) (toAll : Bool) : State :=
  (s.sendAborts k code rank (if toAll then k.served else k.served.filter (fun c => !k.aborts.contains (k.first + c)))).endColl k
    code rank

/-! ## Progress -/

/-- A child's partial has wholly arrived. -/
def Coll.partOk (k : Coll) (c : Nat) : Bool := (tblGet [] k.parts c).length == (k.upRange c).2

/-- The children whose partials are awaited. -/
def Coll.awaited (k : Coll) : List Nat := (treeChildren k.n k.me).filter (fun c => !k.partOk c)

/-- What the node holds once every partial has come: partials combined in the tree's order (R231), with what is
poisoned. -/
def Coll.combined (k : Coll) : Tbl Nat × List Nat :=
  (treeChildren k.n k.me).foldl (fun (acc : Tbl Nat × List Nat) c =>
    (combineElems k.fmt k.red acc.1 (tblGet [] k.parts c), acc.2 ++ tblGet [] k.pbad c)) (k.own, k.obad)

/-- Write DST (R343), poisoned elements marking their granules; the first fault abandons the collective. -/
def State.writeDst (s : State) (k : Coll) : Except (Nat × Nat) State :=
  let size := fmtBytes k.fmt
  let (first, n) := k.dstRange
  match s.writeFault k.id k.grp k.dst (n * size) with
  | some x => .error x
  | none =>
    let c := s.coreOf k.grp
    let elem := fun (i : Nat) => leBytes size (tblGet 0 k.result (first + i))
    let bad := k.rbad.filter (fun e => decide (first ≤ e) && decide (e < first + n))
    match bad.find? (fun e => s.inHostWindow k.grp (k.dst + (e - first) * size) size) with
    | some e => .error (0x18, k.dst + (e - first) * size)
    | none =>
      let parts := if bad.isEmpty then [(k.dst, (List.range n).flatMap elem, false)]
        else (List.range n).map (fun i => (k.dst + i * size, elem i, bad.contains (first + i)))
      let s := parts.foldl (fun s e =>
        (s.engineWrite k.grp c k.id e.1 e.2.1 e.2.2 0).owesWrites k (s.farWrites k.grp e.1 e.2.1.length)) s
      .ok (s.countNear k.grp k.dst (n * size) k.sig (!bad.isEmpty))

/-- Send results down to every child that takes some. -/
def State.sendDown (s : State) (k : Coll) : State :=
  (treeChildren k.n k.me).foldl (fun s c =>
    let (first, n) := k.downRange c
    s.sendElems k 1 c k.result k.rbad (n + 1) first n) s

/-- Carry a collective on: send its partial upward, or make it the result at rank 0; pass results down, write DST and
complete (R343). -/
def State.carryColl (s : State) (id : Nat) : State :=
  match s.colls.find? (·.id == id) with
  | none => s
  | some k =>
      let go := !k.up && k.awaited.isEmpty
      let (vals, bad) := if go then k.combined else ([], [])
      let (first, n) := k.upRange k.me
      let k := if go then { k with up := true, result := if k.me = 0 then vals else k.result
                                   rbad := if k.me = 0 then bad else k.rbad } else k
      let s := s.updColl id (fun x => { x with up := k.up, result := k.result, rbad := k.rbad })
      let s := if go && k.me != 0 then s.sendElems k 0 (treeParent k.n k.me) vals bad (n + 1) first n else s
      let landed := k.up && (k.me == 0 || (k.result.length == (k.downRange k.me).2 && (k.downRange k.me).2 != 0))
      if k.op = 1 && !underNode k.n k.me k.root && k.me ≠ 0 then
        (match s.colls.find? (·.id == id) with
        | some x => if x.up && x.unacked == 0 then s.endColl x 0 noRank else s
        | none => s)
      else if !landed then s
      else if s.rangeWaits k.grp (s.coreOf k.grp) true k.dst (k.dstRange.2 * fmtBytes k.fmt) then
        s.awaitBacking (.op k.id) k.grp k.dst (k.dstRange.2 * fmtBytes k.fmt)
      else
        let s := s.sendDown k
        match s.writeDst k with
        | .error (cause, a) => s.failColl k cause a
        | .ok s => s.endColl k 0 noRank

/-- Elements of a rank's contribution, and the element of the whole vector that it begins with (R343). -/
def Coll.srcRange (k : Coll) : Nat × Nat :=
  if k.op = 2 ∧ k.me ≠ k.root then (0, 0) else if k.op = 3 then (k.me * k.count, k.count)
  else if k.op = 4 then (0, k.n * k.count) else (0, k.count)

/-- A collective's own contribution enters its node. -/
def State.readLeaf (s : State) (k : Coll) : State :=
  let size := fmtBytes k.fmt
  let (first, n) := k.srcRange
  let c := s.coreOf k.grp
  let bad := (List.range n).filter (fun i => (s.gatherRead k.grp c k.fetch k.src (k.src + i * size) size 0).2.2)
  let (s, bs, _) := s.gatherRead k.grp c k.fetch k.src k.src (n * size) 0
  (s.dropGather k.fetch).updColl k.id (fun k => { k with
    read := true, fetch := none, own := (List.range n).map (fun i => (first + i, numAt bs (i * size) size)), obad := bad.map (first + ·) })

/-- Carry a collective on: its own contribution is read first, as soon as its pages can be, or its remote end has answered
(R204); then its partials and results move. -/
def State.progressColl (s : State) (id : Nat) : State :=
  match s.colls.find? (·.id == id) with
  | none => s
  | some k =>
    let bytes := k.srcRange.2 * fmtBytes k.fmt
    if k.fin then s
    else if k.closing then s.closeColl id
    else if k.read then s.carryColl id
    else
      match s.rangeFault (.op k.id) k.grp .read false k.src bytes with
      | some (cause, a) => s.failColl k cause a
      | none =>
        if s.rangeWaits k.grp (s.coreOf k.grp) false k.src bytes then s.awaitBacking (.op k.id) k.grp k.src bytes
        else if !s.farRange k.grp k.src bytes then (s.readLeaf k).carryColl id
        else
          match k.fetch with
          | none =>
            let (s, key) := s.gather k.grp (s.coreOf k.grp) k.src bytes
            s.updColl id (fun k => { k with fetch := some key })
          | some key =>
            match s.gathered key with
            | .waits => s
            | .refused => (s.dropGather k.fetch).failColl k 0x11 k.src
            | .here => (s.readLeaf k).carryColl id

/-- A message of a collective, a write of its own to a remote page, or its signal there was acknowledged or refused (R326, R343,
R189); `mark` tells which. -/
def State.answerColl (s : State) (id len mark : Nat) (ok : Bool) : State :=
  match s.colls.find? (·.id == id) with
  | none => s
  | some k =>
    if !ok then s.failColl k 0x11 (if mark = 0 then k.src else if mark = signalMark then k.sig.getD 0 else k.dst)
    else if mark = signalMark then s.dropColl k
    else if mark ≠ 0 then
      ((s.countChunk k.grp k.sig len (mark == writeMark true)).updColl id (fun k => { k with writes := k.writes - 1 })).progressColl id
    else (s.updColl id (fun k => { k with unacked := k.unacked - 1 })).progressColl id

/-! ## Chunks received (R344, R345, R417) -/

/-- Read one code from a bit stream: bits from a position on, most significant first. -/
def readCode (codes : List (Nat × Nat × Nat)) (bit : Nat → Nat) : Nat → Nat → Nat → Nat → Option (Nat × Nat)
  | 0, _, _, _ => none
  | k + 1, pos, len, v =>
    let v := v * 2 + bit pos
    match codes.find? (fun c => c.2.1 == len + 1 && c.2.2 == v) with
    | some c => some (c.1, pos + 1)
    | none => readCode codes bit k (pos + 1) (len + 1) v

/-- Read the exponents of n elements. -/
def readCodes (codes : List (Nat × Nat × Nat)) (bit : Nat → Nat) : Nat → Nat → Option (List Nat × Nat)
  | 0, pos => some ([], pos)
  | n + 1, pos =>
    match readCode codes bit 15 pos 0 0 with
    | none => none
    | some (x, pos) =>
      match readCodes codes bit n pos with
      | some (l, p) => some (x :: l, p)
      | none => none

/-- The elements of a coded payload (R345); none when its table or a code is bad. -/
def decodeCoded (fmt n : Nat) (b : List Byte) : Option (List Nat) :=
  match ffOf fmt with
  | none => none
  | some f =>
    let lens := (List.range 256).map (fun x => fld (numAt b (x / 2) 1) (x % 2 * 4) 4)
    let w := f.fb + 1
    let fixed := (n * w + 7) / 8
    let raw := leNat (bytesAt b 128 fixed)
    let tail := b.drop (128 + fixed)
    let bits := leNat tail
    if 2 ^ 15 < kraftSum lens then none
    else
      match readCodes (canonCodes lens) (fun i => fld bits i 1) n 0 with
      | none => none
      | some (es, used) =>
        if (used + 7) / 8 ≠ tail.length ∨ es.any (fun x => decide (2 ^ f.eb ≤ x)) then none
        else some ((es.zip (List.range n)).map (fun e =>
          let x := fld raw (e.2 * w) w
          x % 2 ^ f.fb + e.1 * 2 ^ f.fb + x / 2 ^ f.fb * 2 ^ (f.fb + f.eb)))

/-- The reserved parts of a chunk header are zero, its version and codes known (R345). -/
def chunkOk (b : List Byte) : Bool :=
  decide (64 ≤ b.length) && numAt b 0 1 == 1 && decide (numAt b 1 1 ≤ 2) && decide (numAt b 2 1 ≤ 1) && zeroAt b 3 1 &&
    zeroAt b 15 1 && zeroAt b 30 2 && zeroAt b 35 1 && zeroAt b 39 1 && zeroAt b 43 1 && zeroAt b 47 1 && zeroAt b 52 12

/-- The elements of a chunk and the poisoned ones among them; none when the payload is bad. -/
def chunkElems (b : List Byte) : Option (List Nat × List Nat) :=
  let fmt := numAt b 34 1
  let n := numAt b 28 2
  let size := fmtBytes fmt
  let parts := (n * size + 63) / 64
  let mapLen := (parts + 63) / 64 * 8
  let map := numAt b 64 mapLen
  let body := b.drop (64 + mapLen)
  let bad := (List.range n).filter (fun i => fld map (i * size / 64) 1 == 1)
  if n = 0 || fld map parts (8 * mapLen - parts) != 0 then none
  else if numAt b 2 1 = 1 then (decodeCoded fmt n body).map (fun l => (l, bad))
  else if body.length ≠ n * size then none
  else some ((List.range n).map (fun i => numAt body (i * size) size), bad)

/-- A header agrees with a collective's own descriptor (R344). -/
def Coll.agrees (k : Coll) (b : List Byte) : Bool :=
  numAt b 32 1 == k.op && numAt b 33 1 == k.red && numAt b 34 1 == k.fmt && numAt b 36 4 == k.first && numAt b 40 4 == k.n &&
    numAt b 44 4 == k.root && numAt b 48 4 == k.count

/-- A chunk is an abort (R345). -/
def isAbort (b : List Byte) : Bool := chunkOk b && numAt b 1 1 == 2

/-- A collective accepts a chunk that came by a port (R344, R345): it crosses to the core (R74); one behind the end of the
collective is dropped and counted. -/
def State.acceptChunk (s : State) (id : Nat) (c : HeldChunk) : State :=
  match s.colls.find? (·.id == id) with
  | none => s.count 1
  | some k =>
    let b := c.bytes
    let sender := numAt b 12 3
    let rel := sender - k.first
    if k.fin || k.closing then s.count 1
    else
      let s := s.crossMesh clsReq c.port (s.dieOf k.grp) b.length
      if !chunkOk b then s.abandonColl k 6 sender true
      else if isAbort b then
        let k := { k with aborts := if k.aborts.contains sender then k.aborts else k.aborts ++ [sender] }
        (s.updColl id (fun _ => k)).abandonColl k (numAt b 20 1) (numAt b 24 3) false
      else if !k.agrees b then s.abandonColl k 2 sender true
      else
        match chunkElems b with
        | none => s.abandonColl k 6 sender true
        | some (vs, bad) =>
          let first := numAt b 20 8
          let put := fun t : Tbl Nat => (vs.zip (List.range vs.length)).foldl (fun t e => tblPut t (first + e.2) e.1) t
          let bad := bad.map (first + ·)
          if numAt b 1 1 = 0 then
            if (treeChildren k.n k.me).contains rel && decide (k.first ≤ sender) then
              s.updColl id (fun k => { k with parts := tblPut k.parts rel (put (tblGet [] k.parts rel))
                                              pbad := tblPut k.pbad rel (tblGet [] k.pbad rel ++ bad) })
            else s.count 1
          else if k.me ≠ 0 && sender == k.first + treeParent k.n k.me then
            s.updColl id (fun k => { k with result := put k.result, rbad := k.rbad ++ bad })
          else s.count 1

/-- A collective takes a chunk, and goes on. -/
def State.takeChunk (s : State) (id : Nat) (c : HeldChunk) : State := (s.acceptChunk id c).progressColl id

/-- The job slot that holds a job identifier. -/
def State.slotOf (s : State) (job : BitVec 32) : Option Nat := (s.jobs.find? (fun e => e.2.job == job)).map (·.1)

/-- Some valid rank table entry of a job names the queue pair (R102). -/
def State.peerPair (s : State) (port qp : Nat) : Bool :=
  s.jobs.any (fun e => (List.range e.2.n).any (fun r =>
    match s.rankEntry e.1 r with
    | some x => x.port == port && x.qp == qp
    | none => false))

/-- The key of a queue pair. -/
def qpKey (port qp : Nat) : Nat := port * 2 ^ 24 + qp

/-- Queue pairs of a port (R102). -/
def qpCount : Nat := 16384

/-- A connection serves requests: the compute side is up, the port has such a queue pair, and it is not in the error state. -/
def State.serves (s : State) (port qp : Nat) : Bool :=
  s.firm.up && decide (port < 8) && decide (qp < qpCount) && !(tblGet ({} : Qp) s.qps (qpKey port qp)).err

/-- Answer a request, with the poison map of its bytes (R255); a NAK puts the connection into the error state (R102). -/
def State.answer (s : State) (port qp : Nat) (kind : MsgKind) (code : Nat) (bytes : List Byte) (poison : List Nat := []) : State :=
  let s := { s.ethernet port bytes.length with
    out := s.out ++ [{ kind := kind, port := port, qp := qp, code := code, bytes := bytes, poison := poison }] }
  if kind = .nak then
    { s with qps := tblPut s.qps (qpKey port qp) { tblGet ({} : Qp) s.qps (qpKey port qp) with err := true } }
  else s

/-- COLLECTIVE_CHUNK_RECEIVE (R345, R417): a chunk goes to the collective of its JOB and TAG, is dropped for a TAG that has
ended or a job not held, or is held. The SEND is acknowledged; on a queue pair of no peer it is refused (R102). -/
def execCollectiveChunkReceive (port qp : Nat) (bytes : List Byte) (s : State) : Out :=
  if !s.serves port qp then .next s
  else if !s.peerPair port qp then .next (s.answer port qp .nak 1 [])
  else
    let s := (s.ethernet port bytes.length).answer port qp .ack 0 []
    match s.slotOf (BitVec.ofNat 32 (numAt bytes 4 4)) with
    | none => .next (s.count 1)
    | some slot =>
      let tag := numAt bytes 8 4
      match s.colls.find? (fun k => k.slot == slot && k.tag == tag && !k.fin && !k.closing) with
      | some k => .next (s.takeChunk k.id { bytes := bytes, port := port })
      | none =>
        if (tblGet [] s.ended slot).contains tag || s.colls.any (fun k => k.slot == slot && k.tag == tag) then .next (s.count 1)
        else
          let held := tblGet [] s.chunks slot
          let s := if held.length < 1024 then s else s.count 1
          let kept := if held.length < 1024 then held else held.tail
          .next { s with chunks := tblPut s.chunks slot (kept ++ [{ bytes := bytes, port := port, time := (s.die 0).time }]) }

/-- HELD_CHUNK_DISCARD (R417): held chunks of a job slot that arrived 100 ms ago are discarded and counted. -/
def execHeldChunkDiscard (slot : Nat) (s : State) : Out :=
  let held := tblGet [] s.chunks slot
  let old := held.filter (fun c => decide (c.time + 100000000 ≤ (s.die 0).time))
  if old.isEmpty then .next s
  else
    let kept := held.filter (fun c => !decide (c.time + 100000000 ≤ (s.die 0).time))
    .next (old.foldl (fun s _ => s.count 1) { s with chunks := tblPut s.chunks slot kept })

/-- The ranks a collective waits for: those of partials, then the one that sends it results (R344). -/
def Coll.needs (k : Coll) : List Nat :=
  let off := k.op == 1 && !underNode k.n k.me k.root
  if !k.up then k.awaited
  else if k.me = 0 || off || k.result.length == (k.downRange k.me).2 then []
  else [treeParent k.n k.me]

/-- COLLECTIVE_TIMEOUT (R344): collective i has waited for contributions past its limit; the lowest rank it waits for is recorded.
One that waits for none, or whose limit has not passed, goes on as far as it can. -/
def execCollectiveTimeout (i : Nat) (s : State) : Out :=
  match s.colls[i]? with
  | none => .next s
  | some k =>
    match k.limit with
    | none => .next (s.progressColl k.id)
    | some t =>
      if k.fin || k.closing || s.timeOf k.grp < t || k.needs.isEmpty then .next (s.progressColl k.id)
      else .next (s.abandonColl k 1 (k.first + k.needs.foldl min (k.needs.head?.getD 0)) true)

/-! ## Issue (R342, R344) -/

/-- A collective completes at once without sending (R344). DEDUCED: assumption 23. -/
def State.refuseCode (s : State) (k : Coll) : Option Nat :=
  match s.jobAt k.slot with
  | none => some 4
  | some j =>
    if j.rank < k.first ∨ k.first + k.n ≤ j.rank then some 3
    else
      let k := { k with me := j.rank - k.first }
      if (j.rank :: k.served.map (k.first + ·)).any (fun r => s.rankBad k.slot r) then some 4
      else if s.colls.any (fun x => x.tag == k.tag) then some 5
      else none

/-- The chunks held for a TAG of a job slot, taken out of the store, in arrival order (R417). -/
def State.takeHeld (s : State) (slot tag : Nat) : State × List HeldChunk :=
  let held := tblGet [] s.chunks slot
  ({ s with chunks := tblPut s.chunks slot (held.filter (fun c => numAt c.bytes 8 4 != tag)) },
    held.filter (fun c => numAt c.bytes 8 4 == tag))

/-- The ranks with which a collective exchanges chunks, with their entries as it reads them (R116, R344). -/
def State.servedEntries (s : State) (k : Coll) : Tbl RankEntry :=
  k.served.filterMap (fun c => (s.rankEntry k.slot (k.first + c)).map (fun e => (c, e)))

/-- Start a collective whose descriptor is good: held chunks are taken in arrival order, those of aborts known before any of
them takes effect (R417, R418), and it goes on. One that is refused completes at once, and what was held for its TAG is dropped
(R344). -/
def State.startColl (s : State) (k : Coll) : State :=
  match s.refuseCode k with
  | some code =>
    let (s, held) := if code = 5 then (s, []) else s.takeHeld k.slot k.tag
    held.foldl (fun s _ => s.count 1) (({ s with colls := s.colls ++ [k] } : State).endColl k code noRank)
  | none =>
    let me := ((s.jobAt k.slot).map (·.rank)).getD 0 - k.first
    let k := { k with me := me, job := ((s.jobAt k.slot).map (fun (j : Job) => j.job)).getD 0 }
    let k := { k with ranks := s.servedEntries k }
    let (s, held) := s.takeHeld k.slot k.tag
    let k := { k with aborts := ((held.filter (fun c => isAbort c.bytes)).map (fun c => numAt c.bytes 12 3)).eraseDups }
    let s := { s with
      ended := tblPut s.ended k.slot ((tblGet [] s.ended k.slot).filter (· != k.tag)), colls := s.colls ++ [k] }
    (held.foldl (fun (s : State) c => s.acceptChunk k.id c) s).progressColl k.id

/-- COLL (R342): the descriptor is read at issue, once the group's earlier writes are performed (R204). -/
def execColl (a : SReg) (w : BitVec 32) (s : State) : Out :=
  onScalar s (fun g =>
    let x := (g.sread a).toNat
    let sig := if fld w.toNat 0 6 = 63 then none else some (g.sread (BitVec.ofNat 6 (fld w.toNat 0 6))).toNat
    if x % 64 ≠ 0 then s.trap s.cur { cause := 0x01 }
    else
      match s.pull g x 0 with
      | .wait s => s
      | .fault cause y => (s.put (g.advance 8)).reportGroup s.cur cause (y % 2 ^ 56) false g.pc 0xFF
      | .bytes b =>
        if !collOk b then s.trap s.cur { cause := 0x01 }
        else if 255 ≤ g.outCount 3 then s.scalarWaits g
        else
          let limit := if numAt b 20 4 = 0 then none else some (s.timeOf s.cur + 1000 * numAt b 20 4)
          s.command g 3 8 true (commandRecord x (b ++ leBytes 4 w.toNat)) (fun s' =>
            s'.startColl { collOf b s.nextId s.cur sig with pc := g.pc, limit := limit }))

end Sys2Proof.Machine
end

