-- ==== Sys2Proof/WellFormed.lean ====
section
/-!
DEFINITION. Well-formed instructions: every field an instruction holds has a value the spec assigns. -/
namespace Sys2Proof

/-- The check of R278 and R286 on the fields an instruction holds. -/
def Instr.wf (i : Instr) : Bool := instrOk i

end Sys2Proof
end

