-- ==== Sys2Proof/Decode.lean ====
section
/-!
DEFINITION. Decoding of scalar words and lane instructions (R267 to R287), total, refusing by name, and the encoder. -/
namespace Sys2Proof

/-- Why a word is no instruction. -/
inductive DecodeError where
  /-- a major opcode R270 reserves -/
  | reservedMajor
  /-- a function R271, R272 or R275 does not list, or a lane opcode R283 does not -/
  | reservedFunction
  /-- a field that must be zero is not -/
  | mustBeZero
  /-- a field holds a value that is reserved -/
  | reservedValue
deriving DecidableEq, Repr

/-- The result of decoding. -/
abbrev Decoded := Except DecodeError Instr

/-- A register field at bit `lo`. -/
def regAt (w lo : Nat) : SReg := BitVec.ofNat 6 (fld w lo 6)

/-- Accept an instruction whose must-be-zero fields are zero and whose other fields are legal. -/
def accept (zeros : Bool) (i : Instr) : Decoded :=
  if !zeros then .error .mustBeZero else if instrOk i then .ok i else .error .reservedValue

/-- The functions of major 0x01 (R271). -/
def aluFn (fn : Nat) : Option (SReg → SReg → SReg → Instr) :=
  match fn with
  | 0x00 => some .add | 0x01 => some .sub | 0x02 => some .mul | 0x03 => some .mulh | 0x04 => some .mulhn
  | 0x05 => some .div | 0x06 => some .divn | 0x07 => some .rem | 0x08 => some .remn | 0x09 => some .and
  | 0x0A => some .or | 0x0B => some .xor | 0x0C => some .andn | 0x0D => some .shl | 0x0E => some .shr
  | 0x0F => some .sar | 0x10 => some .min | 0x11 => some .max | 0x12 => some .minn | 0x13 => some .maxn
  | _ => none

/-- Major 0x01 (R271). -/
def decodeAlu (w : Nat) : Decoded :=
  let d := regAt w 20
  let a := regAt w 14
  match fld w 0 8 with
  | 0x14 => accept (fld w 8 6 == 0) (.clz d a)
  | 0x15 => accept (fld w 8 6 == 0) (.popc d a)
  | fn =>
    match aluFn fn with
    | some mk => .ok (mk d a (regAt w 8))
    | none => .error .reservedFunction

/-- Major 0x06 (R273). -/
def decodeShift (w : Nat) : Decoded :=
  let d := regAt w 20
  let a := regAt w 14
  let z := fld w 8 6 == 0
  let c := BitVec.ofNat 6 (fld w 0 6)
  match fld w 6 2 with
  | 0 => accept z (.shlImm d a c)
  | 1 => accept z (.shrImm d a c)
  | 2 => accept z (.sarImm d a c)
  | _ => .error .reservedValue

/-- Major 0x12 (R272): a field the table does not name must be zero. -/
def decodeSystem (w : Nat) : Decoded :=
  let d := regAt w 20
  let a := regAt w 14
  let b := regAt w 8
  let zd := fld w 20 6 == 0
  let za := fld w 14 6 == 0
  let zb := fld w 8 6 == 0
  match fld w 0 8 with
  | 0x00 => accept (zd && za && zb) .nop
  | 0x01 => accept (zd && zb) (.board a)
  | 0x02 => accept (zd && zb) (.unboard a)
  | 0x10 => accept (za && zb) (.rdc d 0)
  | 0x11 => accept (za && zb) (.rdc d 1)
  | 0x12 => accept (za && zb) (.rdc d 2)
  | 0x13 => accept (za && zb) (.rdc d 3)
  | 0x14 => accept (za && zb) (.rdc d 4)
  | 0x20 => accept (zd && za && zb) .bar
  | 0x21 => accept (zd && za && zb) .cbar
  | 0x22 => accept zd (.tbar a b)
  | 0x30 => accept zd (.kick a b)
  | 0x31 => accept (zd && za && zb) .exit
  | 0x32 => accept (zd && fld w 18 2 == 0 && zb) (.regroup (BitVec.ofNat 4 (fld w 14 4)))
  | 0x40 => accept (fld w 24 2 == 0 && fld w 8 12 == 0) (.accalloc (BitVec.ofNat 4 (fld w 20 4)))
  | 0x41 => accept (fld w 24 2 == 0 && fld w 8 12 == 0) (.accfree (BitVec.ofNat 4 (fld w 20 4)))
  | 0x50 => accept (zd && zb) (.rgateClose a)
  | 0x51 => accept (zd && zb) (.rgateOpen a)
  | 0x58 => .ok (.pintentDev d a b)
  | 0x59 => .ok (.pintentJob d a b)
  | 0x5C => accept zb (.tkrd d a)
  | 0x60 => accept (zd && za && zb) .lsync
  | 0x61 => accept (za && zb) (.rqpop d)
  | 0x70 => accept true (.srd d (BitVec.ofNat 12 (fld w 8 12)))
  | 0x71 => accept true (.swr d (BitVec.ofNat 12 (fld w 8 12)))
  | 0x72 => accept (zd && zb) (.sfmt a)
  | 0x78 => accept (zd && fld w 8 4 == 0) (.trap (BitVec.ofNat 8 (fld w 12 8)))
  | 0x79 => accept (zd && za && zb) .tret
  | 0x7A => accept (zd && za && zb) .brk
  | _ => .error .reservedFunction

/-- The policy word (R274). -/
def polOf (w : Nat) : Policy :=
  { ord := BitVec.ofNat 2 (fld w 30 2), scope := BitVec.ofNat 3 (fld w 27 3), evict := BitVec.ofNat 3 (fld w 24 3),
    offset := BitVec.ofNat 24 (fld w 0 24) }

/-- Majors 0x34 and 0x35 (R276). -/
def decodeQueue (load : Bool) (w w2 : Nat) : Decoded :=
  let q := BitVec.ofNat 3 (fld w 23 3)
  let m := BitVec.ofNat 4 (fld w 19 4)
  let base := regAt w 13
  let stride := regAt w 7
  let fmt := BitVec.ofNat 6 (fld w 1 6)
  let p := polOf w2
  let j := BitVec.ofNat 1 (fld w 7 1)
  if fld w 0 1 = 0 then
    accept true (if load then .vlq q m base stride fmt p else .vsq q m base stride fmt p)
  else accept (fld w 8 5 == 0) (if load then .vlqg q m base j fmt p else .vsqs q m base j fmt p)

/-- The one-word scalar forms (R269 to R273). -/
def decodeShort (w : Nat) : Decoded :=
  let d := regAt w 20
  let a := regAt w 14
  let b := regAt w 8
  let imm := BitVec.ofNat 14 (fld w 0 14)
  match fld w 26 6 with
  | 0x01 => decodeAlu w
  | 0x02 => .ok (.addImm d a imm)
  | 0x03 => .ok (.andImm d a imm)
  | 0x04 => .ok (.orImm d a imm)
  | 0x05 => .ok (.xorImm d a imm)
  | 0x06 => decodeShift w
  | 0x07 => .ok (.mulImm d a imm)
  | 0x08 => accept (fld w 23 3 == 0 && fld w 3 5 == 0)
      (.cmp (BitVec.ofNat 3 (fld w 20 3)) a b (BitVec.ofNat 3 (fld w 0 3)))
  | 0x09 => accept true (.cmpImm (BitVec.ofNat 3 (fld w 23 3)) (BitVec.ofNat 3 (fld w 20 3)) a imm)
  | 0x0A => accept (fld w 4 4 == 0) (.sel d a b (fld w 3 1 == 1) (BitVec.ofNat 3 (fld w 0 3)))
  | 0x0B => .ok (.li d (BitVec.ofNat 20 (fld w 0 20)))
  | 0x0C => accept (fld w 18 2 == 0) (.lih d (BitVec.ofNat 2 (fld w 16 2)) (BitVec.ofNat 16 (fld w 0 16)))
  | 0x0D => .ok (.br (BitVec.ofNat 3 (fld w 23 3)) (fld w 22 1 == 1) (BitVec.ofNat 22 (fld w 0 22)))
  | 0x0E => .ok (.jmp (BitVec.ofNat 26 (fld w 0 26)))
  | 0x0F => .ok (.call (BitVec.ofNat 26 (fld w 0 26)))
  | 0x10 => accept (fld w 0 14 == 0) (.jmpr d a)
  | 0x11 => accept true (.loop d (BitVec.ofNat 20 (fld w 0 20)))
  | 0x12 => decodeSystem w
  | 0x13 => accept (fld w 23 3 == 0 && fld w 14 6 == 0) (.waitc (BitVec.ofNat 3 (fld w 20 3)) imm)
  | _ => .error .reservedMajor

/-- The two-word scalar forms (R274 to R276); `w2` is the second word. -/
def decodeLong (w w2 : Nat) : Decoded :=
  let d := regAt w 20
  let a := regAt w 14
  let b := regAt w 8
  let zd := fld w 20 6 == 0
  let za := fld w 14 6 == 0
  let zb := fld w 8 6 == 0
  let zf := fld w 0 8 == 0
  let size := BitVec.ofNat 3 (fld w 11 3)
  let p := polOf w2
  let word := BitVec.ofNat 32 w2
  match fld w 26 6 with
  | 0x30 => accept (fld w 0 10 == 0) (.ld d a size (fld w 10 1 == 1) p)
  | 0x31 => accept (fld w 0 11 == 0) (.st d a size p)
  | 0x32 => accept (fld w 3 1 == 0) (.atom d a b (BitVec.ofNat 4 (fld w 4 4)) (BitVec.ofNat 3 (fld w 0 3)) p)
  | 0x33 => accept (zd && fld w 0 10 == 0) (.pref a (fld w 13 1 == 1) (BitVec.ofNat 3 (fld w 10 3)) p)
  | 0x34 => decodeQueue true w w2
  | 0x35 => decodeQueue false w w2
  | 0x36 => accept (fld w 20 2 == 0 && zf) (.mma (BitVec.ofNat 4 (fld w 22 4)) a b word)
  | 0x37 =>
    (match fld w 0 8 with
    | 0 => accept true (.copy d a b word)
    | 1 => accept true (.copyx d a b word)
    | _ => .error .reservedFunction)
  | 0x38 => accept (zd && zb && zf) (.coll a word)
  | 0x39 =>
    (match fld w 0 8 with
    | 0 => accept true (.rput d a b word)
    | 1 => accept true (.rget d a b word)
    | 2 => accept true (.rred d a b word)
    | _ => .error .reservedFunction)
  | 0x3A => accept zf (.trig d a b word)
  | 0x3B => accept (zd && fld w 3 5 == 0) (.waitm a b (BitVec.ofNat 3 (fld w 0 3)) p)
  | 0x3C =>
    (match fld w 0 8 with
    | 0 => accept zd (.sigAdd a b p)
    | 1 => accept zd (.sigStore a b p)
    | _ => .error .reservedFunction)
  | 0x3D => accept (zd && za && zb && zf) (.fence p)
  | 0x3E => accept (fld w 0 2 == 0) (.lrun d a b (BitVec.ofNat 6 (fld w 2 6)) word)
  | _ => .error .reservedMajor

/-- A major opcode whose form has two words (R267, R270). -/
def twoWord (w : Nat) : Bool := 0x30 ≤ fld w 26 6 && fld w 26 6 ≤ 0x3E

/-- Bytes of a scalar instruction, by its major opcode alone (R267, R278). -/
def scalarLen (w : Nat) : Nat := if twoWord w then 8 else 4

/-- Decode a scalar instruction from its first word and the word after it. -/
def decodeScalar (w w2 : Nat) : Decoded := if twoWord w then decodeLong w w2 else decodeShort w

/-- A source field at bit `lo` (R279). -/
def operandAt (w lo : Nat) : Operand :=
  { index := BitVec.ofNat 8 (fld w lo 8), kind := BitVec.ofNat 2 (fld w (lo + 8) 2),
    neg := fld w (lo + 10) 1 == 1, wait := fld w (lo + 11) 1 == 1 }

/-- The fields of a lane instruction of 96 bits (R279). -/
def laneFields (w : Nat) : LaneF :=
  { fmt := BitVec.ofNat 6 (fld w 10 6), guard := BitVec.ofNat 4 (fld w 16 4), gneg := fld w 20 1 == 1,
    dest := BitVec.ofNat 8 (fld w 21 8), dkind := BitVec.ofNat 2 (fld w 29 2), sat := fld w 31 1 == 1,
    a := operandAt w 32, b := operandAt w 44, c := operandAt w 56, rnd := BitVec.ofNat 3 (fld w 68 3),
    ord := BitVec.ofNat 2 (fld w 71 2), scope := BitVec.ofNat 3 (fld w 73 3),
    evict := BitVec.ofNat 3 (fld w 76 3), imm := BitVec.ofNat 16 (fld w 80 16) }

/-- Decode a lane instruction, bit 0 the least significant bit of its word 0 (R267, R279, R286). -/
def decodeLane (w : Nat) : Decoded :=
  match laneMk (fld w 0 10) with
  | none => .error .reservedFunction
  | some mk => accept (fld w 79 1 == 0) (mk (laneFields w))

/-- What a table row's bits decode to: a scalar row of 32 or 64 bits, or a lane row of 96. -/
def decodeTableWord (nbits w : Nat) : Option Instr :=
  match (if 64 < nbits then decodeLane w else decodeScalar (fld w 0 32) (fld w 32 32)) with
  | .ok i => some i
  | .error _ => none

/-- A scalar SR word (R269). -/
def srWord (major : Nat) (d a b : SReg) (fn : Nat) : Nat :=
  major * 2 ^ 26 + d.toNat * 2 ^ 20 + a.toNat * 2 ^ 14 + b.toNat * 2 ^ 8 + fn

/-- A scalar SI word (R269). -/
def siWord (major : Nat) (d a : SReg) (i : Nat) : Nat :=
  major * 2 ^ 26 + d.toNat * 2 ^ 20 + a.toNat * 2 ^ 14 + i

/-- A policy word (R274). -/
def Policy.word (p : Policy) : Nat :=
  p.ord.toNat * 2 ^ 30 + p.scope.toNat * 2 ^ 27 + p.evict.toNat * 2 ^ 24 + p.offset.toNat

/-- The first word of an SQ form (R276). -/
def sqWord (major : Nat) (q : BitVec 3) (m : BitVec 4) (base : SReg) (low : Nat) (fmt : BitVec 6) (g : Nat) : Nat :=
  major * 2 ^ 26 + q.toNat * 2 ^ 23 + m.toNat * 2 ^ 19 + base.toNat * 2 ^ 13 + low * 2 ^ 7 + fmt.toNat * 2 + g

/-- A two-word form: the first word, then the second above it. -/
def pairWord (w w2 : Nat) : Nat := w + w2 * 2 ^ 32

/-- A lane instruction's 96 bits (R279). -/
def laneWord (op : Nat) (f : LaneF) : Nat :=
  op + f.fmt.toNat * 2 ^ 10 + f.guard.toNat * 2 ^ 16 + f.gneg.toNat * 2 ^ 20 + f.dest.toNat * 2 ^ 21 +
    f.dkind.toNat * 2 ^ 29 + f.sat.toNat * 2 ^ 31 + f.a.raw * 2 ^ 32 + f.b.raw * 2 ^ 44 + f.c.raw * 2 ^ 56 +
    f.rnd.toNat * 2 ^ 68 + f.ord.toNat * 2 ^ 71 + f.scope.toNat * 2 ^ 73 + f.evict.toNat * 2 ^ 76 +
    f.imm.toNat * 2 ^ 80

/-- The encoding of an instruction: how many bits it has and their value, the first word lowest. None for an event,
which has no encoding. -/
def encode (i : Instr) : Option (Nat × Nat) :=
  match i with
  | .add d a b => some (32, srWord 1 d a b 0x00)
  | .sub d a b => some (32, srWord 1 d a b 0x01)
  | .mul d a b => some (32, srWord 1 d a b 0x02)
  | .mulh d a b => some (32, srWord 1 d a b 0x03)
  | .mulhn d a b => some (32, srWord 1 d a b 0x04)
  | .div d a b => some (32, srWord 1 d a b 0x05)
  | .divn d a b => some (32, srWord 1 d a b 0x06)
  | .rem d a b => some (32, srWord 1 d a b 0x07)
  | .remn d a b => some (32, srWord 1 d a b 0x08)
  | .and d a b => some (32, srWord 1 d a b 0x09)
  | .or d a b => some (32, srWord 1 d a b 0x0A)
  | .xor d a b => some (32, srWord 1 d a b 0x0B)
  | .andn d a b => some (32, srWord 1 d a b 0x0C)
  | .shl d a b => some (32, srWord 1 d a b 0x0D)
  | .shr d a b => some (32, srWord 1 d a b 0x0E)
  | .sar d a b => some (32, srWord 1 d a b 0x0F)
  | .min d a b => some (32, srWord 1 d a b 0x10)
  | .max d a b => some (32, srWord 1 d a b 0x11)
  | .minn d a b => some (32, srWord 1 d a b 0x12)
  | .maxn d a b => some (32, srWord 1 d a b 0x13)
  | .clz d a => some (32, srWord 1 d a 0 0x14)
  | .popc d a => some (32, srWord 1 d a 0 0x15)
  | .addImm d a i => some (32, siWord 2 d a i.toNat)
  | .andImm d a i => some (32, siWord 3 d a i.toNat)
  | .orImm d a i => some (32, siWord 4 d a i.toNat)
  | .xorImm d a i => some (32, siWord 5 d a i.toNat)
  | .shlImm d a c => some (32, siWord 6 d a c.toNat)
  | .shrImm d a c => some (32, siWord 6 d a (64 + c.toNat))
  | .sarImm d a c => some (32, siWord 6 d a (128 + c.toNat))
  | .mulImm d a i => some (32, siWord 7 d a i.toNat)
  | .cmp p a b c => some (32, 8 * 2 ^ 26 + p.toNat * 2 ^ 20 + a.toNat * 2 ^ 14 + b.toNat * 2 ^ 8 + c.toNat)
  | .cmpImm c p a i => some (32, 9 * 2 ^ 26 + c.toNat * 2 ^ 23 + p.toNat * 2 ^ 20 + a.toNat * 2 ^ 14 + i.toNat)
  | .sel d a b n p => some (32, srWord 0x0A d a b (n.toNat * 8 + p.toNat))
  | .li d i => some (32, 0x0B * 2 ^ 26 + d.toNat * 2 ^ 20 + i.toNat)
  | .lih d p i => some (32, 0x0C * 2 ^ 26 + d.toNat * 2 ^ 20 + p.toNat * 2 ^ 16 + i.toNat)
  | .br p n d => some (32, 0x0D * 2 ^ 26 + p.toNat * 2 ^ 23 + n.toNat * 2 ^ 22 + d.toNat)
  | .jmp d => some (32, 0x0E * 2 ^ 26 + d.toNat)
  | .call d => some (32, 0x0F * 2 ^ 26 + d.toNat)
  | .jmpr d a => some (32, siWord 0x10 d a 0)
  | .loop d i => some (32, 0x11 * 2 ^ 26 + d.toNat * 2 ^ 20 + i.toNat)
  | .nop => some (32, srWord 0x12 0 0 0 0x00)
  | .board a => some (32, srWord 0x12 0 a 0 0x01)
  | .unboard a => some (32, srWord 0x12 0 a 0 0x02)
  | .rdc d c => some (32, srWord 0x12 d 0 0 (0x10 + c.toNat))
  | .bar => some (32, srWord 0x12 0 0 0 0x20)
  | .cbar => some (32, srWord 0x12 0 0 0 0x21)
  | .tbar a b => some (32, srWord 0x12 0 a b 0x22)
  | .kick a b => some (32, srWord 0x12 0 a b 0x30)
  | .exit => some (32, srWord 0x12 0 0 0 0x31)
  | .regroup k => some (32, 0x12 * 2 ^ 26 + k.toNat * 2 ^ 14 + 0x32)
  | .accalloc t => some (32, 0x12 * 2 ^ 26 + t.toNat * 2 ^ 20 + 0x40)
  | .accfree t => some (32, 0x12 * 2 ^ 26 + t.toNat * 2 ^ 20 + 0x41)
  | .rgateClose a => some (32, srWord 0x12 0 a 0 0x50)
  | .rgateOpen a => some (32, srWord 0x12 0 a 0 0x51)
  | .pintentDev d a b => some (32, srWord 0x12 d a b 0x58)
  | .pintentJob d a b => some (32, srWord 0x12 d a b 0x59)
  | .tkrd d a => some (32, srWord 0x12 d a 0 0x5C)
  | .lsync => some (32, srWord 0x12 0 0 0 0x60)
  | .rqpop d => some (32, srWord 0x12 d 0 0 0x61)
  | .srd d r => some (32, 0x12 * 2 ^ 26 + d.toNat * 2 ^ 20 + r.toNat * 2 ^ 8 + 0x70)
  | .swr s r => some (32, 0x12 * 2 ^ 26 + s.toNat * 2 ^ 20 + r.toNat * 2 ^ 8 + 0x71)
  | .sfmt a => some (32, srWord 0x12 0 a 0 0x72)
  | .trap c => some (32, 0x12 * 2 ^ 26 + c.toNat * 2 ^ 12 + 0x78)
  | .tret => some (32, srWord 0x12 0 0 0 0x79)
  | .brk => some (32, srWord 0x12 0 0 0 0x7A)
  | .waitc c n => some (32, 0x13 * 2 ^ 26 + c.toNat * 2 ^ 20 + n.toNat)
  | .ld d base size sext p =>
    some (64, pairWord (srWord 0x30 d base 0 0 + size.toNat * 2 ^ 11 + sext.toNat * 2 ^ 10) p.word)
  | .st d base size p => some (64, pairWord (srWord 0x31 d base 0 0 + size.toNat * 2 ^ 11) p.word)
  | .atom d base o op size p => some (64, pairWord (srWord 0x32 d base o (op.toNat * 16 + size.toNat)) p.word)
  | .pref base ballast ext p =>
    some (64, pairWord (srWord 0x33 0 base 0 0 + ballast.toNat * 2 ^ 13 + ext.toNat * 2 ^ 10) p.word)
  | .vlq q m base stride fmt p => some (64, pairWord (sqWord 0x34 q m base stride.toNat fmt 0) p.word)
  | .vlqg q m base j fmt p => some (64, pairWord (sqWord 0x34 q m base j.toNat fmt 1) p.word)
  | .vsq q m base stride fmt p => some (64, pairWord (sqWord 0x35 q m base stride.toNat fmt 0) p.word)
  | .vsqs q m base j fmt p => some (64, pairWord (sqWord 0x35 q m base j.toNat fmt 1) p.word)
  | .mma t a b ctl =>
    some (64, pairWord (0x36 * 2 ^ 26 + t.toNat * 2 ^ 22 + a.toNat * 2 ^ 14 + b.toNat * 2 ^ 8) ctl.toNat)
  | .copy d s l w => some (64, pairWord (srWord 0x37 d s l 0) w.toNat)
  | .copyx d s l w => some (64, pairWord (srWord 0x37 d s l 1) w.toNat)
  | .coll a w => some (64, pairWord (srWord 0x38 0 a 0 0) w.toNat)
  | .rput l r n w => some (64, pairWord (srWord 0x39 l r n 0) w.toNat)
  | .rget l r n w => some (64, pairWord (srWord 0x39 l r n 1) w.toNat)
  | .rred l r n w => some (64, pairWord (srWord 0x39 l r n 2) w.toNat)
  | .trig d c t w => some (64, pairWord (srWord 0x3A d c t 0) w.toNat)
  | .waitm a v c p => some (64, pairWord (srWord 0x3B 0 a v c.toNat) p.word)
  | .sigAdd a v p => some (64, pairWord (srWord 0x3C 0 a v 0) p.word)
  | .sigStore a v p => some (64, pairWord (srWord 0x3C 0 a v 1) p.word)
  | .fence p => some (64, pairWord (srWord 0x3D 0 0 0 0) p.word)
  | .lrun k0 k1 k2 k3 idx => some (64, pairWord (srWord 0x3E k0 k1 k2 (k3.toNat * 4)) idx.toNat)
  | i =>
    match laneParts i with
    | some (op, f) => some (96, laneWord op f)
    | none => none

end Sys2Proof
end

