-- ==== Sys2Proof/Machine/Copy.lean ====
section
/-!
DEFINITION. The copy engine (R173, R336 to R338) and remote operations (R339 to R341): commands, chunks, completion, and
the answers of remote ends. -/
namespace Sys2Proof.Machine

/-! ## Commands -/

/-- Where a command's operands come from: registers, or the slots of an armed command (R346). -/
abbrev Operands := SReg → Word

/-- Two ranges of the address space meet. -/
def rangesMeet (a b n : Nat) : Bool := decide (a % 2 ^ 56 < b % 2 ^ 56 + n) && decide (b % 2 ^ 56 < a % 2 ^ 56 + n) && n != 0

/-- The TOB banks of the group's team that a range of the team window, or its first byte, lies in. -/
def State.tobBanks (s : State) (h a n : Nat) : List Nat :=
  (List.range 32).filter (fun i =>
    let base := 0xF0 * 2 ^ 48 + 65536 * i
    let b := (s.core (s.coreOf h)).bank i
    decide (a % 2 ^ 56 < base + 65536) && decide (base < a % 2 ^ 56 + max n 1) && b.role == .tob && b.team == teamOf h)

/-- A signal register field: 63 is none. -/
def signalOf (rd : Operands) (r : Nat) : Option Nat := if r = 63 then none else some (rd (BitVec.ofNat 6 r)).toNat

/-- A `copy` with its operands read; none when a check of R336 fails. `tob` is the TOB bank it fills. -/
def State.buildCopy (s : State) (h : Nat) (rd : Operands) (d x l : SReg) (w : Nat) : Option CopyOp :=
  let dst := (rd d).toNat
  let src := (rd x).toNat
  let len := (rd l).toNat
  let banks := s.tobBanks h dst len
  let exact := len == 34880 && dst % 65536 == 0
  if !copyWordOk w || 2 ^ 40 < len || rangesMeet dst src len || (!banks.isEmpty && !exact) then none
  else
    some { grp := h, cls := 0, dst := dst, src := src, len := len, sig := signalOf rd (fld w 0 6), evict := fld w 9 3
           tob := banks.head? }

/-- The bank a copy fills is FREE (R55). -/
def State.tobFree (s : State) (h : Nat) (o : CopyOp) : Bool :=
  match o.tob with
  | some n => ((s.core (s.coreOf h)).bank n).state == .free
  | none => true

/-- A `copyx` with its operands read; none when a check of R337 fails. DEDUCED: assumption 19. -/
def State.buildCopyx (h : Nat) (rd : Operands) (d x l : SReg) (w : Nat) : Option CopyOp :=
  let e := 2 ^ fld w 19 3
  let dst := (rd d).toNat
  let src := (rd x).toNat
  let idx := (rd (BitVec.ofNat 6 (fld w 12 6))).toNat
  if !copyxWordOk w || 2 ^ 32 ≤ (rd l).toNat || dst % e ≠ 0 || src % e ≠ 0 || idx % 4 ≠ 0 then none
  else
    some { grp := h, cls := 0, dst := dst, src := src, len := (rd l).toNat * e, sig := signalOf rd (fld w 0 6)
           evict := fld w 9 3, idx := some idx, word := w }

/-- A remote operation with its operands read; none when a check of R339 fails. -/
def buildRemote (h kind : Nat) (rd : Operands) (l r n : SReg) (w : Nat) : Option RemoteJob :=
  let rank := (rd (BitVec.ofNat 6 (fld w 0 6))).toNat
  let len := (rd n).toNat
  let ok := if kind = 2 then rredWordOk w else remoteWordOk w
  if !ok || 2 ^ 26 ≤ rank || 2 ^ 32 ≤ len || (kind == 2 && len % fmtBytes (fld w 18 6) != 0) then none
  else
    some { grp := h, kind := kind, loc := (rd l).toNat, rem := (rd r).toNat, len := len, rank := fld rank 0 24
           slot := fld rank 24 2, rop := fld w 15 3, fmt := fld w 18 6, sig := signalOf rd (fld w 6 6), evict := fld w 24 3 }

/-- A remote operation whose rank is the device's own, as the copy engine serves it (R339). -/
def RemoteJob.served (j : RemoteJob) : CopyOp :=
  { id := j.id, grp := j.grp, cls := 4, dst := if j.kind = 1 then j.loc else j.rem, src := if j.kind = 1 then j.rem else j.loc
    len := j.len, sig := j.sig, peer := j.kind != 1, evict := j.evict, red := if j.kind = 2 then some (j.rop, j.fmt) else none
    seq := j.seq, seen := j.seen, pc := j.pc }

/-! ## Issue -/

/-- A copy enters a core's queue; the bank it fills turns FILLING (R54, R173). -/
def Core.enterCopy (k : Core) (o : CopyOp) : Core :=
  let k := { k with copies := k.copies ++ [o] }
  match o.tob with
  | some n => k.updBank n (fun b => { b with state := .filling })
  | none => k

/-- Issue a copy engine operation of a class: a full counter or queue is waited for (R173, R326); copies at work count among the
queue's 32 (DESIGN CHOICE, assumption 57). -/
def State.issueCopy (s : State) (g : Group) (o : Option CopyOp) (sign : List Byte) : State :=
  match o with
  | none => s.trap s.cur { cause := 0x01 }
  | some o =>
    let c := s.coreOf s.cur
    if !s.tobFree s.cur o then s.trap s.cur { cause := 0x01 }
    else if 255 ≤ g.outCount o.cls || 32 ≤ (s.core c).copies.length then s.scalarWaits g
    else
      s.command g o.cls 8 (!s.inWindow s.cur o.dst) sign (fun s' =>
        s'.updCore c (fun k => k.enterCopy { o with id := s.nextId, seq := g.seq, seen := g.sseen, pc := g.pc }))

/-- The descriptor bytes of a command: its words and operands. -/
def cmdBytes (w : BitVec 32) (l : List Word) : List Byte := leBytes 4 w.toNat ++ l.flatMap (fun x => leBytes 8 x.toNat)

/-- COPY (R336). -/
def execCopy (d x l : SReg) (w : BitVec 32) (s : State) : Out :=
  onScalar s (fun g =>
    s.issueCopy g (s.buildCopy s.cur g.sread d x l w.toNat)
      (commandRecord (g.sread d).toNat (cmdBytes w [g.sread x, g.sread l, g.sread (BitVec.ofNat 6 (fld w.toNat 0 6))])))

/-- COPYX (R337). -/
def execCopyx (d x l : SReg) (w : BitVec 32) (s : State) : Out :=
  onScalar s (fun g =>
    s.issueCopy g (State.buildCopyx s.cur g.sread d x l w.toNat)
      (commandRecord (g.sread d).toNat (cmdBytes w [g.sread x, g.sread l, g.sread (BitVec.ofNat 6 (fld w.toNat 12 6)),
        g.sread (BitVec.ofNat 6 (fld w.toNat 0 6))])))

/-- Issue a remote operation: to the copy engine for the device's own rank, else to the remote engine (R339). -/
def State.issueRemote (s : State) (g : Group) (kind : Nat) (l r n : SReg) (w : BitVec 32) : State :=
  match buildRemote s.cur kind g.sread l r n w.toNat with
  | none => s.trap s.cur { cause := 0x01 }
  | some j =>
    let j := { j with id := s.nextId, seq := g.seq, seen := g.sseen, pc := g.pc }
    let c := s.coreOf s.cur
    let own := s.ownValid j.slot j.rank
    if 255 ≤ g.outCount 4 || (own && decide (32 ≤ (s.core c).copies.length)) then s.scalarWaits g
    else
      s.command g 4 8 (kind != 1 || !s.inWindow s.cur j.loc)
        (commandRecord j.rem (cmdBytes w [g.sread l, g.sread n, g.sread (BitVec.ofNat 6 (fld w.toNat 0 6))]))
        (fun s => if own then s.updCore c (fun k => k.enterCopy j.served) else { s with remotes := s.remotes ++ [j] })

/-- RPUT (R339). -/
def execRput (l r n : SReg) (w : BitVec 32) (s : State) : Out := onScalar s (fun g => s.issueRemote g 0 l r n w)
/-- RGET (R339). -/
def execRget (l r n : SReg) (w : BitVec 32) (s : State) : Out := onScalar s (fun g => s.issueRemote g 1 l r n w)
/-- RRED (R339). -/
def execRred (l r n : SReg) (w : BitVec 32) (s : State) : Out := onScalar s (fun g => s.issueRemote g 2 l r n w)

/-! ## Chunks (R173) -/

/-- Change a copy of a core. -/
def Core.updCopy (k : Core) (id : Nat) (f : CopyOp → CopyOp) : Core :=
  { k with copies := k.copies.map (fun o => if o.id == id then f o else o) }

/-- A piece of a chunk: its source, its destination, its length. -/
structure Piece where
  src : Nat
  dst : Nat
  n   : Nat

/-- Element size of an operation that moves elements. -/
def CopyOp.elem (o : CopyOp) : Nat :=
  match o.red with
  | some (_, f) => fmtBytes f
  | none => 2 ^ fld o.word 19 3

/-- The length of the next chunk: up to a 4,096 B boundary of the destination, or 4,096 B of elements. -/
def CopyOp.chunk (o : CopyOp) : Nat :=
  min (o.len - o.done) (if o.idx.isSome || o.red.isSome then 4096 else 4096 - (o.dst + o.done) % 4096)

/-- The fold of each element of an operation: the operation of `atomicNew` and its format; none for plain moves. -/
def CopyOp.fold (o : CopyOp) : Option (Nat × Nat) :=
  let code := fun (rop fmt : Nat) =>
    match rop with
    | 0 => 1
    | 1 => if isSInt fmt || isIeeeFmt fmt then 5 else 7
    | 2 => if isSInt fmt || isIeeeFmt fmt then 6 else 8
    | _ => 3
  match o.red with
  | some (r, f) => some (code r f, f)
  | none => if o.idx.isSome && fld o.word 22 3 != 0 then some (code (fld o.word 22 3 - 1) (fld o.word 25 6), fld o.word 25 6) else none

/-- The pieces of the next chunk, given the bytes of its indices. -/
def CopyOp.pieces (o : CopyOp) (ix : List Byte) : List Piece :=
  let n := o.chunk
  match o.idx with
  | some _ =>
    let e := o.elem
    (List.range (n / e)).map (fun i =>
      let j := numAt ix (4 * i) 4
      if fld o.word 18 1 = 1 then { src := o.src + j * e, dst := o.dst + o.done + i * e, n := e }
      else { src := o.src + o.done + i * e, dst := o.dst + j * e, n := e })
  | none =>
    match o.red with
    | some _ => (List.range (n / o.elem)).map (fun i =>
        { src := o.src + o.done + i * o.elem, dst := o.dst + o.done + i * o.elem, n := o.elem })
    | none => (segs (o.src + o.done) n).map (fun e => { src := e.1, dst := o.dst + (e.1 - o.src), n := e.2 })

/-- Where the index bytes of the next chunk stand. -/
def CopyOp.indexAt (o : CopyOp) : List (Nat × Nat) :=
  match o.idx with
  | some a => [(a + 4 * (o.done / o.elem), 4 * (o.chunk / o.elem))]
  | none => []

/-- Key under which the bytes of an index read stand in a chunk's buffer. -/
def indexKey : Nat := 2 ^ 20

/-- Ask remote ends for the source ranges that lie there; `key` numbers their bytes in the buffer. -/
def State.askRemote (s : State) (c : Nat) (o : CopyOp) (phase key : Nat) (l : List (Nat × Nat)) : State :=
  let (s, n, _) := l.foldl (fun (acc : State × Nat × Nat) e =>
    let (s, n, k) := acc
    match s.farEnd o.grp e.1 o.ends with
    | some (some f) => (s.sendEngine c o.grp o.id f true e.2 k { kind := .rdmaRead, code := e.2 }, n + 1, k + e.2)
    | _ => (s, n, k + e.2)) (s, 0, key)
  s.updCore c (fun k => k.updCopy o.id (fun x => { x with phase := phase, need := x.need + n, ends := o.ends }))

/-- Bytes of a source range, from the buffer if they came from a remote end. -/
def State.sourceBytes (s : State) (c : Nat) (o : CopyOp) (key a n : Nat) : State × List Byte × Bool :=
  match s.farEnd o.grp a o.ends with
  | some _ => (s, (List.range n).map (fun i => tblGet 0 o.buf (key + i)), o.bad)
  | none => s.engineRead o.grp c a n o.evict

/-- The first fault among a chunk's pieces: invalid rank entries, reads, writes or folds, misaligned folds. -/
def State.pieceFault (s : State) (o : CopyOp) (p : Piece) : Option (Nat × Nat) :=
  if o.red.isSome && p.dst % p.n != 0 then some (0x12, p.dst)
  else
    match s.rangeFault (.op o.id) o.grp .read false p.src p.n with
    | some x => some x
    | none =>
      if s.farEnd o.grp p.src o.ends == some none then some (0x11, p.src)
      else if o.tob.isSome then none
      else if s.farEnd o.grp p.dst o.ends == some none then some (0x11, p.dst)
      else
        match o.fold with
        | some (op, fmt) => s.rangeFault (.op o.id) o.grp .atomic (p.n == 8 && op == 1 && !isIeeeFmt fmt) p.dst p.n
        | none => s.rangeFault (.op o.id) o.grp .write false p.dst p.n

/-- Move one piece: write it, fold it at its home, or send it. -/
def State.movePiece (s : State) (c : Nat) (o : CopyOp) (p : Piece) (bs : List Byte) (poison : Bool) : State :=
  match o.tob with
  | some _ => s.updCore c (fun k => k.lwrite (p.dst % 2 ^ 56 - 0xF0 * 2 ^ 48) bs)
  | none =>
    match s.farEnd o.grp p.dst o.ends with
    | some (some f) =>
      let m : Msg := if o.fold.isSome then { kind := .rdmaAtomic, code := 1, bytes := bs ++ leBytes 8 0 }
        else { kind := .rdmaWrite, bytes := bs, poison := if poison then mapParts p.n else [] }
      (s.sendEngine c o.grp o.id f false p.n (writeMark poison) m).updCore c (fun k => k.updCopy o.id (fun o => { o with acks := o.acks + 1 }))
    | _ =>
      match o.fold with
      | some (op, fmt) =>
        let (s, old, q) := s.engineRead o.grp c p.dst p.n 0
        (match atomicNew op (8 * p.n) (leNat old) (leNat bs) 0 fmt with
        | some v => s.engineWrite o.grp c o.id p.dst (leBytes p.n v) (poison || q) o.evict
        | none => s)
      | none => s.engineWrite o.grp c o.id p.dst bs poison o.evict

/-- A copy ends without effect beyond what it has done: its bank is FREE again, its packet completes as TRAPPED or its
team is reported (R189, R420). -/
def State.failCopy (s : State) (c : Nat) (o : CopyOp) (cause addr : Nat) : State :=
  let s := s.updCore c (fun k =>
    let k := { k with copies := k.copies.filter (fun x => x.id != o.id) }
    match o.tob with
    | some n => k.updBank n (fun b => { b with state := .free })
    | none => k)
  match o.pkt with
  | some key => s.endPacket key 1 cause
  | none => (s.engineFault o.grp o.cls o.id o.pc cause addr).tryEndTeam (teamOf o.grp)

/-- Move the next chunk of a copy, its charge paid. DEDUCED: assumption 18. -/
def State.moveChunk (s : State) (c : Nat) (o : CopyOp) : State :=
  let h := o.grp
  let who := Waiter.op o.id
  let o : CopyOp := { o with ends := s.readEnds h o.ends (o.indexAt.map (·.1)) }
  match o.indexAt.findSome? (fun e => s.rangeFault who h .read false e.1 e.2) with
  | some (cause, x) => s.failCopy c o cause x
  | none =>
    if o.phase = 0 then
      if o.indexAt.any (fun e => s.rangeWaits h c false e.1 e.2) then
        o.indexAt.foldl (fun s e => s.awaitBacking who h e.1 e.2) s
      else s.askRemote c o 1 indexKey o.indexAt
    else
      let (s, ix, pix) := o.indexAt.foldl (fun (acc : State × List Byte × Bool) e =>
        let (s, b, p) := s.sourceBytes c o indexKey e.1 e.2
        (s, b, acc.2.2 || p)) (s, [], false)
      let ps := o.pieces ix
      let o : CopyOp := { o with ends := s.readEnds h o.ends (ps.flatMap (fun p => [p.src, p.dst])) }
      match ps.findSome? (fun p => s.pieceFault o p) with
      | some (cause, x) => s.failCopy c o cause x
      | none =>
        if ps.any (fun p => s.rangeWaits h c false p.src p.n || (o.tob.isNone && s.rangeWaits h c true p.dst p.n)) then
          ps.foldl (fun s p => (s.awaitBacking who h p.src p.n).awaitBacking who h p.dst p.n) s
        else if o.phase = 1 then s.askRemote c o 2 0 (ps.map (fun p => (p.src, p.n)))
        else
          let (s, data, poison, _) := ps.foldl (fun (acc : State × List (List Byte) × Bool × Nat) p =>
            let (s, b, q) := acc.1.sourceBytes c o acc.2.2.2 p.src p.n
            (s, acc.2.1 ++ [b], acc.2.2.1 || q, acc.2.2.2 + p.n)) (s, [], pix, 0)
          match (if poison then ps.find? (fun p => s.inHostWindow o.grp p.dst p.n) else none) with
          | some p => s.failCopy c o 0x18 p.dst
          | none =>
            let n := o.chunk
            let s := (ps.zip data).foldl (fun s e => s.movePiece c o e.1 e.2 poison) s
            let near := (ps.map (fun p => s.nearBytes h p.dst p.n o.ends)).foldl (· + ·) 0
            let s := if o.peer || (near == 0 && n != 0) then s else s.countChunk h o.sig near poison
            s.updCore c (fun k =>
              let k := k.updCopy o.id (fun x => { x with
                done := x.done + n, paid := false, phase := 0, buf := [], bad := false, poison := x.poison || poison, ends := o.ends })
              let work := k.copies.take 8
              { k with copies := work.filter (fun x => x.id != o.id) ++ work.filter (fun x => x.id == o.id) ++ k.copies.drop 8 })

/-- The copy can take its next step. -/
def State.copyReady (s : State) (o : CopyOp) : Bool :=
  o.need == 0 && decide (o.done < o.len) && (o.pkt.isSome || s.logClear o.grp o.seq o.seen)

/-- COPY_CHUNK (R173): copy i of a core, one of the eight at work, asks the core bucket for its next chunk in its turn, or,
once that is granted, moves it. -/
def execCopyChunk (core i : Nat) (s : State) : Out :=
  let k := s.core core
  match (if i < 8 then k.copies[i]? else none) with
  | none => .next s
  | some o =>
    if !s.copyReady o then .next s
    else if o.paid then .next (s.moveChunk core o)
    else if k.copies.any (·.asking) || (k.copies.take i).any (fun x => s.copyReady x && !x.paid) then .next s
    else
      .next (s.updCore core (fun k => { k.updCopy o.id (fun o => { o with asking := true }) with
        reqs := k.reqs ++ [{ port := 12, amount := s.price (priceIndex 0x21 0 0), grp := o.grp, since := s.clock }] }))

/-- A copy has completed: its bank lands, its entry retires or its packet completes (R54, R326, R420). -/
def State.endCopy (s : State) (c : Nat) (o : CopyOp) : State :=
  let s := s.updCore c (fun k =>
    let k := { k with copies := k.copies.filter (fun x => x.id != o.id) }
    match o.tob with
    | some n => k.updBank n (fun b => { b with state := if o.poison then .poisoned else .full })
    | none => k)
  match o.pkt with
  | some key => s.endPacket key 0 0
  | none => (s.updGroup o.grp (fun g => g.complete o.cls o.id)).tryEndTeam (teamOf o.grp)

/-- A signal in a peer's space names an 8-byte word of an HBM or SCRATCH page (R102). -/
def State.peerSignalBad (s : State) (o : CopyOp) : Bool :=
  o.peer &&
    match o.sig with
    | none => false
    | some g =>
      match pageAt s.pages (g % 2 ^ 56) with
      | some (_, p) => !(p.kind == .hbm || p.kind == .scratch)
      | none => true

/-- COPY_COMPLETE (R326, R338): every write has been performed; the signal follows, and then the entry retires. -/
def execCopyComplete (core i : Nat) (s : State) : Out :=
  match (if i < 8 then (s.core core).copies[i]? else none) with
  | none => .next s
  | some o =>
    if o.done < o.len || o.acks ≠ 0 || o.need ≠ 0 || !(o.pkt.isSome || s.logClear o.grp o.seq o.seen) then .next s
    else if o.signed then .next (s.endCopy core o)
    else if s.peerSignalBad o then .next (s.failCopy core o 0x11 (o.sig.getD 0))
    else
      match s.signal o.grp core o.id o.sig o.ends with
      | .fault cause a => .next (s.failCopy core o cause a)
      | .done s => .next (s.endCopy core o)
      | .wait s => .next s
      | .sent s => .next (s.updCore core (fun k => k.updCopy o.id (fun o => { o with signed := true, acks := o.acks + 1 })))

/-! ## Remote operations (R339 to R341) -/

/-- Change a remote operation. -/
def State.updRemote (s : State) (id : Nat) (f : RemoteJob → RemoteJob) : State :=
  { s with remotes := s.remotes.map (fun j => if j.id == id then f j else j) }

/-- A remote operation is abandoned (R189, R339). -/
def State.failRemote (s : State) (j : RemoteJob) (cause addr : Nat) : State :=
  (({ s with remotes := s.remotes.filter (fun x => x.id != j.id) }).engineFault j.grp 4 j.id j.pc cause addr).tryEndTeam
    (teamOf j.grp)

/-- Bytes of an operation's local side, from an offset on, with their poison. -/
def State.jobRead (s : State) (j : RemoteJob) (first n : Nat) : State × List Byte × Bool :=
  s.gatherRead j.grp (s.coreOf j.grp) j.fetch j.loc (j.loc + first) n j.evict

/-- Parts of 64 B of a payload read from an offset on that are poisoned. -/
def State.badParts (s : State) (j : RemoteJob) (first n : Nat) : List Nat :=
  (mapParts n).filter (fun i => (s.jobRead j (first + 64 * i) (min 64 (n - 64 * i))).2.2)

/-- The messages of an `rred`, in element order, each with at most 4,096 B (R341). -/
def State.sendReduces (s : State) (j : RemoteJob) (e : RankEntry) : Nat → Nat → State
  | 0, _ => s
  | k + 1, first =>
    if j.len ≤ first then s
    else
      let per := 4056 / fmtBytes j.fmt * fmtBytes j.fmt
      let n := min per (j.len - first)
      let bad := s.badParts j first n
      let (s, bs, _) := s.jobRead j first n
      let s := s.sendEngine (s.coreOf j.grp) j.grp j.id { port := e.port, qp := e.qp, addr := 0, key := 0 } false n 0
        { kind := .send, bytes := reduceMessage j.rop j.fmt j.job j.me (j.rem + first) bs bad }
      State.sendReduces (s.updRemote j.id (fun x => { x with need := x.need + 1 })) j e k (first + n)

/-- The increment of a signal in the peer's space: a zero-length WRITE with immediate 1 (R102, R339). -/
def State.sendIncrement (s : State) (j : RemoteJob) (e : RankEntry) : State :=
  match j.sig with
  | none => s.updRemote j.id (fun x => { x with signed := true })
  | some g =>
    (s.sendEngine (s.coreOf j.grp) j.grp j.id { port := e.port, qp := e.qp, addr := g % 2 ^ 56, key := e.key } false 0 0
      { kind := .rdmaWriteImm, code := 1 }).updRemote j.id (fun x => { x with signed := true, need := x.need + 1 })

/-- Send the messages of a remote operation, which keeps what it has read of its job and of its rank's entry (R116, R339). -/
def State.sendRemote (s : State) (j : RemoteJob) (e : RankEntry) (job : Job) : State :=
  let key := j.fetch
  let far : FarEnd := { port := e.port, qp := e.qp, addr := j.rem % 2 ^ 56, key := e.key }
  let j := { j with sent := true, ent := some e, job := job.job, me := job.rank }
  let s := s.updRemote j.id (fun _ => { j with fetch := none })
  State.dropGather (match j.kind with
  | 0 =>
    let bad := s.badParts j 0 j.len
    let (s, bs, _) := s.jobRead j 0 j.len
    let s := if j.len = 0 then s
      else (s.sendEngine (s.coreOf j.grp) j.grp j.id far false j.len 0 { kind := .rdmaWrite, bytes := bs, poison := bad }).updRemote j.id
        (fun x => { x with need := x.need + 1 })
    s.sendIncrement j e
  | 1 =>
    if j.len = 0 then s
    else (s.sendEngine (s.coreOf j.grp) j.grp j.id far true j.len 0 { kind := .rdmaRead, code := j.len }).updRemote j.id
      (fun x => { x with need := x.need + 1 })
  | _ => s.sendReduces j e (j.len / 4040 + 1) 0) key

/-- A remote operation has completed (R326). -/
def State.endRemote (s : State) (j : RemoteJob) : State :=
  (({ s with remotes := s.remotes.filter (fun x => x.id != j.id) }).updGroup j.grp (fun g => g.complete 4 j.id)).tryEndTeam
    (teamOf j.grp)

/-- A remote operation whose messages are all answered performs its signal, and then completes (R338, R339). -/
def State.closeRemote (s : State) (j : RemoteJob) : Out :=
  if j.need ≠ 0 || j.got.isSome then .next s
  else if j.signed then .next (s.endRemote j)
  else if j.kind = 1 then
    match s.signal j.grp (s.coreOf j.grp) j.id j.sig with
    | .fault cause a => .next (s.failRemote j cause a)
    | .done s => .next (s.endRemote j)
    | .wait s => .next s
    | .sent s => .next (s.updRemote j.id (fun x => { x with signed := true, need := x.need + 1 }))
  else
    match j.ent with
    | some e => .next (s.sendIncrement j e)
    | none => .next s

/-- What an `rget` has read is written where it belongs once its pages take it, in parts of 64 B where some are poisoned; none
of those may go to host memory (R173, R188, R192, R255, R339). Writes to remote pages are waited for. -/
def State.landRemote (s : State) (j : RemoteJob) : State :=
  let c := s.coreOf j.grp
  match j.got with
  | none => s
  | some data =>
    match s.writeFault j.id j.grp j.loc j.len with
    | some (cause, a) => s.failRemote j cause a
    | none =>
      if s.rangeWaits j.grp c true j.loc j.len then s.awaitBacking (.op j.id) j.grp j.loc j.len
      else
        match j.gotBad.find? (fun i => s.inHostWindow j.grp (j.loc + 64 * i) (min 64 (j.len - 64 * i))) with
        | some i => s.failRemote j 0x18 (j.loc + 64 * i)
        | none =>
          let parts := if j.gotBad.isEmpty then [(0, j.len, false)]
            else (mapParts j.len).map (fun i => (64 * i, min 64 (j.len - 64 * i), j.gotBad.contains i))
          let s := parts.foldl (fun s e =>
            let n := s.farWrites j.grp (j.loc + e.1) e.2.1
            (s.engineWrite j.grp c j.id (j.loc + e.1) (bytesAt data e.1 e.2.1) e.2.2 j.evict).updRemote j.id (fun x => { x with
              need := x.need + n })) s
          (s.updRemote j.id (fun x => { x with got := none, gotBad := [] })).countNear j.grp j.loc j.len j.sig (!j.gotBad.isEmpty)

/-- An operation's local source, where it lies in remote memory, is read before it is sent (R105, R339); `f` sends it. -/
def State.withSource (s : State) (j : RemoteJob) (f : State → State) : State :=
  if j.kind = 1 ∨ !s.farRange j.grp j.loc j.len then f s
  else
    match j.fetch with
    | none =>
      let (s, key) := s.gather j.grp (s.coreOf j.grp) j.loc j.len
      s.updRemote j.id (fun x => { x with fetch := some key })
    | some key =>
      match s.gathered key with
      | .waits => s
      | .refused => (s.dropGather (some key)).failRemote j 0x11 j.loc
      | .here => f s

/-- REMOTE_OPERATION_COMPLETE (R326, R339): an operation's next step towards completion: the rank's entry is read and its
messages are sent; what it read lands; once all are answered its signal is performed; and then its entry retires. -/
def execRemoteOperationComplete (op : Nat) (s : State) : Out :=
  match s.remotes.find? (·.id == op) with
  | none => .next s
  | some j =>
    if j.got.isSome then .next (s.landRemote j)
    else if j.sent then s.closeRemote j
    else if !s.logClear j.grp j.seq j.seen then .next s
    else
      match (if s.ownRank j.slot j.rank then none else s.rankEntry j.slot j.rank), s.jobAt j.slot with
      | some e, some job =>
        let want := if j.kind = 1 then Want.write else Want.read
        if j.kind = 2 ∧ j.rem % fmtBytes j.fmt ≠ 0 then .next (s.failRemote j 0x12 j.rem)
        else
          match s.rangeFault (.op j.id) j.grp want false j.loc j.len with
          | some (cause, a) => .next (s.failRemote j cause a)
          | none =>
            if s.rangeWaits j.grp (s.coreOf j.grp) (j.kind == 1) j.loc j.len then .next (s.awaitBacking (.op j.id) j.grp j.loc j.len)
            else if s.tripBlocked (s.dieOf j.grp) e.port then .next s
            else .next (s.withSource j (fun s => s.sendRemote j e job))
      | _, _ => .next (s.failRemote j 0x11 j.rem)

end Sys2Proof.Machine
end

