-- ==== Sys2Proof/Machine/Matrix.lean ====
section
/-!
DEFINITION. Matrix operations (R329 to R333): issue, the quadrant arrays (R167 to R171), follow-ons (R62), and boarding
(R334). -/
namespace Sys2Proof.Machine

/-! ## Control word and sizes (R330, R167) -/

/-- ASRC. -/
def mmaA (ctl : Nat) : Nat := fld ctl 0 2
/-- BSRC. -/
def mmaB (ctl : Nat) : Nat := fld ctl 2 2
/-- ZERO. -/
def mmaZero (ctl : Nat) : Bool := fld ctl 9 1 == 1
/-- AF of an FMT. -/
def fmtA (f : BitVec 32) : Nat := fld f.toNat 0 6
/-- BF of an FMT. -/
def fmtB (f : BitVec 32) : Nat := fld f.toNat 6 6

/-- The format of the header landed in a bank (R53). -/
def Core.bankFmt (k : Core) (n : Nat) : Nat := fld (leNat (k.lread (65536 * n + 34816) 64)) 64 6

/-- The format of an operation's B (R230). -/
def MmaOp.bFmt (o : MmaOp) (k : Core) : Nat :=
  match o.bank with
  | some n => k.bankFmt n
  | none => fmtB o.fmt

/-- K of an operation (R167). -/
def MmaOp.depth (o : MmaOp) (k : Core) : Nat :=
  match o.bank with
  | some n => tileK (k.bankFmt n)
  | none => if mmaB o.ctl = 1 then 128 * fld o.ctl 4 5 else 128

/-- Slices of 128 of K. -/
def slices (k : Nat) : Nat := (k + 127) / 128

/-- Streaming clocks (R167). -/
def MmaOp.streamClocks (o : MmaOp) (k : Core) : Nat :=
  slices (o.depth k) * 32 * elemBits (fmtA o.fmt) * (if 9 ≤ elemBits (o.bFmt k) then 2 else 1)

/-- Bytes of A (R331). -/
def aBytes (fmt depth : Nat) : Nat := 32 * (128 * slices depth) * elemBits fmt / 8
/-- Cells of A (R169, R331). -/
def aCellCount (fmt depth : Nat) : Nat := slices depth * (2 * elemBits fmt + (isBfpFmt fmt).toNat)
/-- Cells of a quarter of B (R170). -/
def bCellCount (fmt : Nat) : Nat := 2 * elemBits fmt + (isBfpFmt fmt).toNat

/-! ## Operand elements (R331, R169 to R171) -/

/-- A bit field of bytes given by a function, from a bit position on. -/
def bitsAt (byte : Nat → Nat) (pos n : Nat) : Nat :=
  (List.range ((pos + n + 7) / 8 - pos / 8)).foldl (fun v i => v + byte (pos / 8 + i) * 2 ^ (8 * i)) 0 / 2 ^ (pos % 8) % 2 ^ n

/-- The value of an element pattern, with the exponent of its block. -/
def elemVal (fmt v : Nat) (e : Nat) : FVal :=
  match ffOf fmt with
  | some l => decF l v
  | none => bfpValue (bfpBits fmt) e (toS (bfpBits fmt) v)

/-- An element among packed cells of a lane: r-th from a base cell (R169). -/
def cellElem (cells : Tbl Nat) (fmt lane base r : Nat) : FVal :=
  let w := elemBits fmt
  let v := bitsAt (fun i => fld (tblGet 0 cells (cellKey lane (base + i / 4))) (8 * (i % 4)) 8) (r * w) w
  elemVal fmt v (fld (tblGet 0 cells (cellKey lane (base + 2 * w))) (8 * (r / 32)) 8)

/-- A byte read as a scale, with its poison, or the cause of its fault (R171): of mapped space on the device, of a remote end
as its line was read, or of local store. A line of kick registers is no permitted access (R179). -/
def State.scaleByte (s : State) (o : MmaOp) (addr : Nat) : Except Nat (Nat × Bool) :=
  let x := s.localize o.grp addr
  match s.target o.grp x false with
  | .fault c => .error c
  | .page _ p =>
    if !p.permits .read false || p.kind == .kick then .error 0x11
    else if !p.backed && p.failed.contains (.op o.id) then .error 0x10
    else
      match s.farEnd o.grp addr with
      | some none => .error 0x11
      | some (some _) => .ok ((tblGet 0 o.sbuf (addr % 2 ^ 56)).toNat, o.sbad.contains (addr % 2 ^ 56 / 64))
      | none =>
        if p.kind == .desc then .ok ((s.deviceByte (x % 2 ^ 56)).toNat, false)
        else .ok ((tblGet 0 s.mem (x % 2 ^ 56)).toNat, s.homePoison (x % 2 ^ 56) 1)
  | .bank c a p => .ok ((tblGet 0 (s.core c).store a).toNat, p || (s.core c).lpoisoned a 1)

/-- The address of the exponent of an element at a byte offset of its operand (R171). -/
def scaleAddr (scb scsh : Word) (more off : Nat) : Nat := (scb.toNat + more + off / 2 ^ scsh.toNat) % 2 ^ 56

/-- Byte offset of A's element (i, k) (R331). -/
def aOffset (fmt depth i k : Nat) : Nat := (i * (128 * slices depth) + k) * elemBits fmt / 8
/-- Byte offset of B's element (k, n) in the column layout (R39). -/
def bOffset (fmt depth k n : Nat) : Nat := (n * depth + k) * elemBits fmt / 8

/-- A(i, k) of an operation. -/
def State.aElem (s : State) (c : Nat) (o : MmaOp) (depth i k : Nat) : FVal :=
  let fmt := fmtA o.fmt
  let w := elemBits fmt
  if mmaA o.ctl = 1 then
    cellElem o.aCells fmt (i + 32 * (k % 128 / 64)) (k / 128 * (2 * w + (isBfpFmt fmt).toNat)) (k % 64)
  else
    let v := bitsAt (fun b => (tblGet 0 (s.core c).store (o.aAddr + b)).toNat) ((i * (128 * slices depth) + k) * w) w
    let e := if isBfpFmt fmt then
        match s.scaleByte o (scaleAddr o.scb o.scsh 0 (o.aOff + aOffset fmt depth i k)) with
        | .ok (b, _) => b
        | .error _ => 0
      else 0
    elemVal fmt v e

/-- B(k, n) of an operation. -/
def State.bElem (s : State) (c : Nat) (o : MmaOp) (depth k n : Nat) : FVal :=
  let core := s.core c
  let fmt := o.bFmt core
  let w := elemBits fmt
  let pos := (n * depth + k) * w
  let byte := fun (base b : Nat) => (tblGet 0 core.store (base + b)).toNat
  match o.bank with
  | some x => elemVal fmt (bitsAt (byte (65536 * x)) pos w) (byte (65536 * x + 32768) (n * depth / 32 + k / 32))
  | none =>
    if mmaB o.ctl = 1 then
      let e := if isBfpFmt fmt then
          match s.scaleByte o (scaleAddr o.scb o.scsh (64 * fld o.ctl 24 8) (bOffset fmt depth k n)) with
          | .ok (b, _) => b
          | .error _ => 0
        else 0
      elemVal fmt (bitsAt (byte o.bAddr) pos w) e
    else cellElem (o.quarters[n / 32]?.getD []) fmt (n % 32 + 32 * (k / 64)) 0 (k % 64)

/-- The addresses of the exponents an operation reads through the scale cache. -/
def State.scaleReads (s : State) (c : Nat) (o : MmaOp) : List Nat :=
  let depth := o.depth (s.core c)
  let fa := fmtA o.fmt
  let fb := fmtB o.fmt
  (if mmaA o.ctl = 0 && isBfpFmt fa then
    (List.range 32).flatMap (fun i => (List.range depth).map (fun k => scaleAddr o.scb o.scsh 0 (o.aOff + aOffset fa depth i k)))
  else []) ++
  (if mmaB o.ctl = 1 && isBfpFmt fb then
    (List.range 128).flatMap (fun n => (List.range depth).map (fun k =>
      scaleAddr o.scb o.scsh (64 * fld o.ctl 24 8) (bOffset fb depth k n)))
  else [])

/-- One element of the tile after every slice (R230). -/
def State.mmaElem (s : State) (c : Nat) (o : MmaOp) (depth i j old : Nat) : Nat :=
  let f := o.fmt.toNat
  (List.range (slices depth)).foldl (fun x sl =>
    passElem (fld f 12 6 == 0x09) (fld f 18 1 == 1) (rmOfCode (fld f 19 3)) x
      ((List.range (min 128 (depth - 128 * sl))).map (fun k =>
        (s.aElem c o depth i (128 * sl + k), s.bElem c o depth (128 * sl + k) j)))) old

/-- The tile's elements after an operation. -/
def State.mmaResult (s : State) (c : Nat) (o : MmaOp) : Tbl Nat :=
  let depth := o.depth (s.core c)
  let old := if mmaZero o.ctl then [] else ((s.core c).tile o.tile).data
  ((List.range 4096).map (fun x => (x, s.mmaElem c o depth (x / 128) (x % 128) (tblGet 0 old x)))).filter (fun e => e.2 != 0)

/-- A byte an operation read was poisoned, or a lane that supplied it was dead (R331, R169, R56). -/
def State.mmaPoison (s : State) (c : Nat) (o : MmaOp) : Bool :=
  let k := s.core c
  let depth := o.depth k
  o.dead ||
    (mmaA o.ctl == 0 && (List.range 32).any (fun i =>
      k.lpoisoned (o.aAddr + aOffset (fmtA o.fmt) depth i 0) ((depth * elemBits (fmtA o.fmt) + 7) / 8))) ||
    (match o.bank with
      | some n => (k.bank n).state == .poisoned || k.lpoisoned (65536 * n) (payloadBytes (k.bankFmt n)) ||
          k.lpoisoned (65536 * n + 32768) (scaleBytes (k.bankFmt n))
      | none => mmaB o.ctl == 1 && k.lpoisoned o.bAddr (depth * 128 * elemBits (fmtB o.fmt) / 8)) ||
    (s.scaleReads c o).any (fun a => match s.scaleByte o a with | .ok (_, p) => p | .error _ => false)

/-! ## Issue (R331, R332) -/

/-- A register names local store at a multiple of 64 (R332). -/
def localReg (v : Word) : Bool := decide (v.toNat < 2 ^ 21) && v.toNat % 64 == 0

/-- A bank may be named as B by an `mma` (R55, R332). -/
def Core.bankOk (k : Core) (t n : Nat) : Bool :=
  let b := k.bank n
  b.role == .tob && b.team == t && (b.state == .full || b.state == .draining || b.state == .poisoned) && !b.release &&
    ringFmt (k.bankFmt n) && !k.mmas.any (fun o => o.bank == some n && o.release)

/-- The checks of R332. -/
def State.mmaOk (s : State) (g : Group) (o : MmaOp) (a b : SReg) : Bool :=
  let k := s.core (s.coreOf s.cur)
  let t := teamOf s.cur
  let fa := fmtA o.fmt
  let fb := fmtB o.fmt
  let depth := o.depth k
  mmaCtlOk a.toNat b.toNat o.ctl &&
    (match o.bank with | some n => k.bankOk t n | none => true) &&
    (if mmaA o.ctl = 0 then localReg (g.sread a) && k.inScratch t o.aAddr (aBytes fa depth)
     else decide (fld o.ctl 16 8 + aCellCount fa depth ≤ g.window)) &&
    (mmaB o.ctl != 1 || (localReg (g.sread b) && k.inScratch t o.bAddr (depth * 128 * elemBits fb / 8) &&
      (isBfpFmt fb || fld o.ctl 24 8 == 0))) &&
    (mmaB o.ctl != 2 || decide (fld o.ctl 24 8 + bCellCount fb ≤ g.window)) &&
    !(mmaA o.ctl == 0 && isBfpFmt fa && mmaB o.ctl == 1 && isBfpFmt fb && fa != fb)

/-- Cells copied from a base cell, keyed by lane and distance (R169). -/
def Group.copyCells (g : Group) (base n : Nat) : Tbl Nat :=
  (List.range 64).flatMap (fun l => (List.range n).filterMap (fun i =>
    if g.cell l (base + i) = 0 then none else some (cellKey l i, g.cell l (base + i))))

/-- The array of a quadrant. -/
def Core.array (k : Core) (q : Nat) : List MmaOp := tblGet [] k.arrays q
/-- Put a quadrant's array queue back. -/
def Core.setArray (k : Core) (q : Nat) (l : List MmaOp) : Core := { k with arrays := tblPut k.arrays q l }

/-- An operation is outstanding on its tile and names its bank (R54, R155). -/
def Core.claim (k : Core) (o : MmaOp) : Core :=
  let k := k.updTile o.tile (fun t => { t with pending := t.pending ++ [o.id] })
  match o.bank with
  | some n => k.updBank n (fun b => { b with readers := b.readers + 1 })
  | none => k

/-- Cells of the ranges an `mma` copies that are not full yet in some live lane. -/
def Group.cellsPending (g : Group) (base n : Nat) : Bool :=
  (tblKeys g.empties).any (fun k => decide (base ≤ k % 256) && decide (k % 256 < base + n) && g.live.getLsbD (k / 256))

/-- An error was found in a cell that an `mma` copies from a base cell, in some lane (R169, R250). -/
def Group.cellsBad (g : Group) (base n : Nat) : Bool :=
  g.errs.any (fun k => decide (base ≤ k % 256) && decide (k % 256 < base + n))

/-- An operation of the group that reads local store or memory may issue: the group's earlier writes have been performed, and
what the core holds for their homes can go there (R204). -/
def State.writesDone (s : State) (g : Group) : Bool :=
  s.logClear s.cur g.seq g.sseen && s.canFlush (s.coreOf s.cur)

/-- MMA (R331): it takes FMT, SCB, SCSH and any cells at its issue and enters its quadrant's array queue, among whose 16 the
operation in the array counts (DESIGN CHOICE, assumption 57). -/
def execMma (t : BitVec 4) (a b : SReg) (ctl : BitVec 32) (s : State) : Out :=
  onScalar s (fun g =>
    let c := s.coreOf s.cur
    let k := s.core c
    let w := ctl.toNat
    let o : MmaOp :=
      { id := s.nextId, grp := s.cur, quad := g.quad, tile := g.quad * 16 + (tblFind g.accmap t.toNat).getD 0, ctl := w
        fmt := g.sr.fmt, scb := g.sr.scb, scsh := g.sr.scsh, aAddr := (g.sread a).toNat, bAddr := (g.sread b).toNat
        bank := if mmaB w = 0 then some (fld w 11 5) else none, release := fld w 10 1 == 1
        quartet := if mmaB w = 2 then some (g.grpid / 4) else none, pc := g.pc }
    let cells := mmaA w == 1 || mmaB w == 2
    let na := aCellCount (fmtA o.fmt) (o.depth k)
    let nb := bCellCount (fmtB o.fmt)
    if (tblFind g.accmap t.toNat).isNone || !s.mmaOk g o a b then s.trap s.cur { cause := 0x01 }
    else if 255 ≤ g.outCount 1 || 16 ≤ (k.array g.quad).length || !s.writesDone g then s.scalarWaits g
    else if cells && !g.laneIdle then s.scalarWaitsLane g
    else if (mmaA w == 1 && g.cellsPending (fld w 16 8) na) || (mmaB w == 2 && g.cellsPending (fld w 24 8) nb) then
      s.scalarWaits g
    else
      s.atRelease g (fun g =>
        let o := { o with
          aCells := if mmaA w = 1 then g.copyCells (fld w 16 8) na else []
          bCells := if mmaB w = 2 then g.copyCells (fld w 24 8) nb else []
          dead := cells && (g.ldead != 0 || (mmaA w == 1 && g.cellsBad (fld w 16 8) na) || (mmaB w == 2 && g.cellsBad (fld w 24 8) nb)) }
        let s := { s with nextId := s.nextId + 1 }.writeBack c
        (s.put ((g.advance 8).enter 1 o.id)).updCore c (fun k => (k.claim o).setArray o.quad (k.array o.quad ++ [o]))))

/-! ## Quartets (R170, R333) -/

/-- The first operation of a group's that waits to be paired. -/
def Core.waitingQuarter (k : Core) (h : Nat) : Option MmaOp :=
  (k.arrays.flatMap (·.2)).find? (fun o => o.grp == h && o.quartet.isSome && o.quarters.isEmpty && !o.alone)

/-- Change one operation of a core's arrays. -/
def Core.updMma (k : Core) (id : Nat) (f : MmaOp → MmaOp) : Core :=
  { k with arrays := k.arrays.map (fun e => (e.1, e.2.map (fun o => if o.id == id then f o else o))) }

/-- QUARTET_PAIRING (R170, R333): when all four members' operations are copied, every quarter goes to every array; when a
member is missing or has ended without one, the waiting operations complete poisoned. -/
def execQuartetPairing (team quartet : Nat) (s : State) : Out :=
  let c := (s.team team).core
  let k := s.core c
  let hs := (List.range 4).map (fun i => 128 * team + 4 * quartet + i)
  let ops := hs.map k.waitingQuarter
  let known := hs.all (fun h => (tblFind s.groups h).isSome)
  let gone := !known || (hs.zip ops).any (fun e => e.2.isNone && (s.group e.1).exited)
  let waiting := ops.filterMap (fun o => o)
  if waiting.isEmpty then .next s
  else if gone then
    .next (s.updCore c (fun k => waiting.foldl (fun k o => k.updMma o.id (fun o => { o with alone := true })) k))
  else if waiting.length < 4 then .next s
  else
    let quarters := waiting.map (·.bCells)
    let bad := waiting.any (·.dead) || waiting.any (fun o => waiting.any (fun p => fmtB o.fmt != fmtB p.fmt))
    .next (s.updCore c (fun k => waiting.foldl (fun k o =>
      k.updMma o.id (fun o => { o with quarters := quarters, dead := o.dead || bad })) k))

/-! ## The arrays (R167, R168, R331) -/

/-- The amount an array asks for at a time: one clock of class 0x20 (R77). -/
def State.arrayPrice (s : State) : Nat := s.price (priceIndex 0x20 0 0)

/-- Post an array's request for its next clock at its port (R80). -/
def State.postArray (s : State) (c q h : Nat) : State :=
  s.updCore c (fun k => if k.reqs.any (·.port == 8 + q) then k
    else { k with reqs := k.reqs ++ [{ port := 8 + q, amount := s.arrayPrice, grp := h, since := s.clock }] })

/-- MMA_ARRAY_START (R331): the head of the queue reaches the array; its bank turns DRAINING, and it begins to pay. -/
def execMmaArrayStart (core quad : Nat) (s : State) : Out :=
  let k := s.core core
  match k.array quad with
  | [] => .next s
  | o :: rest =>
    if o.started || (o.quartet.isSome && o.quarters.isEmpty && !o.alone) then .next s
    else
      let n := if o.alone then 0 else o.streamClocks k
      let s := s.updCore core (fun k =>
        let k := k.setArray quad ({ o with started := true, clocks := n } :: rest)
        match o.bank with
        | some b => k.updBank b (fun b => { b with
            reading := b.reading + 1, state := if b.state == .full then .draining else b.state })
        | none => k)
      .next (if n = 0 then s else s.postArray core quad o.grp)

/-- A rank of a boarding is released. -/
def Boarding.releaseRank (b : Boarding) (j : Nat) : Boarding :=
  { b with
    captured := b.captured.filter (· != j), landed := b.landed.filter (·.1 != j)
    released := if b.released.contains j then b.released else b.released ++ [j] }

/-- A rank's bank has been freed, or its follow-on has finished: the rank is released (R66). -/
def Core.releaseRank (k : Core) (id j : Nat) : Core :=
  let go := fun (b : Boarding) => if b.id == id then b.releaseRank j else b
  { k with boards := k.boards.map go, past := k.past.map go }

/-- Follow-ons in the tap's buffer enter the array queue as it has room (R168). -/
def Core.fillArray (k : Core) (q : Nat) : Core :=
  let go := (k.follow.filter (·.quad == q)).take (16 - (k.array q).length)
  if go.isEmpty then k
  else { k.setArray q (k.array q ++ go) with follow := k.follow.filter (fun o => !go.any (fun x => x.id == o.id)) }

/-- The operation's reading of its bank ends, and with it what the boarding keeps of the rank (R54, R66). -/
def Core.finishBank (k : Core) (o : MmaOp) : Core :=
  match o.bank with
  | none => k
  | some n =>
    let rank := ((k.boards ++ k.past).findSome? (fun b => if (k.bank n).board = some b.id then
      (b.landed.find? (·.2 == n)).map (fun e => (b.id, e.1)) else none))
    let before := (k.bank n).state
    let k := k.endRead n o.release
    let freed := before != .free && ((k.bank n).state == .free || (k.bank n).state == .armed)
    match (if freed then rank else if o.release then none else o.board) with
    | some (id, j) => k.releaseRank id j
    | none => k

/-- An operation leaves its array: its tile may turn full, its entry retires in order (R155, R326). -/
def State.mmaDone (s : State) (core : Nat) (o : MmaOp) (f : Tile → Tile) : State :=
  (s.updCore core (fun k =>
    (((k.setArray o.quad (k.array o.quad).tail).finishBank o).updTile o.tile (fun t =>
      { f t with pending := t.pending.filter (· != o.id) })).fillArray o.quad)).updGroup o.grp (fun g => g.complete 1 o.id)

/-- The scale cache reads the lines of an operation's scales (R171): at their homes, and of remote ends, which it asks. -/
def State.askScales (s : State) (core : Nat) (o : MmaOp) : State :=
  let d := dieOfCore core
  let lines := ((s.scaleReads core o).map (· / 64)).eraseDups
  let s := lines.foldl (fun (s : State) l =>
    match s.target o.grp (s.localize o.grp (64 * l)) false, s.farEnd o.grp (64 * l) with
    | .page _ _, some (some e) => s.sendEngine core o.grp o.id e true 64 (64 * l) { kind := .rdmaRead, code := 64 }
    | .page _ p, none =>
      if p.kind == .desc then s.roundTrip d p.home 0 64 else s.visitHome d (s.localize o.grp (64 * l) % 2 ^ 56) 64 0
    | _, _ => s) s
  s.updCore core (fun k => k.updMma o.id (fun o => { o with
    sasked := true, sneed := (lines.filter (fun l => (s.farEnd o.grp (64 * l)).isSome)).length }))

/-- A line of an operation's scales has come from a remote end (R171). -/
def MmaOp.takeScales (o : MmaOp) (addr : Nat) (data : List Byte) (bad : Bool) : MmaOp :=
  { o with
    sneed := o.sneed - 1, sbuf := (data.zip (List.range 64)).foldl (fun t e => tblPut t (addr + e.2) e.1) o.sbuf
    sbad := if bad then o.sbad ++ [addr / 64] else o.sbad }

/-- An operation is abandoned on a fault of an operand read, reported at its instruction (R189, R332). -/
def State.failMma (s : State) (core : Nat) (o : MmaOp) (cause addr : Nat) : State :=
  (((s.updCore core (fun k => (k.setArray o.quad (k.array o.quad).tail).fillArray o.quad)).updGroup o.grp (fun g =>
    g.abandon 1 o.id)).reportGroup o.grp cause addr false o.pc 0xFF).tryEndTeam (teamOf o.grp)

/-- MMA_RESULT_ADD (R331, R230): the head operation, all its clocks paid, adds its result; a scale read that faults takes
its cause and abandons it (R332). The lines of its scales are read first. -/
def execMmaResultAdd (core quad : Nat) (s : State) : Out :=
  match (s.core core).array quad with
  | [] => .next s
  | o :: _ =>
    if !o.started || o.clocks ≠ 0 then .next s
    else if o.alone then
      .next ((s.mmaDone core o (fun t => { t with poison := true })).tryEndTeam (teamOf o.grp))
    else
      let reads := (s.scaleReads core o).eraseDups
      match reads.findSome? (fun a => match s.scaleByte o a with | .error c => some (c, a) | .ok _ => none) with
      | some (c, a) => .next (s.failMma core o c a)
      | none =>
        if reads.any (fun a => s.rangeWaits o.grp core false a 1) then
          .next (reads.foldl (fun (s : State) a => s.awaitBacking (.op o.id) o.grp a 1) s)
        else
          let s := if o.sasked then s else s.askScales core o
          match (s.core core).array quad with
          | [] => .next s
          | o :: _ =>
            if o.sneed ≠ 0 then .next s
            else
              let data := s.mmaResult core o
              let bad := s.mmaPoison core o
              .next ((s.mmaDone core o (fun t => { t with
                data := data, poison := bad || (t.poison && !mmaZero o.ctl) })).tryEndTeam (teamOf o.grp))

/-! ## Boarding (R334, R57, R58) and follow-ons (R62) -/

/-- The checks of R58 on a descriptor. DEDUCED: assumption 43. -/
def boardOk (k : Core) (g : Group) (t : Nat) (b : Boarding) : Bool :=
  b.field 24 8 == 0 && b.field 56 8 == 0 && b.field 132 4 == 0 && b.field 157 3 == 0 && b.field 181 11 == 0 &&
    b.field 224 32 == 0 && b.count != 0 && b.stride != 0 && decide (b.first + (b.count - 1) * b.stride < 2 ^ 24) &&
    b.field 96 32 != 0 &&
    (List.range 32).all (fun i => !(b.field 96 32).testBit i ||
      (let x := k.bank i; x.role == .tob && x.team == t && x.state == .free)) &&
    (!b.follow ||
      ((tblFind g.accmap (b.field 128 4)).isSome && b.field 136 21 % 64 == 0 && b.field 160 21 % 64 == 0 &&
        decide (b.field 136 21 + (b.count - 1) * b.field 160 21 < 2 ^ 21) &&
        b.field 192 32 == b.field 201 1 * 2 ^ 9))

/-- BOARD (R334): the group's earlier writes, which its descriptor and its follow-ons read, are performed first (R204); under
DET a boarding in ANY mode with FOLLOW runs as ORDERED (R119). -/
def execBoard (a : SReg) (s : State) : Out :=
  onScalar s (fun g =>
    let c := s.coreOf s.cur
    let k := s.core c
    let x := (g.sread a).toNat
    let desc := k.lread x 32
    let b : Boarding :=
      { id := s.nextId, grp := s.cur, key := x, desc := desc, fmt := g.sr.fmt, scb := g.sr.scb, scsh := g.sr.scsh
        ordered := fld (leNat desc) 20 1 == 1 || (fld (leNat desc) 22 1 == 1 && (s.gridOf s.cur).flags.testBit 3), since := k.tapTime, pc := g.pc }
    if 2 ^ 21 ≤ x ∨ x % 32 ≠ 0 ∨ !k.inScratch (teamOf s.cur) x 32 then s.trap s.cur { cause := 0x01 }
    else if !s.writesDone g then s.scalarWaits g
    else if !boardOk k g (teamOf s.cur) b then s.trap s.cur { cause := 0x01 }
    else if 255 ≤ g.outCount 2 ∨ 64 ≤ k.boards.length then s.scalarWaits g
    else
      s.atRelease g (fun g =>
        (({ s with nextId := s.nextId + 1 }.writeBack c).put ((g.advance 4).enter 2 b.id)).updCore c (fun k =>
          let k := (List.range 32).foldl (fun (k : Core) i =>
            if (b.field 96 32).testBit i then k.updBank i (fun y => { y with state := .armed, board := some b.id }) else k) k
          { k with boards := k.boards ++ [b] })))

/-- The rank whose follow-on comes next: the lowest not issued if ORDERED, once it has landed, else in landing order. -/
def Boarding.nextFollow (b : Boarding) : Option (Nat × Nat) :=
  if b.ordered then
    match (List.range b.count).find? (fun j => !b.issued.contains j && !b.released.contains j) with
    | some j => b.landed.find? (·.1 == j)
    | none => none
  else b.landed.find? (fun e => !b.issued.contains e.1)

/-- The follow-on of a rank of a boarding, from a landed bank (R62). -/
def Boarding.op (b : Boarding) (g : Group) (id j n : Nat) : MmaOp :=
  let ctl := b.field 192 32
  { id := id, grp := b.grp, quad := g.quad, tile := g.quad * 16 + (tblFind g.accmap (b.field 128 4)).getD 0
    ctl := if j = 0 then ctl else ctl - fld ctl 9 1 * 2 ^ 9
    fmt := b.fmt, scb := b.scb, scsh := b.scsh, aAddr := b.field 136 21 + j * b.field 160 21, bank := some n
    release := b.releases, board := some (b.id, j), aOff := j * b.field 160 21, pc := b.pc }

/-- FOLLOW_ON_ISSUE (R62): the tap issues a boarding's next follow-on once the class and the buffer allow; its A range is
checked, a bad one abandoning the operation (R189), and its price joins the tap's debt. -/
def execFollowOnIssue (core : Nat) (boarding : Nat) (s : State) : Out :=
  let k := s.core core
  match k.boards.find? (·.id == boarding) with
  | none => .next s
  | some b =>
    let g := s.group b.grp
    match (if b.follow && (s.team (teamOf b.grp)).life == .running then b.nextFollow else none) with
    | none => .next s
    | some (j, n) =>
      if 255 ≤ g.outCount 1 ∨ 32 ≤ k.follow.length then .next s
      else
        let o := b.op g s.nextId j n
        if !k.inScratch (teamOf b.grp) o.aAddr (aBytes (fmtA o.fmt) (o.depth k)) then
          let s := { s with nextId := s.nextId + 1 }.updGroup b.grp (fun g => (g.enter 1 o.id).abandon 1 o.id)
          .next ((s.updCore core (fun k => { k with boards := k.boards.map (fun (y : Boarding) =>
            if y.id == b.id then { y with issued := y.issued ++ [j] } else y) })).reportGroup b.grp 0x11 o.aAddr false b.pc 0xFF)
        else
          let s := { s with nextId := s.nextId + 1 }.updGroup b.grp (fun g => g.enter 1 o.id)
          let s := s.updCore core (fun k =>
            let k := k.claim o
            ({ k with
              follow := k.follow ++ [o]
              boards := k.boards.map (fun (y : Boarding) =>
                if y.id == b.id then { y with issued := y.issued ++ [j] } else y) }).fillArray o.quad)
          .next ((s.owe core b.grp (s.price (priceIndex 0x08 0 0))).settleBoard core b.id)

end Sys2Proof.Machine
end

