-- ==== Sys2Proof/Machine/Answers.lean ====
section
/-!
DEFINITION. Answers of remote ends to what the device sent (R105, R189, R343). -/
namespace Sys2Proof.Machine

/-! ## Answers (R105, R343, R189) -/

/-- An access answered by its remote end, its bytes standing from a place on among those that came: the value goes where it
belongs, or the team takes the fault. -/
def State.answerAccess (s : State) (h : Nat) (a : Access) (ok : Bool) (off : Nat) (data : List Byte) (poison : List Nat) : State :=
  match (s.group h).log.find? (fun x => x.id == a.id) with
  | none => s
  | some a =>
    let bytes := bytesAt data off a.size
    let bad := poison.any (fun i => decide (64 * i < off + a.size) && decide (off < 64 * i + 64))
    if !ok then s.accessFault h a 0x11 a.addr
    else
      let s := s.orderAfter h a
      match a.kind with
      | .load => ((s.unlog h a.id).deliver h a (leNat (s.overlay h a bytes)) bad).finish h a
      | .atomic => s.settleAnswer h a (leNat bytes) bad
      | _ => s.finish h a

/-- The accesses of one message are answered (R389). -/
def State.answerAccesses (s : State) (h : Nat) (l : List Access) (ok : Bool) (data : List Byte) (poison : List Nat) : State :=
  (l.foldl (fun (acc : State × Nat) a => (acc.1.answerAccess h a ok acc.2 data poison, acc.2 + a.size)) (s, 0)).1

/-- A part of an engine operation answered: a copy's read or write, a matrix operation's scales, a remote operation's, or a
collective's message (R171, R173, R339, R343). A chunk in a remote page lands now (R338). -/
def State.answerEngine (s : State) (r : RemoteOp) (id : Nat) (ok : Bool) (data : List Byte) (poison : List Nat) : State :=
  let landed := fun (s : State) (h : Nat) (sig : Option Nat) =>
    if r.dst = writeMark false ∨ r.dst = writeMark true then s.countChunk h sig r.len (r.dst == writeMark true) else s
  match s.cores.find? (fun e => e.2.copies.any (·.id == id)) with
  | some (c, k) =>
    (match k.copies.find? (·.id == id) with
    | none => s
    | some o =>
      if !ok then s.failCopy c o 0x11 (if r.read then o.src else o.dst)
      else if r.read then s.updCore c (fun k => k.updCopy id (fun o => { o with
        need := o.need - 1, buf := putBytes o.buf r.dst data, bad := o.bad || !poison.isEmpty }))
      else (if o.peer then s else landed s o.grp o.sig).updCore c (fun k => k.updCopy id (fun o => { o with acks := o.acks - 1 })))
  | none =>
    match s.cores.findSome? (fun e => (e.2.mmas.find? (·.id == id)).map (fun o => (e.1, o))) with
    | some (c, o) =>
      if !ok then s.failMma c o 0x11 r.dst
      else s.updCore c (fun k => k.updMma id (fun o => o.takeScales r.dst data (!poison.isEmpty)))
    | none =>
      match s.remotes.find? (·.id == id) with
      | some j =>
        if !ok then s.failRemote j 0x11 (if r.read then j.rem else j.loc)
        else
          let j := { j with need := j.need - 1 }
          if r.read then
            let j := { j with got := some data, gotBad := poison }
            (s.updRemote id (fun _ => j)).landRemote j
          else (if j.kind = 1 then landed s j.grp j.sig else s).updRemote id (fun _ => j)
      | none => s.answerColl id r.len r.dst ok

/-- A part of what is read in remote memory before it is used has come, or is refused (R105, R112, R119); a collective whose own
contribution it was goes on. -/
def State.landFetch (s : State) (key off : Nat) (ok : Bool) (data : List Byte) (poison : List Nat) : State :=
  let s := { s with fetches := tblUpd s.fetches key (fun x => { x with
      got := if ok then putBytes x.got off data else x.got, need := x.need - 1, bad := x.bad || !ok
      marks := x.marks ++ poison.map (off + 64 * ·) }) }
  match s.colls.find? (fun k => k.fetch == some key) with
  | some k => s.progressColl k.id
  | none => s

/-- UNMAPs whose pages no request on its way was translated to any more are answered (R182). -/
def State.settleUnmaps (s : State) : State :=
  let busy := fun (u : Unmap) => s.remote.any (fun r => match r.via with | some b => u.pages.contains b | none => false)
  let done := s.unmaps.filter (fun u => !busy u)
  if done.isEmpty then s
  else { s with
    unmaps := s.unmaps.filter busy
    out := s.out ++ done.map (·.msg) }

/-- ROCE_ACKNOWLEDGEMENT_RECEIVE (R102, R105, R343): the oldest unanswered request of a queue pair is answered, with the
data it read and the parts of it that are poisoned, or refused. A WAIT packet whose reading of its word was refused goes on
waiting, and reads again (DESIGN CHOICE, assumption 53). -/
def execRoceAcknowledgementReceive (port qp : Nat) (ok : Bool) (data : List Byte) (poison : List Nat) (s : State) : Out :=
  match s.remote.find? (fun r => r.port == port && r.qp == qp) with
  | none => .next s
  | some r =>
    let s := { s with remote := s.remote.filter (fun x => x.id != r.id) }
    let s := (s.ethernet port (max data.length 1)).crossMesh clsRsp port r.die data.length
    let s' :=
      match r.use with
      | .plain => s
      | .added => s
      | .log _ => s
      | .signal q i => s.packetDone q i
      | .wait q => if ok then s.answerWait q (leNat (data.take 8)) else s
      | .post id => s.ackPost id
      | .fetch key => s.landFetch key r.dst ok data poison
      | .access h l => (s.answerAccesses h l ok data poison).drainEntries (s.coreOf h)
      | .engine _ id => s.answerEngine r id ok data poison
    .next (match r.core with | some c => s'.drainEntries c | none => s').settleUnmaps

end Sys2Proof.Machine
end

