-- ==== Sys2Proof/Machine/Operands.lean ====
section
/-!
DEFINITION. The operand forms of lane instructions (R279 to R281): the format each source is read in, the cells it
names, load-queue pops, uniform values, masks, and the cells a destination takes. -/
namespace Sys2Proof.Machine

/-- A source as read in one lane: its format, whether it is negated, and its cells. -/
structure Src where
  fmt   : Nat := 0
  neg   : Bool := false
  cells : List Nat := []
deriving DecidableEq, Repr

/-- Cells joined, the first lowest. -/
def joinCells : List Nat → Nat
  | [] => 0
  | c :: t => c % 2 ^ 32 + joinCells t * 2 ^ 32

/-- The bit pattern of a source at the width of its format (R209). -/
def Src.pat (x : Src) : Nat := if isVpFmt x.fmt then joinCells x.cells else joinCells x.cells % 2 ^ fmtWidth x.fmt
/-- The exact integer a source holds, negated where marked (R362). -/
def Src.int (x : Src) : Int := if x.neg then -intVal x.fmt x.pat else intVal x.fmt x.pat
/-- Cell 0 of a VP source. -/
def Src.cell0 (x : Src) : Nat := x.cells.head?.getD 0
/-- A VP source decoded (R223). -/
def Src.vp (x : Src) : Vp := vpDecode x.cell0 x.cells.tail
/-- The floating-point value of a source before any negate. -/
def Src.raw (x : Src) : FVal :=
  match ffOf x.fmt with
  | some l => decF l x.pat
  | none => if isVpFmt x.fmt then x.vp.v else .ofInteger (intVal x.fmt x.pat)
/-- The floating-point value of a source, negated where marked (R391). -/
def Src.val (x : Src) : FVal := if x.neg then x.raw.negate else x.raw
/-- What a source contributes to known bits; one that is no VP value is exact (R226). -/
def Src.known (x : Src) : KSrc := if isVpFmt x.fmt then x.vp.src else .exactSrc

/-- The fields of a lane's PREC (R225). -/
def precS (p : BitVec 32) : Nat := fld p.toNat 0 7
/-- CEIL. -/
def precCeil (p : BitVec 32) : Nat := fld p.toNat 7 7
/-- RM. -/
def precRM (p : BitVec 32) : Nat := fld p.toNat 14 3
/-- FLOOR. -/
def precFloor (p : BitVec 32) : Nat := fld p.toNat 17 7
/-- TE. -/
def precTE (p : BitVec 32) : Bool := fld p.toNat 24 1 == 1

/-- A lane's PREC. -/
def Group.precOf (g : Group) (l : Nat) : BitVec 32 := tblGet 0 g.prec l

/-- The cells of a result of a format in a lane, more than one only for 64-bit and VP results (R159). -/
def Group.resultCells (g : Group) (fmt l : Nat) : Nat :=
  if fmt = 0x20 then 1 + vpLenOf (precS (g.precOf l)) else fmtCells fmt

/-- The working length of a VP result in a lane (R227). -/
def Group.workS (g : Group) (fmt l : Nat) : Nat :=
  if fmt = 0x20 then precS (g.precOf l) else vpFrac (fmt - 0x21)

/-- The cells a cell source names in a lane; a VP source's own length counts once its cell 0 is full (R159, R160). -/
def Group.sourceCells (g : Group) (fmt l : Nat) (o : Operand) : List Nat :=
  let i := o.index.toNat
  let n := if fmt = 0x20 then (if i < g.window && g.cellFull l i then 1 + vpStoredLen (g.cell l i) else 1) else fmtCells fmt
  (List.range n).map (· + i)

/-- The immediate as a source of a format (R280). -/
def immCells (fmt : Nat) (imm : BitVec 16) : List Nat :=
  let n := if fmt = 0x20 then 1 else fmtCells fmt
  let v := decF ffBf16 imm.toNat
  let split := fun (x : Nat) => (List.range n).map (fun k => x / 2 ^ (32 * k) % 2 ^ 32)
  if fmt < 4 then split (ofS 64 (toS 16 imm.toNat))
  else if fmt < 8 then split imm.toNat
  else
    match ffOf fmt with
    | some l => split (finishF l .rne false 0 (resOf v)).1
    | none => (vpFinish (vpFrac (n - 1)) (n - 1) .rne false 0 (resOf v) (.copy 127)).cells

/-- Cells of a 64-bit uniform as a source of a format: the low ones its format needs, a VP value by its own length. -/
def uniformCells (fmt v : Nat) : List Nat :=
  let n := if fmt = 0x20 then 1 + vpStoredLen (v % 2 ^ 32) else fmtCells fmt
  (List.range n).map (fun k => v / 2 ^ (32 * k) % 2 ^ 32)

/-- Take n entries off a load queue. -/
def popLq (lq : Tbl (List QEntry)) (q n : Nat) : List QEntry × Tbl (List QEntry) :=
  let l := tblGet [] lq q
  (l.take n, tblPut lq q (l.drop n))

/-- Entries a queue source of a format takes (R151). -/
def popsOf (fmt : Nat) : Nat := max 1 (fmtCells fmt)

/-- The entries each source pops, in the order A, B, C, and the queues after (R153). -/
def popPlan (op : Nat) (f : LaneF) (lq : Tbl (List QEntry)) : List (List QEntry) × Tbl (List QEntry) :=
  [0, 1, 2].foldl (fun (acc : List (List QEntry) × Tbl (List QEntry)) i =>
    let o := sourceField f i
    if readsSource op f i && o.kind == 1 then
      let (es, lq) := popLq acc.2 o.index.toNat (popsOf (sourceFmt op f i))
      (acc.1 ++ [es], lq)
    else (acc.1 ++ [[]], acc.2)) ([], lq)

/-- Source i in a lane, from its cells, the entries popped for it, or a uniform. -/
def State.readSource (s : State) (g : Group) (op : Nat) (f : LaneF) (popped : List (List QEntry)) (i l : Nat) : Src :=
  let o := sourceField f i
  let fmt := sourceFmt op f i
  let cells :=
    if o.kind = 0 then (g.sourceCells fmt l o).map (g.cell l)
    else if o.kind = 1 then (popped[i]?.getD []).map (fun e => if e.mask.getLsbD l then tblGet 0 e.data l else 0)
    else if o.kind = 2 then (if o.index = 4 then immCells fmt f.imm else uniformCells fmt (s.uniformOf g o.index.toNat l))
    else []
  { fmt := fmt, neg := o.neg, cells := cells }

/-- The lanes in which the element popped for source i is poisoned (R251). -/
def poisonOf (popped : List (List QEntry)) (i : Nat) : Lanes :=
  (popped[i]?.getD []).foldl (fun m e => m ||| e.poison) 0

/-- A mask source: the stored mask, complemented where marked, in the lanes of L (R369). -/
def Group.maskSource (g : Group) (o : Operand) (ls : Lanes) : Lanes :=
  let m := g.mread (o.index.toNat % 16)
  (if o.neg then ~~~ m else m) &&& ls

/-- A VP source that raises format fault (R224, R280): a malformed K, a length that is not its container's, or a
capture slot of more than two cells. -/
def badVp (o : Operand) (x : Src) : Bool :=
  isVpFmt x.fmt &&
    (vpMalformed x.cell0 || (x.fmt != 0x20 && vpStoredLen x.cell0 != x.fmt - 0x21) ||
      (o.isSlot && decide (2 ≤ vpStoredLen x.cell0)))

end Sys2Proof.Machine
end

