-- ==== Sys2Proof/Machine/Flags.lean ====
section
/-!
DEFINITION. Rounding modes, stochastic draws and flags of lanes (R215, R218, R220, R228). -/
namespace Sys2Proof.Machine

/-- The mode a lane rounds in: the override, else its PREC.RM (R215). -/
def Group.mode (g : Group) (f : LaneF) (l : Nat) : RMode :=
  if f.rnd = 0 then rmOfCode (precRM (g.precOf l)) else rmOfCode (f.rnd.toNat - 1)

/-- One step of the stochastic state (R218). -/
def drawStep (z : Word) : Word :=
  let z := z ^^^ (z <<< 13)
  let z := z ^^^ (z >>> 7)
  z ^^^ (z <<< 17)

/-- The draw of a stepped state (R218). -/
def drawOf (z : Word) : Nat := fld (z * 0x2545F4914F6CDD1D).toNat 32 32

/-- The n-th draw of a lane from its state as it stands; 0 in a mode that draws nothing. -/
def Group.drawAt (g : Group) (f : LaneF) (l n : Nat) : Nat :=
  if g.mode f l = .sr then drawOf (Nat.repeat drawStep n (tblGet 0 g.z l)) else 0

/-- The lane takes n draws, if its mode is SR (R218). -/
def Group.takeDraws (g : Group) (f : LaneF) (l n : Nat) : Group :=
  if g.mode f l = .sr then { g with z := tblSet 0 g.z l (Nat.repeat drawStep n (tblGet 0 g.z l)) } else g

/-- The K of a result lies below the lane's FLOOR (R228). -/
def Group.belowFloor (g : Group) (l : Nat) (low : Option Nat) : Bool :=
  match low with
  | some k => decide (k < precFloor (g.precOf l))
  | none => false

/-- The stochastic state of a thread at launch (R218). -/
def launchZ (seed thread : Word) : Word :=
  let z := seed ^^^ (thread * 0x9E3779B97F4A7C15)
  if z = 0 then 1 else z

end Sys2Proof.Machine
end

