-- ==== Sys2Proof/Machine/LaneRun.lean ====
section
/-!
DEFINITION. What every lane instruction goes through (R362, R391): its lane set, the checks before it has any effect
(R153 to R160, R224, R244), its pops and pushes, and the writing of its results. -/
namespace Sys2Proof.Machine

/-- Lanes whose cells that source i reads have an uncorrectable error (R251). -/
def Group.errLanes (g : Group) (op : Nat) (f : LaneF) (i : Nat) : Lanes :=
  let o := sourceField f i
  if g.errs.isEmpty || !readsSource op f i || o.kind != 0 then 0
  else maskOf ((List.range 64).filter (fun l =>
    (g.sourceCells (sourceFmt op f i) l o).any (fun c => g.errs.contains (cellKey l c))))

/-- Why a lane instruction does not go on: a cause it raises, a wait, or a wait on the scalar stream (R158). -/
inductive LaneStop where
  | trap (t : Trap)
  | wait
  | waitScalar

/-- A cause raised by a lane instruction. -/
def laneTrap (cause : Nat) (mask : Lanes) (opnd : Nat := 0) (wmode : Bool := false) : LaneStop :=
  .trap { cause := cause, stream := true, opnd := opnd, wmode := wmode, mask := mask }

/-- The first stop of a list; a cause goes before a wait. DEDUCED: assumption 38. -/
def firstStop (l : List (Option LaneStop)) : Option LaneStop :=
  match l.findSome? (fun x => match x with | some (.trap t) => some t | _ => none) with
  | some t => some (.trap t)
  | none => l.findSome? (fun x => x)

/-- Some operation is still to write the lane's copy of a cell (R157). -/
def Group.hasProducer (g : Group) (l c : Nat) : Bool :=
  g.longs.any (fun o => o.writes.any (fun w => w.1 == l && w.2.1 == c)) ||
    g.log.any (fun a => a.lane == l && (match a.dest with
      | .cells i fmt => decide (i ≤ c) && decide (c < i + fmtCells fmt)
      | _ => false)) ||
    g.vploads.any (fun v => v.lane == l && decide (v.idx ≤ c) &&
      decide (c < v.idx + (if v.raw then v.need else 1 + vpLenOf v.s)))

/-- Lanes of a set in which one of the named cells is empty. -/
def Group.emptyLanes (g : Group) (ls : Lanes) (cells : Nat → List Nat) : Lanes :=
  if g.empties.isEmpty then 0
  else maskOf ((lanesOf ls).filter (fun l => (cells l).any (fun c => !g.cellFull l c)))

/-- Cells that must be full and are not: an orphan wait where nothing will write one (R157), or where the source traps
(R156). -/
def Group.cellStop (g : Group) (ls : Lanes) (cells : Nat → List Nat) (opnd : Nat) (wait : Bool) : Option LaneStop :=
  let bad := g.emptyLanes ls cells
  if bad = 0 then none
  else if wait then some (laneTrap 0x03 bad opnd true)
  else
    let lost := maskOf ((lanesOf bad).filter (fun l => (cells l).any (fun c => !g.cellFull l c && !g.hasProducer l c)))
    if lost = 0 then some .wait else some (laneTrap 0x03 bad opnd)

/-- Window faults (R160): the first operand that reaches W, and its lanes. -/
def Group.windowStop (g : Group) (op : Nat) (f : LaneF) (ls : Lanes) : Option LaneStop :=
  let of := fun (i : Nat) (cells : Nat → Nat) =>
    let bad := maskOf ((lanesOf ls).filter (fun l => decide (g.window < cells l)))
    if bad = 0 then none else some (laneTrap 0x02 bad i)
  let src := fun (i : Nat) =>
    let o := sourceField f i
    if readsSource op f i && o.kind == 0 then
      of i (fun l => o.index.toNat + (g.sourceCells (sourceFmt op f i) l o).length)
    else none
  let dst := if f.dkind = 0 then of 3 (fun l => f.dest.toNat + g.resultCells (resultFmt op f) l) else none
  firstStop [src 0, src 1, src 2, dst]

/-- Whether source i is ready (R156, R157); `ls` is the lanes whose cells it reads. -/
def Group.sourceStop (g : Group) (op : Nat) (f : LaneF) (popped : List (List QEntry)) (ls : Lanes) (i : Nat) :
    Option LaneStop :=
  let o := sourceField f i
  let fmt := sourceFmt op f i
  if !readsSource op f i then none
  else if o.kind = 0 then g.cellStop ls (fun l => g.sourceCells fmt l o) i o.wait
  else if o.kind = 1 then
    let es := popped[i]?.getD []
    if es.length < popsOf fmt then some (laneTrap 0x03 0 3 o.wait)
    else if es.all (·.full) then none
    else if o.wait then some (laneTrap 0x03 0 3 true)
    else some .wait
  else none

/-- A tile a lane instruction names: mapped, and full, as a source in every lane that is to read it (R156, R166). -/
def State.tileStop (s : State) (g : Group) (t : Nat) (ls : Lanes) (opnd : Nat) (wait : Bool) : Option LaneStop :=
  match tblFind g.accmap t with
  | none => if ls = 0 then none else some (laneTrap 0x01 ls)
  | some n =>
    if (tblGet {} (s.core (s.coreOf s.cur)).tiles (g.quad * 16 + n)).pending.isEmpty || (ls == 0 && opnd != 3) then none
    else if wait then some (laneTrap 0x03 ls opnd true)
    else some .wait

/-- The accumulator tile a lane instruction reads (R283). -/
def tileSource (op : Nat) (f : LaneF) : Option Nat := if op = 0x0B0 then some (f.a.index.toNat % 16) else none

/-- The destination is free to be written or pushed (R156, R158). -/
def State.destStop (s : State) (g : Group) (op : Nat) (f : LaneF) (ls : Lanes) : Option LaneStop :=
  let d := f.dest.toNat
  let full := fun (have_ n cap : Nat) => if cap < have_ + n then some LaneStop.waitScalar else none
  match f.dkind.toNat with
  | 0 => g.cellStop ls (fun l => (List.range (g.resultCells (resultFmt op f) l)).map (· + d)) 3 false
  | 1 =>
    if d < 4 then full (tblGet [] g.sq d).length (popsOf (resultFmt op f)) queueCap
    else if d < 6 then full (tblGet [] g.aq (d - 4)).length 1 queueCap
    else full g.rq.length 1 16
  | 2 => none
  | _ => if d < 16 then s.tileStop g d ls 3 false else none

/-- What an instruction reads once it may go on: the group before it, its fields, its lanes, how far it follows the scalar
stream once it has popped (R195), its sources, and the lanes in which a popped element is poisoned. -/
structure Ctx where
  g      : Group
  op     : Nat
  f      : LaneF
  lanes  : Lanes
  seen   : Nat
  src    : Nat → Nat → Src
  poison : Nat → Lanes

/-- Lanes of which an element popped for any source is poisoned. -/
def Ctx.poisoned (c : Ctx) : Lanes := (c.poison 0 ||| c.poison 1 ||| c.poison 2) &&& c.lanes

/-- The lane whose value `shfl` gives to lane l, and whether it is in range (R370). -/
def shflLane (v b l : Nat) : Nat :=
  let b := b % 2 ^ 32
  match v % 4 with
  | 0 => b % 64
  | 1 => if l < b then l else l - b
  | 2 => if 63 < l + b then l else l + b
  | _ => l ^^^ (b % 64)

/-- The lane whose element of source i a lane takes: its own, but for what `shfl` moves (R370). -/
def Ctx.giver (c : Ctx) (i l : Nat) : Nat :=
  if c.op = 0x080 ∧ i = 0 then shflLane c.f.imm.toNat (c.src 1 l).pat l else l

/-- A lane takes a poisoned element (R251). -/
def Ctx.takesPoison (c : Ctx) (l : Nat) : Bool := (List.range 3).any (fun i => (c.poison i).getLsbD (c.giver i l))

/-- Format faults (R224): the first operand with one, and its lanes; `shfl` is judged by the value each lane receives. DEDUCED:
assumption 38. -/
def Ctx.formatStop (c : Ctx) : Option LaneStop :=
  let of := fun (i : Nat) =>
    let o := sourceField c.f i
    if readsSource c.op c.f i && isVpFmt (sourceFmt c.op c.f i) then
      let bad := maskOf ((lanesOf c.lanes).filter (fun l => !c.takesPoison l && badVp o (c.src i (c.giver i l))))
      if bad = 0 then none else some (laneTrap 0x0D bad (if o.kind = 1 then 3 else i))
    else none
  firstStop [of 0, of 1, of 2]

/-- The instruction names a frozen queue (R244). -/
def namesQueue (op : Nat) (f : LaneF) : Bool :=
  f.dkind == 1 || [0, 1, 2].any (fun i => readsSource op f i && (sourceField f i).kind == 1)

/-- A lane block runs, its group issues, and nothing holds the lane port (R150, R282). -/
def State.laneReady (s : State) (g : Group) : Bool := s.issues s.cur && g.run.isSome && g.lpush.isNone

/-- Act on a stop. -/
def State.stopLane (s : State) (g : Group) (x : LaneStop) : State :=
  match x with
  | .trap t => s.trap s.cur t
  | .wait => s.laneWaits g
  | .waitScalar => s.laneWaitsScalar g

/-- Run a lane instruction's effect: a stream that may not issue waits, and a full hold buffer is a release point
(R258). -/
def onLaneStream (s : State) (k : Group → State) : Out :=
  onGroup s (fun g =>
    if !s.laneReady g then s.waits
    else if 512 ≤ g.held.length then s.atRelease g k
    else k g)

/-- The checks of every instruction that is no control instruction, and what follows once they pass: its context, and
the group with its pops made, what it popped being followed from then on (R195). -/
def onLane (op : Nat) (f : LaneF) (s : State) (k : Ctx → Group → State) : Out :=
  onLaneStream s (fun g =>
    let ls := g.lanes f
    if g.inHandler && namesQueue op f then s.stopLane g (laneTrap 0x01 ls)
    else
      let (popped, lq) := popPlan op f g.lq
      let src := s.readSource g op f popped
      let stop1 := g.sourceStop op f popped ls 1
      let from0 := if op = 0x080 then
                     (if stop1.isSome then 0
                      else maskOf ((lanesOf ls).map (fun l => shflLane f.imm.toNat ((src 1 l).pat) l)) &&& g.live)
                   else ls
      let tile := match tileSource op f with | some t => s.tileStop g t ls 0 f.a.wait | none => none
      match firstStop [g.windowStop op f ls, tile, g.sourceStop op f popped from0 0, stop1,
          g.sourceStop op f popped ls 2, s.destStop g op f ls] with
      | some x => s.stopLane g x
      | none =>
        let seen := popped.foldl (fun m es => es.foldl (fun m e => max m e.seq) m) g.lseen
        let c : Ctx := { g := g, op := op, f := f, lanes := ls, seen := seen, src := src
                         poison := fun i => poisonOf popped i ||| g.errLanes op f i }
        match c.formatStop with
        | some x => s.stopLane g x
        | none =>
          k c { g with lq := lq, lseen := seen })

/-- One lane's result: the cells written, the flags set, the K held against FLOOR (R228), the draws taken in SR mode
(R218), and whether the lane dies of what it read (R251). -/
structure LaneOut where
  cells : List Nat := []
  flags : Flags := {}
  low   : Option Nat := none
  draws : Nat := 0
  dies  : Bool := false

/-- What an instruction computes: its result in a lane, the value it pushes to rq, whether it is long (R154), and
whether it says itself which lanes die of poison. -/
structure Kernel where
  fn   : Ctx → Nat → LaneOut
  uni  : Ctx → Nat := fun _ => 0
  long : Bool := false
  own  : Bool := false

/-- A short kernel of one lane's result. -/
def kern (fn : Ctx → Nat → LaneOut) : Kernel := { fn := fn }

/-- Results of a queue destination keyed as `pushQueue` takes them. -/
def pushData (outs : List (Nat × LaneOut)) : Tbl Nat :=
  outs.foldl (fun t o => (o.2.cells.zip (List.range o.2.cells.length)).foldl (fun t e =>
    tblSet 0 t (o.1 * 4 + e.2) e.1) t) []

/-- The flags of a lane's result, PX among them (R228). -/
def Group.outFlags (g : Group) (o : Nat × LaneOut) : Flags :=
  o.2.flags.join { px := g.belowFloor o.1 o.2.low }

/-- Write results into cells at once. -/
def Group.writeOuts (g : Group) (d : Nat) (outs : List (Nat × LaneOut)) : Group :=
  outs.foldl (fun g o => (o.2.cells.zip (List.range o.2.cells.length)).foldl (fun g e => g.setCell o.1 (d + e.2) e.1) g) g

/-- Set the flags of results. -/
def Group.flagOuts (g : Group) (outs : List (Nat × LaneOut)) : Group :=
  outs.foldl (fun k o => k.setFlags o.1 (g.outFlags o)) g

/-- A long operation issues: its cells are empty until it writes them and sets its flags (R154, R155). -/
def Group.startLong (g : Group) (id d : Nat) (outs : List (Nat × LaneOut)) : Group :=
  let ws := outs.flatMap (fun o => (o.2.cells.zip (List.range o.2.cells.length)).map (fun e => (o.1, d + e.2, e.1)))
  { g with
    empties := ws.foldl (fun t w => tblPut t (cellKey w.1 w.2.1) id) g.empties
    longs := g.longs ++ [{ id := id, writes := ws, flags := outs.map (fun o => (o.1, g.outFlags o)) }] }

/-- The bits of a mask destination in the lanes given (R369). -/
def Group.maskOuts (g : Group) (d : Nat) (outs : List (Nat × LaneOut)) : Group :=
  let on := maskOf ((outs.filter (fun o => o.2.cells.head? == some 1)).map (·.1))
  g.mwrite d ((g.mread d &&& ~~~ maskOf (outs.map (·.1))) ||| on)

/-- The instruction is a long operation (R154): its own row, or a VP result of two cells or more. -/
def Ctx.isLong (c : Ctx) (long : Bool) : Bool :=
  long || (isVpFmt (resultFmt c.op c.f) &&
    (lanesOf c.lanes).any (fun l => decide (2 ≤ c.g.resultCells (resultFmt c.op c.f) l)))

/-- Put results at the destination. -/
def Group.deposit (g : Group) (c : Ctx) (long : Bool) (id uni : Nat) (outs : List (Nat × LaneOut)) : Group :=
  let d := c.f.dest.toNat
  match c.f.dkind.toNat with
  | 0 => if long && !outs.isEmpty then g.startLong id d outs else (g.writeOuts d outs).flagOuts outs
  | 1 =>
    if d = 6 then { g with rq := g.rq ++ [{ value := BitVec.ofNat 64 uni, seq := g.lseq }] }
    else (g.pushQueue d (popsOf (resultFmt c.op c.f)) (maskOf (outs.map (·.1))) (pushData outs) g.lseq).flagOuts outs
  | 2 => (g.maskOuts d outs).flagOuts outs
  | _ => g.flagOuts outs

/-- The lane PC after the running instruction. -/
def Group.lanePc (g : Group) : Nat := (g.run.map (·.pc)).getD 0

/-- The lane stream moves to the next instruction. -/
def Group.laneNext (g : Group) : Group := g.laneTo (g.lanePc + 12)

/-- Finish an instruction of kernel k: a precision trap with PX set (R228), or its draws, its results, and the deaths of
the lanes that consumed poison (R251). -/
def State.laneCommit (s : State) (k : Kernel) (c : Ctx) (g : Group) : State :=
  let alive := if k.own then c.lanes else c.lanes &&& ~~~ c.poisoned
  let outs := (lanesOf alive).map (fun l => (l, k.fn c l))
  let low := outs.filter (fun o => c.g.belowFloor o.1 o.2.low)
  if low.any (fun o => precTE (c.g.precOf o.1)) then
    (s.put (low.foldl (fun g o => g.setFlags o.1 { px := true }) c.g)).trap s.cur
      { cause := 0x06, stream := true, mask := maskOf (low.map (·.1)) }
  else
    let dead := if k.own then maskOf ((outs.filter (·.2.dies)).map (·.1)) else c.poisoned
    let g := outs.foldl (fun g o => g.takeDraws c.f o.1 o.2.draws) g
    let (id, s) := s.fresh
    (s.put ((g.deposit c (c.isLong k.long) id (k.uni c) (outs.filter (fun o => !o.2.dies))).laneNext)).killLanes s.cur dead

/-- A lane instruction of opcode op that computes kernel k. -/
def laneRun (op : Nat) (k : Kernel) (f : LaneF) (s : State) : Out := onLane op f s (fun c g => s.laneCommit k c g)

/-- LONG_OPERATION_WRITE (R154, R155): operation i of a group writes its cells, which turn full, and sets its flags. -/
def execLongOperationWrite (grp i : Nat) (s : State) : Out :=
  .next (s.updGroup grp (fun g =>
    match g.longs[i]? with
    | none => g
    | some o =>
      let g := o.writes.foldl (fun g w => g.land w.1 w.2.1 [w.2.2]) g
      { (o.flags.foldl (fun g w => g.setFlags w.1 w.2) g) with longs := g.longs.filter (fun x => x.id != o.id) }))

end Sys2Proof.Machine
end

