-- ==== Sys2Proof/Machine/LaneInt.lean ====
section
/-!
DEFINITION. Lane integer arithmetic, logic, shifts, bit fields, select and compare (R363 to R368). -/
namespace Sys2Proof.Machine

/-- A result pattern in its format (R209). -/
def patOut (fmt v : Nat) : LaneOut := { cells := cellsOf fmt v }

/-- An exact integer result, wrapped or clamped (R211, R362). -/
def intOut (c : Ctx) (r : Int) : LaneOut :=
  let fmt := c.f.fmt.toNat
  patOut fmt (ofS (fmtWidth fmt) (if c.f.sat then clampI (intMin fmt) (intMax fmt) r else r))

/-- A kernel on exact integers. -/
def intKernel (r : Ctx → Int → Int → Int → Int) : Kernel :=
  { fn := fun c l => intOut c (r c (c.src 0 l).int (c.src 1 l).int (c.src 2 l).int) }

/-- A kernel on n-bit patterns (R365). -/
def bitKernel (r : Nat → Nat → Nat → Nat) : Kernel :=
  { fn := fun c l =>
      let fmt := c.f.fmt.toNat
      patOut fmt (r (fmtWidth fmt) (c.src 0 l).pat (c.src 1 l).pat % 2 ^ fmtWidth fmt) }

/-- The width of the instruction's format. -/
def Ctx.width (c : Ctx) : Nat := fmtWidth c.f.fmt.toNat

/-- a ÷ b rounded towards zero, a divisor of 0 giving all ones (R363, R364). -/
def quotI (a b : Int) : Int := if b = 0 then -1 else Int.tdiv a b
/-- a − b × (a ÷ b rounded towards zero), a divisor of 0 giving a (R363, R364). -/
def remI (a b : Int) : Int := if b = 0 then a else Int.tmod a b

/-- IADD (R363). -/
def execIadd (f : LaneF) (s : State) : Out := laneRun 0x010 (intKernel (fun _ a b _ => a + b)) f s
/-- ISUB (R363). -/
def execIsub (f : LaneF) (s : State) : Out := laneRun 0x011 (intKernel (fun _ a b _ => a - b)) f s
/-- IMUL (R363). -/
def execImul (f : LaneF) (s : State) : Out := laneRun 0x012 (intKernel (fun _ a b _ => a * b)) f s
/-- IMAD (R363). -/
def execImad (f : LaneF) (s : State) : Out := laneRun 0x013 (intKernel (fun _ a b c => a * b + c)) f s
/-- IMULH (R363). -/
def execImulh (f : LaneF) (s : State) : Out :=
  laneRun 0x014 (intKernel (fun c a b _ => Int.fdiv (a * b) (2 ^ c.width))) f s
/-- IDIV (R363, R364). -/
def execIdiv (f : LaneF) (s : State) : Out :=
  laneRun 0x015 { intKernel (fun _ a b _ => quotI a b) with long := true } f s
/-- IREM (R363, R364). -/
def execIrem (f : LaneF) (s : State) : Out :=
  laneRun 0x016 { intKernel (fun _ a b _ => remI a b) with long := true } f s
/-- IMIN (R363). -/
def execImin (f : LaneF) (s : State) : Out := laneRun 0x017 (intKernel (fun _ a b _ => min a b)) f s
/-- IMAX (R363). -/
def execImax (f : LaneF) (s : State) : Out := laneRun 0x018 (intKernel (fun _ a b _ => max a b)) f s
/-- IABS (R363, R364). -/
def execIabs (f : LaneF) (s : State) : Out := laneRun 0x019 (intKernel (fun _ a _ _ => (a.natAbs : Int))) f s

/-- AND (R365). -/
def execLaneAnd (f : LaneF) (s : State) : Out := laneRun 0x01A (bitKernel (fun _ a b => a &&& b)) f s
/-- OR (R365). -/
def execLaneOr (f : LaneF) (s : State) : Out := laneRun 0x01B (bitKernel (fun _ a b => a ||| b)) f s
/-- XOR (R365). -/
def execLaneXor (f : LaneF) (s : State) : Out := laneRun 0x01C (bitKernel (fun _ a b => a ^^^ b)) f s
/-- NOT (R365). -/
def execLaneNot (f : LaneF) (s : State) : Out := laneRun 0x01D (bitKernel (fun n a _ => 2 ^ n - 1 - a)) f s
/-- SHL (R365). -/
def execLaneShl (f : LaneF) (s : State) : Out := laneRun 0x01E (bitKernel (fun n a b => a * 2 ^ (b % n))) f s
/-- SHR (R365). -/
def execLaneShr (f : LaneF) (s : State) : Out := laneRun 0x01F (bitKernel (fun n a b => a / 2 ^ (b % n))) f s
/-- SAR (R365). -/
def execLaneSar (f : LaneF) (s : State) : Out :=
  laneRun 0x020 (bitKernel (fun n a b => ofS n (Int.fdiv (toS n a) (2 ^ (b % n))))) f s
/-- ROT (R365). -/
def execRot (f : LaneF) (s : State) : Out :=
  laneRun 0x021 (bitKernel (fun n a b => a * 2 ^ (b % n) + a / 2 ^ (n - b % n))) f s
/-- CLZ (R365). -/
def execLaneClz (f : LaneF) (s : State) : Out := laneRun 0x022 (bitKernel (fun n a _ => leadZeros n a)) f s
/-- POPC (R365). -/
def execLanePopc (f : LaneF) (s : State) : Out := laneRun 0x023 (bitKernel (fun n a _ => popCount n a)) f s
/-- BREV (R365). -/
def execBrev (f : LaneF) (s : State) : Out := laneRun 0x024 (bitKernel (fun n a _ => revBits n a)) f s

/-- Field position and length of `bfe` and `bfi` (R366). -/
def bfPos (c : Ctx) : Nat := fld c.f.imm.toNat 0 6
/-- Field length. -/
def bfLen (c : Ctx) : Nat := fld c.f.imm.toNat 8 6

/-- BFE (R366). -/
def execBfe (f : LaneF) (s : State) : Out :=
  laneRun 0x025 (kern fun c l =>
    let fmt := c.f.fmt.toNat
    let v := fld (c.src 0 l).pat (bfPos c) (bfLen c)
    patOut fmt (if isSInt fmt then ofS (fmtWidth fmt) (toS (bfLen c) v) else v)) f s
/-- BFI (R366). -/
def execBfi (f : LaneF) (s : State) : Out :=
  laneRun 0x026 (kern fun c l =>
    let a := (c.src 0 l).pat
    let p := bfPos c
    let n := bfLen c
    patOut c.f.fmt.toNat (fld a 0 p + fld (c.src 1 l).pat 0 n * 2 ^ p + a / 2 ^ (p + n) * 2 ^ (p + n))) f s

/-- A move of a VP value in format 0x20 to the lane's working length (R367, R226). -/
def vpMove (c : Ctx) (l : Nat) (x : Src) : LaneOut :=
  let w := c.g.workS 0x20 l
  let r := vpFinish w (vpLenOf w) (c.g.mode c.f l) false (c.g.drawAt c.f l 1) (resOf x.val) (.copy x.vp.k)
  { cells := r.cells, flags := { ix := r.flags.ix }, draws := 1 }

/-- The bits of a floating-point source with its sign changed where it is negated (R391). -/
def Src.bits (x : Src) : Nat :=
  match ffOf x.fmt, x.neg with
  | some l, true => x.pat ^^^ 2 ^ (l.eb + l.fb)
  | _, _ => x.pat

/-- The cells of a VP source with its sign changed where it is negated. -/
def Src.signed (x : Src) : List Nat :=
  if x.neg then (match x.cells with | c :: t => (c ^^^ 2 ^ 31) :: t | [] => []) else x.cells

/-- A chosen source as it is written: a move in format 0x20, else its bits or cells (R367, R395). -/
def chosen (c : Ctx) (l : Nat) (x : Src) : LaneOut :=
  if x.fmt = 0x20 then vpMove c l x
  else if isVpFmt x.fmt then { cells := x.signed }
  else patOut x.fmt x.bits

/-- SEL (R367). -/
def execLaneSel (f : LaneF) (s : State) : Out :=
  laneRun 0x027 (kern fun c l =>
    chosen c l (c.src (if (c.g.maskSource c.f.c c.lanes).getLsbD l then 0 else 1) l)) f s

/-- The truth of a comparison as a mask bit. -/
def bitOut (b : Bool) : LaneOut := { cells := [b.toNat] }

/-- A comparison of integers (R368). -/
def icmpHolds (cond : Nat) (a b : Int) : Bool :=
  match cond with
  | 0 => decide (a = b)
  | 1 => decide (a ≠ b)
  | 2 => decide (a < b)
  | 3 => decide (b ≤ a)
  | 4 => decide (b < a)
  | _ => decide (a ≤ b)

/-- ICMP (R368). -/
def execIcmp (f : LaneF) (s : State) : Out :=
  laneRun 0x028 { fn := fun c l => bitOut (icmpHolds (c.f.imm.toNat % 8) (c.src 0 l).int (c.src 1 l).int) } f s

/-- NOP (R380). -/
def execLaneNop (f : LaneF) (s : State) : Out := laneRun 0x001 { fn := fun _ _ => {} } f s

end Sys2Proof.Machine
end

