-- ==== Sys2Proof/Machine/LaneMem.lean ====
section
/-!
DEFINITION. Per-lane memory access (R381 to R387), remote lane operations (R388 to R390), and accumulator moves (R410,
R411). -/
namespace Sys2Proof.Machine

/-! ## Accesses of lanes -/

/-- The effective address of a lane (R381). -/
def Ctx.ea (c : Ctx) (offset : Bool) (l : Nat) : Nat :=
  let a := (c.src 0 l).pat
  if offset then (BitVec.ofNat 64 a + c.f.imm.signExtend 64).toNat else a

/-- The lanes that access: those of L that consumed no poison in their operands (R251). -/
def Ctx.alive (c : Ctx) : Lanes := c.lanes &&& ~~~ c.poisoned

/-- An access of a lane under the instruction's policy fields (R285). -/
def Ctx.access (c : Ctx) (kind : AccKind) (l addr size : Nat) : Access :=
  { lane := l, stream := true, pc := c.g.lanePc, kind := kind, addr := addr % 2 ^ 64, size := size, ord := c.f.ord.toNat,
    scope := c.f.scope.toNat, evict := c.f.evict.toNat, seq := c.g.lseq, seen := c.seen, path := c.g.path }

/-- The accesses of an element of the instruction's format in each lane: one, or one for each cell of a VP value. -/
def Ctx.elems (c : Ctx) (kind : AccKind) (offset : Bool) (k : Access → Nat → Nat → Access) : List Access :=
  let fmt := c.f.fmt.toNat
  (lanesOf c.alive).flatMap (fun l => (List.range (elemParts fmt)).map (fun i =>
    k (c.access kind l (c.ea offset l + 4 * i) (partBytes fmt)) l i))

/-- The fence that an ordering field makes when no lane acts (R200). -/
def Ctx.emptyFence (c : Ctx) : List Access :=
  if c.lanes = 0 ∧ c.f.ord ≠ 0 then [c.access .fence 255 0 0] else []

/-- The group once a memory instruction has issued: its pops made, its stream moved on. -/
def Group.issued (g g' : Group) : Group := { g with lq := g'.lq, lseen := g'.lseen }.laneNext

/-- Issue the accesses of a lane instruction; `upd` is what else its issue changes, `more` how many accesses may follow from
what these find. Once it has issued, the lanes that consumed poison die (R251). -/
def State.laneIssue (s : State) (c : Ctx) (g' : Group) (l : List Access) (upd : Group → Group) (more : Nat := 0) : State :=
  let s' := s.issueAll c.g (l ++ c.emptyFence) s.laneWaits (fun g => upd (g.issued g')) true more
  if (s'.group s.cur).lseq = c.g.lseq then s' else s'.killLanes s.cur c.poisoned

/-- The cells a load or returning atomic will write turn empty in its lanes (R155). -/
def Group.emptyCells (g : Group) (c : Ctx) : Group :=
  { g with empties := (lanesOf c.alive).foldl (fun t l =>
      (List.range (c.g.resultCells c.f.fmt.toNat l)).foldl (fun t k =>
        tblPut t (cellKey l (c.f.dest.toNat + k)) c.g.lseq) t) g.empties }

/-- Where a loaded piece goes: cells, or the entries that the instruction pushes (R282, R381). -/
def Ctx.pieceDest (c : Ctx) (i : Nat) : Dest :=
  let fmt := if isVpFmt c.f.fmt.toNat then 0x06 else c.f.fmt.toNat
  if c.f.dkind = 0 then .cells (c.f.dest.toNat + i) fmt else .push i fmt

/-- What the issue of a load changes: its cells turn empty, or it holds the lane port until it pushes. -/
def Group.awaitLoad (g : Group) (c : Ctx) : Group :=
  if c.f.dkind = 0 then g.emptyCells c
  else if c.f.dkind = 1 then
    { g with lpush := some { q := c.f.dest.toNat, n := popsOf c.f.fmt.toNat, mask := c.alive } }
  else g

/-- Issue a load or a returning atomic; with no lane its push happens at once. -/
def State.laneLoad (s : State) (c : Ctx) (g' : Group) (l : List Access) : State :=
  (s.laneIssue c g' l (fun g => g.awaitLoad c)).settlePush s.cur

/-- Issue a load of an element of the instruction's format in each lane. A VP value of several cells lands whole, so that one with
a poisoned piece writes nothing (R251). -/
def State.laneElems (s : State) (c : Ctx) (g' : Group) (offset : Bool) (at_ : Access → Access) : State :=
  let fmt := c.f.fmt.toNat
  if isVpFmt fmt && decide (2 ≤ elemParts fmt) && c.f.dkind == 0 then
    let ls := lanesOf c.alive
    let loads := (ls.zip (List.range ls.length)).map (fun e =>
      ({ id := s.nextId + e.2, lane := e.1, idx := c.f.dest.toNat, need := elemParts fmt, raw := true } : VpLoad))
    ({ s with nextId := s.nextId + ls.length } : State).laneIssue c g'
      (loads.flatMap (fun v => (List.range v.need).map (fun i =>
        at_ { c.access .load v.lane (c.ea offset v.lane + 4 * i) 4 with dest := .vp v.id i })))
      (fun g => { g.emptyCells c with vploads := g.vploads ++ loads })
  else s.laneLoad c g' (c.elems .load offset (fun a _ i => at_ { a with dest := c.pieceDest i }))

/-- LDL (R382). -/
def execLdl (f : LaneF) (s : State) : Out := onLane 0x0A0 f s (fun c g => s.laneElems c g true id)

/-- The bytes of piece i of a value of the instruction's format. -/
def Ctx.piece (c : Ctx) (src l i : Nat) : Nat :=
  (c.src src l).pat / 2 ^ (32 * i) % 2 ^ (8 * partBytes c.f.fmt.toNat)

/-- STL (R382). -/
def execStl (f : LaneF) (s : State) : Out :=
  onLane 0x0A1 f s (fun c g =>
    s.laneIssue c g (c.elems .store true (fun a l i => { a with data := c.piece 1 l i })) id)

/-- The operation of an `atoml` as the atomics of R308 count them: natural minimum and maximum for N formats (R383). -/
def atomlOp (fmt op : Nat) : Nat :=
  if (fmt = 6 ∨ fmt = 7) ∧ (op = 5 ∨ op = 6) then op + 2 else op

/-- ATOML (R383). -/
def execAtoml (f : LaneF) (s : State) : Out :=
  onLane 0x0A2 f s (fun c g =>
    let fmt := f.fmt.toNat
    let l := c.elems .atomic false (fun a l i => { a with
      op := atomlOp fmt (f.imm.toNat % 16), data := (c.src 1 l).pat
      cmp := if f.imm = 9 then (c.src 2 l).pat else 0, fp := if fmt = 0x0A then fmt else 0
      dest := if f.dkind = 3 then .none else c.pieceDest i })
    s.laneLoad c g l)

/-- LDVP (R384). -/
def execLdvp (f : LaneF) (s : State) : Out :=
  onLane 0x0A3 f s (fun c g =>
    if f.fmt ≠ 0x20 then s.laneElems c g true id
    else
      let ls := lanesOf c.alive
      let id := s.nextId
      let loads := (ls.zip (List.range ls.length)).map (fun e =>
        let a := { c.access .load e.1 (c.ea true e.1) 4 with dest := .vp (id + e.2) 0 }
        (a, ({ id := id + e.2, lane := e.1, idx := f.dest.toNat, s := precS (c.g.precOf e.1), proto := a } : VpLoad)))
      let s := { s with nextId := id + ls.length }
      s.laneIssue c g (loads.map (·.1)) (fun g =>
        { g.emptyCells c with vploads := g.vploads ++ loads.map (·.2) }) (3 * ls.length))

/-- STVP (R385). -/
def execStvp (f : LaneF) (s : State) : Out :=
  onLane 0x0A4 f s (fun c g =>
    s.laneIssue c g ((lanesOf c.alive).flatMap (fun l =>
      let x := (c.src 1 l).cells
      (x.zip (List.range x.length)).map (fun e =>
        { c.access .store l (c.ea true l + 4 * e.2) 4 with data := e.1 }))) id)

/-- The distinct values of a list, in order. -/
def distinct : List Nat → List Nat
  | [] => []
  | x :: t => x :: (distinct t).filter (· != x)

/-- PREFL (R187, R386): its accesses enter the operand log; lanes that name one line are merged into one, which counts them for
HINTDROP. -/
def execPrefl (f : LaneF) (s : State) : Out :=
  onLane 0x0A5 f s (fun c g =>
    let lines := (lanesOf c.alive).map (fun l => (l, c.ea true l / 128 * 128))
    let firsts := (distinct (lines.map (·.2))).filterMap (fun a => lines.find? (fun e => e.2 == a))
    s.laneIssue c g (firsts.map (fun e => { c.access .hint e.1 e.2 128 with
      op := 2, data := (lines.filter (fun x => x.2 == e.2)).length })) id)

/-- LFENCE (R387). -/
def execLfence (f : LaneF) (s : State) : Out :=
  onLane 0x0A6 f s (fun c g => s.issueAll c.g [c.access .fence 255 0 0] s.laneWaits (fun k => k.issued g) true)

/-! ## Remote lane operations -/

/-- The rank word named by the immediate (R388), laid out as RANKREG of R339. -/
def Ctx.rankWord (c : Ctx) : Word := c.g.slotK (c.f.imm.toNat % 4)

/-- A remote lane operation once its rank word is legal (R390). -/
def onRank (c : Ctx) (s : State) (k : (Access → Access) → State) : State :=
  let w := c.rankWord.toNat
  if c.lanes ≠ 0 ∧ 2 ^ 26 ≤ w then s.stopLane c.g (laneTrap 0x01 c.lanes)
  else k (fun a => { a with rank := some (fld w 0 24), slot := fld w 24 2 })

/-- RPUTL (R388, R389). -/
def execRputl (f : LaneF) (s : State) : Out :=
  onLane 0x0C0 f s (fun c g => onRank c s (fun at_ =>
    s.laneIssue c g (c.elems .store false (fun a l i => at_ { a with data := c.piece 1 l i })) id))

/-- RGETL (R388, R389). -/
def execRgetl (f : LaneF) (s : State) : Out :=
  onLane 0x0C1 f s (fun c g => onRank c s (fun at_ =>
    s.laneElems c g false at_))

/-- The atomic that folds one element (R339): ADD, MIN, MAX, OR. -/
def foldOp (fmt rop : Nat) : Nat :=
  match rop with
  | 0 => 1
  | 1 => if fmt = 6 ∨ fmt = 7 then 7 else 5
  | 2 => if fmt = 6 ∨ fmt = 7 then 8 else 6
  | _ => 3

/-- RREDL (R388, R389). -/
def execRredl (f : LaneF) (s : State) : Out :=
  onLane 0x0C2 f s (fun c g => onRank c s (fun at_ =>
    let fmt := f.fmt.toNat
    let rop := fld f.imm.toNat 2 3
    s.laneIssue c g (c.elems .atomic false (fun a l i => at_ { a with
      data := c.piece 1 l i, op := foldOp fmt rop, fp := if isIeeeFmt fmt then fmt else 0, rop := some (rop, fmt) })) id))

/-! ## Accumulator moves (R410, R411) -/

/-- The physical tile a lane instruction names. -/
def Group.physTile (g : Group) (t : Nat) : Nat := g.quad * 16 + (tblFind g.accmap t).getD 0

/-- The element of a tile that a lane is paired with (R410). -/
def rowElem (imm l : Nat) : Nat := fld imm 0 5 * 128 + 64 * fld imm 5 1 + l

/-- ACCRD (R410): a poisoned tile kills the lanes that read it (R251). -/
def execAccrd (f : LaneF) (s : State) : Out :=
  onLane 0x0B0 f s (fun c g =>
    let t := tblGet {} (s.core (s.coreOf s.cur)).tiles (g.physTile (f.a.index.toNat % 16))
    s.laneCommit { fn := fun c l => { cells := [tblGet 0 t.data (rowElem c.f.imm.toNat l)], dies := t.poison }, own := true } c g)

/-- Finish an instruction that writes a tile. -/
def State.tileCommit (s : State) (c : Ctx) (g : Group) (k : Tile → Tile) : State :=
  let core := s.coreOf s.cur
  let i := g.physTile c.f.dest.toNat
  let s := s.put g.laneNext
  (if c.lanes = 0 then s else s.updCore core (fun x => { x with tiles := tblPut x.tiles i (k (tblGet {} x.tiles i)) })).killLanes
    s.cur c.poisoned

/-- ACCWR (R410): the tile's poison stands. -/
def execAccwr (f : LaneF) (s : State) : Out :=
  onLane 0x0B1 f s (fun c g =>
    s.tileCommit c g (fun t => { t with
      data := (lanesOf c.alive).foldl (fun d l => tblSet 0 d (rowElem f.imm.toNat l) ((c.src 0 l).pat)) t.data }))

/-- ACCZ (R410). -/
def execAccz (f : LaneF) (s : State) : Out :=
  onLane 0x0B2 f s (fun c g => s.tileCommit c g (fun t => { t with data := [], poison := false }))

end Sys2Proof.Machine
end

