-- ==== Sys2Proof/Machine/Rdma.lean ====
section
/-!
DEFINITION. RoCEv2 requests of hosts and peers (R102 to R104, R109, R115, R189, R255): writes, reads, atomics, signal
increments, kicks, remote reduce messages (R341) and congestion notifications. -/
namespace Sys2Proof.Machine

/-- Codes of a NAK: invalid request, remote access. -/
def nakInvalid : Nat := 1
/-- A remote-access NAK. -/
def nakAccess : Nat := 2

/-- A range may be reached with a key for an access (R102, R180, R421), by a route that is not down (R15). -/
def State.regionOk (s : State) (port : Nat) (rkey : BitVec 32) (w : Want) (addr n : Nat) : Bool :=
  (segs addr n).all (fun e =>
    match pageAt s.pages e.1 with
    | none => false
    | some (_, p) =>
      !s.routeDown port p.home &&
        (match p.kind with
        | .kick => s.kickKey == some rkey && (w == .read || w == .write)
        | .desc => s.kickKey == some rkey && w == .read
        | .hbm => p.rkey == some rkey && p.perm.getLsbD 5 && p.allows w
        | .scratch => p.rkey == some rkey && p.perm.getLsbD 5 && p.allows w
        | _ => false))

/-- The page of an address is device registers: kick registers or queue descriptors. -/
def State.isDevice (s : State) (addr : Nat) : Bool :=
  match pageAt s.pages addr with
  | some (_, p) => p.kind == .kick || p.kind == .desc
  | none => false

/-- A request of n bytes at a port reaches the home of an address, where it is counted and charged (R74, R79, R191). -/
def State.chargePort (s : State) (port addr n : Nat) (write : Bool) : State := (s.ethernet port n).visitHome port addr n 4 write

/-- A request at a port reaches the registers of a device page (R16, R74). -/
def State.chargeDevice (s : State) (port addr n : Nat) (write : Bool) : State :=
  (s.ethernet port n).roundTrip port (s.homeDie addr) (if write then n else 0) (if write then 0 else n)

/-- A request of a host or peer: the port and queue pair it came by, and the range of memory it asks for. -/
def portRequest (i : Instr) : Option (Nat × Nat × Nat × Nat) :=
  match i with
  | .rdmaWriteReceive p q _ a d _ => some (p, q, a, (d.getD []).length)
  | .rdmaReadReceive p q _ a n => some (p, q, a, n)
  | .atomicReceive p q _ a _ _ _ => some (p, q, a, 8)
  | .rdmaWriteImmediateReceive p q _ a _ _ => some (p, q, a, 8)
  | .kickRegisterWrite p q a n _ => some (p, q, a, n)
  | .remoteReduceReceive p q b => some (p, q, numAt b 8 8, numAt b 16 2 * fmtBytes (numAt b 3 1))
  | _ => none

/-- The request came on a queue pair. -/
def onPair (port qp : Nat) (i : Instr) : Bool :=
  match portRequest i with
  | some (p, q, _, _) => p == port && q == qp
  | none => false

/-- A request at a port cannot be performed now: its page has no backing yet (R188), or is on the move and refuses it, the home
or a link takes no new request, or requests of its queue pair wait already (R79, R104, R192, R193). -/
def State.portWaits (s : State) (port qp : Nat) (write : Bool) (addr n : Nat) : Bool :=
  (segs addr n).any (fun e =>
    match pageAt s.pages e.1 with
    | some (_, p) => !p.backed || p.refuses write || s.pageChoked port p
    | none => false) ||
  s.parked.any (onPair port qp)

/-- A request that is refused waits at its port, behind those that came before it (R193), and the backing of its pages is asked for
(R188). DEDUCED: assumption 25. -/
def State.park (s : State) (i : Instr) : State :=
  let s := { s with parked := s.parked ++ [i] }
  match portRequest i with
  | some (_, _, a, n) => (segs a n).foldl (fun (s : State) e => s.wantPageOf e.1) s
  | none => s

/-- Write a request's bytes, with the parts of 64 B that its poison map marks (R250). -/
def State.writeRequest (s : State) (addr : Nat) (bs : List Byte) (poison : List Nat) : State :=
  poison.foldl (fun s i => s.poisonHome (addr + 64 * i) (min 64 (bs.length - 64 * i))) (s.homeWrite addr bs)

/-- RDMA_WRITE_RECEIVE (R102, R104, R109): a write to device memory, or a kick; a request whose opcode R102 does not list
writes no data, and is refused. -/
def execRdmaWriteReceive (port qp : Nat) (rkey : BitVec 32) (addr : Nat) (data : Option (List Byte)) (poison : List Nat)
    (s : State) : Out :=
  if !s.serves port qp then .next s
  else
    match data with
    | none => .next (s.answer port qp .nak nakInvalid [])
    | some bs =>
      if !s.regionOk port rkey .write addr bs.length then .next (s.answer port qp .nak nakAccess [])
      else if s.portWaits port qp true addr bs.length then .next (s.park (.rdmaWriteReceive port qp rkey addr data poison))
      else
        let s := s.answer port qp .ack 0 []
        if s.isDevice addr then
          (let s := s.chargeDevice port addr bs.length true
           .next (if bs.length = 8 ∧ addr % 8 = 0 then s.kickAt addr (leNat bs) else s))
        else .next ((s.chargePort port addr bs.length true).writeRequest addr bs poison)

/-- RDMA_READ_RECEIVE (R102, R115, R255): poisoned bytes go to a peer with their map, never to a host. -/
def execRdmaReadReceive (port qp : Nat) (rkey : BitVec 32) (addr len : Nat) (s : State) : Out :=
  if !s.serves port qp then .next s
  else if !s.regionOk port rkey .read addr len then .next (s.answer port qp .nak nakAccess [])
  else if s.portWaits port qp false addr len then .next (s.park (.rdmaReadReceive port qp rkey addr len))
  else if s.isDevice addr then
    .next ((s.chargeDevice port addr len false).answer port qp .readData 0 ((List.range len).map (fun i => s.deviceByte (addr + i))))
  else
    let s := s.chargePort port addr len false
    let bad := (List.range ((len + 63) / 64)).filter (fun i => s.homePoison (addr + 64 * i) (min 64 (len - 64 * i)))
    if !bad.isEmpty && !s.peerPair port qp then .next (s.answer port qp .nak nakAccess [])
    else .next (s.answer port qp .readData 0 (s.homeRead addr len) bad)

/-- ATOMIC_RECEIVE (R102, R255): an 8-byte fetch-and-add or compare-and-swap at system scope; a poisoned old value goes to a
peer with its mark, never to a host. -/
def execAtomicReceive (port qp : Nat) (rkey : BitVec 32) (addr : Nat) (cas : Bool) (operand comparand : Word) (s : State) :
    Out :=
  if !s.serves port qp then .next s
  else if addr % 8 ≠ 0 || !s.regionOk port rkey .atomic addr 8 || s.isDevice addr then .next (s.answer port qp .nak nakAccess [])
  else if s.portWaits port qp true addr 8 then .next (s.park (.atomicReceive port qp rkey addr cas operand comparand))
  else
    let s := s.chargePort port addr 8 true
    if s.homePoison addr 8 && !s.peerPair port qp then .next (s.answer port qp .nak nakAccess [])
    else
      let old := s.homeRead addr 8
      let s := s.answer port qp .ack 0 old (if s.homePoison addr 8 then [0] else [])
      match atomicNew (if cas then 9 else 1) 64 (leNat old) operand.toNat comparand.toNat 0 with
      | some v => .next (s.homeWrite addr (leBytes 8 v))
      | none => .next s

/-- RDMA_WRITE_IMMEDIATE_RECEIVE (R102): a peer's signal increment, a system-scope release. -/
def execRdmaWriteImmediateReceive (port qp : Nat) (rkey : BitVec 32) (addr : Nat) (imm : BitVec 32) (len : Nat) (s : State) :
    Out :=
  if !s.serves port qp then .next s
  else if !s.peerPair port qp then .next (s.answer port qp .nak nakInvalid [])
  else if len ≠ 0 || addr % 8 ≠ 0 || !s.regionOk port rkey .atomic addr 8 || s.isDevice addr then
    .next (s.answer port qp .nak nakAccess [])
  else if s.portWaits port qp true addr 8 then .next (s.park (.rdmaWriteImmediateReceive port qp rkey addr imm len))
  else
    let s := (s.chargePort port addr 8 true).answer port qp .ack 0 []
    .next (s.homeWrite addr (leBytes 8 ((leNat (s.homeRead addr 8) + imm.toNat) % 2 ^ 64)))

/-- KICK_REGISTER_WRITE (R104, R109): a kick by RDMA WRITE, after what its queue pair asked for before; one of another size, or
misaligned, is dropped. -/
def execKickRegisterWrite (port qp : Nat) (addr size : Nat) (value : Word) (s : State) : Out :=
  if !s.serves port qp then .next s
  else
    match pageAt s.pages addr with
    | some (_, p) =>
      if p.kind ≠ .kick || s.routeDown port p.home then .next (s.answer port qp .nak nakAccess [])
      else if s.portWaits port qp true addr size then .next (s.park (.kickRegisterWrite port qp addr size value))
      else
        let s := (s.chargeDevice port addr size true).answer port qp .ack 0 []
        .next (if size = 8 ∧ addr % 8 = 0 then s.kickAt addr value.toNat else s)
    | none => .next (s.answer port qp .nak nakAccess [])

/-- The send rate a queue pair is held to now: what the last notification left it, until management's parameters let it recover
(R103); none where it is not held. -/
def State.sendRate (s : State) (port qp : Nat) : Option Nat :=
  let k := tblGet ({} : Qp) s.qps (qpKey port qp)
  if k.cut + Config.rateRecovery ≤ (s.die port).time then none else k.rate

/-- CNP_RECEIVE (R103): the queue pair's send rate is reduced to what management's parameters give, and never raised; it recovers
as those parameters say. -/
def execCnpReceive (port qp rate : Nat) (s : State) : Out :=
  let new := match s.sendRate port qp with
    | some r => min rate (r - 1)
    | none => rate
  .next { s with qps := tblPut s.qps (qpKey port qp) { tblGet ({} : Qp) s.qps (qpKey port qp) with
    rate := some new, cut := (s.die port).time } }

/-! ## Remote reduce messages (R341) -/

/-- The header of a remote reduce message is well formed, and its length agrees with NEL (R341). -/
def reduceOk (b : List Byte) : Bool :=
  decide (40 ≤ b.length) && numAt b 0 1 == 1 && numAt b 1 1 == 3 && decide (numAt b 2 1 ≤ 3) &&
    rfmtOk (numAt b 2 1) (numAt b 3 1) && zeroAt b 15 1 && decide (1 ≤ numAt b 16 2) && zeroAt b 18 2 && zeroAt b 23 1 &&
    zeroAt b 24 8 && b.length == 40 + numAt b 16 2 * fmtBytes (numAt b 3 1) &&
    fld (numAt b 32 8) ((numAt b 16 2 * fmtBytes (numAt b 3 1) + 63) / 64) 64 == 0

/-- Every element of a message lies where atomics are allowed (R179, R341), by a route that is not down (R15). -/
def State.reduceTarget (s : State) (port addr n : Nat) : Bool :=
  (segs addr n).all (fun e =>
    match pageAt s.pages e.1 with
    | some (_, p) => (p.kind == .hbm || p.kind == .scratch) && p.allows .atomic && !s.routeDown port p.home
    | none => false)

/-- REMOTE_REDUCE_RECEIVE (R341): each element is folded in order; the message is acknowledged after all its folds, or
refused whole. -/
def execRemoteReduceReceive (port qp : Nat) (bytes : List Byte) (s : State) : Out :=
  if !s.serves port qp then .next s
  else if !s.peerPair port qp then .next (s.answer port qp .nak nakInvalid [])
  else if !reduceOk bytes || (s.slotOf (BitVec.ofNat 32 (numAt bytes 4 4))).isNone then
    .next (s.answer port qp .nak nakInvalid [])
  else
    let fmt := numAt bytes 3 1
    let size := fmtBytes fmt
    let addr := numAt bytes 8 8
    let n := numAt bytes 16 2
    if addr % size ≠ 0 || !s.reduceTarget port addr (n * size) then .next (s.answer port qp .nak nakAccess [])
    else if s.portWaits port qp true addr (n * size) then .next (s.park (.remoteReduceReceive port qp bytes))
    else
      let s := s.chargePort port addr (n * size) true
      let s := (List.range n).foldl (fun s i =>
        let x := addr + i * size
        let q := s.homePoison x size
        let s :=
          match atomicNew (foldOp fmt (numAt bytes 2 1)) (8 * size) (leNat (s.homeRead x size)) (numAt bytes (40 + i * size) size)
            0 fmt with
          | some v => s.homeWrite x (leBytes size v)
          | none => s
        if q || fld (numAt bytes 32 8) (i * size / 64) 1 == 1 then s.poisonHome x size else s) s
      .next (s.answer port qp .ack 0 [])

end Sys2Proof.Machine
end

