-- ==== Sys2Proof/Machine/Memory.lean ====
section
/-!
DEFINITION. What happens to accesses and pages on their own: the operand log (R187, R188), backing, migration (R191 to
R193), uncorrectable errors (R250, R256), and the exchanges of a Scrim pair (R257 to R261). -/
namespace Sys2Proof.Machine

/-- Dirty lines that were evicted from a core reach their homes, as far as those take writes (R185, R208). -/
def State.landEvicted (s : State) (c : Nat) : State := s.writeBack c (fun x => !x.held && !s.homeStuck (128 * x.line))

/-- The team of a group is away: its context stands in the save pool, and what its log holds waits for the restore (R142, R266). -/
def State.logAway (s : State) (h : Nat) : Bool :=
  (s.team (teamOf h)).life == .saved || (s.team (teamOf h)).life == .written

/-- What follows when accesses of a group have been performed: request entries that they held go on (R187), and its team may end. -/
def State.afterAccess (s : State) (h : Nat) : State := (s.drainEntries (s.coreOf h)).tryEndTeam (teamOf h)

/-- MEMORY_ACCESS_PERFORM (R187): the i-th access of a group's log, if it may be performed now; a store that has left its core
reaches its home (R202). One past the end of the log stands for the lines evicted from the group's core. -/
def execMemoryAccessPerform (grp i : Nat) (s : State) : Out :=
  match (s.group grp).log[i]? with
  | none => .next (if i = (s.group grp).log.length then (s.landEvicted (s.coreOf grp)).tryEndTeam (teamOf grp) else s)
  | some a =>
    if a.parked || a.refused || s.logAway grp then .next s
    else if s.hasLeft grp a then
      (if s.homeStuck (a.addr % 2 ^ 56) then .next s
      else .next ((s.flushLine (s.coreOf grp) (a.addr % 2 ^ 56 / 128)).afterAccess grp))
    else .next ((s.performAccess grp a.id).afterAccess grp)

/-- PAGE_WALK_COMPLETE (R186, R188): what the walk finds for an access: a fault, a page to be backed, or a translation, with
which a store may leave its core before it is performed at its home (R202). -/
def execPageWalkComplete (grp i : Nat) (s : State) : Out :=
  match (s.group grp).log[i]? with
  | none => .next s
  | some a =>
    if a.bare || a.rank.isSome || a.sent || a.parked || a.refused || s.logAway grp || !s.eligible grp a then .next s
    else if a.kind == .atomic && s.inTwin grp then .next s
    else if !a.aligned then .next (s.accessFault grp a (s.alignCause a) a.addr)
    else
      match s.firstFault grp a with
      | some (c, x) => .next (s.accessFault grp a c x)
      | none =>
        if s.unbacked grp a.addr a.size then .next (s.parkAccess grp a)
        else if s.mayLeave grp a then .next (s.leaveCore grp a)
        else .next s

/-! ## Backing (R188) -/

/-- HBM in use on a die: backed pages homed there, and the old backing of pages that moved away. -/
def State.hbmUsed (s : State) (d : Nat) : Nat :=
  ((s.pages.filter (fun e => e.2.kind == .hbm && e.2.backed)).map (fun e =>
    (if e.2.home = d then e.2.size else 0) + (if e.2.move ≠ .none ∧ e.2.newHome = d then e.2.size else 0))).foldl (· + ·) 0

/-- A die has room for n more bytes of its 128 GiB (R10), beside what firmware keeps there. -/
def State.hbmRoom (s : State) (d n : Nat) : Bool := decide (s.hbmUsed d + n + Config.hbmReserved d ≤ 2 ^ 37)

/-- Mesh hops between two dies (R12). -/
def hops (a b : Nat) : Nat := (route a b).length - 1

/-- The die that backs a page: its home, else the nearest with room, the lower number on a tie (R188). -/
def State.backingDie (s : State) (home n : Nat) : Option Nat :=
  (sortBy (fun d => hops home d * 8 + d) (List.range 8)).find? (fun d => s.hbmRoom d n)

/-- The accesses parked on a page. -/
def State.parkedOn (s : State) (b : Nat) : List (Nat × Access) :=
  s.groups.flatMap (fun e => (e.2.log.filter (fun a =>
    a.parked && ((pageAt s.pages (a.addr % 2 ^ 56)).map Prod.fst == some b ||
      (pageAt s.pages ((a.addr + a.size - 1) % 2 ^ 56)).map Prod.fst == some b))).map (fun a => (e.1, a)))

/-- Requests that were refused at their ports come again, in their order, before others (R79, R188, R193). -/
def State.requeue (s : State) : State := { s with agenda := s.parked.map Turn.event ++ s.agenda, parked := [] }

/-- The requests of hosts and peers that wait for a page are refused, for no die has room for it (R188, R189). -/
def State.refuseParked (s : State) (page : Nat) : State :=
  let touches := fun (i : Instr) =>
    match portRequest i with
    | some (_, _, a, n) => (segs a n).any (fun e => (pageAt s.pages e.1).map Prod.fst == some page)
    | none => false
  (s.parked.filter touches).foldl (fun (s : State) i =>
    match portRequest i with
    | some (p, q, _, _) => s.answer p q .nak nakAccess []
    | none => s) { s with parked := s.parked.filter (fun i => !touches i) }

/-- ON_DEMAND_BACKING (R188): F3 backs and zeroes a page that is waited for, and what waited for it goes on; with no room
anywhere the accesses parked on it, and the engines, fetches and requests that wait for it, take the translation fault. -/
def execOnDemandBacking (page : Nat) (s : State) : Out :=
  match tblFind s.pages page with
  | none => .next s
  | some p =>
    if p.backed || !p.wanted then .next s
    else
      let l := s.parkedOn page
      match s.backingDie p.home p.size with
      | some d =>
        let s := { s with pages := tblPut s.pages page { p with backed := true, wanted := false, waits := [], failed := [], home := d } }
        .next (l.foldl (fun (s : State) e => s.updLog e.1 e.2.id (fun a => { a with parked := false })) s).requeue
      | none =>
        let s := { s with pages := tblPut s.pages page { p with wanted := false, waits := [], failed := p.waits } }
        .next ((l.foldl (fun (s : State) e => (s.accessFault e.1 e.2 0x10 e.2.addr).tryEndTeam (teamOf e.1)) s).refuseParked page).requeue

/-! ## Migration (R191 to R193) -/

/-- The page holds tile records of an image in force, on its way out in some station's lap, or to come (R41, R191). -/
def State.lapPage (s : State) (b : Nat) (p : Page) : Bool :=
  (tblVals (s.ring.imagesFrom s.lastLap) ++ s.ring.pending.toList).any (fun im => im.entries.any (fun e =>
    decide (b < e.vbase + 36864 * e.count) && decide (e.vbase < b + p.size)))

/-- Commands are armed on a page, or on their way to it (R346). -/
def State.armedPage (s : State) (b : Nat) (p : Page) : Bool :=
  s.arms.any (fun e => decide (b ≤ e.1) && decide (e.1 < b + p.size)) ||
    s.arming.any (fun a => decide (b ≤ a.addr % 2 ^ 56) && decide (a.addr % 2 ^ 56 < b + p.size))

/-- The accesses a page counted from a die. -/
def Page.visits (p : Page) (d : Nat) : Nat :=
  ((List.range (p.size / 65536)).map (fun i => tblGet 0 p.counts (i * 8 + d))).foldl (· + ·) 0

/-- A candidate's count and new home (R191): of two other dies with the same largest count the lower number (DESIGN CHOICE,
assumption 58). -/
def State.candidate (s : State) (b : Nat) (p : Page) : Option (Nat × Nat) :=
  let floor := if p.size = 65536 then 2048 else 65536
  if p.kind ≠ .hbm || 2 ^ 21 < p.size || p.perm.getLsbD 6 || p.move ≠ .none || !p.backed || s.lapPage b p || s.armedPage b p then none
  else
    let best := (List.range 8).foldl (fun (m : Nat × Nat) d =>
      if d ≠ p.home ∧ m.1 < p.visits d then (p.visits d, d) else m) (0, p.home)
    if floor ≤ best.1 ∧ 4 * p.visits p.home ≤ best.1 then some best else none

/-- MIGRATION_REVIEW (R191, R192): every 1 ms F3 sets at most 256 candidates MOVING, in descending count, and halves every
counter. One whose new home has no free HBM stays, and still counts among the 256 (DESIGN CHOICE, assumption 58). -/
def execMigrationReview (s : State) : Out :=
  let now := (s.die 0).time
  if !s.firm.up || now < s.firm.reviewed + 1000000 then .next s
  else
    let l := s.pages.filterMap (fun e => (s.candidate e.1 e.2).map (fun c => (e.1, e.2.size, c)))
    let top := ((sortBy (fun x : Nat × Nat × Nat × Nat => x.2.2.1) l).reverse).take 256
    let s := top.foldl (fun (s : State) x =>
      if s.hbmRoom x.2.2.2 x.2.1 then
        { s with pages := tblUpd s.pages x.1 (fun p => { p with move := .moving, newHome := x.2.2.2 }) }
      else s) s
    .next { s with
      firm := { s.firm with reviewed := now }
      pages := s.pages.map (fun e => (e.1, { e.2 with counts := e.2.counts.map (fun c => (c.1, c.2 / 2)) })) }

/-- A page's bytes are read at its old HBM and written at its new one, over the links between (R74, R192); its lines leave the
old home's last-level cache. -/
def State.chargeMove (s : State) (b : Nat) (p : Page) : State :=
  let n := p.size / 64 * s.price (priceIndex 0x30 0 0)
  (((s.charge p.home n).crossMesh clsReq p.home p.newHome p.size).charge p.newHome n).updDie p.home (fun k => { k with
    llc := k.llc.filter (fun x => !(decide (b ≤ 128 * x.line) && decide (128 * x.line < b + p.size))) })

/-- MIGRATION_COPY (R192): the page is copied to its new home and the translation points there; `newHome` keeps the die of
the old backing. What was refused meanwhile goes there (R193). A page that has come to hold tile records of a lap table stays
where it is (R191); a choked die takes no copy (R79). -/
def execMigrationCopy (page : Nat) (s : State) : Out :=
  match tblFind s.pages page with
  | none => .next s
  | some p =>
    if p.move ≠ .moving then .next s
    else
      if s.lapPage page p then .next ({ s with pages := tblPut s.pages page { p with move := .none } } : State).requeue
      else if (s.die p.home).choked || (s.die p.newHome).choked || s.tripBlocked p.home p.newHome then .next s
      else
        let s := s.chargeMove page p
        .next ({ s with pages := tblPut s.pages page { p with
          move := .copied, home := p.newHome, newHome := p.home, movedAt := (s.die 0).time } } : State).requeue

/-- MIGRATION_BACKING_FREE (R192): the old backing is freed 1 ms after the translation moved. -/
def execMigrationBackingFree (page : Nat) (s : State) : Out :=
  match tblFind s.pages page with
  | none => .next s
  | some p =>
    if p.move ≠ .copied ∨ (s.die 0).time < p.movedAt + 1000000 then .next s
    else .next { s with pages := tblPut s.pages page { p with move := .none } }

/-- REFUSED_ACCESS_RESEND (R193): a refused access goes to the new home once its page's translation names it. -/
def execRefusedAccessResend (grp i : Nat) (s : State) : Out :=
  match (s.group grp).log[i]? with
  | none => .next s
  | some a =>
    if !a.refused || s.logAway grp || s.isRefused grp a then .next s
    else .next (s.updLog grp a.id (fun a => { a with refused := false }))

/-! ## Uncorrectable errors (R250, R251, R256) -/

/-- UNCORRECTABLE_ERROR: the granule is poisoned, the team of a group's state takes 0x17, a cell kills the lane that reads
it. A fault that self-test finds is told to F6 (R91); a corrected error is counted for it (R250). -/
def execUncorrectableError (site : ErrSite) (s : State) : Out :=
  match site with
  | .granule a => .next (s.poisonHome (a % 2 ^ 56) 1)
  | .localGranule c a => .next (s.updCore c (fun k => k.lpoison! (a % 2 ^ 21) 1))
  | .groupState h => .next (if (tblFind s.groups h).isSome then s.reportGroup h 0x17 0 false (s.group h).pc 0xFF else s)
  | .cell h l i =>
    .next (s.updGroup h (fun g => { g with errs := g.errs.filter (· != cellKey l i) ++ [cellKey l i] }))
  | .selfTest c q => .next (s.tellF6 (4 * c + q) (dieOfCore c))
  | .corrected d => .next (s.count (16 + d))

/-! ## Scrim pairs (R257 to R261) -/

/-- Both copies of a Scrim pair take a cause (R261), and the held records of both are discarded. -/
def State.failPair (s : State) (h w cause : Nat) : State :=
  let drop := fun (g : Group) => { g with held := [], extra := [], atPoint := none }
  ((((s.updGroup h drop).updGroup w drop).reportGroup h cause 0 false (s.group h).pc 0xFF).reportGroup w cause 0 false
    (s.group w).pc 0xFF)

/-- The twin of a primary's group. -/
def State.twinOf (s : State) (team grpid : Nat) : Option (Nat × Nat) :=
  match (s.team team).twin with
  | some w => if (s.team team).isTwin then none else some (128 * team + grpid, 128 * w + grpid)
  | none => none

/-- A group after a comparison that succeeded: its records have gone, the signature begins again, over the records that came
after the 512th (R258, R259). -/
def Group.passPoint (g : Group) : Group :=
  { g with
    held := g.extra, extra := [], sig := (g.extra.map (·.sign)).foldl crc64 (BitVec.allOnes 64)
    atPoint := none, pointOk := true, point := g.point + 1 }

/-- The accesses a group held. -/
def Group.heldAccesses (g : Group) : List Access := g.held.filterMap (·.acc)

/-- The request entries of a group's core hold its released accesses too (R187). -/
def State.entriesFor (s : State) (h n : Nat) : Bool := decide (s.entriesUsed (s.coreOf h) + n ≤ 4096)

/-- The two copies' dies cannot exchange messages of class MGMT now (R13, R259). -/
def State.exchangeBlocked (s : State) (a b : Nat) : Bool := s.pathBlocked clsMgmt a b || s.pathBlocked clsMgmt b a

/-- SCRIM_SIGNATURE_EXCHANGE (R258, R259, R261): at a release point both copies have reached, their signatures and its number
cross and are compared; the primary performs its held records in order and the twin discards its own, or both are killed. -/
def execScrimSignatureExchange (team grpid : Nat) (s : State) : Out :=
  match s.twinOf team grpid with
  | none => .next s
  | some (h, w) =>
    let p := s.group h
    let q := s.group w
    let mine := releasedOf false p.heldAccesses
    let others := releasedOf true q.heldAccesses
    if p.atPoint.isNone || q.atPoint.isNone || p.pointOk || q.pointOk || s.exchangeBlocked (s.dieOf h) (s.dieOf w) ||
        !s.entriesFor h mine.length || !s.entriesFor w others.length then .next s
    else
      let s := (s.crossMesh clsMgmt (s.dieOf h) (s.dieOf w) 16).crossMesh clsMgmt (s.dieOf w) (s.dieOf h) 16
      if p.sig ≠ q.sig ∨ p.point ≠ q.point then .next (s.failPair h w 0x13)
      else .next ((((s.updGroup h Group.passPoint).post h mine).updGroup w Group.passPoint).post w others)

/-- SCRIM_TWIN_LAG (R261): one copy has stood at a release point for 10 ms without the other. -/
def execScrimTwinLag (team grpid : Nat) (s : State) : Out :=
  match s.twinOf team grpid with
  | none => .next s
  | some (h, w) =>
    let late := fun (x y : Nat) =>
      match (s.group x).atPoint with
      | some t => (s.group y).atPoint.isNone && decide ((s.group y).point ≤ (s.group x).point) && decide (t + 10000000 ≤ s.timeOf x)
      | none => false
    if late h w || late w h then .next (s.failPair h w 0x19) else .next s

/-- A twin's entry of an operation that the primary alone performs retires when the primary's does (R257). DEDUCED:
assumption 27. -/
def Group.mirror (q p : Group) : Group :=
  { q with outs := q.outs.map (fun e => (e.1, (e.2.map (fun o =>
      if o.mirror && decide (o.n < tblGet 0 p.entered e.1) && !(tblGet [] p.outs e.1).any (fun x => x.n == o.n) then
        { o with done := true }
      else o)).dropWhile (·.done))) }

/-- SCRIM_VALUE_DELIVERY (R257, R260): what the primary has retired reaches the twin; values wait in the twin's inbox as the
primary obtained them. -/
def execScrimValueDelivery (team grpid : Nat) (s : State) : Out :=
  match s.twinOf team grpid with
  | none => .next s
  | some (h, w) => .next (s.updGroup w (fun q => q.mirror (s.group h)))

end Sys2Proof.Machine
end

