-- ==== Sys2Proof/Machine/Links.lean ====
section
/-!
DEFINITION. TIME (R16, R22 to R25), the die-to-die links (R11 to R16) and Ethernet frames (R19, R20); and the end of a grid
from outside (R15, R110, R114, R117, R118). -/
namespace Sys2Proof.Machine

/-! ## TIME (R22, R25) -/

/-- A die's TIME has come 1,024 ns past one at which it sent it. -/
def Die.timeDue (k : Die) (last : Nat) : Bool := decide (last + 1024 ≤ k.time)

/-- TIME_SYNC_BROADCAST (R13, R22): once every 1,024 ns die 0 sends its TIME in the MGMT class to every other die that its links
reach. -/
def execTimeSyncBroadcast (s : State) : Out :=
  let k := s.die 0
  let t := k.time
  let ds := ((List.range 7).map (· + 1)).filter (fun d => !s.routeDown 0 d)
  if !s.firm.up || !k.timeDue k.synced || ds.any (s.pathBlocked clsMgmt 0) then .next s
  else
    let s := (ds.foldl (fun (s : State) d => s.crossMesh clsMgmt 0 d 8) s).updDie 0 (fun k => { k with synced := t })
    .next { s with agenda := s.agenda ++ ds.map (fun d => Turn.event (.timeSyncReceive d t (Config.linkTransit d))) }

/-- TIME_SYNC_RECEIVE (R22): the forward rule, and slewing by what the die is ahead beyond the transit time. -/
def execTimeSyncReceive (die t transit : Nat) (s : State) : Out :=
  if die = 0 ∨ 8 ≤ die then .next s
  else
    .next (s.updDie die (fun k =>
      let now := if k.time ≤ t then t + 1 else k.time
      let ahead := now - t - transit
      { k with time := now % 2 ^ 64, slew := decide (0 < ahead), slewTo := ahead, skip := k.skip && decide (0 < ahead) }))

/-- TIME_REFERENCE_REPORT (R13, R25): once every 1,024 ns a die reports its TIME in the MGMT class, over die 0, and the
reference copy takes the forward rule from it. -/
def execTimeReferenceReport (die : Nat) (s : State) : Out :=
  let t := (s.die die).time
  if 8 ≤ die || !s.firm.up || !(s.die die).timeDue (s.die die).told || s.routeDown die 0 || s.pathBlocked clsMgmt die 0 then .next s
  else
    let s := (s.crossMesh clsMgmt die 0 8).updDie die (fun k => { k with told := t })
    .next (if s.firm.time ≤ t then { s with firm := { s.firm with time := (t + 1) % 2 ^ 64 } } else s)

/-! ## A grid's end from outside -/

/-- The teams of a grid, but for those that another has taken the place of. -/
def State.gridTeams (s : State) (grid : Nat) : List Nat :=
  tblKeys (s.teams.filter (fun e => e.2.grid == grid && e.2.heir.isNone))

/-- No share of a grid waits any more on any die; units not admitted never run. -/
def State.dropShares (s : State) (grid : Nat) : State :=
  let keep := fun (l : List Share) => l.filter (fun x => x.grid != grid)
  { s with dies := s.dies.map (fun e => (e.1, { e.2 with
      mailbox := e.2.mailbox.filter (fun m => match m with | .forward g _ => g != grid | .order _ _ _ _ => true), prompt := keep e.2.prompt, pending := keep e.2.pending
      hold := e.2.hold.filter (fun h => h.grid != grid), cleared := e.2.cleared.filter (fun h => h.grid != grid) })) }

/-- Kill a grid (R110): its waiting units never run and its teams are killed; it completes with a code of its own.
DEDUCED: assumption 32. -/
def State.killGrid (s : State) (grid code : Nat) : State :=
  let s := s.dropShares grid
  let s := s.updGrid grid (fun g => { g with
    forced := some code
    teams := ((s.gridTeams grid).filter (fun t => !(s.team t).isTwin)).length })
  (s.gridTeams grid).foldl State.killTeam s

/-- Every running grid completes at once with CODE DEVICE (R15, R114, R117, R118), and with cause 0x1A where no team of it was
killed before (R235); of its teams, killed together, the lowest TEAMID is recorded as the first (DESIGN CHOICE, assumption 53). -/
def State.deviceEnd (s : State) : State :=
  (tblKeys s.grids).foldl (fun s i =>
    let g := s.grid i
    let live := ((s.gridTeams i).filter (fun t => (s.team t).life != .ended)).map (fun t => (s.team t).teamid)
    let s := s.killGrid i 2
    let team := (g.firstBad.map (·.1)).getD (live.foldl min 0xFFFFFFFF)
    let s := s.completion g.home 2 ((g.firstBad.map (·.2.cause)).getD 0x1A) g.tag team g.logfull.toNat g.status g.csig g.cdelta
      g.queue g.index ((s.gridTeams i).map (fun t => (s.team t).core)).eraseDups
    { s with grids := tblDel s.grids i }) s

/-! ## Links (R13 to R15) -/

/-- A direction of a link: 2i of link i of R11, and 2i + 1 back. -/
def State.linkDir (s : State) (l : Nat) : LinkDir := tblGet {} s.links l

/-- The dies of a direction: the sender and the receiver (R11). -/
def linkEnds (l : Nat) : Nat × Nat :=
  let e := dieLinks[l / 2]?.getD (0, 0)
  if l % 2 = 0 then e else (e.2, e.1)

/-- The sender keeps the last 64 flits it sent (R15). -/
def LinkDir.sent (k : LinkDir) (f : Flit) : LinkDir :=
  let l := k.replay ++ [f]
  { k with replay := l.drop (l.length - 64), behind := if k.wants then k.behind + 1 else k.behind }

/-- `n` flits of a class leave its receive buffer. -/
def LinkDir.leave (k : LinkDir) (cls clock n : Nat) : LinkDir :=
  ({ k with bufs := tblPut k.bufs cls ((tblGet [] k.bufs cls).drop n) } : LinkDir).restall cls clock

/-- Flits go on from a die's receive buffers; how many leave in a nanosecond the spec does not state (a free value, DESIGN
CHOICE, assumption 5). -/
def State.drainLinks (s : State) (die : Nat) : State :=
  (List.range 20).foldl (fun s l =>
    let k := s.linkDir l
    if (linkEnds l).2 ≠ die ∨ k.bufs.all (fun e => e.2.isEmpty) then s
    else
      let (w, s) := s.free
      { s with links := tblPut s.links l ([clsReq, clsRsp, clsWork, clsMgmt].foldl (fun k c =>
          k.leave c s.clock (w.toNat / 32 ^ c % ((tblGet [] k.bufs c).length + 1))) k) }) s

/-- The sender of a link sends a flit now: nothing that it has still to send again goes before it (R15), and it does not see its
class stalled (R14). -/
def LinkDir.sends (k : LinkDir) (f : Flit) (clock : Nat) : Bool :=
  (k.resend.isEmpty || k.resend.head? == some f) && !k.sees f.cls clock && decide ((tblGet [] k.bufs f.cls).length < 16)

/-- FLIT_RECEIVE (R14 to R16, R22): a flit of whose bytes on the wire the CRC is bad is discarded and asked for again, and so is
what follows it until the replay; a good one is delivered in order, the first of a message with the forward rule. The sender
keeps what it sent; it sends no flit of a class that it sees stalled, and none before those of a replay. -/
def execFlitReceive (link : Nat) (a : Arrival) (s : State) : Out :=
  let f := a.flit
  let k := s.linkDir link
  if 20 ≤ link || k.down || decide (4 ≤ f.cls) || f.data.length != 256 || !k.sends f s.clock then .next s
  else
    let k := { k.sent f with resend := k.resend.tail }
    if k.wants then .next { s with links := tblPut s.links link k }
    else if crc32 a.wire ≠ f.crc then
      .next { s with links := tblPut s.links link { k with wants := true, behind := 1, fails := k.fails + 1 } }
    else
      let d := (linkEnds link).2
      let s := { s with links := tblPut s.links link ({ k with fails := 0 }.enter f.cls s.clock [f]) }
      .next (if f.first && decide ((s.die d).time ≤ f.time) then
        s.updDie d (fun x => { x with time := (f.time + 1) % 2 ^ 64 }) else s)

/-- The bytes of a flit as they come over a link: as sent, or with an error. -/
def onWire (f : Flit) (error : Word) : List Byte :=
  (f.data.take 8).zip (leBytes 8 error.toNat) |>.map (fun e => e.1 ^^^ e.2) |>.append (f.data.drop 8)

/-- The flits that a link has to send again come over it (R15). Whether an error comes upon a flit on its way is a free value
(DESIGN CHOICE, assumption 5). -/
def State.sendAgain (s : State) (link : Nat) : State :=
  let l := (s.linkDir link).resend
  { s with
    freeNo := s.freeNo + l.length
    agenda := (l.zip (List.range l.length)).map (fun e =>
      Turn.event (.flitReceive link ⟨e.1, onWire e.1 (Config.freeValue (s.freeNo + e.2))⟩)) ++ s.agenda }

/-- REPLAY_REQUEST (R15): the sender sends its replay buffer again, from the bad flit on. -/
def execReplayRequest (link seq : Nat) (s : State) : Out :=
  let k := s.linkDir link
  if k.down || !k.wants || seq + k.behind ≠ k.replay.length then .next s
  else
    .next (({ s with links := tblPut s.links link { k with
      wants := false, behind := 0, replay := k.replay.take seq, resend := k.replay.drop seq ++ k.resend } } : State).sendAgain link)

/-- LINK_DOWN (R15): after 8 failed replays of one flit the link is down in both directions: F6 is told, the device stops,
and every outstanding grid completes with CODE DEVICE. DEDUCED: assumption 33. -/
def execLinkDown (link : Nat) (s : State) : Out :=
  let k := s.linkDir link
  if 20 ≤ link || k.down || k.fails < 9 then .next s
  else
    let other := link / 2 * 2 + (1 - link % 2)
    let s := { s with
      links := tblPut (tblPut s.links link { k with down := true }) other { s.linkDir other with down := true }
      firm := { s.firm with stopped := true } }
    .next ((s.tellCause 0x1A link (linkEnds link).2).deviceEnd)

/-! ## The nanosecond -/

/-- The replays that a stall has held up on the links to a die go on (R14, R15). -/
def State.goOn (s : State) (die : Nat) : State :=
  (List.range 20).foldl (fun (s : State) l =>
    match (s.linkDir l).resend with
    | [] => s
    | f :: _ => if (linkEnds l).2 = die ∧ (s.linkDir l).sends f s.clock then s.sendAgain l else s) s

/-- The messages that are due as a die's TIME has counted: its report, and die 0's own TIME (R22, R25). -/
def State.timeTurns (s : State) (die : Nat) : State :=
  let k := s.die die
  { s with agenda := s.agenda ++
      (if s.firm.up && k.timeDue k.told then [Turn.event (.timeReferenceReport die)] else []) ++
      (if s.firm.up && die == 0 && k.timeDue k.synced then [Turn.event .timeSyncBroadcast] else []) }

/-- TIME_INCREMENT (R22, R25): a die's TIME counts a nanosecond, or every second one while it slews; number 8 is the
always-on reference copy. What links have brought goes on meanwhile. -/
def execTimeIncrement (die : Nat) (s : State) : Out :=
  if die = 8 then .next { s with firm := { s.firm with time := (s.firm.time + 1) % 2 ^ 64 } }
  else if 8 < die then .next s
  else
    .next ((s.updDie die (fun k =>
      if k.slew && !k.skip then { k with skip := true, slewTo := k.slewTo - 1, slew := decide (1 < k.slewTo) }
      else { k with skip := false, time := (k.time + 1) % 2 ^ 64 })).drainLinks die |>.goOn die |>.timeTurns die)

/-! ## Ethernet frames (R19, R20) -/

/-- ETHERNET_FRAME_RECEIVE (R20, R79): a frame received on a port reaches the die it is for, over the mesh in the REQ or WORK
class when that is another. DEDUCED: assumption 44. -/
def execEthernetFrameReceive (port die cls : Nat) (bytes : List Byte) (s : State) : Out :=
  if !s.firm.up || 8 ≤ port || 8 ≤ die || 9216 < bytes.length || !(cls == 0 || cls == 2) then .next s
  else
    let s := s.ethernet port bytes.length
    let here := fun (s : State) => s.updDie die (fun k => { k with frames := k.frames ++ [bytes] })
    if die = port then .next (here s)
    else if s.routeDown port die then .next s
    else if s.pathBlocked cls port die then .next { s with parked := s.parked ++ [.ethernetFrameReceive port die cls bytes] }
    else .next (here (s.crossMesh cls port die bytes.length))

end Sys2Proof.Machine
end

