-- ==== Sys2Proof/Machine/Packets.lean ====
section
/-!
DEFINITION. Packets (R109 to R114, R420): their checks, taking them, and starting those that are no LAUNCH. A packet is checked before it is
taken, so that a rejected one leaves RDIDX at it (R110). -/
namespace Sys2Proof.Machine

/-! ## Taking packets (R109, R121) -/

/-- The core that holds a die's dispatcher group (R120). -/
def dispatcherOf (die : Nat) : Nat := 40 * die + 39

/-- A queue. -/
def State.queue (s : State) (n : Nat) : Queue := tblGet {} s.queues n
/-- Change a queue. -/
def State.updQueue (s : State) (n : Nat) (f : Queue → Queue) : State := { s with queues := tblUpd s.queues n f }

/-- The address of the slot at RDIDX (R108). -/
def Queue.slotAt (q : Queue) : Nat := q.base + 128 * (q.rdidx % 2 ^ q.log2)

/-- TYPE of a packet (R111). -/
def Taken.type (x : Taken) : Nat := numAt x.bytes 0 1
/-- PRIO. -/
def Taken.prio (x : Taken) : Nat := fld (numAt x.bytes 0 8) 9 2
/-- TAG. -/
def Taken.tag (x : Taken) : Nat := numAt x.bytes 4 4

/-- A queue has work that its dispatcher may look at (R109, R112): it is ACTIVE with a slot kicked and not read as empty, no WAIT of
it is held, and no packet of it is being checked. -/
def State.hasWork (s : State) (die n : Nat) : Bool :=
  let q := s.queue n
  q.state == .active && decide (q.rdidx < q.kicked) && !q.empty && q.waiting.isNone &&
    (s.die die).taken.all (fun x => x.queue != n || (x.ok && x.type != 4))

/-- Rotate a list. -/
def rotate {α : Type} (l : List α) (n : Nat) : List α := l.drop (n % max 1 l.length) ++ l.take (n % max 1 l.length)

/-- The queues of a die in the order of a turn: those of PRIOMAX 3 first, each set from the pointer on (R121). -/
def State.visitOrder (s : State) (die : Nat) : List Nat :=
  let mine := s.queues.filter (fun e => e.2.die == die)
  let hi := (mine.filter (fun e => e.2.priomax == 3)).map (·.1)
  let lo := (mine.filter (fun e => e.2.priomax != 3)).map (·.1)
  rotate hi (s.die die).visit ++ rotate lo (s.die die).visit

/-- What stands on a die's pending list, packets taken and not yet started among it (R121). -/
def Die.pendingCount (k : Die) : Nat := k.pending.length + (k.taken.filter (fun x => !x.prompt)).length

/-- What stands on a die's prompt list (R121). -/
def Die.promptCount (k : Die) : Nat := k.prompt.length + (k.taken.filter (·.prompt)).length

/-- A packet whose share goes to the prompt list while that has room: a LAUNCH of PRIO 3 whose DIEMASK names only the home die
(R121). -/
def promptOnly (die : Nat) (b : List Byte) : Bool := numAt b 0 1 == 1 && fld (numAt b 0 8) 9 2 == 3 && numAt b 30 1 == 2 ^ die

/-- A die has room for a packet of a queue (R121). -/
def Die.roomFor (k : Die) (die : Nat) (q : Queue) (b : List Byte) : Bool :=
  if 1024 ≤ k.pendingCount then q.priomax == 3 && promptOnly die b && decide (k.promptCount < 8)
  else decide (k.pendingCount < 1000) || q.priomax == 3

/-- A queue goes to ERROR (R110). -/
def Queue.fail (q : Queue) (idx code : Nat) : Queue := { q with state := .error, erridx := idx, errcode := code }

/-- The device takes no new work (R15). -/
def State.halted (s : State) : Bool := !s.firm.up || s.firm.stopped

/-! ## Starting packets (R111, R112) -/

/-- The i-th packet of a die's list, if it may start (R111): it is taken, the earlier ones of its queue have started, and with
BARRIER, or for a SIGNAL, they have completed. A queue that has stopped since holds back none (R110). -/
def State.startable (s : State) (die i : Nat) : Option Taken :=
  match (s.die die).taken[i]? with
  | none => none
  | some x =>
    let first := ((s.die die).taken.take i).all (fun y => y.queue != x.queue)
    let barrier := fld (numAt x.bytes 0 8) 8 1 == 1 || x.type == 3
    if s.halted || !x.ok || !first || (barrier && (s.queue x.queue).pending.any (· < x.index)) then none else some x

/-- A packet leaves the list of those taken. -/
def State.untake (s : State) (die i : Nat) : State := s.updDie die (fun k => { k with taken := dropAt k.taken i })

/-- A packet that has passed its checks is taken: bytes 0 to 7 of its slot are zeroed, and RDIDX passes it (R109, R110, R123). -/
def State.takePacket (s : State) (die i : Nat) (x : Taken) : State :=
  let a := (s.queue x.queue).slotAt
  let s := s.updDie die (fun k => { k with taken := updAt k.taken i (fun _ => { x with ok := true, time := k.time }) })
  (if s.allMapped a 8 (fun p => p.kind == .hbm || p.kind == .scratch) then (s.homeWrite a (leBytes 8 0)).visitHome die a 8 4 true
    else s).updQueue x.queue (fun q => { q with rdidx := x.index + 1 })

/-- The packets of a queue that have not started are let go. -/
def State.dropTaken (s : State) (n : Nat) : State :=
  let mine := (tblVals s.dies).flatMap (fun k => (k.taken.filter (fun x => x.queue == n)).map (·.index))
  ({ s with dies := s.dies.map (fun (e : Nat × Die) => (e.1, { e.2 with taken := e.2.taken.filter (fun (x : Taken) => x.queue != n) })) } : State).updQueue n
    (fun q => { q with pending := q.pending.filter (fun i => !mine.contains i) })

/-- A range is mapped for an access of a packet (R112); a kick register is read 8 bytes at a time, and drops other stores (R179). -/
def State.packetMapped (s : State) (w : Want) (fetch : Bool) (a n : Nat) : Bool :=
  decide (a + n ≤ 0xF0 * 2 ^ 48) &&
    s.allMapped a n (fun p => p.permits w fetch && (p.kind != .kick || w == .write || kickLoadOk a n))

/-- A STATUS field: none, or 32 bytes that may be written (R112, R114). -/
def State.statusOk (s : State) (a : Nat) : Bool := a == 0 || (a % 32 == 0 && s.packetMapped .write false a 32)
/-- A CSIG field: none, or a word on which atomics may be performed (R112, R113). -/
def State.csigOk (s : State) (a : Nat) : Bool := a == 0 || (a % 8 == 0 && s.packetMapped .atomic true a 8)

/-- The checks of the common header (R111, R112). -/
def State.headerOk (s : State) (x : Taken) : Bool :=
  fld (numAt x.bytes 0 8) 11 21 == 0 && decide (x.prio ≤ (s.queue x.queue).priomax)

/-- Reject a packet (R112): the record has code REJECTED where STATUS is usable, and its queue goes to ERROR. DEDUCED:
assumption 28. -/
def State.reject (s : State) (die i : Nat) (x : Taken) : State :=
  let a := if x.type = 1 ∨ x.type = 2 ∨ x.type = 4 ∨ x.type = 5 then numAt x.bytes 56 8 else 0
  let s := { (s.untake die i) with fetches := match x.fetch with | some key => tblDel s.fetches key | none => s.fetches }
  (s.updQueue x.queue (fun q => q.fail x.index 3)).completion die 3 0 x.tag 0xFFFFFFFF 0 (if s.statusOk a then a else 0) 0 0 x.queue
    x.index

/-- Start a packet of a type that has been taken. -/
def startPacket (s : State) (type die i : Nat) (f : State → Taken → State) : Out :=
  match s.startable die i with
  | none => .next s
  | some x => .next (if x.type = type then f s x else s)

/-- A packet's bookkeeping for its record and signal (R113). -/
def Taken.packet (x : Taken) : Packet :=
  { queue := x.queue, index := x.index, tag := x.tag, csig := numAt x.bytes 40 8, cdelta := BitVec.ofNat 64 (numAt x.bytes 48 8)
    status := numAt x.bytes 56 8 }

/-- The checks of a COPY packet (R112). -/
def copyPacketOk (s : State) (x : Taken) : Bool :=
  let b := x.bytes
  let src := numAt b 8 8
  let dst := numAt b 16 8
  let n := numAt b 24 8
  zeroAt b 32 8 && zeroAt b 64 64 && decide (1 ≤ n) && decide (n ≤ 2 ^ 40) && !(decide (src < dst + n) && decide (dst < src + n)) &&
    s.packetMapped .read false src n && s.packetMapped .write false dst n && s.csigOk (numAt b 40 8) && s.statusOk (numAt b 56 8)

/-- A die's dispatcher group asks for the tokens of an instruction at the scalar port of its core's Q3, ahead of other groups
(R120, R146). -/
def State.askDispatcher (s : State) (die price : Nat) : State :=
  let s := s.updDie die (fun k => { k with disp := { k.disp with sready := some (k.disp.sready.getD s.clock) } })
  s.updCore (dispatcherOf die) (fun k =>
    if k.reqs.any (fun r => r.port == 3 && (isDispatcher r.grp || r.since != s.clock)) then k
    else { k with reqs := k.reqs.filter (·.port != 3) ++ [{ port := 3, amount := price, grp := die, since := s.clock }] })

/-- COPY_PACKET (R112, R420): the copy enters the engine of core 39 of DST's home die, whose bucket pays its issue price; it
waits while that queue is full. -/
def execCopyPacket (die i : Nat) (s : State) : Out :=
  startPacket s 2 die i (fun s x =>
    let dst := numAt x.bytes 16 8
    let d := s.homeDie dst
    let c := dispatcherOf d
    let price := s.price (priceIndex 0x08 0 0)
    if 32 ≤ (s.core c).copies.length || s.pathBlocked clsWork die d || s.routeDown die d then s
    else if price != 0 && !(s.die d).disp.sgrant then s.askDispatcher d price
    else
      let key := s.nextId
      let s := s.crossMesh clsWork die d 128
      let s := { (s.untake die i) with
        nextId := key + 1, packets := tblPut s.packets key { x.packet with die := die } }
      (s.updDie d (fun k => { k with disp := { k.disp with sgrant := false, sready := none } })).updCore c (fun k => { k with
        copies := k.copies ++ [{ id := key, dst := dst, src := numAt x.bytes 8 8, len := numAt x.bytes 24 8, pkt := some key }] }))

/-- The checks of a SIGNAL packet (R112); a store to a kick register is a kick. -/
def signalPacketOk (s : State) (x : Taken) : Bool :=
  let b := x.bytes
  let a := numAt b 8 8
  let op := numAt b 16 1
  a % 8 == 0 && decide (op ≤ 1) && zeroAt b 17 7 && zeroAt b 32 96 &&
    (if op = 0 then s.packetMapped .write false a 8 else s.packetMapped .atomic true a 8)

/-- SIGNAL_PACKET (R105, R112): a store or an add as a system-scope release; in host memory it has completed once it is
acknowledged. -/
def execSignalPacket (die i : Nat) (s : State) : Out :=
  startPacket s 3 die i (fun s x =>
    let a := numAt x.bytes 8 8
    let v := numAt x.bytes 24 8
    let c := dispatcherOf die
    let far := match s.farEnd 0 a with | some (some _) => true | _ => false
    if s.postStuck die a then s.wantPageOf a
    else if !s.canRelease c 5 || !s.windowAcked die a then s
    else
      let s := (s.untake die i).releaseAt c 5
      let use := RemoteUse.signal x.queue x.index
      let s :=
        if numAt x.bytes 16 1 = 1 then s.signalAdd die use a (BitVec.ofNat 64 v)
        else s.postBytes die use a (leBytes 8 v)
      if far then s else s.packetDone x.queue x.index)

/-- The checks of a WAIT packet (R112); the word is read with acquire, so that it must be aligned (R183). DEDUCED:
assumption 29. -/
def waitPacketOk (s : State) (x : Taken) : Bool :=
  let b := x.bytes
  numAt b 8 8 % 8 == 0 && decide (numAt b 16 1 ≤ 3) && zeroAt b 17 7 && zeroAt b 36 20 && zeroAt b 64 64 &&
    s.packetMapped .read false (numAt b 8 8) 8 && s.statusOk (numAt b 56 8)

/-- WAIT_PACKET (R112): it holds its queue; TIMEOUT counts from its taking. -/
def execWaitPacket (die i : Nat) (s : State) : Out :=
  startPacket s 4 die i (fun s x =>
    let b := x.bytes
    (s.untake die i).updQueue x.queue (fun q => { q with waiting := some {
      index := x.index, sig := numAt b 8 8, cond := numAt b 16 1, value := BitVec.ofNat 64 (numAt b 24 8)
      timeout := numAt b 32 4, taken := x.time, status := numAt b 56 8, tag := x.tag } }))

/-- WAIT_PACKET_POLL (R112): the signal word is read with system-scope acquire, in host memory by an RDMA READ (R105); a word
no longer mapped for it rejects the packet. -/
def execWaitPacketPoll (queue : Nat) (s : State) : Out :=
  match (tblFind s.queues queue) with
  | none => .next s
  | some q =>
    match q.waiting with
    | none => .next s
    | some w =>
      if !s.packetMapped .read false w.sig 8 then
        .next ((s.endWait queue 3).updQueue queue (fun q => q.fail w.index 3))
      else if s.postStuck q.die w.sig then .next (s.wantPageOf w.sig)
      else
        let s := s.acquireAt (dispatcherOf q.die) 5
        match s.farEnd 0 w.sig with
        | some (some e) =>
          .next (if s.remote.any (fun r => r.use == .wait queue) then s
            else s.sendFar q.die { use := .wait queue, len := 8, read := true, via := e.via } (e.msg { kind := .rdmaRead, code := 8 }))
        | some none => .next s
        | none =>
          let x := s.localize 0 w.sig % 2 ^ 56
          if s.pageKind x = some .desc ∨ s.pageKind x = some .kick then
            .next ((s.roundTrip q.die (s.homeDie x) 0 8).answerWait queue (leNat ((List.range 8).map (fun i => s.deviceByte (x + i)))))
          else .next ((s.visitHome q.die x 8).answerWait queue (leNat (s.homeRead x 8)))

/-- WAIT_PACKET_TIMEOUT (R112): code TIMEOUT goes to STATUS and the queue to ERROR at the WAIT's own index; QRESUME abandons
the WAIT. -/
def execWaitPacketTimeout (queue : Nat) (s : State) : Out :=
  match (tblFind s.queues queue).bind (fun q => q.waiting.map (fun w => (q, w))) with
  | none => .next s
  | some (q, w) =>
    if w.timeout = 0 ∨ (s.die q.die).time < w.taken + 1000 * w.timeout then .next s
    else .next ((s.endWait queue 4).updQueue queue (fun q => q.fail w.index 4))

/-- The checks of a GATE packet (R112). -/
def gatePacketOk (s : State) (x : Taken) : Bool :=
  let b := x.bytes
  decide (numAt b 10 1 ≤ 1) && zeroAt b 11 29 && zeroAt b 64 64 && s.csigOk (numAt b 40 8) && s.statusOk (numAt b 56 8)

/-- GATE_PACKET (R112, R44, R45): the dispatcher's message reaches F4 (R117), which takes it at once, changes the gate and says
so (DESIGN CHOICE, assumption 44), and the packet completes. -/
def execGatePacket (die i : Nat) (s : State) : Out :=
  startPacket s 5 die i (fun s x =>
    let p := x.packet
    let c := dispatcherOf die
    let isOpen := numAt x.bytes 10 1 == 1
    if (isOpen && !s.canRelease c 5) || !s.mailOpen die 4 || s.pathBlocked clsMgmt 0 die then s
    else
      let s := ((s.untake die i).crossMesh clsMgmt die 0 64).crossMesh clsMgmt 0 die 64
      let s := if isOpen then s.releaseAt c 5 else s
      (s.setGate (numAt x.bytes 8 2) isOpen).completion die 0 0 p.tag 0xFFFFFFFF 0 p.status p.csig p.cdelta p.queue p.index)

/-- The checks of a NOP packet (R112). -/
def nopPacketOk (x : Taken) : Bool := zeroAt x.bytes 8 120

/-- NOP_PACKET (R112): a NOP completes when it starts. -/
def execNopPacket (die i : Nat) (s : State) : Out :=
  startPacket s 7 die i (fun s x => (s.untake die i).packetDone x.queue x.index)

end Sys2Proof.Machine
end

