-- ==== Sys2Proof/Machine/Launch.lean ====
section
/-!
DEFINITION. LAUNCH (R112, R119, R122, R126, R129, R294), what a team needs and where it fits (R124 to R134), admission
(R128), and the completion of a grid (R113, R114). -/
namespace Sys2Proof.Machine

/-! ## What a team needs (R124 to R127) -/

/-- The kernel descriptor's fields as a team takes them (R293). -/
def Grid.proto (g : Grid) : Team :=
  let b := g.desc
  let scode := numAt b 8 8
  { ngroups := g.groups, prio := g.prio, arrive := g.arrive, cw := g.cw, ch := g.ch, scode := scode, lcode := numAt b 16 8
    trapent := if (numAt b 7 1).testBit 1 then some (scode + numAt b 32 4) else none
    roles := (numAt b 7 1).testBit 0, entryP := scode + numAt b 24 4, entryC := scode + numAt b 28 4
    np := numAt b 42 1, winP := numAt b 36 2, winC := numAt b 38 2, accP := numAt b 40 1, accC := numAt b 41 1
    ceil := numAt b 46 1, spad := numAt b 44 1, tobn := numAt b 45 1 }

/-- The group is a consumer (R126). -/
def Team.consumer (t : Team) (g : Nat) : Bool := t.roles && decide (t.np ≤ g)
/-- A group's window (R125, R126). -/
def Team.window (t : Team) (g : Nat) : Nat := if t.consumer g then t.winC else t.winP
/-- A group's accumulator reservation (R126). -/
def Team.reserve (t : Team) (g : Nat) : Nat := if t.consumer g then t.accC else t.accP
/-- A group's entry point (R126). -/
def Team.entry (t : Team) (g : Nat) : Nat := if t.consumer g then t.entryC else t.entryP
/-- The units of a window (R125). -/
def unitsOf (w : Nat) : Nat := (w + 3) / 4
/-- A sum of a list. -/
def total (l : List Nat) : Nat := l.foldl (· + ·) 0
/-- The groups of a team in a quadrant (R124). -/
def Team.inQuad (t : Team) (q : Nat) : List Nat := (List.range t.ngroups).filter (fun g => g % 4 == q)

/-- Group slots, register-file units and accumulator tiles. -/
structure Need where
  slots : Nat
  units : Nat
  tiles : Nat
deriving DecidableEq, Repr

/-- What a team needs in a quadrant (R127). -/
def Team.need (t : Team) (q : Nat) : Need :=
  let l := t.inQuad q
  { slots := l.length, units := total (l.map (fun g => unitsOf (t.window g))), tiles := total (l.map t.reserve) }

/-- What a quadrant of a core offers teams (R120, R127): the dispatcher group holds its share of core 39. -/
def offer (core q : Nat) : Need :=
  if core % 40 = 39 ∧ q = 3 then { slots := 31, units := 320, tiles := 16 } else { slots := 32, units := 384, tiles := 16 }

/-- Banks a core offers teams (R127). -/
def offerBanks (core : Nat) : Nat := if core % 40 = 39 then 28 else 30

/-- The teams resident on a core, but for some that are thought away. -/
def State.residents (s : State) (core : Nat) (less : List Nat) : List Nat :=
  tblKeys (s.teams.filter (fun e => e.2.core == core && !less.contains e.1 &&
    (e.2.life == .running || e.2.life == .saving || e.2.life == .written || e.2.life == .flushing || e.2.life == .killing)))

/-- What the resident teams of a core hold in a quadrant. -/
def State.held (s : State) (core q : Nat) (less : List Nat) : Need :=
  let l := (s.residents core less).map (fun t => (s.team t).need q)
  { slots := total (l.map (·.slots)), units := total (l.map (·.units)), tiles := total (l.map (·.tiles)) }

/-- A team fits beside what some resident teams hold (R127). -/
def fitsWith (t : Team) (core : Nat) (held : Nat → Need) (banks : Nat) : Bool :=
  (List.range 4).all (fun q =>
    let n := t.need q
    let h := held q
    let o := offer core q
    decide (h.slots + n.slots ≤ o.slots) && decide (h.units + n.units ≤ o.units) && decide (h.tiles + n.tiles ≤ o.tiles)) &&
    decide (banks + t.spad + t.tobn ≤ offerBanks core)

/-- A team fits on an empty core (R129). -/
def fitsEmpty (t : Team) (core : Nat) : Bool := fitsWith t core (fun _ => { slots := 0, units := 0, tiles := 0 }) 0

/-- A team fits on a core now, with some teams thought away (R127). -/
def State.fits (s : State) (t : Team) (core : Nat) (less : List Nat) : Bool :=
  fitsWith t core (fun q => s.held core q less) (total ((s.residents core less).map (fun x => (s.team x).spad + (s.team x).tobn)))

/-- The free register-file units of a core (R132). -/
def State.freeUnits (s : State) (core : Nat) : Nat :=
  total ((List.range 4).map (fun q => (offer core q).units - (s.held core q []).units))

/-! ## Places (R131 to R134) -/

/-- The rectangles of a die, by origin in row-major order, each as its cores by CLUPOS (R131); single cores for teams
without clusters. -/
def places (die cw ch : Nat) : List (List Nat) :=
  if cw = 0 ∨ ch = 0 then (List.range 40).map (fun i => [40 * die + i])
  else
    (List.range (6 - ch)).flatMap (fun r => (List.range (9 - cw)).map (fun c =>
      (List.range (cw * ch)).map (fun p => 40 * die + (r + p / cw) * 8 + c + p % cw)))

/-- What is to be placed: the grid, the team prototype, the unit's number within its share, teams thought away, and cores it may
not have. -/
structure Ask where
  grid   : Grid
  team   : Team
  k      : Nat
  less   : List Nat := []
  avoid  : List Nat := []
deriving DecidableEq, Repr

/-- The unit fits at a place (R127, R131). -/
def State.placeFits (s : State) (a : Ask) (p : List Nat) : Bool := p.all (fun c => s.fits a.team c a.less && !a.avoid.contains c)

/-- The places a rule allows, in its order of choice, among those disjoint from some cores (R132, R133): under DET the
designated one. -/
def State.choices (s : State) (a : Ask) (die : Nat) (apart : List Nat) : List (List Nat) :=
  let all := (places die a.grid.cw a.grid.ch).filter (fun p => p.all (fun c => !apart.contains c))
  if a.grid.flags.testBit 3 then
    let l := if a.grid.cw = 0 then all.filter (fun p => p.all (fitsEmpty a.team)) else all
    (l[a.k % max 1 l.length]?).toList
  else if a.grid.cw = 0 then sortBy (fun p => total (p.map s.freeUnits)) all
  else all

/-- Where a unit is placed: its cores, and those of its twin if it has one (R132 to R134). -/
def State.placeFor (s : State) (a : Ask) (die : Nat) : Option (List Nat × List Nat) :=
  ((s.choices a die []).filter (s.placeFits a)).findSome? (fun p =>
    if a.grid.flags.testBit 2 then
      ((s.choices a die p).find? (s.placeFits a)).map (fun w => (p, w))
    else some (p, []))

/-! ## LAUNCH (R112, R122) -/

/-- The kernel descriptor is one R294 accepts. -/
def descOk (b : List Byte) : Bool :=
  let flags := numAt b 7 1
  let roles := flags.testBit 0
  numAt b 0 4 == 0x4B445A4E && numAt b 4 2 == 1 && decide (1 ≤ numAt b 6 1) && decide (numAt b 6 1 ≤ 128) && decide (flags < 4) &&
    numAt b 8 8 % 4096 == 0 && decide (numAt b 8 8 < 2 ^ 56) && numAt b 16 8 % 4096 == 0 && decide (numAt b 16 8 < 2 ^ 56) &&
    numAt b 24 4 % 4 == 0 && numAt b 28 4 % 4 == 0 && numAt b 32 4 % 4 == 0 &&
    (roles || (numAt b 28 4 == 0 && numAt b 38 2 == 0 && numAt b 41 1 == 0 && numAt b 42 2 == 0)) &&
    (flags.testBit 1 || numAt b 32 4 == 0) &&
    decide (1 ≤ numAt b 36 2) && decide (numAt b 36 2 ≤ 256) && decide (numAt b 40 1 ≤ 16) && decide (numAt b 41 1 ≤ 16) &&
    (!roles || (decide (1 ≤ numAt b 38 2) && decide (numAt b 38 2 ≤ 256) && decide (1 ≤ numAt b 42 1) &&
      decide (1 ≤ numAt b 43 1) && numAt b 42 1 + numAt b 43 1 == numAt b 6 1)) &&
    decide (numAt b 44 1 + numAt b 45 1 ≤ 30) && decide (1 ≤ numAt b 46 1) && decide (numAt b 46 1 ≤ 103) && numAt b 47 1 == 0 &&
    decide (numAt b 48 8 < 2 ^ 56) && zeroAt b 56 8

/-- The grid a LAUNCH packet asks for. -/
def State.launchGrid (s : State) (die : Nat) (x : Taken) : Grid :=
  let b := x.bytes
  let desc := x.desc
  { gridid := BitVec.ofNat 32 (die * 2 ^ 29 + (s.die die).launches % 2 ^ 29), queue := x.queue, index := x.index, home := die
    tag := x.tag, prio := x.prio, flags := numAt b 32 4, teams := numAt b 24 4, csig := numAt b 40 8
    cdelta := BitVec.ofNat 64 (numAt b 48 8), status := numAt b 56 8, args := BitVec.ofNat 64 (numAt b 16 8), desc := desc
    groups := if numAt b 28 1 = 0 then numAt desc 6 1 else numAt b 28 1, cw := fld (numAt b 29 1) 0 4, ch := fld (numAt b 29 1) 4 4
    diemask := numAt b 30 1, seed := BitVec.ofNat 64 (numAt b 80 8), logaddr := numAt b 64 8, loglen := numAt b 72 8
    arrive := x.time, fetch := x.fetch }

/-- Teams of a unit (R122). -/
def Grid.perUnit (g : Grid) : Nat := if g.cw = 0 then 1 else g.cw * g.ch
/-- Units of a grid (R122). -/
def Grid.units (g : Grid) : Nat := g.teams / g.perUnit
/-- The dies of a grid, rising. -/
def Grid.dies (g : Grid) : List Nat := (List.range 8).filter (fun d => g.diemask.testBit d)

/-- The share of the j-th die of a grid: its first unit and how many (R122): unit u goes to die ⌊u × n ÷ U⌋. -/
def Grid.share (g : Grid) (j : Nat) : Nat × Nat :=
  let n := g.dies.length
  let first := fun (i : Nat) => (i * g.units + n - 1) / max 1 n
  (first j, first (j + 1) - first j)

/-- The fields of the packet are in range (R112, R119, R122, R126). -/
def Grid.fieldsOk (g : Grid) (b : List Byte) : Bool :=
  let shape := numAt b 29 1
  let rec' := g.flags.testBit 4
  let rep := g.flags.testBit 5
  numAt b 8 8 % 64 == 0 && decide (numAt b 16 8 < 2 ^ 56) && decide (1 ≤ g.teams) && decide (numAt b 28 1 ≤ 128) &&
    (shape == 0 || (decide (1 ≤ g.cw) && decide (g.cw ≤ 8) && decide (1 ≤ g.ch) && decide (g.ch ≤ 5) && decide (g.cw * g.ch ≤ 12))) &&
    g.diemask != 0 && numAt b 31 1 == 0 && decide (g.flags < 64) && zeroAt b 36 4 && g.logaddr % 4096 == 0 &&
    decide (g.logaddr < 2 ^ 56) && g.loglen % (16 * g.teams) == 0 && zeroAt b 88 40 && !(rec' && rep) &&
    (!(rec' || rep) || g.flags.testBit 3) && g.teams % g.perUnit == 0

/-- The checks of a LAUNCH packet and its descriptor, with the fit check of every die (R112, R129, R294). -/
def launchOk (die : Nat) (s : State) (x : Taken) : Bool :=
  let g := s.launchGrid die x
  let rec' := g.flags.testBit 4
  let rep := g.flags.testBit 5
  g.fieldsOk x.bytes && s.packetMapped .read false (numAt x.bytes 8 8) 64 && descOk g.desc &&
    (!g.proto.roles || numAt x.bytes 28 1 == 0 || numAt x.bytes 28 1 == numAt g.desc 42 1 + numAt g.desc 43 1) &&
    s.csigOk g.csig && s.statusOk g.status && (!rec' || s.packetMapped .write false g.logaddr g.loglen) &&
    (!rep || s.packetMapped .read false g.logaddr g.loglen) &&
    g.dies.all (fun d => (List.range 40).any (fun i => fitsEmpty g.proto (40 * d + i)))

/-- The shares of a grid by die. -/
def Grid.shares (g : Grid) : List (Nat × Nat × Nat) :=
  (g.dies.zip (List.range g.dies.length)).filterMap (fun e =>
    let (first, n) := g.share e.2
    if n = 0 then none else some (e.1, first, n))

/-- The FORWARD packet that carries one die's share of a grid (R123); `x` is the LAUNCH. -/
def Grid.forward (g : Grid) (x : Taken) (first n : Nat) : List Byte :=
  leBytes 4 (6 + g.prio * 2 ^ 9) ++ leBytes 4 g.tag ++ bytesAt x.bytes 8 16 ++ leBytes 4 first ++ leBytes 4 n ++ leBytes 1 g.groups ++
    bytesAt x.bytes 29 1 ++ leBytes 1 g.home ++ leBytes 1 0 ++ leBytes 4 g.flags ++ leBytes 4 g.gridid.toNat ++ leBytes 4 g.teams ++
    leBytes 8 g.arrive ++ leBytes 8 g.logaddr ++ leBytes 8 g.loglen ++ leBytes 8 g.seed.toNat ++ leBytes 48 0

/-- The share that a FORWARD packet carries (R123). -/
def shareOf (grid : Nat) (b : List Byte) : Share :=
  { grid := grid, first := numAt b 24 4, n := numAt b 28 4, prio := fld (numAt b 0 8) 9 2, arrive := numAt b 48 8
    taken := numAt b 48 8 }

/-- LAUNCH (R122): the grid gets its GRIDID, the other dies their FORWARD packets, F2 its notice and the home die its own share; it
waits while a mailbox is full (R117) or the WORK class is held up (R13). -/
def execLaunch (die i : Nat) (s : State) : Out :=
  startPacket s 1 die i (fun s x =>
    let g := s.launchGrid die x
    let others := g.shares.filter (fun e => e.1 != die)
    if others.any (fun e => decide (256 ≤ (s.die e.1).mailbox.length) || s.routeDown die e.1 || s.pathBlocked clsWork die e.1) then s
    else
      let key := s.nextId
      let s := { (s.untake die i) with nextId := key + 1, grids := tblPut s.grids key g }
      let s := s.updDie die (fun k => { k with launches := k.launches + 1 })
      let s := others.foldl (fun (s : State) e => (s.crossMesh clsWork die e.1 128).updDie e.1 (fun k => { k with
        mailbox := k.mailbox ++ [.forward key (g.forward x e.2.1 e.2.2)] })) s
      let s := s.sendMail die 2 (.launched key)
      match g.shares.find? (fun e => e.1 == die) with
      | none => s
      | some e =>
        let share := shareOf key (g.forward x e.2.1 e.2.2)
        s.updDie die (fun k =>
          if x.prompt then { k with prompt := k.prompt ++ [share] } else { k with pending := k.pending ++ [share] }))

/-! ## Granting and releasing (R128, R218, R225, R320) -/

/-- The stochastic state of a thread at launch (R218). -/
def seedState (seed thread : Word) : Word :=
  let z := seed ^^^ (thread * 0x9E3779B97F4A7C15)
  if z = 0 then 1 else z

/-- The first `n` numbers below a bound that a list does not hold. -/
def firstFree (bound n : Nat) (used : List Nat) : List Nat := ((List.range bound).filter (fun i => !used.contains i)).take n

/-- What groups of a core's quadrant hold of a kind. -/
def State.quadUse (s : State) (core q : Nat) (f : Group → List Nat) : List Nat :=
  (s.residents core []).flatMap (fun t => (s.teamGroups t).flatMap (fun h =>
    if (s.group h).grpid % 4 = q then f (s.group h) else []))

/-- A group as its team is released (R128, R149, R225, R277, R320). DESIGN CHOICE: assumption 1. -/
def freshGroup (g : Grid) (t : Team) (team i : Nat) (again : Bool) : Group :=
  let thread := fun (l : Nat) => BitVec.ofNat 64 (t.teamid * 8192 + i * 64 + l)
  let lanes := List.range 64
  { team := team, grpid := i, window := t.window i, reserve := t.reserve i, ceil := t.ceil, pc := t.entry i
    active := allLanes, ldead := 0
    prec := lanes.map (fun l => (l, BitVec.ofNat 32 (t.ceil + t.ceil * 2 ^ 7)))
    z := lanes.map (fun l => (l, seedState g.seed (thread l)))
    thread := (lanes.map (fun l => (l, thread l))).filter (fun e => e.2 != 0)
    sr := { args := g.args, fmt := 0xA596
            cluid := match t.cluster with | some u => BitVec.ofNat 64 u | none => 0xFFFFFFFF
            clupos := BitVec.ofNat 64 t.clupos
            prog := if again then 0 else 0xFFFFFFFF } }

/-- Give a group its slot, units and tiles (R127, R130); core 39 keeps slot 31 of Q3 and the units above 320 for its
dispatcher group. -/
def State.seat (s : State) (core h : Nat) (g : Group) : State :=
  let q := g.grpid % 4
  let slot := (firstFree (offer core q).slots 1 (s.quadUse core q (fun x => [x.slot]))).head?.getD 0
  let units := firstFree (offer core q).units (unitsOf g.window) (s.quadUse core q (·.units))
  let tiles := firstFree 16 g.reserve (s.quadUse core q (·.tileset))
  s.setGroup h { g with slot := slot, units := units, tileset := tiles }

/-- The banks a new team is given: the highest-numbered in cache role (R128). -/
def Core.grantBanks (k : Core) (core n : Nat) : List Nat :=
  (((List.range (if core % 40 = 39 then 30 else 32)).reverse).filter (fun i => (k.bank i).role == .cache)).take n

/-- Banks leave cache role: their dirty lines are written back and their lines dropped; one whose home takes no write now is on its
way there (R128, R163; DEDUCED, assumption 7). -/
def State.emptyBanks (s : State) (core : Nat) (l : List Nat) : State :=
  (s.writeBack core (fun x => l.contains x.bank && !s.homeStuck (128 * x.line))).updCore core (fun k => { k with
    cache := k.cache.filterMap (fun x =>
      if !x.held || !l.contains x.bank then some x else if x.owed then some { x with held := false } else none) })

/-- Give a team banks: the first `spad` of a list become scratchpad, zeroed, the others TOB, FREE (R128). -/
def State.giveBanks (s : State) (core team spad : Nat) (l : List Nat) : State :=
  (s.emptyBanks core l).updCore core (fun k =>
    let k := (l.take spad).foldl (fun (k : Core) i =>
      { k.updBank i (fun _ => { role := .scratch, team := team }) with
        store := k.store.filter (fun e => e.1 / 65536 != i)
        lpoison := k.lpoison.filter (fun e => e.1 / 1024 != i) }) k
    (l.drop spad).foldl (fun (k : Core) i => k.updBank i (fun _ => { role := .tob, team := team })) k)

/-- Admit a new team on a core: everything it needs is granted at once, and its groups are released at their entry points
(R128). -/
def State.place (s : State) (g : Grid) (t : Team) (key core : Nat) (again : Bool) : State :=
  let t := { t with core := core, die := dieOfCore core, order := s.nextId }
  let s := { s with nextId := s.nextId + 1, teams := tblPut s.teams key t }
  let s := s.giveBanks core key t.spad ((s.core core).grantBanks core (t.spad + t.tobn))
  let s := (List.range t.ngroups).foldl (fun s i => s.seat core (128 * key + i) (freshGroup g t key i again)) s
  s.updCore core (fun k =>
    let mine := (s.teamGroups key).flatMap (fun h => (s.group h).tileset.map (fun n => (s.group h).quad * 16 + n))
    { k with tiles := k.tiles.filter (fun e => !mine.contains e.1) })

/-! ## Completion of a grid (R113, R114, R348) -/

/-- All of a grid's teams have ended (R113). -/
def Grid.over (g : Grid) : Bool := decide (g.teams ≤ g.ended)

/-- Every entry of a group has retired, or stands for what its killed team abandoned (R189, R326), and its log is empty. -/
def Group.retired (g : Group) : Bool :=
  g.log.isEmpty && g.outs.all (fun e => e.2.all (fun o => o.done || o.gone || o.mirror))

/-- The commands of a grid that have not fired are disarmed: all its teams have ended (R348). -/
def State.disarm (s : State) (grid : Nat) : State :=
  let mine := fun (a : Arm) => (s.team (teamOf a.grp)).grid == grid
  let all := (tblVals s.arms).flatMap (fun l => l) ++ s.arming
  let s := (all.filter mine).foldl (fun (s : State) a => s.updGroup a.grp (fun g => g.complete a.cls a.id)) s
  let keep := fun (l : List Arm) => l.filter (fun a => !mine a)
  { s with
    arms := (s.arms.map (fun e => (e.1, keep e.2))).filter (fun e => !e.2.isEmpty)
    arming := keep s.arming }

/-- The teams of a grid, each with what has taken its place. -/
def State.teamsOf (s : State) (grid : Nat) : List Nat := tblKeys (s.teams.filter (fun e => e.2.grid == grid))

/-- Everything a grid's groups issued has retired, its teams have left their places, and its log has been written (R113, R119). -/
def State.gridDone (s : State) (grid : Nat) : Bool :=
  let ts := s.teamsOf grid
  ts.all (fun t => (s.team t).heir.isSome || (s.team t).life == .ended) && (ts.flatMap s.teamGroups).all (fun h => (s.group h).retired) &&
    s.remote.all (fun r => r.use != .log grid)

/-- CODE of a grid's record (R114): what was given from outside, else that of the first cause. -/
def Grid.code (g : Grid) : Nat := g.forced.getD (if g.firstBad.isSome then causeCode ((g.firstBad.map (·.2.cause)).getD 0) else 0)

/-- F2's order to the home die's dispatcher to write a grid's record (R113, R117, R122). CAUSE and TEAMID are of the first team
killed with a cause; of a grid whose teams were killed without one they are 0 and 0xFFFFFFFF (DESIGN CHOICE, assumption 53). -/
def Grid.order (g : Grid) (grid : Nat) : DispMsg :=
  .order grid g.code ((g.firstBad.map (·.2.cause)).getD 0) ((g.firstBad.map (·.1)).getD 0xFFFFFFFF)

/-- GRID_COMPLETION (R113, R114, R122): F2 hears of the ends of teams; with every team ended and every operation retired, it orders
the home die's dispatcher to write the record and add CDELTA to CSIG, as soon as that mailbox has room and the WORK class of the way
there takes the order (R13, R117). -/
def execGridCompletion (grid : Nat) (s : State) : Out :=
  let s := s.f2Turn
  match tblFind s.grids grid with
  | none => .next s
  | some g =>
    if !g.over then .next s
    else
      let s := s.disarm grid
      let box := (s.die g.home).mailbox
      if !s.gridDone grid || box.contains (g.order grid) || decide (256 ≤ box.length) || s.pathBlocked clsWork 0 g.home ||
          s.routeDown 0 g.home then .next s
      else .next ((s.crossMesh clsWork 0 g.home 64).updDie g.home (fun k => { k with mailbox := k.mailbox ++ [g.order grid] }))

end Sys2Proof.Machine
end

