-- ==== Sys2Proof/Machine/Dispatcher.lean ====
section
/-!
DEFINITION. A dispatcher's turn (R109, R117, R121): F2 orders, FORWARD packets, and packets of queues, which are read, checked
and taken. -/
namespace Sys2Proof.Machine

/-! ## Orders and FORWARD packets (R117, R121, R123) -/

/-- A dispatcher takes an F2 order: the record of a completed grid is written, and the grid is over (R113, R114). -/
def State.takeOrder (s : State) (m : DispMsg) : State :=
  match m with
  | .forward _ _ => s
  | .order grid code cause team =>
    match tblFind s.grids grid with
    | none => s
    | some g =>
      let ts := s.teamsOf grid
      let s := s.completion g.home code cause g.tag team g.logfull.toNat g.status g.csig g.cdelta g.queue g.index
        (ts.map (fun t => (s.team t).core)).eraseDups
      { s with
        grids := tblDel s.grids grid
        teams := s.teams.filter (fun e => !ts.contains e.1)
        groups := s.groups.filter (fun e => !ts.contains (teamOf e.1))
        fetches := match g.fetch with | some key => tblDel s.fetches key | none => s.fetches }

/-- A message is an F2 order. -/
def DispMsg.isOrder (m : DispMsg) : Bool :=
  match m with | .order _ _ _ _ => true | .forward _ _ => false

/-- A dispatcher takes every F2 order in its mailbox (R121). -/
def State.takeOrders (s : State) (die : Nat) : State :=
  let l := (s.die die).mailbox.filter DispMsg.isOrder
  l.foldl State.takeOrder (s.updDie die (fun k => { k with mailbox := k.mailbox.filter (fun m => !m.isOrder) }))

/-- A die's dispatcher finds a core on which a team of a grid fits when it is empty (R129). -/
def fitsDie (g : Grid) (die : Nat) : Bool := (List.range 40).any (fun i => fitsEmpty g.proto (40 * die + i))

/-- Take the oldest FORWARD packet of a die's mailbox (R121, R123): its share is placed on the pending list; one that fits no core
of the die rejects its grid (R129). -/
def State.takeForward (s : State) (die : Nat) : State :=
  match (s.die die).mailbox.find? (fun m => !m.isOrder) with
  | some (.forward grid b) =>
    if 1024 ≤ (s.die die).pendingCount then s
    else
      let s := s.updDie die (fun k => { k with mailbox := k.mailbox.erase (.forward grid b) })
      if fitsDie (s.grid grid) die then s.updDie die (fun k => { k with pending := k.pending ++ [shareOf grid b] })
      else s.killGrid grid 3
  | _ => s

/-- FORWARD (R123, R129, R423): a receiving dispatcher takes a share. -/
def execForward (die : Nat) (s : State) : Out := if s.halted then .next s else .next (s.takeForward die)

/-! ## Packets of queues (R109, R112, R121) -/

/-- What a LAUNCH has read from remote memory before it is checked: the kernel descriptor, and the log that it replays, each with
where its bytes are kept (R112, R119). -/
def Taken.reads (x : Taken) : List (Nat × Nat × Nat) :=
  let b := x.bytes
  if x.type ≠ 1 then []
  else (numAt b 8 8, 64, 0) :: (if (numAt b 32 4).testBit 5 then [(numAt b 64 8, numAt b 72 8, 64)] else [])

/-- Some byte of a range lies in remote memory. -/
def State.anyFar (s : State) (a n : Nat) : Bool := (segs a n).any (fun e => (s.farPage e.1).isSome)

/-- Start reading what a LAUNCH needs from remote memory. -/
def State.startFetch (s : State) (die i : Nat) (x : Taken) : State :=
  let key := s.nextId
  let parts := x.reads.flatMap (fun e => (segs e.1 e.2.1).map (fun p => (p.1, p.2, e.2.2 + (p.1 - e.1))))
  let far := parts.filter (fun p => (s.farPage p.1).isSome)
  let here := parts.filter (fun p => (s.farPage p.1).isNone)
  let got := here.foldl (fun t p => putBytes t p.2.2 (s.homeRead (s.ownAddr p.1) p.2.1)) ([] : Tbl Byte)
  let s := here.foldl (fun (s : State) p => s.visitHome die (s.ownAddr p.1) p.2.1) s
  let s := { s with nextId := key + 1, fetches := tblPut s.fetches key { got := got, need := far.length } }
  let s := s.updDie die (fun k => { k with taken := updAt k.taken i (fun x => { x with fetch := some key }) })
  far.foldl (fun s p =>
    match s.farPage p.1 with
    | some e => s.sendFar die { use := .fetch key, len := p.2.1, dst := p.2.2, read := true, via := e.via }
        (e.msg { kind := .rdmaRead, code := p.2.1 })
    | none => s) s

/-- A packet passes the checks of R112. -/
def State.packetOk (s : State) (die : Nat) (x : Taken) : Bool :=
  s.headerOk x &&
    match x.type with
    | 1 => launchOk die s x
    | 2 => copyPacketOk s x
    | 3 => signalPacketOk s x
    | 4 => waitPacketOk s x
    | 5 => gatePacketOk s x
    | 7 => nopPacketOk x
    | _ => false

/-- A packet is checked and taken, or rejected (R109, R112). -/
def State.settlePacket (s : State) (die i : Nat) (x : Taken) : State :=
  if s.packetOk die x then s.takePacket die i x else s.reject die i x

/-- The memory of an address, or the way there from a die, takes no new request (R79). -/
def State.pageShut (s : State) (die a : Nat) : Bool :=
  match pageAt s.pages a with
  | some (_, p) => s.pageChoked die p
  | none => false

/-- Check the i-th packet of a die's list, once what it reads from remote memory has come; one whose queue has stopped meanwhile
is let go, and stays in its slot (R110). -/
def State.checkPacket (s : State) (die i : Nat) : State :=
  match (s.die die).taken[i]? with
  | none => s
  | some x =>
    let readable := x.reads.all (fun e => s.packetMapped .read false e.1 e.2.1)
    let far := readable && x.reads.any (fun e => s.anyFar e.1 e.2.1)
    if x.ok || s.postStuck die (s.queue x.queue).slotAt then s
    else if (s.queue x.queue).state != .active then
      { ((s.untake die i).packetDone x.queue x.index) with
        fetches := match x.fetch with | some key => tblDel s.fetches key | none => s.fetches }
    else
      match x.fetch with
      | some key =>
        let f := tblGet {} s.fetches key
        if f.need ≠ 0 then s
        else if f.bad then s.reject die i x
        else s.settlePacket die i { x with desc := (List.range 64).map (fun k => tblGet 0 f.got k) }
      | none =>
        if far then (if (List.range 8).any (fun p => s.tripBlocked die p) then s else s.startFetch die i x)
        else if x.type = 1 ∧ readable then
          (let a := s.ownAddr (numAt x.bytes 8 8)
           if s.pageShut die a then s
           else (s.visitHome die a 64).settlePacket die i { x with desc := s.homeRead a 64 })
        else s.settlePacket die i { x with desc := [] }

/-- The packet that failed is passed over, as QRESUME asked, once its slot's page takes the zeros (R110, R192). -/
def State.skipSlot (s : State) (n : Nat) : State :=
  let q := s.queue n
  if !q.skip then s
  else if !s.allMapped q.slotAt 8 (fun p => p.kind == .hbm || p.kind == .scratch) then
    s.updQueue n (fun q => { q with rdidx := q.rdidx + 1, skip := false })
  else if s.postStuck q.die q.slotAt then s.wantPageOf q.slotAt
  else ((s.homeWrite q.slotAt (leBytes 8 0)).visitHome q.die q.slotAt 8 4 true).updQueue n (fun q => { q with
    rdidx := q.rdidx + 1, skip := false })

/-- Look at the slot at RDIDX of a queue, and read it if it is present: all 128 B, after an acquire at system scope (R109); it is
then checked. A slot that cannot be read puts the queue into ERROR (R421). -/
def State.takeSlot (s : State) (die n : Nat) : State :=
  let s := s.skipSlot n
  let q := s.queue n
  let a := q.slotAt
  if q.skip || !s.hasWork die n then s
  else if !s.allMapped a 128 (fun p => p.allows .read && p.allows .write && (p.kind == .hbm || p.kind == .scratch)) then
    s.updQueue n (fun q => q.fail q.rdidx 3)
  else if s.pageShut die a then s
  else if (s.homeRead a 8).all (· == 0) then (s.visitHome die a 8).updQueue n (fun q => { q with empty := true })
  else if !(s.die die).roomFor die q (s.homeRead a 128) then s
  else
    let s := (s.acquireAt (dispatcherOf die) 5).visitHome die a 128
    let b := s.homeRead a 128
    let x : Taken := { queue := n, index := q.rdidx, bytes := b, prompt := promptOnly die b && decide ((s.die die).promptCount < 8) }
    ((s.updQueue n (fun q => { q with pending := q.pending ++ [q.rdidx] })).updDie die (fun k => { k with
      taken := k.taken ++ [x] })).checkPacket die (s.die die).taken.length

/-- Check the packets of a die that wait to be checked, the last first. -/
def State.checkPackets (s : State) (die : Nat) : State :=
  (List.range (s.die die).taken.length).reverse.foldl (fun s i => s.checkPacket die i) s

/-- DISPATCHER_TURN (R121): F2's orders, the FORWARD packets, then one packet of each queue. What the dispatcher has to tell F2,
and the records it writes, go on as well. A stopped device takes neither FORWARD packets nor slots (R15). -/
def execDispatcherTurn (die : Nat) (s : State) : Out :=
  if !s.firm.up || 8 ≤ die then .next s
  else
    let s := ((s.takeOrders die).resendNotes die).drivePosts die
    if s.halted then .next s
    else
      let s := (List.range (s.die die).mailbox.length).foldl (fun s _ => s.takeForward die) s
      let s := (s.visitOrder die).foldl (fun s n => s.takeSlot die n) (s.checkPackets die)
      .next (s.updDie die (fun k => { k with visit := k.visit + 1 }))

/-- SLOT_REREAD (R109): a dispatcher that waits at an empty slot reads it again. -/
def execSlotReread (queue : Nat) (s : State) : Out :=
  let q := s.queue queue
  if s.halted || !q.empty then .next s
  else .next ((s.updQueue queue (fun q => { q with empty := false })).takeSlot q.die queue)

end Sys2Proof.Machine
end

