-- ==== Sys2Proof/Machine/Sha.lean ====
section
/-!
DEFINITION. SHA-256, by which R29 gives an image's digest, and HMAC-SHA-256, by which R97 and R106 authenticate frames and commands.
The spec names both and does not spell them out: they are those of FIPS 180-4 and FIPS 198-1 (PRESUMED, assumption 8). -/
namespace Sys2Proof

/-- The round constants: the first 32 bits of the fractional parts of the cube roots of the first 64 primes. -/
def shaK : List (BitVec 32) :=
    [0x428A2F98, 0x71374491, 0xB5C0FBCF, 0xE9B5DBA5, 0x3956C25B, 0x59F111F1, 0x923F82A4, 0xAB1C5ED5] ++
    [0xD807AA98, 0x12835B01, 0x243185BE, 0x550C7DC3, 0x72BE5D74, 0x80DEB1FE, 0x9BDC06A7, 0xC19BF174] ++
    [0xE49B69C1, 0xEFBE4786, 0x0FC19DC6, 0x240CA1CC, 0x2DE92C6F, 0x4A7484AA, 0x5CB0A9DC, 0x76F988DA] ++
    [0x983E5152, 0xA831C66D, 0xB00327C8, 0xBF597FC7, 0xC6E00BF3, 0xD5A79147, 0x06CA6351, 0x14292967] ++
    [0x27B70A85, 0x2E1B2138, 0x4D2C6DFC, 0x53380D13, 0x650A7354, 0x766A0ABB, 0x81C2C92E, 0x92722C85] ++
    [0xA2BFE8A1, 0xA81A664B, 0xC24B8B70, 0xC76C51A3, 0xD192E819, 0xD6990624, 0xF40E3585, 0x106AA070] ++
    [0x19A4C116, 0x1E376C08, 0x2748774C, 0x34B0BCB5, 0x391C0CB3, 0x4ED8AA4A, 0x5B9CCA4F, 0x682E6FF3] ++
    [0x748F82EE, 0x78A5636F, 0x84C87814, 0x8CC70208, 0x90BEFFFA, 0xA4506CEB, 0xBEF9A3F7, 0xC67178F2]

/-- The initial hash: the first 32 bits of the fractional parts of the square roots of the first 8 primes. -/
def shaInit : List (BitVec 32) :=
    [0x6A09E667, 0xBB67AE85, 0x3C6EF372, 0xA54FF53A, 0x510E527F, 0x9B05688C, 0x1F83D9AB, 0x5BE0CD19]

/-- The word of four bytes, the most significant first. -/
def shaWord (b : List Byte) : BitVec 32 := BitVec.ofNat 32 (b.foldl (fun v x => 256 * v + x.toNat) 0)

/-- The bytes of a word, the most significant first. -/
def shaBytes (w : BitVec 32) : List Byte := [3, 2, 1, 0].map (fun i => BitVec.ofNat 8 (w.toNat / 256 ^ i))

/-- One more word of the message schedule, kept newest first. -/
def shaNext (w : List (BitVec 32)) : List (BitVec 32) :=
  let at_ := fun (i : Nat) => w[i - 1]?.getD 0
  let a := at_ 15
  let b := at_ 2
  let s0 := a.rotateRight 7 ^^^ a.rotateRight 18 ^^^ (a >>> 3)
  let s1 := b.rotateRight 17 ^^^ b.rotateRight 19 ^^^ (b >>> 10)
  (at_ 16 + s0 + at_ 7 + s1) :: w

/-- The message schedule of a block of 64 bytes: 64 words, oldest first. -/
def shaSchedule (block : List Byte) : List (BitVec 32) :=
  let first := (List.range 16).map (fun i => shaWord ((block.drop (4 * i)).take 4))
  ((List.range 48).foldl (fun w _ => shaNext w) first.reverse).reverse

/-- One round. -/
def shaRound (h : List (BitVec 32)) (kw : BitVec 32 × BitVec 32) : List (BitVec 32) :=
  match h with
  | [a, b, c, d, e, f, g, x] =>
    let s1 := e.rotateRight 6 ^^^ e.rotateRight 11 ^^^ e.rotateRight 25
    let t1 := x + s1 + ((e &&& f) ^^^ (~~~ e &&& g)) + kw.1 + kw.2
    let s0 := a.rotateRight 2 ^^^ a.rotateRight 13 ^^^ a.rotateRight 22
    [t1 + s0 + ((a &&& b) ^^^ (a &&& c) ^^^ (b &&& c)), a, b, c, d + t1, e, f, g]
  | _ => h

/-- One block. -/
def shaBlock (h : List (BitVec 32)) (block : List Byte) : List (BitVec 32) :=
  ((h.zip ((shaK.zip (shaSchedule block)).foldl shaRound h))).map (fun e => e.1 + e.2)

/-- A message with its padding: a one bit, zeros, and its length in bits. -/
def shaPad (b : List Byte) : List Byte :=
  b ++ [0x80] ++ List.replicate ((119 - b.length % 64) % 64) 0 ++
    [7, 6, 5, 4, 3, 2, 1, 0].map (fun i => BitVec.ofNat 8 (8 * b.length / 256 ^ i))

/-- The 32 bytes of SHA-256. -/
def sha256 (b : List Byte) : List Byte :=
  let p := shaPad b
  (((List.range (p.length / 64)).map (fun i => (p.drop (64 * i)).take 64)).foldl shaBlock shaInit).flatMap shaBytes

/-- The 32 bytes of HMAC-SHA-256. -/
def hmac256 (key b : List Byte) : List Byte :=
  let k := if 64 < key.length then sha256 key else key
  let k := k ++ List.replicate (64 - k.length) 0
  sha256 (k.map (· ^^^ 0x5C) ++ sha256 (k.map (· ^^^ 0x36) ++ b))

end Sys2Proof
end

