-- ==== Sys2Proof/Machine/Power.lean ====
section
/-!
DEFINITION. Tokens, the Float, Undercoat, CHARGE and power intents (R76 to R101), and `pintent` (R360). A rate is held in
microwatts, which is tokens per microsecond; the package bucket in 10^-12 tokens. -/
namespace Sys2Proof.Machine

/-! ## Core buckets (R78, R80, R81) -/

/-- A request's place in the order of a core bucket: the clock it was posted in, then the distance of its requester from
the pointer of that clock (R80). -/
def State.reqKey (s : State) (r : TokenReq) : Nat :=
  r.since * 14 + (r.port + 14 - (r.since - s.firm.since) % 14) % 14

/-- Add to TKUSED of a group (R99). -/
def State.useTokens (s : State) (h n : Nat) : State :=
  s.updGroup h (fun g => { g with sr := { g.sr with tkused := g.sr.tkused + BitVec.ofNat 64 n } })

/-- What a grant does for its requester (R77, R81, R168, R176). -/
def State.grantTo (s : State) (c : Nat) (r : TokenReq) : State :=
  if isDispatcher r.grp && decide (r.port < 4) then s.updDie r.grp (fun k => { k with disp := { k.disp with sgrant := true, sready := none } })
  else if r.port < 4 then (s.updGroup r.grp (fun g => { g with sgrant := true })).useTokens r.grp r.amount
  else if r.port < 8 then (s.updGroup r.grp (fun g => { g with lgrant := true })).useTokens r.grp r.amount
  else if r.port < 12 then
    let q := r.port - 8
    match (s.core c).array q with
    | [] => s
    | o :: _ =>
      let s := (s.updCore c (fun k => k.updMma o.id (fun o => { o with clocks := o.clocks - 1 }))).useTokens r.grp r.amount
      if 1 < o.clocks then s.postArray c q o.grp else s
  else if r.port = 12 then
    (s.updCore c (fun k => { k with copies := k.copies.map (fun o =>
      if o.asking then { o with asking := false, paid := true } else o) })).useTokens r.grp r.amount
  else
    s.updCore c (fun k =>
      let d := k.debt - r.amount
      { k with debt := d
               reqs := if 0 < d then k.reqs ++ [{ port := 13, amount := (min d 8192).toNat, since := s.clock }] else k.reqs })

/-- Grant requests in order until the level does not cover one (R80). -/
def State.grantCore (s : State) (c : Nat) : List TokenReq → State
  | [] => s
  | r :: t =>
    if (s.core c).bucket < r.amount then s
    else
      let s := s.updCore c (fun k => { k with
        bucket := k.bucket - r.amount, reqs := k.reqs.filter (fun x => x.port != r.port), chose := tblPut k.chose r.port s.clock })
      State.grantCore ({ s with power := { s.power with granted := s.power.granted + r.amount } }.grantTo c r) c t

/-- A core bucket asks for a quantum (R78). -/
def Core.asks (k : Core) : Bool := decide (k.bucket + 4096 * k.flight.length ≤ 12288) && decide (k.flight.length < 2)

/-- A core's request for a quantum is made as soon as its bucket asks, once (R78). -/
def State.askCore (s : State) (c : Nat) : State :=
  let d := dieOfCore c
  if !(s.core c).asks || (s.die d).reqs.any (·.who == c % 40) then s
  else s.updDie d (fun k => { k with
    reqs := k.reqs ++ [{ who := c % 40, clock := s.clock, place := (c % 40 + 40 - k.ptr % 40) % 40 }] })

/-- CORE_BUCKET_GRANT (R80): one clock's grants of a core bucket. -/
def execCoreBucketGrant (core : Nat) (s : State) : Out :=
  if !s.firm.up then .next s else .next ((s.grantCore core (sortBy s.reqKey (s.core core).reqs)).askCore core)

/-! ## Refills (R78, R79, R139) -/

/-- The order of refill requests: by the clock they were made in, and of one clock by their distance from the pointer (R78).
DEDUCED: assumption 17. -/
def RefillReq.key (r : RefillReq) : Nat := r.clock * 64 + r.place

/-- A core holds a team of the PROMPT class (R139). -/
def State.promptCore (s : State) (c : Nat) : Bool :=
  s.teams.any (fun e => e.2.core == c && e.2.prio == 3 && e.2.life == .running)

/-- The cores of a die that asked for a quantum, in request order, those with a PROMPT team first (R78, R139). -/
def State.coreAsks (s : State) (d : Nat) : List Nat :=
  let l := ((sortBy RefillReq.key (s.die d).reqs).map (·.who)).filter (fun i => (s.core (40 * d + i)).asks)
  l.filter (fun i => s.promptCore (40 * d + i)) ++ l.filter (fun i => !s.promptCore (40 * d + i))

/-- A die bucket's level covers a core's quantum; that of a core with a PROMPT team it gives whenever it is positive (R78, R79,
R139). -/
def State.refillCovered (s : State) (d i : Nat) : Bool :=
  decide (4096 ≤ (s.die d).bucket) || (s.promptCore (40 * d + i) && decide (0 < (s.die d).bucket))

/-- CORE_REFILL_GRANT (R78, R79, R139): a die bucket grants a quantum to the first of its cores that asked. -/
def execCoreRefillGrant (die : Nat) (s : State) : Out :=
  match (if s.firm.up then s.coreAsks die else []) with
  | [] => .next s
  | i :: _ =>
    if !s.refillCovered die i then .next s
    else
      .next ((((s.updDie die (fun k => { k with
        bucket := k.bucket - 4096, ptr := (k.ptr + 1) % 40, reqs := k.reqs.filter (·.who != i) })).askDie die).updCore (40 * die + i)
          (fun k => { k with flight := k.flight ++ [s.clock + 4] })).askCore (40 * die + i))

/-- CORE_REFILL_ARRIVAL (R78): a quantum reaches a core 4 clocks after its grant. -/
def execCoreRefillArrival (core : Nat) (s : State) : Out :=
  match (s.core core).flight with
  | [] => .next s
  | t :: rest =>
    if s.clock < t then .next s
    else .next ((s.updCore core (fun k => { k with bucket := min 16384 (k.bucket + 4096), flight := rest })).askCore core)

/-- The dies that asked for a quantum, in request order, negative dies ahead (R78, R79). -/
def State.dieAsks (s : State) : List Nat :=
  let l := ((sortBy RefillReq.key s.power.reqs).map (·.who)).filter (fun d => (s.die d).asks)
  l.filter (fun d => decide ((s.die d).bucket < 0)) ++ l.filter (fun d => decide (0 ≤ (s.die d).bucket))

/-- DIE_REFILL_GRANT (R78). -/
def execDieRefillGrant (s : State) : Out :=
  match (if s.firm.up && decide (65536 * 10 ^ 12 ≤ s.power.pkg) then s.dieAsks else []) with
  | [] => .next s
  | d :: _ =>
    .next ((({ s with power := { s.power with
      pkg := s.power.pkg - 65536 * 10 ^ 12, ptr := (s.power.ptr + 1) % 8, reqs := s.power.reqs.filter (·.who != d) } } : State).updDie d
        (fun k => { k with flight := k.flight ++ [s.clock + 16] })).askDie d)

/-- DIE_REFILL_ARRIVAL (R78, R79): a quantum reaches a die 16 clocks after its grant; above −524,288 a choked die takes new
requests again, and what hosts and peers sent meanwhile. -/
def execDieRefillArrival (die : Nat) (s : State) : Out :=
  match (s.die die).flight with
  | [] => .next s
  | t :: rest =>
    if s.clock < t then .next s
    else
      let s' := (s.updDie die (fun k =>
        let b := min 1048576 (k.bucket + 65536)
        { k with bucket := b, flight := rest, choked := k.choked && decide (b ≤ -524288) })).askDie die
      .next (if (s.die die).choked && !(s'.die die).choked then s'.requeue else s')

/-! ## The clock: package gain and stall counts (R82, R83, R100) -/

/-- Add 1 to a half of TKSTALL, which sticks at all ones (R100). -/
def stallAdd (w : Word) (lane : Bool) : Word :=
  let lo := if lane then 32 else 0
  if fld w.toNat lo 32 = 2 ^ 32 - 1 then w else w + BitVec.ofNat 64 (2 ^ lo)

/-- A clock in which a core's requests waited: their groups' TKSTALL, and one clock of the stall fraction (R83, R100). -/
def State.countStalls (s : State) (c : Nat) : State :=
  let l := (s.core c).reqs.filter (fun r => decide (r.since < s.clock))
  if l.isEmpty then s
  else
    let s := (l.filter (fun r => decide (r.port < 8))).foldl (fun s r => s.updGroup r.grp (fun g => { g with
      sr := { g.sr with tkstall := stallAdd g.sr.tkstall (decide (4 ≤ r.port)) } })) s
    { s with power := { s.power with stalls := s.power.stalls + 1 } }

/-- PACKAGE_BUCKET_FILL (R82): one clock passes: the package bucket gains P × c less the static charge, and what would
overflow is discarded. DEDUCED: assumption 17. -/
def execPackageBucketFill (s : State) : Out :=
  if !s.firm.up then .next s
  else
    let s := { s with clock := s.clock + 1 }
    let s := (tblKeys s.cores).foldl State.countStalls s
    let full := s.power.pkg + s.power.p * s.power.cal * 500 - s.power.leak * (5 * 10 ^ 8)
    let cap : Int := 16777216 * 10 ^ 12
    .next { s with power := { s.power with pkg := min full cap, short := s.power.short || decide (cap < full) } }

/-- CALIBRATION_UPDATE (R82): c, within 0.8 to 1.25, and the static charge in microwatts. -/
def execCalibrationUpdate (c staticW : Nat) (s : State) : Out :=
  if c < 800000 ∨ 1250000 < c then .next s else .next { s with power := { s.power with cal := c, leak := staticW } }

/-! ## The Float (R83 to R88) -/

/-- Watts in microwatts. -/
def watts (n : Int) : Int := n * 1000000
/-- A field of FLCFG (R86). -/
def flField (v : BitVec 64) (lo n : Nat) : Int := (fld v.toNat lo n : Int)
/-- PMAX in force: FLCFG's, or lower after a temperature over limit (R85). -/
def Power.pmax (p : Power) : Int :=
  watts (match p.limit with | some m => min (flField p.flcfg 0 12) m | none => flField p.flcfg 0 12)
/-- PFLOOR, not above PMAX in force. -/
def Power.pfloor (p : Power) : Int := min (watts (flField p.flcfg 12 12)) p.pmax
/-- Some die's CHARGE state is one of a list (R93). -/
def State.chargeIs (s : State) (l : List Nat) : Bool := (List.range 8).any (fun d => l.contains (s.die d).charge.state)
/-- The rise slope in force, per µs (R93, R95). -/
def State.riseSlope (s : State) : Int :=
  let sf := watts (flField s.power.flcfg 24 6)
  if s.chargeIs [1, 2, 3] then sf / 2 else sf
/-- The floors that apply (R84, R94). -/
def Power.active (p : Power) : List Intent := (tblVals p.intents).filter (·.on)
/-- H (R84). -/
def Power.floorH (p : Power) : Int := p.active.foldl (fun m i => max m i.floor) 0

/-- P and PS after an interval whose demand was D (R84, R93). -/
def State.floatRates (s : State) (d : Int) : Int × Int :=
  let w := s.power
  let t := min w.pmax (max w.pfloor (max d w.floorH))
  let ss := flField w.flcfg 30 12 * 100
  let ps := w.ps + clampI (-ss) ss (t - w.ps)
  let band := watts (flField w.flcfg 42 9)
  let a := clampI w.pfloor w.pmax (clampI (ps - band) (ps + band) t)
  let sf := watts (flField w.flcfg 24 6)
  let rise := if s.chargeIs [2] then 0 else if s.chargeIs [1, 3] then sf / 2 else sf
  (w.p + clampI (-sf) rise (a - w.p), ps)

/-- Whole watts in a field of 12 bits. -/
def wattField (x : Int) : Nat := min 4095 (x / 1000000).toNat

/-- FLSTAT (R88). -/
def State.flstatWord (s : State) (d coat : Int) : Nat :=
  let w := s.power
  wattField w.p + wattField w.ps * 2 ^ 12 + wattField d * 2 ^ 24 + wattField coat * 2 ^ 36 +
    s.ring.gapsAt (s.die 0).station.octet % 64 * 2 ^ 48 + w.short.toNat * 2 ^ 54 + (s.chargeIs [2]).toNat * 2 ^ 55 +
    min 16 w.active.length * 2 ^ 56

/-- Late arrivals are counted once, at t_step, and the time is recorded that P then takes to reach the floor (R95). -/
def State.noteLate (s : State) : State :=
  let now := (s.die 0).time
  let w := s.power
  let met := w.shorts.filter (fun x => decide (x.1 ≤ w.p))
  let s := { s with power := { w with
    lates := w.lates ++ met.map (fun (x : Int × Nat) => now - x.2), shorts := w.shorts.filter (fun x => decide (w.p < x.1)) } }
  s.power.intents.foldl (fun s (e : Nat × Intent) =>
    let i := e.2
    if i.late || i.size ≤ 0 || now < i.step then s
    else
      let s := { s with power := { s.power with intents := tblPut s.power.intents e.1 { i with late := true } } }
      if s.power.p < i.floor then
        ({ s with power := { s.power with shorts := s.power.shorts ++ [(i.floor, i.step)] } } : State).count 2
      else s) s

/-- FLOAT_INTERVAL (R83, R84, R88, R89): due once per microsecond of die 0's TIME. -/
def execFloatInterval (s : State) : Out :=
  if !s.firm.up || (s.die 0).time < s.power.due then .next s
  else
    let w := s.power
    let d : Int := if 640000 < 64 * w.stalls then w.pmax else (w.granted : Int) + w.leak
    let (p, ps) := s.floatRates d
    let surplus := max 0 (w.p - d)
    let coat : Int := (w.coat : Int)
    let s := { s with power := { w with
      p := p, ps := ps, granted := 0, stalls := 0, coat := 0, due := w.due + 1000, count := w.count + 1
      dhist := (d :: w.dhist).take 100, shist := (w.stalls :: w.shist).take 10 } }
    let s := { s with power := { s.power with flstat := BitVec.ofNat 64 (s.flstatWord d coat), short := false } }
    let s := (List.range 8).foldl (fun (s : State) i => s.updDie i (fun k => { k with coatRate := surplus / 8 })) s
    .next s.noteLate

/-- GAP_CHOICE (R92): every 10 intervals. -/
def execGapChoice (s : State) : Out :=
  let w := s.power
  if w.count < 10 then .next s
  else
    let sum := w.shist.foldl (· + ·) 0
    let s := { s with power := { w with count := 0 } }
    let gmax := fld w.flcfg.toNat 51 6
    let cur := s.ring.gapsAt (s.die 0).station.octet
    let g := if 6400000 ≤ 16 * sum then min gmax (64 * sum / 6400000) else if 64 * sum < 6400000 then 0 else cur
    let announced := (match s.ring.chosen with | some x => x == g | none => false) ||
      (match s.ring.next with | some (x, _) => x == g | none => false)
    .next (if g = cur ∨ announced then s else { s with ring := { s.ring with chosen := some g } })

/-- TEMPERATURE_OVER_LIMIT (R85). -/
def execTemperatureOverLimit (pmax : Nat) (s : State) : Out :=
  let m : Int := match s.power.limit with | some x => min x pmax | none => pmax
  .next { s with power := { s.power with limit := some m.toNat } }

/-- POWER_LOSS (R85, R235): the 48 V input is lost, or a regulator fails: issue stops on every core at once, and F6 takes it as
a system cause, the loss of a die, which ends every running grid. Which of the two it is, is a free value (DESIGN CHOICE,
assumption 5): without 48 V the always-on domain is down as well. -/
def execPowerLoss (s : State) : Out :=
  if !s.firm.powered then .next s
  else
    let (regulator, s) := s.free
    let s := (s.tellCause 0x1A 0 0).deviceEnd
    .next { s with firm := { s.firm with up := false, powered := regulator.getLsbD 0 } }

/-! ## CHARGE (R93) -/

/-- STATE after FRAC is read (R93). -/
def chargeState (old frac : Nat) : Nat :=
  if frac < 0x4000 then 2
  else if old = 2 ∨ old = 3 then (if 0xC000 ≤ frac then 0 else 3)
  else if frac < 0x8000 then 1
  else 0

/-- CHARGE_UPDATE (R93): the stored energy of a die, in µJ, as telemetry has it. FRAC is STORED x 65,536 / 120,000 rounded down,
and at most 0xFFFF (DESIGN CHOICE, assumption 55). -/
def execChargeUpdate (die stored : Nat) (s : State) : Out :=
  let st := stored % 2 ^ 24
  let frac := min 0xFFFF (st * 65536 / 120000)
  .next (s.updDie die (fun k => { k with charge := { stored := st, frac := frac, state := chargeState k.charge.state frac } }))

/-! ## Undercoat (R89 to R91) -/

/-- The charge of a ballast fill (R74, R90). -/
def State.ballastPrice (s : State) (b : Ballast) : Nat :=
  (b.len + 63) / 64 * (s.price (priceIndex 0x30 0 0) + s.price (priceIndex 0x31 0 0))

/-- Arrays of a die that do no program work. -/
def State.idleArrays (s : State) (d : Nat) : Nat :=
  ((List.range 40).map (fun i => ((List.range 4).filter (fun q => ((s.core (40 * d + i)).array q).isEmpty)).length)).foldl
    (· + ·) 0

/-- Pay for ballast entries in post order within a clock's room: what room is left, the entries paid in full, and the queue
(R89, R90). -/
def State.payBallast (s : State) : Nat → List Ballast → Nat × List Ballast × List Ballast
  | room, [] => (room, [], [])
  | room, b :: t =>
    let need := s.ballastPrice b - b.paid
    if need ≤ room then
      let (r, done, l) := State.payBallast s (room - need) t
      (r, b :: done, l)
    else (0, [], { b with paid := b.paid + room } :: t)

/-- A ballast entry is performed: the last-level cache of its home holds its lines, with the priority it carries (R90, R185). -/
def State.fillBallast (s : State) (die : Nat) (b : Ballast) : State :=
  match pageAt s.pages b.addr with
  | some (_, p) =>
    if p.kind == .hbm && p.home == die then
      let ways := s.llcWays die
      s.updDie die (fun k => { k with llc := (linesOf b.addr b.len).foldl (fun t l => llcTouch ways t l b.ev) k.llc })
    else s
  | none => s

/-- UNDERCOAT_DRAW (R89): one clock's draw of a die: ballast first, then scrub, self-test and dummy load within their
limits; only with no core refill waiting and the level above 524,288. -/
def execUndercoatDraw (die : Nat) (s : State) : Out :=
  let k := s.die die
  let room := (k.coatRate / 2000).toNat
  if !s.firm.up || s.clock ≤ k.coatAt || k.bucket ≤ 524288 || !(s.coreAsks die).isEmpty || room = 0 then .next s
  else
    let (left, done, queue) := s.payBallast room k.ballast
    let n := room - left + min left (20000 + 600 * s.idleArrays die)
    let s := { s with power := { s.power with coat := s.power.coat + n } }
    let s := (s.updDie die (fun k => { k with bucket := k.bucket - (n : Nat), coatAt := s.clock, ballast := queue })).askDie die
    .next (done.foldl (fun s b => s.fillBallast die b) s)

/-- BALLAST_EXPIRY (R90): entries not performed within 10 ms of posting are discarded. -/
def execBallastExpiry (die : Nat) (s : State) : Out :=
  .next (s.updDie die (fun k => { k with ballast := k.ballast.filter (fun b => decide (k.time < b.time + 10000000)) }))

/-! ## Intents (R94 to R97) -/

/-- D̄ (R94): the mean of D over the last 100 intervals; before there have been 100, of those there are, and 0 before the first
(DESIGN CHOICE, assumption 55). -/
def Power.meanD (p : Power) : Int := if p.dhist.isEmpty then 0 else p.dhist.foldl (· + ·) 0 / p.dhist.length

/-- The first free intent entry of the 16. -/
def Power.freeEntry (p : Power) : Option Nat := (List.range 16).find? (fun i => (tblFind p.intents i).isNone)

/-- Record an intent (R94, R95): `now` and `step` in TIME, `dur` in µs, `off` the stagger offset in µs. DEDUCED:
assumption 26. -/
def State.recordIntent (s : State) (now step dur off : Nat) (size : Int) (job : Option (BitVec 32)) (origin seq : Nat) : State :=
  match s.power.freeEntry with
  | none => s
  | some i =>
    let w := s.power
    let stop := step + 1000 * dur
    let base : Intent := { step := step, stop := stop, size := size, job := job, origin := origin, seq := seq }
    if size = 0 then s
    else if size < 0 then
      { s with power := { w with intents := tblPut w.intents i { base with floor := w.meanD, start := now, on := true } } }
    else
      let f := min w.pmax (w.meanD + watts size)
      let rt := max 0 (max ((f - w.p) * 1000 / max 1 s.riseSlope)
        ((f - watts (flField w.flcfg 42 9) - w.ps) * 10000000 / max 1 (watts (flField w.flcfg 30 12))))
      let start := step - rt.toNat - 1000 * off
      let late := decide (step < now + rt.toNat + 1000 * off)
      let s := if late then s.count 3 else s
      { s with power := { w with intents := tblPut w.intents i { base with floor := f, start := max now start, on := late } } }

/-- Remember a pair (R96); a full store first forgets the pair whose floor ended earliest. -/
def Power.remember (p : Power) (x : Pair) : Power :=
  let l := if p.pairs.length < 256 then p.pairs
    else
      let first := p.pairs.foldl (fun m y => min m y.stop) ((p.pairs.head?.map (·.stop)).getD 0)
      match p.pairs.find? (fun y => y.stop == first) with
      | some y => p.pairs.erase y
      | none => p.pairs.tail
  { p with pairs := l ++ [x] }

/-- Most significant byte first. -/
def beBytes (n v : Nat) : List Byte := (leBytes n v).reverse

/-- The payload of an intent frame (R97). -/
def intentPayload (j : Job) (origin seq : Nat) (size : Int) (hops left dur : Nat) : List Byte :=
  let b := leBytes 1 1 ++ leBytes 1 1 ++ leBytes 2 0 ++ leBytes 4 j.job.toNat ++ leBytes 4 origin ++ leBytes 4 seq ++
    leBytes 2 (ofS 16 size) ++ leBytes 2 hops ++ leBytes 4 (left % 2 ^ 32) ++ leBytes 4 dur ++ leBytes 4 (left / 2 ^ 32)
  b ++ (hmac256 j.key b).take 8 ++ leBytes 24 0

/-- Send an intent to the children of the device in the tree of its origin (R96, R97); an invalid entry is skipped and
counted. -/
def State.sendIntent (s : State) (slot : Nat) (j : Job) (origin : Nat) (payload : List Byte) : State :=
  let q := (j.rank + j.n - origin % j.n) % j.n
  ((List.range 8).map (fun i => 8 * q + i + 1)).foldl (fun s c =>
    if j.n ≤ c then s
    else
      match s.rankEntry slot ((c + origin) % j.n) with
      | none => s.count 4
      | some e =>
        let frame := e.mac ++ beBytes 6 (Config.baseMac + e.port) ++ beBytes 2 0x8100 ++ beBytes 2 (7 * 2 ^ 13 + j.vlan) ++
          beBytes 2 0x8AD4 ++ payload
        ({ s with out := s.out ++ [{ kind := .frame, port := e.port, bytes := frame }] } : State).ethernet e.port frame.length) s

/-- The operands of a declaration are in range (R360). -/
def pintentOk (a : Word) (slots : Bool) : Bool :=
  let size := toS 16 a.toNat
  decide (-3000 ≤ size) && decide (size ≤ 3000) && (slots || fld a.toNat 16 2 == 0) && fld a.toNat 18 46 == 0

/-- PINTENT.DEV (R360): [7:0] of d tells whether an entry was free. -/
def execPintentDev (d a b : SReg) (s : State) : Out :=
  onScalar s (fun g =>
    let x := g.sread a
    let y := (g.sread b).toNat
    if !pintentOk x false then s.trap s.cur { cause := 0x01 }
    else if s.power.freeEntry.isNone then s.put ((g.swrite d 1).advance 4)
    else
      let now := s.timeOf s.cur
      (s.put ((g.swrite d 0).advance 4)).recordIntent now (now + 1000 * fld y 0 32) (fld y 32 32) 0 (toS 16 x.toNat) none 0 0)

/-- PINTENT.JOB (R360): the declaration is numbered, recorded, remembered and sent to the job's peers (R96). -/
def execPintentJob (d a b : SReg) (s : State) : Out :=
  onScalar s (fun g =>
    let x := g.sread a
    let y := (g.sread b).toNat
    let slot := fld x.toNat 16 2
    if !pintentOk x true then s.trap s.cur { cause := 0x01 }
    else
      match s.jobAt slot with
      | none => s.put ((g.swrite d 2).advance 4)
      | some j =>
        if s.power.freeEntry.isNone then s.put ((g.swrite d (BitVec.ofNat 64 (1 + j.seq % 2 ^ 32 * 2 ^ 16))).advance 4)
        else
          let seq := (j.seq + 1) % 2 ^ 32
          let now := s.timeOf s.cur
          let size := toS 16 x.toNat
          let lead := 1000 * fld y 0 32
          let dur := fld y 32 32
          let s := s.put ((g.swrite d (BitVec.ofNat 64 (seq * 2 ^ 16))).advance 4)
          let s := { s with jobs := tblPut s.jobs slot { j with seq := seq } }
          let s := s.recordIntent now (now + lead) dur (j.rank % 64 * j.stag) size (some j.job) j.rank seq
          let s := { s with power := s.power.remember { job := j.job, origin := j.rank, seq := seq, stop := now + lead + 1000 * dur } }
          s.sendIntent slot j j.rank (intentPayload j j.rank seq size 0 lead dur))

/-- The checks of a received intent frame, but for its job (R97). -/
def intentOk (b key : List Byte) : Bool :=
  b.length == 64 && numAt b 0 1 == 1 && numAt b 1 1 == 1 && zeroAt b 2 2 && zeroAt b 11 1 && zeroAt b 40 24 &&
    decide (numAt b 18 2 ≤ 16) && bytesAt b 32 8 == (hmac256 key (bytesAt b 0 32)).take 8

/-- INTENT_FRAME_RECEIVE (R96, R97): `bytes` is the frame's payload. -/
def execIntentFrameReceive (port : Nat) (bytes : List Byte) (s : State) : Out :=
  let s := s.ethernet port bytes.length
  match (s.slotOf (BitVec.ofNat 32 (numAt bytes 4 4))).bind (fun i => (s.jobAt i).map (fun j => (i, j))) with
  | none => .next (s.count 5)
  | some (slot, j) =>
    if !intentOk bytes j.key then .next (s.count 5)
    else
      let origin := numAt bytes 8 3
      let seq := numAt bytes 12 4
      if s.power.pairs.any (fun p => p.job == j.job && p.origin == origin && p.seq == seq) then .next s
      else
        let now := (s.die 0).time
        let left := numAt bytes 20 4 + numAt bytes 28 4 * 2 ^ 32
        let dur := numAt bytes 24 4
        let size := toS 16 (numAt bytes 16 2)
        let s := if s.power.freeEntry.isNone then s.count 6
          else s.recordIntent now (now + left) dur (j.rank % 64 * j.stag) size (some j.job) origin seq
        let s := { s with power := s.power.remember { job := j.job, origin := origin, seq := seq, stop := now + left + 1000 * dur } }
        .next (s.sendIntent slot j origin (intentPayload j origin seq size (numAt bytes 18 2 + 1) left dur))

/-- RAMP_START (R95): the floor of intent entry i applies from its ramp start. -/
def execRampStart (i : Nat) (s : State) : Out :=
  match tblFind s.power.intents i with
  | none => .next s
  | some x =>
    if x.on || (s.die 0).time < x.start then .next s
    else .next { s with power := { s.power with intents := tblPut s.power.intents i { x with on := true } } }

/-- INTENT_FLOOR_END (R94): the entry frees. -/
def execIntentFloorEnd (i : Nat) (s : State) : Out :=
  match tblFind s.power.intents i with
  | none => .next s
  | some x =>
    if (s.die 0).time < x.stop then .next s
    else .next { s with power := { s.power with intents := tblDel s.power.intents i } }

/-- INTENT_PAIR_FORGET (R96): 1 s after the floor ended. -/
def execIntentPairForget (i : Nat) (s : State) : Out :=
  match s.power.pairs[i]? with
  | none => .next s
  | some x =>
    if (s.die 0).time < x.stop + 1000000000 then .next s
    else .next { s with power := { s.power with pairs := dropAt s.power.pairs i } }

end Sys2Proof.Machine
end

