-- ==== Sys2Proof/Machine/Preempt.lean ====
section
/-!
DEFINITION. Admission in order (R136, R137), the prompt class (R138), and pre-emption: drain, save, flush, resume (R66, R67,
R140 to R143, R263 to R266). -/
namespace Sys2Proof.Machine

/-! ## The order of pending units (R136) -/

/-- The unit a share waits with. -/
def State.unitOf (s : State) (x : Share) : Nat :=
  match x.back with
  | t :: _ => (s.team t).unit
  | [] => x.first + x.next

/-- The effective class (R136). -/
def State.classOf (s : State) (die : Nat) (x : Share) : Nat :=
  if x.prio = 3 then 3 else min 2 (x.prio + ((s.die die).time - x.arrive) / 10000000)

/-- The key that orders pending shares (R136). -/
def State.shareKey (s : State) (die : Nat) (x : Share) : Nat :=
  (((3 - s.classOf die x) * 2 ^ 64 + x.arrive) * 2 ^ 32 + (s.grid x.grid).gridid.toNat) * 2 ^ 32 + s.unitOf x

/-- The pending units of a die in order, each with its list (the prompt list first) and its place there (R121, R136). -/
def State.waiting (s : State) (die : Nat) : List (Bool × Nat × Share) :=
  let order := fun (b : Bool) (l : List Share) =>
    sortBy (fun (e : Bool × Nat × Share) => s.shareKey die e.2.2) ((l.zip (List.range l.length)).map (fun e => (b, e.2, e.1)))
  order true (s.die die).prompt ++ order false (s.die die).pending

/-- Those of the waiting units that may be admitted: of one grid only its lowest unit (R133, R136). -/
def State.heads (s : State) (die : Nat) : List (Bool × Nat × Share) :=
  let l := s.waiting die
  l.filter (fun e => l.all (fun y => y.2.2.grid != e.2.2.grid || decide (s.unitOf e.2.2 ≤ s.unitOf y.2.2)))

/-- Change a share of a die's list, or take it out. -/
def State.setShare (s : State) (die : Nat) (prompt : Bool) (i : Nat) (f : Share → Option Share) : State :=
  let upd := fun (l : List Share) =>
    match l[i]? with
    | none => l
    | some x => (match f x with | some y => updAt l i (fun _ => y) | none => dropAt l i)
  s.updDie die (fun k => if prompt then { k with prompt := upd k.prompt } else { k with pending := upd k.pending })

/-- What a unit of a share asks for. A core held for another unit, or being cleared for it, is not for it (R137, R138). -/
def State.askUnit (s : State) (die : Nat) (x : Share) (unit : Nat) : Ask :=
  let g := s.grid x.grid
  let k := s.die die
  { grid := g, team := g.proto, k := unit - x.first
    avoid := ((k.hold.toList ++ k.cleared).filter (fun h => !(h.grid == x.grid && h.unit == unit))).flatMap (·.cores) }

/-- What a share's next unit asks for. -/
def State.askOf (s : State) (die : Nat) (x : Share) : Ask := s.askUnit die x (s.unitOf x)

/-! ## Admission (R128, R131, R134) -/

/-- Admit a new unit, or one that was flushed in place of its old teams (R128, R131, R134, R143). -/
def State.admitUnit (s : State) (grid unit : Nat) (p w old : List Nat) : State :=
  let g := s.grid grid
  let k0 := s.nextId
  let n := g.perUnit
  let scrim := g.flags.testBit 2
  let one := fun (pos : Nat) (twin : Bool) => ({ g.proto with
    grid := grid, teamid := unit * n + pos, unit := unit, clupos := pos
    cluster := if g.cw = 0 then none else some unit
    twin := if scrim then some (if twin then k0 + pos else k0 + n + pos) else none
    isTwin := twin } : Team)
  let s := { s with nextId := k0 + 2 * n }
  let again := !old.isEmpty
  let s := (p.zip (List.range n)).foldl (fun s e => s.place g (one e.2 false) (k0 + e.2) e.1 again) s
  let s := (w.zip (List.range n)).foldl (fun s e => s.place g (one e.2 true) (k0 + n + e.2) e.1 again) s
  old.foldl (fun (s : State) t =>
    let heir := k0 + (s.team t).clupos
    { s with teams := s.teams.map (fun e =>
        (e.1, if e.1 = t then { e.2 with life := .ended, heir := some heir }
              else if e.2.heir = some t then { e.2 with heir := some heir } else e.2)) }) s

/-- The banks a resumed team is given, each with the bank of its image: the same ones where they are all in cache role, else the
highest-numbered in cache role (R67, R128, R142). DEDUCED: assumption 22. -/
def Core.resumeBanks (k : Core) (core : Nat) (old : List Nat) : List (Nat × Nat) :=
  let free := k.grantBanks core 32
  if old.all free.contains then old.map (fun i => (i, i)) else old.reverse.zip free

/-- The bank that has taken a bank's place. -/
def bankMoved (m : List (Nat × Nat)) (i : Nat) : Nat := ((m.find? (·.1 == i)).map (·.2)).getD i
/-- A local store byte address in the bank that has taken its bank's place. -/
def storeMoved (m : List (Nat × Nat)) (a : Nat) : Nat := bankMoved m (a / 65536) * 65536 + a % 65536
/-- An address of the team window in the bank that has taken its bank's place; another stands. -/
def windowMoved (m : List (Nat × Nat)) (a : Nat) : Nat :=
  let off := a % 2 ^ 56 - 0xF0 * 2 ^ 48
  if 0xF0 * 2 ^ 48 ≤ a % 2 ^ 56 ∧ off < 2 ^ 21 then a - off + storeMoved m off else a

/-- A suspended copy as it goes on after a resume (R142). -/
def CopyOp.moved (o : CopyOp) (m : List (Nat × Nat)) : CopyOp :=
  { o with
    dst := windowMoved m o.dst, src := windowMoved m o.src, sig := o.sig.map (windowMoved m), idx := o.idx.map (windowMoved m)
    tob := o.tob.map (bankMoved m) }

/-- A field of a little-endian string of bytes changed. -/
def putField (b : List Byte) (lo n v : Nat) : List Byte :=
  let x := leNat b
  leBytes b.length (x - fld x lo n * 2 ^ lo + v % 2 ^ n * 2 ^ lo)

/-- A boarding with the banks the resumed team is given (R67). -/
def Boarding.moved (b : Boarding) (m : List (Nat × Nat)) : Boarding :=
  let mask := ((List.range 32).filter (fun i => (b.field 96 32).testBit i)).foldl (fun v i => v + 2 ^ bankMoved m i) 0
  { b with desc := putField (putField b.desc 96 32 mask) 136 21 (storeMoved m (b.field 136 21)) }

/-- An operation kept with the context, as it goes on after a resume. -/
def MmaOp.moved (o : MmaOp) (m : List (Nat × Nat)) : MmaOp :=
  { o with bank := o.bank.map (bankMoved m), aAddr := storeMoved m o.aAddr, bAddr := storeMoved m o.bAddr }

/-- A copy's TOB bank fills again; of the bytes it had brought before the save, which were lost with the bank (R66), the values
are free (DESIGN CHOICE, assumption 22). -/
def State.refill (s : State) (core : Nat) (o : CopyOp) : State :=
  match o.tob with
  | none => s
  | some n =>
    { s.updCore core (fun k => { k.updBank n (fun b => { b with state := .filling }) with
        store := putBytes k.store (65536 * n) ((List.range o.done).map (fun i => (Config.freeValue (s.freeNo + i)).setWidth 8)) }) with
      freeNo := s.freeNo + o.done }

/-- A bank as the resumed team is given it: one that a boarding held is armed for it again, and any other is FREE (R67). -/
def Bank.rearmed (b : Bank) (l : List Boarding) : Bank :=
  if b.board.any (fun id => l.any (·.id == id)) then { b with state := .armed } else { b with board := none }

/-- A remote operation that ran on while its team was away, as it goes on after a resume (R142). -/
def RemoteJob.moved (j : RemoteJob) (m : List (Nat × Nat)) : RemoteJob :=
  { j with loc := windowMoved m j.loc, sig := if j.kind = 1 then j.sig.map (windowMoved m) else j.sig }

/-- A collective that ran on while its team was away, as it goes on after a resume (R142). -/
def Coll.moved (k : Coll) (m : List (Nat × Nat)) : Coll :=
  { k with
    src := windowMoved m k.src, dst := windowMoved m k.dst, status := windowMoved m k.status, sig := k.sig.map (windowMoved m) }

/-- An armed command of a team after its resume (R142, R413). -/
def Arm.moved (a : Arm) (m : List (Nat × Nat)) : Arm :=
  { a with slots := a.slots.map (fun w => BitVec.ofNat 64 (windowMoved m w.toNat)), bank := a.bank.map (bankMoved m) }

/-- Change the armed and fired commands of a team. -/
def State.updArms (s : State) (t : Nat) (f : Arm → Arm) : State :=
  let g := fun (l : List Arm) => l.map (fun a => if teamOf a.grp = t then f a else a)
  { s with arms := s.arms.map (fun e => (e.1, g e.2)), arming := g s.arming, fired := s.fired.map (fun e => (e.1, g e.2)) }

/-- The operations of a team that ran on in their engines go on with the banks the resumed team is given (R142). -/
def State.moveRunning (s : State) (t : Nat) (m : List (Nat × Nat)) : State :=
  { s.updArms t (fun a => a.moved m) with
    remotes := s.remotes.map (fun j => if teamOf j.grp = t then j.moved m else j)
    colls := s.colls.map (fun k => if teamOf k.grp = t then k.moved m else k) }

/-- A saved team comes back on a core: its banks, tiles and groups are restored, its suspended copies go on and its boardings
are armed again (R66, R67, R142, R266). -/
def State.restore (s : State) (t core : Nat) : State :=
  let tm := s.team t
  let image := s.core (320 + t)
  let m := (s.core core).resumeBanks core (tblKeys image.banks)
  let mine := m.map (·.2)
  let copies := tm.copies.map (fun o => o.moved m)
  let boards := tm.boards.map (fun b => b.moved m)
  let s := ((s.emptyBanks core mine).writeBack core (fun x => !s.homeStuck (128 * x.line))).dropClean core
  let s := { s.updTeam t (fun x => { x with
    core := core, die := dieOfCore core, life := .running, order := s.nextId, copies := [], boards := [], drain := false
    deadline := none, mmas := [] }) with nextId := s.nextId + 1 }
  let s := s.updCore core (fun k => { k with
    banks := image.banks.foldl (fun b e => tblPut b (bankMoved m e.1) (e.2.rearmed boards)) k.banks
    store := image.store.foldl (fun t e => tblSet 0 t (storeMoved m e.1) e.2) (k.store.filter (fun e => !mine.contains (e.1 / 65536)))
    lpoison := image.lpoison.foldl (fun t e => tblSet false t (storeMoved m (64 * e.1) / 64) e.2)
      (k.lpoison.filter (fun e => !mine.contains (e.1 / 1024)))
    copies := k.copies ++ copies
    boards := k.boards ++ boards.map (fun b => { b with off := false, since := k.tapTime }) })
  let s := copies.foldl (fun (s : State) o => s.refill core o) s
  let s := (s.teamGroups t).foldl (fun (s : State) h => s.updGroup h (fun g => { g with slot := 32, units := [], tileset := [] })) s
  let s := (s.teamGroups t).foldl (fun (s : State) h =>
    let g := s.group h
    if g.exited then s
    else
      let s := s.seat core h g
      let set := (s.group h).tileset
      let s := s.updGroup h (fun g => { g with accmap := g.accmap.map (fun e => (e.1, set[e.2]?.getD 0)) })
      (set.zip (List.range set.length)).foldl (fun (s : State) e =>
        s.updCore core (fun k => k.updTile (g.quad * 16 + e.1) (fun _ => image.tile (g.grpid * 16 + e.2)))) s) s
  let s := tm.mmas.foldl (fun (s : State) o =>
    let o := { o.moved m with tile := o.quad * 16 + (s.group o.grp).tileset[o.tile % 16]?.getD 0 }
    s.updCore core (fun k => k.setArray o.quad (k.array o.quad ++ [o]))) s
  (({ s with cores := tblDel s.cores (320 + t) } : State).moveRunning t m).tryEndTeam t

/-- Teams of a unit that have neither ended nor been replaced. -/
def State.mates (s : State) (t : Nat) : List Nat :=
  let tm := s.team t
  tblKeys (s.teams.filter (fun e =>
    e.2.grid == tm.grid && e.2.unit == tm.unit && e.2.heir.isNone && e.2.life != .ended && e.2.life != .killing))

/-- A team has left its place and waits to come back (R142, R143). -/
def State.away (s : State) (t : Nat) : Bool := (s.team t).life == .saved || (s.team t).life == .flushed

/-- Units of a die whose teams are all away return to its pending list with their ARRIVE, though it hold 1,024 shares (DESIGN
CHOICE, assumption 60); teams that have ended meanwhile leave it (R136, R142, R143). -/
def State.collectBack (s : State) (die : Nat) : State :=
  let clean := fun (l : List Share) => l.filterMap (fun x =>
    if x.back.isEmpty then some x
    else
      let b := x.back.filter s.away
      if b.isEmpty then none else some { x with back := b })
  let s := s.updDie die (fun k => { k with pending := clean k.pending, prompt := clean k.prompt })
  (tblKeys s.teams).foldl (fun (s : State) t =>
    let tm := s.team t
    let k := s.die die
    if tm.die ≠ die || !s.away t || (k.pending ++ k.prompt).any (fun x => x.back.contains t) || !(s.mates t).all s.away then s
    else
      let g := s.grid tm.grid
      let first := (g.share (g.dies.findIdx (· == die))).1
      s.updDie die (fun k => { k with pending := k.pending ++ [{
        grid := tm.grid, first := first, n := 1, next := 1, prio := g.prio, arrive := g.arrive, back := s.mates t }] })) s

/-- The place of a unit is no longer held once it is admitted (R137, R138). -/
def State.unhold (s : State) (die grid unit : Nat) : State :=
  let other := fun (h : Hold) => !(h.grid == grid && h.unit == unit)
  s.updDie die (fun k => { k with hold := k.hold.filter other, cleared := k.cleared.filter other })

/-- Admit or bring back the unit of a waiting share at a place. -/
def State.enterUnit (s : State) (die : Nat) (e : Bool × Nat × Share) (p w : List Nat) : State :=
  let x := e.2.2
  let unit := s.unitOf x
  let s := s.setShare die e.1 e.2.1 (fun y =>
    if y.back.isEmpty && decide (y.next + 1 < y.n) then some { y with next := y.next + 1, failed := none } else none)
  let s := s.unhold die x.grid unit
  if x.back.any (fun t => (s.team t).life == .saved) then
    x.back.foldl (fun (s : State) t =>
      let l := if (s.team t).isTwin then w else p
      s.restore t (l[(s.team t).clupos]?.getD 0)) s
  else s.admitUnit x.grid unit p w x.back

/-- The unit that may enter next: the first in order that fits (R136); with its place. -/
def State.nextUnit (s : State) (die : Nat) : Option ((Bool × Nat × Share) × List Nat × List Nat) :=
  (s.heads die).findSome? (fun e => (s.placeFor (s.askOf die e.2.2) die).map (fun p => (e, p)))

/-- Note since when the head has failed to fit (R137). -/
def State.noteHead (s : State) (die : Nat) : State :=
  match (s.heads die).head? with
  | none => s
  | some e =>
    if e.2.2.failed.isSome || (s.placeFor (s.askOf die e.2.2) die).isSome then s
    else s.setShare die e.1 e.2.1 (fun x => some { x with failed := some (s.die die).time })

/-- A waiting unit was saved and comes back by a restore. -/
def State.comesBack (s : State) (x : Share) : Bool := x.back.any (fun t => (s.team t).life == .saved)

/-- UNIT_ADMISSION (R128, R136): the first pending unit that fits is admitted, if it is to start from its entry points. -/
def execUnitAdmission (die : Nat) (s : State) : Out :=
  if s.halted || 8 ≤ die then .next s
  else
    let s := (s.collectBack die).noteHead die
    match s.nextUnit die with
    | some (e, p, w) => .next (if s.comesBack e.2.2 then s else s.enterUnit die e p w)
    | none => .next s

/-- TEAM_RESUME (R142, R266): the first pending unit that fits is one that was saved, and comes back. -/
def execTeamResume (die : Nat) (s : State) : Out :=
  if s.halted || 8 ≤ die then .next s
  else
    let s := (s.collectBack die).noteHead die
    match s.nextUnit die with
    | some (e, p, w) => .next (if s.comesBack e.2.2 then s.enterUnit die e p w else s)
    | none => .next s

/-! ## Choosing what leaves (R137, R138, R140) -/

/-- A team is on its way out of its place: it is saved or flushed, or drains by a time that is not later than a limit, where
there is one (R138, R140). -/
def State.goneBy (s : State) (limit : Option Nat) (t : Nat) : Bool :=
  let tm := s.team t
  tm.life != .running || (tm.drain && match limit with
    | none => true
    | some l => tm.deadline.any (fun d => decide (d ≤ l)))

/-- The fewest resident groups that must leave a core before a team fits there (R137). -/
def State.fewest (s : State) (a : Ask) (core : Nat) : List Nat → List Nat → Nat → Option Nat
  | [], less, n => if s.fits a.team core less then some n else none
  | t :: rest, less, n =>
    match State.fewest s a core rest less n, State.fewest s a core rest (t :: less) (n + (s.team t).ngroups) with
    | some x, some y => some (min x y)
    | some x, none => some x
    | none, y => y

/-- The departures a place needs, summed over its cores; none if the unit does not fit there even when they are empty.
DEDUCED: assumption 30. -/
def State.departures (s : State) (a : Ask) (p : List Nat) : Option Nat :=
  p.foldl (fun m c =>
    match m, s.fewest a c (s.residents c []) [] 0 with
    | some x, some y => some (x + y)
    | _, _ => none) (some 0)

/-- The first of the places with the fewest departures. -/
def State.bestPlace (s : State) (a : Ask) (die : Nat) (apart : List Nat) : Option (List Nat) :=
  let l := (s.choices a die apart).filterMap (fun p => (s.departures a p).map (fun n => (n, p)))
  ((sortBy (fun e : Nat × List Nat => e.1) l).head?).map (·.2)

/-- PLACE_HOLD (R137): the head has failed to fit for 1 ms, and a place is held for it, with one for its twin. -/
def execPlaceHold (die : Nat) (s : State) : Out :=
  let k := s.die die
  if s.halted || k.hold.isSome then .next s
  else
    let s := s.noteHead die
    match (s.heads die).head? with
    | none => .next s
    | some e =>
      let x := e.2.2
      let a := s.askOf die x
      match x.failed with
      | none => .next s
      | some t =>
        if k.time < t + 1000000 || (s.placeFor a die).isSome then .next s
        else
          match s.bestPlace a die [] with
          | none => .next s
          | some p =>
            let w := if a.grid.flags.testBit 2 then (s.bestPlace a die p).getD [] else []
            .next (s.updDie die (fun k => { k with hold := some { cores := p ++ w, grid := x.grid, unit := s.unitOf x, since := k.time } }))

/-- The victims on a core that let a team fit, beside what leaves in time anyway: the lowest class first, and the most recently
admitted first within a class (R140). -/
def State.victims (s : State) (a : Ask) (limit : Option Nat) (core : Nat) (may : Team → Bool) : Option (List Nat) :=
  let all := s.residents core []
  let out := all.filter (s.goneBy limit)
  let cands := sortBy (fun t => (s.team t).prio * 2 ^ 64 + (2 ^ 64 - 1 - (s.team t).order))
    (all.filter (fun t => !s.goneBy limit t && may (s.team t)))
  (List.range (cands.length + 1)).findSome? (fun n =>
    if s.fits a.team core (out ++ cands.take n) then some (cands.take n) else none)

/-- The victims of a place. -/
def State.placeVictims (s : State) (a : Ask) (limit : Option Nat) (may : Team → Bool) (p : List Nat) : Option (List Nat) :=
  p.foldl (fun m c =>
    match m, s.victims a limit c may with
    | some x, some y => some (x ++ y)
    | _, _ => none) (some [])

/-- The teams of a place that stand in a unit's way: on each core as many as let it fit, or all that may be taken where those are
not enough (R137, R140). -/
def State.inTheWay (s : State) (a : Ask) (limit : Option Nat) (may : Team → Bool) (p : List Nat) : List Nat :=
  p.flatMap (fun c => (s.victims a limit c may).getD ((s.residents c []).filter (fun t => !s.goneBy limit t && may (s.team t))))

/-- Context bytes of a team (R140). -/
def State.contextBytes (s : State) (t : Nat) : Nat :=
  let tm := s.team t
  let k := s.core (s.storeOf t)
  let scratch := (k.banks.filter (fun e => e.2.team == t && e.2.role == .scratch)).length
  total ((List.range 4).map (fun q => (tm.need q).units * 1024 + (tm.need q).tiles * 16384)) + scratch * 65536 + 4096 * tm.ngroups

/-- The context bytes of a unit. -/
def State.unitBytes (s : State) (t : Nat) : Nat := total ((s.mates t).map s.contextBytes)

/-- A full-core context (R142). -/
def fullContext : Nat := 4 * 384 * 1024 + 30 * 65536 + 64 * 16384 + 128 * 4096

/-- The die's save pool has room for n more bytes (R142). -/
def State.poolRoom (s : State) (die n : Nat) : Bool :=
  let used := total ((s.teams.filter (fun e => e.2.die == die &&
    (e.2.life == .saving || e.2.life == .written || e.2.life == .saved))).map (fun e => s.contextBytes e.1))
  decide (used + n ≤ 40 * fullContext + Config.savePoolMore die)

/-- The unit of a team may be flushed (R140). -/
def State.flushable (s : State) (t : Nat) : Bool :=
  let f := (s.grid (s.team t).grid).flags
  f.testBit 0 && !f.testBit 2 && !f.testBit 4 && !f.testBit 5

/-- The remaining-time estimate of a unit in µs (R140, R141); none while some group's is unknown. -/
def State.remaining (s : State) (t : Nat) : Option Nat :=
  let l := ((s.mates t).flatMap s.liveGroups).map (fun h => fld (s.group h).sr.prog.toNat 0 32)
  if l.contains 0xFFFFFFFF then none else some (l.foldl max 0)

/-- Let a team's unit leave as `f` says. -/
def State.updUnit (s : State) (t : Nat) (f : Team → Team) : State := (s.mates t).foldl (fun s x => s.updTeam x f) s

/-- Choose what becomes of a victim with a budget in ns, and begin it (R140); one that leaves by the limit is left to it, and
one that drains by a later time is chosen for anew (R138). Times are compared in 1/256 ns. DEDUCED: assumption 31. -/
def State.evict (s : State) (die budget : Nat) (limit : Option Nat) (t : Nat) : State :=
  let now := (s.die die).time
  let bytes := s.unitBytes t
  let cost := bytes + 256 * 2000
  let b := 256 * budget
  let start := ((s.mates t).filterMap (fun x => (s.team x).started)).foldl min now
  let drains :=
    match s.remaining t with
    | some r => decide (256 * 1000 * r + cost ≤ b)
    | none => false
  let go := fun (life : TeamLife) => s.updUnit t (fun x => { x with life := life, drain := false, deadline := none })
  if s.goneBy limit t then s
  else if drains then s.updUnit t (fun x => { x with drain := true, deadline := some (now + (b - cost) / 256) })
  else if s.flushable t && decide (256 * (now - start) ≤ 2 * cost) then go .flushing
  else if decide (cost ≤ b) && s.poolRoom die bytes then go .saving
  else if s.flushable t then go .flushing
  else s.updUnit t (fun x => { x with drain := true, deadline := if x.drain then x.deadline else none })

/-- HIGH_PREEMPTION (R137, R140): the head's effective class is 2 and its place has been held for a further 1 ms: the BULK
teams in its way leave, with a budget of 1,000 µs. -/
def execHighPreemption (die : Nat) (s : State) : Out :=
  match (s.die die).hold, (s.heads die).head? with
  | some h, some e =>
    let x := e.2.2
    if s.halted || h.grid ≠ x.grid || h.unit ≠ s.unitOf x || s.classOf die x ≠ 2 || (s.die die).time < h.since + 1000000 then .next s
    else
      .next ((s.inTheWay (s.askOf die x) none (fun t => t.prio == 0) h.cores).foldl (fun s t => s.evict die 1000000 none t) s)
  | _, _ => .next s

/-- The place a PROMPT unit takes, with the victims it has there (R138, R140). -/
def State.promptPlace (s : State) (a : Ask) (limit : Option Nat) (die : Nat) (apart : List Nat) : Option (List Nat × List Nat) :=
  let l := ((s.choices a die apart).filter (fun p => p.all (fun c => !a.avoid.contains c))).filterMap (fun p =>
    (s.placeVictims a limit (fun t => decide (t.prio < 3)) p).map (fun v => (p, v)))
  (sortBy (fun e : List Nat × List Nat => total (e.2.map (fun t => (s.team t).ngroups))) l).head?

/-- The units of a die's PRIO 3 shares that wait, each with its share (R138). -/
def State.promptUnits (s : State) (die : Nat) : List (Share × Nat) :=
  (((s.waiting die).map (·.2.2)).filter (·.prio == 3)).flatMap (fun x =>
    if x.back.isEmpty then (List.range (x.n - x.next)).map (fun i => (x, x.first + x.next + i)) else [(x, s.unitOf x)])

/-- Every PRIO 3 unit that fits is admitted, in order (R138). -/
def State.enterPrompt (s : State) (die : Nat) : Nat → State
  | 0 => s
  | n + 1 =>
    match (s.heads die).findSome? (fun e =>
      if e.2.2.prio = 3 then (s.placeFor (s.askOf die e.2.2) die).map (fun p => (e, p)) else none) with
    | some (e, p, w) => State.enterPrompt (s.enterUnit die e p w) die n
    | none => s

/-- A place is chosen and held for a PRIO 3 unit that has none, and the teams of lower class in its way there leave, with what is
left of 50 µs as their budget (R138, R140). -/
def State.clearPrompt (s : State) (die : Nat) (x : Share) (unit : Nat) : State :=
  let a := s.askUnit die x unit
  let budget := 50000 - ((s.die die).time - x.taken) - 2000
  let limit := some ((s.die die).time + budget)
  let go := fun (s : State) (p : List Nat) =>
    (s.inTheWay a limit (fun t => decide (t.prio < 3)) p).foldl (fun s t => s.evict die budget limit t) s
  match (s.die die).cleared.find? (fun h => h.grid == x.grid && h.unit == unit) with
  | some h => go s h.cores
  | none =>
    match s.promptPlace a limit die [] with
    | none => s
    | some (p, _) =>
      let w := if a.grid.flags.testBit 2 then ((s.promptPlace a limit die p).map (·.1)).getD [] else []
      go (s.updDie die (fun k => { k with
        cleared := k.cleared ++ [{ cores := p ++ w, grid := x.grid, unit := unit, since := k.time }] })) (p ++ w)

/-- PROMPT_DISPATCH (R138): the PRIO 3 units that fit are admitted, and for the others places are cleared at once. -/
def execPromptDispatch (die : Nat) (s : State) : Out :=
  if s.halted || 8 ≤ die then .next s
  else
    let s := s.collectBack die
    let s := s.enterPrompt die (s.promptUnits die).length
    .next ((s.promptUnits die).foldl (fun s e => s.clearPrompt die e.1 e.2) s)

/-- DRAIN_DEADLINE (R140): a drained team that has not exited is saved, or flushed where it may be and the pool is full. -/
def execDrainDeadline (team : Nat) (s : State) : Out :=
  let tm := s.team team
  match tm.deadline with
  | none => .next s
  | some t =>
    if !tm.drain || tm.life != .running || (s.die tm.die).time < t then .next s
    else if s.poolRoom tm.die (s.unitBytes team) then
      .next (s.updUnit team (fun x => { x with life := .saving, drain := false, deadline := none }))
    else if s.flushable team then
      .next (s.updUnit team (fun x => { x with life := .flushing, drain := false, deadline := none }))
    else .next (s.updUnit team (fun x => { x with deadline := none }))

/-! ## Saving (R66, R142, R263) -/

/-- Operations of the team's own on their way to an array, but for follow-ons not begun. -/
def State.arrayBusy (s : State) (t : Nat) : Bool :=
  (s.core (s.team t).core).arrays.any (fun q => q.2.any (fun o => teamOf o.grp == t))

/-- A follow-on issued and not begun (R66). -/
def MmaOp.unbegun (o : MmaOp) (t : Nat) : Bool := teamOf o.grp == t && o.board.isSome && !o.started

/-- Follow-ons not begun are withdrawn, and leave the MMA count (R66). -/
def State.withdrawFollows (s : State) (t : Nat) : State :=
  let c := (s.team t).core
  let k := s.core c
  let l := (k.follow ++ k.arrays.flatMap (·.2)).filter (fun o => o.unbegun t)
  let s := s.updCore c (fun k => { k with
    follow := k.follow.filter (fun o => !o.unbegun t)
    arrays := k.arrays.map (fun e => (e.1, e.2.filter (fun o => !o.unbegun t))) })
  l.foldl (fun (s : State) o =>
    (s.updCore c (fun k => k.updTile o.tile (fun x => { x with pending := x.pending.filter (· != o.id) }))).updGroup o.grp
      (fun g => g.withdraw 1 o.id)) s

/-- A copy of the team stands at a chunk's boundary with nothing awaited (R142). -/
def CopyOp.atBoundary (o : CopyOp) (t : Nat) : Bool :=
  teamOf o.grp == t && o.pkt.isNone && o.need == 0 && o.acks == 0 && !o.paid && o.phase == 0

/-- Copies at a boundary are suspended (R142); a request for a chunk not yet granted is withdrawn (R76). -/
def State.suspendCopies (s : State) (t : Nat) : State :=
  let c := (s.team t).core
  let l := (s.core c).copies.filter (fun o => o.atBoundary t)
  (s.updCore c (fun k => { k with
    copies := k.copies.filter (fun o => !o.atBoundary t)
    reqs := if l.any (·.asking) then k.reqs.filter (fun r => r.port != 12) else k.reqs })).updTeam t (fun x => { x with
      copies := x.copies ++ l.map (fun o => { o with asking := false }) })

/-- A quartered operation that still waits to be paired (R170). -/
def MmaOp.unpaired (o : MmaOp) (t : Nat) : Bool :=
  teamOf o.grp == t && o.quartet.isSome && o.quarters.isEmpty && !o.alone && !o.started

/-- Quartered operations that wait for members that no longer issue are kept with the context (DEDUCED, assumption 22). -/
def State.suspendQuartets (s : State) (t : Nat) : State :=
  let c := (s.team t).core
  let l := ((s.core c).arrays.flatMap (·.2)).filter (fun o => o.unpaired t)
  (s.updCore c (fun k => { k with arrays := k.arrays.map (fun e => (e.1, e.2.filter (fun o => !o.unpaired t))) })).updTeam t
    (fun x => { x with mmas := x.mmas ++ l })

/-- Everything of the team that must end before its context is written has ended (R66, R142, R263); an access in parts is written as
they are, and a fence waits on. -/
def State.quiet (s : State) (t : Nat) : Bool :=
  !s.arrayBusy t && !(s.core (s.team t).core).copies.any (fun o => o.pkt.isNone && teamOf o.grp == t) &&
    (s.teamGroups t).all (fun h =>
      let g := s.group h
      g.log.all (fun a => a.parked || a.refused || a.kind == .fence || g.joins.any (·.id == a.id)) && g.longs.isEmpty &&
        (!g.log.isEmpty || g.vploads.isEmpty && g.lpush.isNone))

/-- A boarding as the context keeps it (R66): which ranks have been released; it chooses its lap afresh (R67). -/
def Boarding.kept (b : Boarding) : Boarding := { b with captured := [], landed := [], issued := [], missed := [], lap := none }

/-- Write a team's context: its banks, scratchpad and tiles to its image, its boardings with their released ranks, those that
have retired but owe follow-ons among them; its groups' records stand as they are (R66, R142, R263). -/
def State.writeContext (s : State) (t : Nat) : State :=
  let s0 := s
  let c := (s.team t).core
  let k := s.core c
  let mine := fun (b : Boarding) => teamOf b.grp == t
  let banks := (k.banks.filter (fun e => e.2.team == t && e.2.role != .cache)).map (fun e =>
    (e.1, ({ role := e.2.role, team := t, board := e.2.board } : Bank)))
  let scratch := fun (i : Nat) => banks.any (fun e => e.1 == i && e.2.role == .scratch)
  let tiles := (s.teamGroups t).foldl (fun (m : Tbl Tile) h =>
    let g := s.group h
    (g.tileset.zip (List.range g.tileset.length)).foldl (fun m e => tblPut m (g.grpid * 16 + e.2) (k.tile (g.quad * 16 + e.1))) m) []
  let image : Core :=
    { banks := banks, tiles := tiles, store := k.store.filter (fun e => scratch (e.1 / 65536))
      lpoison := k.lpoison.filter (fun e => scratch (e.1 / 1024)) }
  let s := { s with cores := tblPut s.cores (320 + t) image }
  let s := s.updCore c (fun k => { k with
    boards := k.boards.filter (fun b => !mine b)
    past := k.past.filter (fun b => !mine b)
    fills := k.fills.filter (fun f => !banks.any (fun e => e.1 == f.bank)) })
  let s := (s.teamGroups t).foldl (fun (s : State) h => s.updGroup h (fun g => { g with
    accmap := g.accmap.map (fun e => (e.1, (g.tileset.findIdx (· == e.2)))) })) s
  (s.updArms t (fun a => { a with claimed := false })).updTeam t (fun x => { x with
    life := .written
    mmas := x.mmas.map (fun o =>
      let g := s0.group o.grp
      { o with tile := g.grpid * 16 + g.tileset.findIdx (· == o.tile % 16) })
    boards := (k.boards.filter mine ++ k.past.filter (fun b => mine b && !(List.range b.count).all b.released.contains)).map
      Boarding.kept })

/-- TEAM_SAVE (R66, R76, R142, R247, R263): issue has stopped, a flag wait at its own instruction; taps stop serving, follow-ons
not begun are withdrawn, copies are suspended at their boundaries, and once all is quiet the context is written. -/
def execTeamSave (team : Nat) (s : State) : Out :=
  if (s.team team).life ≠ .saving then .next s
  else
    let c := (s.team team).core
    let s := s.withdrawTokens c (fun h => teamOf h == team)
    let s := (s.teamGroups team).foldl (fun (s : State) h => s.updGroup h (fun g => { g with
      sready := none, lready := none
      swait := match g.swait with | .waitm _ _ _ _ _ _ => .none | w => w })) s
    let s := s.updCore c (fun k => { k with boards := k.boards.map (fun b => if teamOf b.grp == team then { b with off := true } else b) })
    let s := ((s.withdrawFollows team).suspendCopies team).suspendQuartets team
    .next (if s.quiet team then s.writeContext team else s)

/-- SAVE_COMPLETE (R142): the place is freed, and once the whole unit is away it returns to the pending list with its
ARRIVE. -/
def execSaveComplete (team : Nat) (s : State) : Out :=
  let tm := s.team team
  if tm.life ≠ .written ∨ !s.canFlush tm.core then .next s
  else
    .next (((s.freeTeam team).updTeam team (fun x => { x with life := .saved })).collectBack tm.die)

/-! ## Flushing (R143) -/

/-- TEAM_FLUSH (R143): issue has stopped; blocks and queues are discarded and boardings end; when nothing touches the core any
more the place is freed and the team returns to the pending list. What writes only memory runs on. -/
def execTeamFlush (team : Nat) (s : State) : Out :=
  let tm := s.team team
  if tm.life ≠ .flushing then .next s
  else
    let c := tm.core
    let s := (s.endBoards c (fun h => teamOf h == team)).withdrawTokens c (fun h => teamOf h == team)
    let s := (s.teamGroups team).foldl (fun (s : State) h => s.updGroup h (fun g => { g with
      exited := true, swait := .none, run := none, blocks := [], lq := [], sq := [], aq := [], rq := [], longs := [], vploads := []
      lpush := none, joins := [], sblock := none, lblock := none })) s
    if s.coreBusy team || !s.canFlush c then .next s
    else .next (((s.freeTeam team).updTeam team (fun x => { x with life := .flushed })).collectBack tm.die)

end Sys2Proof.Machine
end

