-- ==== Sys2Proof/Machine/Firmware.lean ====
section
/-!
DEFINITION. Boot and resets (R25 to R27, R87, R118), firmware heartbeats and the always-on watchdog (R117). -/
namespace Sys2Proof.Machine

/-- A firmware core. DESIGN CHOICE: assumption 4. -/
def Firm.core (f : Firm) (i : Nat) : FwCore := tblGet {} f.cores i

/-- Change a firmware core. -/
def State.updFw (s : State) (i : Nat) (f : FwCore → FwCore) : State :=
  { s with firm := { s.firm with cores := tblPut s.firm.cores i (f (s.firm.core i)) } }

/-! ## Images (R28 to R30) -/

/-- Both signatures on some bytes verify (R28). -/
def bothVerify (ed ml body sig1 sig2 : List Byte) : Bool := Config.ed25519Ok ed body sig1 && Config.mlDsaOk ml body sig2

/-- The bytes of an image that its signatures sign (R29). -/
def imageSigned (b : List Byte) : List Byte := b.take 64 ++ b.drop 3440

/-- The vendor's keys are those whose hashes are fused (R30). -/
def vendorKeysOk : Bool := sha256 Config.vendorEd == Config.fusedHashes.1 && sha256 Config.vendorMl == Config.fusedHashes.2

/-- F0 accepts an image for a core (R28 to R30). -/
def Firm.accepts (f : Firm) (core : Nat) (b : List Byte) : Bool :=
  let body := b.drop 3440
  decide (3440 ≤ b.length) && numAt b 0 4 == 0x5A424C53 && numAt b 4 2 == 1 && numAt b 6 1 == core && zeroAt b 7 1 && zeroAt b 12 4 &&
    zeroAt b 3437 3 && numAt b 24 8 == body.length && bytesAt b 32 32 == sha256 body &&
    decide (tblGet 0 f.rollback core ≤ numAt b 8 4) && vendorKeysOk &&
    bothVerify Config.vendorEd Config.vendorMl (imageSigned b) (bytesAt b 64 64) (bytesAt b 128 3309)

/-- The image of a core in the module's flash (R26). -/
def Firm.image (f : Firm) (core : Nat) : List Byte := (tblFind f.flash core).getD (Config.flashImage core)

/-- A core runs an image (R29). -/
def FwCore.run (_ : FwCore) (b : List Byte) : FwCore :=
  { running := true, secver := numAt b 8 4, digest := BitVec.ofNat 256 (numAt b 32 32), base := numAt b 16 8 }

/-- Start firmware cores with the images in flash, which have been verified. -/
def State.startFw (s : State) (l : List Nat) : State := l.foldl (fun s i => s.updFw i (fun c => c.run (s.firm.image i))) s

/-! ## Boot (R26, R27) -/

/-- The Float starts with P and PS at PFLOOR and every bucket full (R87). -/
def State.startFloat (s : State) : State :=
  let floor := watts (flField s.power.flcfg 12 12)
  { s with
    power := { s.power with
      p := floor, ps := floor, pkg := 16777216 * 10 ^ 12, reqs := [], ptr := 0, granted := 0, stalls := 0, coat := 0
      short := false, count := 0, dhist := [], shist := [], flstat := 0 }
    dies := (List.range 8).foldl (fun t d => tblPut t d { s.die d with bucket := 1048576, flight := [], reqs := [], choked := false }) s.dies
    cores := (List.range 320).foldl (fun t c => tblPut t c { s.core c with bucket := 16384, flight := [], reqs := [] }) s.cores }

/-- F0 loads every die's TIME with the reference value plus 2,048 ns plus the transit time; it only moves forwards (R25). The
Float's first interval is counted from here. -/
def State.loadTime (s : State) : State :=
  let t := s.firm.time + 2048 + Config.transit
  let s := (List.range 8).foldl (fun (s : State) d => s.updDie d (fun k => { k with
    time := max k.time t % 2 ^ 64, slew := false, skip := false, slewTo := 0, told := t, synced := t })) s
  { s with power := { s.power with due := (s.die 0).time + 1000 }, firm := { s.firm with reviewed := (s.die 0).time } }

/-- A boot step of a bring-up succeeds (R26): the images it verifies are accepted, and what it trains and tests is good. -/
def State.bootOk (s : State) (k : Nat) : Bool :=
  (match k with
    | 2 => s.firm.accepts 0 (s.firm.image 0)
    | 3 => s.firm.accepts 7 (s.firm.image 7)
    | 6 => [1, 2, 3, 4, 5, 6].all (fun i => s.firm.accepts i (s.firm.image i))
    | _ => true) && Config.bootStepOk s.firm.boots k

/-- What a boot step does once it succeeds (R26). The ready signal of step 8 is a message of the model's own on each main port
and the side-band port, all of which it takes to be linked, and none on SMBus (DESIGN CHOICE, assumption 10). -/
def State.bootStep (s : State) (k : Nat) : State :=
  let s := { s with firm := { s.firm with step := k } }
  match k with
  | 2 => s.startFw [0]
  | 3 => s.startFw [7]
  | 4 => { s with firm := { s.firm with regs := 8 } }
  | 5 => { s with links := [] }
  | 6 => { s.startFw [1, 2, 3, 4, 5, 6] with ring := {}, firm := { (s.startFw [1, 2, 3, 4, 5, 6]).firm with since := s.clock } }.startFloat
  | 7 => s.loadTime
  | 8 =>
    { s with
      firm := { s.firm with
        up := true, stopped := false
        log := s.firm.log ++ (List.range 8).map (fun i => (i, (s.firm.core i).digest)) }
      out := s.out ++ (List.range 9).map (fun p => ({ kind := .link, port := p } : Msg)) }
  | _ => s

/-- Boot steps from `k` on, each begun only when the one before has succeeded; a failure stops the device in recovery, where
management reads the step and its cause (R27). -/
def State.boot (s : State) (l : List Nat) : State :=
  l.foldl (fun s k =>
    if s.firm.recovery then s
    else if s.bootOk k then s.bootStep k
    else { s with firm := { s.firm with recovery := true, failed := k, cause := Config.bootCause s.firm.boots k } }) s

/-- The package with its compute side down, as F0 begins to bring it up: what lies outside it and what the model keeps for
itself stands. DEDUCED: assumption 34. -/
def State.blank (s : State) (firm : Firm) (times : Bool) : State :=
  let r := State.reset
  { r with
    firm := firm
    dies := if times then (List.range 8).map (fun d => (d, { time := (s.die d).time })) else []
    pricever := s.pricever, out := s.out, clock := s.clock, agenda := s.agenda, turnNo := s.turnNo, freeNo := s.freeNo
    nextId := s.nextId }

/-- Application of 48 V (R25, R26): fused counters and the images in flash persist. -/
def State.powerUp (s : State) : State :=
  let firm : Firm :=
    { rollback := s.firm.rollback, flash := s.firm.flash, boots := s.firm.boots + 1 }
  (s.blank firm false).boot [2, 3, 4, 5, 6, 7, 8]

/-- COLD_RESET (R25, R26). -/
def execColdReset (s : State) : Out := .next s.powerUp

/-- A compute-side reset (R15, R25, R118): boot steps 4 to 8 run again; every queue, mapping, lap image and job is gone. -/
def State.resetCompute (s : State) : State :=
  let firm := { s.firm with
    step := 3, up := false, recovery := false, stopped := false, failed := 0, cause := 0, regs := 0, boots := s.firm.boots + 1
    load := [], mail := [], telem := [], errors := [], resetting := none
    cores := s.firm.cores.map (fun e => (e.1, if e.1 = 0 ∨ e.1 = 7 then e.2 else { e.2 with running := false, missed := 0 })) }
  (s.blank firm true).boot [4, 5, 6, 7, 8]

/-! ## The answer to a command (R106), and a reset that waits (R118) -/

/-- A command transport header (R106). -/
def cmdHeader (flags cmd seq len status : Nat) (auth : Word) : List Byte :=
  leBytes 2 0x4C55 ++ leBytes 1 1 ++ leBytes 1 flags ++ leBytes 2 cmd ++ leBytes 2 0 ++ leBytes 8 seq ++ leBytes 4 len ++
    leBytes 2 status ++ leBytes 2 0 ++ leBytes 8 auth.toNat

/-- AUTH of a message on the side-band port (R106): the first 8 bytes of HMAC-SHA-256 under the management key. -/
def commandAuth (b : List Byte) : Word := BitVec.ofNat 64 (leNat ((hmac256 Config.managementKey b).take 8))

/-- The device's response to a command (R106). -/
def State.respond (s : State) (h : CmdHdr) (cmd status : Nat) (payload : List Byte) : State :=
  let flags := if status = 0 then 1 else 3
  let auth : Word :=
    if h.port = 8 then commandAuth (cmdHeader flags cmd h.seq payload.length status 0 ++ payload) else 0
  ({ s with out := s.out ++ [{ kind := .response, port := h.port, qp := 1, code := cmd
                               bytes := cmdHeader flags cmd h.seq payload.length status auth ++ payload }] } : State).ethernet
    h.port (32 + payload.length)

/-- A record or signal is on its way to host memory, and will come to it (R113, R118): what waits for an acknowledgement on a queue
pair in the error state does not, nor what has not been sent when a link is down. -/
def State.recordsOut (s : State) : Bool :=
  let far := fun (a : Nat) => a != 0 && (match s.farEnd 0 a with | some (some _) => true | _ => false)
  s.posts.any (fun p =>
    if p.wait then s.remote.any (fun r => r.use == .post p.id && !(tblGet {} s.qps (qpKey r.port r.qp)).err)
    else (far p.status || far p.csig) && !s.links.any (·.2.down))

/-- A RESET that waited for records is performed, and answered, once they are out (R118). -/
def State.finishReset (s : State) : State :=
  match s.firm.resetting with
  | none => s
  | some h =>
    if s.recordsOut then s
    else ({ s with firm := { s.firm with resetting := none } }.resetCompute).respond h 0x0041 0 []

/-! ## Heartbeats (R117) -/

/-- FIRMWARE_HEARTBEAT (R117): a firmware core takes the messages in its mailbox, and F0, which takes each message as it comes,
hears from it (DESIGN CHOICE, assumption 44). F1, which performs commands, finishes a RESET that waited (R118). -/
def execFirmwareHeartbeat (core : Nat) (s : State) : Out :=
  if core = 0 ∨ 8 ≤ core ∨ !s.firm.powered then .next s
  else
    let s := (s.takeMail core).updFw core (fun c => { c with missed := 0 })
    .next (if core = 1 then s.finishReset else s)

/-- HEARTBEAT_MISS (R117): at the tenth miss in a row F0 resets the core from its verified image and tells F6; the grids that
F2 was tracking complete with CODE DEVICE. -/
def execHeartbeatMiss (core : Nat) (s : State) : Out :=
  if core = 0 ∨ 8 ≤ core ∨ !s.firm.powered then .next s
  else
    let n := (s.firm.core core).missed + 1
    if n < 10 then .next (s.updFw core (fun c => { c with missed := n }))
    else
      let s := (s.startFw [core]).tellF6 core 0
      .next (if core = 2 then s.deviceEnd else s)

/-- ALWAYS_ON_WATCHDOG (R27, R117): F0, which ran, has stopped: the compute side is reset, and running grids are lost without a
record. A device whose boot has not come past step 3 stays where it is. -/
def execAlwaysOnWatchdog (s : State) : Out :=
  if !s.firm.powered || decide (s.firm.step < 3) then .next s else .next (s.startFw [0]).resetCompute

end Sys2Proof.Machine
end

