-- ==== Sys2Proof/Machine/Trig.lean ====
section
/-!
DEFINITION. Triggers (R346 to R348, R413): arming a command, installing it at its counter's home, and the entry of a
fired command into its engine. -/
namespace Sys2Proof.Machine

/-! ## The armed command -/

/-- A command read with slots in place of registers. -/
inductive Armed where
  | copy (o : CopyOp)
  | remote (j : RemoteJob)
  | coll (addr : Nat) (sig : Option Nat)

/-- A register field names a slot or s63 (R346). -/
def slotField (r : Nat) : Bool := r ≤ 6 || r == 63

/-- The value of a slot. -/
def slotValue (slots : List Word) (r : SReg) : Word := slots[r.toNat]?.getD 0

/-- The armed command of two words and slots for a group; none where it is no such command or a check of its own fails
(R346). -/
def State.armed (s : State) (h w1 w2 : Nat) (slots : List Word) : Option Armed :=
  let rd := slotValue slots
  match decodeScalar w1 w2 with
  | .ok (.copy d x l w) =>
    if [d.toNat, x.toNat, l.toNat, fld w2 0 6].all slotField then (s.buildCopy h rd d x l w.toNat).map .copy else none
  | .ok (.copyx d x l w) =>
    if [d.toNat, x.toNat, l.toNat, fld w2 0 6, fld w2 12 6].all slotField then (State.buildCopyx h rd d x l w.toNat).map .copy
    else none
  | .ok (.rput l r n w) => remote 0 rd l r n w
  | .ok (.rget l r n w) => remote 1 rd l r n w
  | .ok (.rred l r n w) => remote 2 rd l r n w
  | .ok (.coll a _) =>
    let x := (rd a).toNat
    if slotField a.toNat && slotField (fld w2 0 6) && x % 64 == 0 then some (.coll x (signalOf rd (fld w2 0 6))) else none
  | _ => none
where
  /-- A remote command. -/
  remote (kind : Nat) (rd : Operands) (l r n : SReg) (w : BitVec 32) : Option Armed :=
    if [l.toNat, r.toNat, n.toNat, fld w.toNat 0 6, fld w.toNat 6 6].all slotField then
      (buildRemote h kind rd l r n w.toNat).map .remote
    else none

/-- The class a command enters (R326). -/
def Armed.cls : Armed → Nat
  | .copy _ => 0
  | .remote _ => 4
  | .coll _ _ => 3

/-- The TOB bank that the command fills. -/
def Armed.bank : Armed → Option Nat
  | .copy o => o.tob
  | _ => none

/-- The command acts beyond the core (R257). -/
def Armed.beyond (s : State) (h : Nat) : Armed → Bool
  | .copy o => !s.inWindow h o.dst
  | .remote j => j.kind != 1 || !s.inWindow h j.loc
  | .coll _ _ => true

/-- The command reaches local store (R143, R262); `b` is the descriptor of a `coll`. -/
def Armed.touch (b : List Byte) : Armed → Bool
  | .copy o => localAddr o.dst || localAddr o.src || (o.sig.map localAddr).getD false
  | .remote j => localAddr j.loc || (j.kind == 1 && (j.sig.map localAddr).getD false)
  | .coll _ sig => let k := collOf b 0 0 sig; localAddr k.src || localAddr k.dst || localAddr k.status || (sig.map localAddr).getD false

/-- What an armed command has read at its `trig` for its own checks: the descriptor of a `coll` (R346). -/
def State.pullArmed (s : State) (g : Group) : Armed → Pulled
  | .coll x _ => s.pull g x 64
  | _ => .bytes []

/-- The descriptor of an armed `coll` is within its limits (R342, R346). -/
def Armed.limitsOk (b : List Byte) : Armed → Bool
  | .coll _ _ => collOk b
  | _ => true

/-- TRIG (R346): the 64-byte descriptor is read at issue, once the group's earlier writes are performed (R204), and that of an armed
`coll` with it; the command enters its class, and its arm goes to the home of the counter. -/
def execTrig (d c t : SReg) (w : BitVec 32) (s : State) : Out :=
  onScalar s (fun g =>
    let x := (g.sread d).toNat
    let fail := fun (cause y : Nat) => (s.put (g.advance 8)).reportGroup s.cur cause (y % 2 ^ 56) false g.pc 0xFF
    if x % 8 ≠ 0 then s.trap s.cur { cause := 0x01 }
    else
      match s.pull g x 0 with
      | .wait s => s
      | .fault cause y => fail cause y
      | .bytes b =>
        let slots := (List.range 7).map (fun i => BitVec.ofNat 64 (numAt b (8 + 8 * i) 8))
        match (if zeroAt b 4 4 then s.armed s.cur w.toNat (numAt b 0 4) slots else none) with
        | none => s.trap s.cur { cause := 0x01 }
        | some k =>
          match s.pullArmed g k with
          | .wait s => s
          | .fault cause y => fail cause y
          | .bytes b2 =>
            if !k.limitsOk b2 then s.trap s.cur { cause := 0x01 }
            else if 255 ≤ g.outCount k.cls then s.scalarWaits g
            else
              let arm : Arm := { id := s.nextId, grp := s.cur, cls := k.cls, addr := (g.sread c).toNat, thr := (g.sread t).toNat
                                 w1 := w.toNat, w2 := numAt b 0 4, slots := slots, seq := g.seq, seen := g.sseen, bank := k.bank
                                 touch := k.touch b2, pc := g.pc }
              s.command g k.cls 8 (k.beyond s s.cur) (commandRecord x (b ++ leBytes 4 w.toNat ++ leBytes 8 arm.addr ++ leBytes 8 arm.thr))
                (fun s => { s with arming := s.arming ++ [arm] }))

/-! ## Arming (R346) and firing (R347) -/

/-- The grid of a group has ended: every team of it has exited or been killed (R348). -/
def State.gridOver (s : State) (h : Nat) : Bool :=
  let gr := s.gridOf h
  decide (gr.teams ≤ gr.ended)

/-- Armed commands at a die's homes. -/
def State.armsAt (s : State) (d : Nat) : Nat :=
  ((s.arms.filter (fun e => s.homeDie e.1 == d)).map (fun e => e.2.length)).foldl (· + ·) 0

/-- An arm, or a fired command at its engine's door, faults at an address (R346, R189). -/
def State.failArm (s : State) (a : Arm) (cause addr : Nat) : State := s.engineFault a.grp a.cls a.id a.pc cause addr

/-- TRIGGER_ARM (R346, R347): the oldest arm on its way to a die's homes is performed while the table has room; a
threshold already met fires at once. -/
def execTriggerArm (die : Nat) (s : State) : Out :=
  match s.arming.find? (fun a => s.homeDie (a.addr % 2 ^ 56) == die) with
  | none => .next s
  | some a =>
    let x := a.addr % 2 ^ 56
    let s' := { s with arming := s.arming.filter (fun y => y.id != a.id) }
    if s.gridOver a.grp then .next (s'.updGroup a.grp (fun g => g.complete a.cls a.id))
    else if x % 8 ≠ 0 then .next (s'.failArm a 0x12 a.addr)
    else
      match pageAt s.pages x with
      | none => .next (s'.failArm a (if 0xF0 * 2 ^ 48 ≤ x then 0x11 else 0x10) a.addr)
      | some (_, p) =>
        if p.kind ≠ .hbm ∧ p.kind ≠ .scratch then .next (s'.failArm a 0x11 a.addr)
        else if !p.backed && p.failed.contains (.op a.id) then .next (s'.failArm a 0x10 a.addr)
        else if !p.backed then .next (s.awaitBacking (.op a.id) a.grp x 8)
        else if p.refuses true || 4096 ≤ s.armsAt die || s.tripBlocked (s.dieOf a.grp) die then .next s
        else .next ((({ s' with arms := tblPut s.arms x (tblGet [] s.arms x ++ [a]) } : State).roundTrip (s.dieOf a.grp) die 64 0).fireWord x)

/-- The group's team is saved, or about to be, so that it stands on no core (R413). -/
def State.isAway (s : State) (h : Nat) : Bool :=
  let l := (s.team (teamOf h)).life
  l == .saving || l == .written || l == .saved || l == .flushing || l == .flushed

/-- The command, as its engine is to have it. -/
def State.commandOf (s : State) (a : Arm) : Option Armed := s.armed a.grp a.w1 a.w2 a.slots

/-- A fired command goes to the copy engine of the core on which the arming team then stands (R347). -/
def State.toCopies (s : State) (a : Arm) : Bool :=
  match s.commandOf a with
  | some (.copy _) => true
  | some (.remote j) => s.ownValid j.slot j.rank
  | _ => false

/-- Whether a fired command can enter its engine now (R347, R413). -/
def State.entryOf (s : State) (a : Arm) : Bool :=
  !s.isAway a.grp && (!s.toCopies a || decide ((s.core (s.coreOf a.grp)).copies.length < 32))

/-- The engine a fired command enters, as a number: the copy engine of a core, or that for its other commands; the commands of a
team that is away stand in a row of their own (R347). DEDUCED: assumption 24. -/
def State.engineOf (s : State) (a : Arm) : Nat :=
  if s.isAway a.grp then 1024 + teamOf a.grp else 2 * s.coreOf a.grp + (s.toCopies a).toNat

/-- A command that another die's homes fired earlier waits for the same engine (R347). -/
def State.firedBefore (s : State) (die : Nat) (a : Arm) : Bool :=
  s.fired.any (fun e => e.1 != die && e.2.any (fun b => decide (b.when < a.when) && s.engineOf b == s.engineOf a))

/-- The first command fired at a die's homes that may move: those fired earlier for the same engine go first. -/
def State.nextFired (s : State) (die : Nat) : List Arm → List Nat → Option Arm
  | [], _ => none
  | a :: t, blocked =>
    if s.entryOf a && !blocked.contains (s.engineOf a) && !s.firedBefore die a then some a
    else State.nextFired s die t (s.engineOf a :: blocked)

/-- A fired command leaves the engine's door. -/
def State.dropFired (s : State) (a : Arm) : State :=
  { s with fired := (s.fired.map (fun e => (e.1, e.2.filter (fun y => y.id != a.id)))).filter (fun e => !e.2.isEmpty) }

/-- A copy enters its engine; its TOB bank is one that its firing took, or is FREE (R55, R413). -/
def State.enterCopyOf (s : State) (a : Arm) (o : CopyOp) : State :=
  let c := s.coreOf a.grp
  let free := s.tobFree a.grp o || (a.claimed && o.tob == a.bank)
  if free && (o.tob.isSome || a.bank.isNone) then s.updCore c (fun k => k.enterCopy { o with id := a.id, seq := a.seq, seen := a.seen, pc := a.pc })
  else s.failArm a 0x11 o.dst

/-- A fired `coll` reads its descriptor, as its issue does, and starts (R342, R347); until its page is backed and its remote end has
answered, the command stays at the door. -/
def State.enterColl (s : State) (a : Arm) (x : Nat) (sig : Option Nat) : State :=
  let c := s.coreOf a.grp
  let start := fun (s : State) (b : List Byte) =>
    let s := (s.dropGather a.fetch).dropFired a
    if !collOk b then s.failArm a 0x11 x
    else
      let limit := if numAt b 20 4 = 0 then none else some (s.timeOf a.grp + 1000 * numAt b 20 4)
      s.startColl { collOf b a.id a.grp sig with limit := limit, pc := a.pc }
  match s.rangeFault (.op a.id) a.grp .read false x 64 with
  | some (cause, y) => (s.dropFired a).failArm a cause y
  | none =>
    if s.rangeWaits a.grp c false x 64 then s.awaitBacking (.op a.id) a.grp x 64
    else if !s.farRange a.grp x 64 then
      let (s, b, _) := (s.acquireAt c 5).engineRead a.grp c x 64 0
      start s b
    else
      match a.fetch with
      | none =>
        let (s, key) := s.gather a.grp c x 64
        { s with fired := s.fired.map (fun e => (e.1, e.2.map (fun y => if y.id == a.id then { y with fetch := some key } else y))) }
      | some key =>
        match s.gathered key with
        | .waits => s
        | .refused => ((s.dropGather a.fetch).dropFired a).failArm a 0x11 x
        | .here => start (s.acquireAt c 5) ((List.range 64).map (fun i => tblGet 0 (tblGet {} s.fetches key).got i))

/-- A fired command enters its engine as though its group issued it then, after an acquire at system scope (R347, R413). What no
longer makes a command faults at its counter (DESIGN CHOICE, assumption 24). -/
def State.enterFired (s : State) (a : Arm) : State :=
  match s.commandOf a with
  | none => (s.dropFired a).failArm a 0x11 a.addr
  | some (.copy o) => ((s.acquireAt (s.coreOf a.grp) 5).dropFired a).enterCopyOf a o
  | some (.remote j) =>
    let s := (s.acquireAt (s.coreOf a.grp) 5).dropFired a
    let j := { j with id := a.id, seq := a.seq, seen := a.seen, pc := a.pc }
    if s.ownValid j.slot j.rank then s.updCore (s.coreOf a.grp) (fun k => k.enterCopy j.served) else { s with remotes := s.remotes ++ [j] }
  | some (.coll x sig) => s.enterColl a x sig

/-- FIRED_COMMAND_ENTRY (R347, R413): the next fired command of a die's homes enters its engine. -/
def execFiredCommandEntry (die : Nat) (s : State) : Out :=
  match s.nextFired die (tblGet [] s.fired die) [] with
  | none => .next s
  | some a => .next (s.enterFired a)

end Sys2Proof.Machine
end

