-- ==== Sys2Proof/Machine/Commands.lean ====
section
/-!
DEFINITION. Control commands (R86, R105 to R110, R116, R118, R180 to R182, R419, R421, R422): their framing, and what
each does. -/
namespace Sys2Proof.Machine

/-! ## Framing (R106, R107) -/

/-- What the AUTH field of a command signs: its header with AUTH zeroed, and the payload (R106). -/
def cmdSigned (h : CmdHdr) (cmd : Nat) : List Byte :=
  leBytes 2 h.magic ++ leBytes 1 h.ver ++ leBytes 1 h.flags ++ leBytes 2 cmd ++ leBytes 2 h.resv ++ leBytes 8 h.seq ++
    leBytes 4 h.len ++ leBytes 4 (h.resv / 65536) ++ leBytes 8 0 ++ h.payload

/-- The largest payload of a port (R106). -/
def cmdBound (h : CmdHdr) : Nat := if h.port < 8 then 65536 else 8192

/-- A command is heard at all: its port is in service, MAGIC and VER are right, and AUTH verifies on the side-band port
(R106, R118). -/
def State.hears (s : State) (h : CmdHdr) (cmd : Nat) : Bool :=
  s.firm.powered && (if h.port < 8 then s.serves h.port 1 else decide (h.port ≤ 9 ∧ 3 ≤ s.firm.step)) &&
    h.magic == 0x4C55 && h.ver == 1 &&
    (h.port != 8 || h.auth == commandAuth (cmdSigned h cmd))

/-- The header is well formed (R106). A response flag or an error flag set in a command is let pass, a LEN beyond its port's
bound or other than the payload that came makes it bad, and SMBus has the side-band port's bound (DESIGN CHOICE, assumption 35). -/
def cmdOk (h : CmdHdr) : Bool :=
  decide (h.flags < 4) && h.resv == 0 && h.len == h.payload.length && decide (h.len ≤ cmdBound h) && (h.port == 8 || h.auth == 0)

/-- A response, the message from place n on of what goes out, is held while requests that were translated to some pages are not
answered (R182). -/
def State.holdFor (s : State) (n : Nat) (pages : List Nat) : State :=
  if pages.any (fun b => s.remote.any (fun r => r.via == some b)) then
    { s with out := s.out.take n, unmaps := s.unmaps ++ (s.out.drop n).map (fun m => { msg := m, pages := pages }) }
  else s

/-- In the place of a status: the command has not finished, and is answered later (R118). -/
def unanswered : Nat := 65536

/-- A command (R15, R106, R107): what no port hears is dropped; a bad header, an unknown CMD, a port that does not accept the
command, and a stopped device are answered so; else it has its effect, which gives a status and a payload. `ports` says which
ports accept it, `always` that a stopped device answers it on the main ports too, `awaits` the pages whose requests its response
waits for; a RESET that waits is not answered yet (R118). -/
def onCommand (s : State) (h : CmdHdr) (cmd : Nat) (ports : Nat → Bool) (always : Bool)
    (f : State → State × Nat × List Byte) (awaits : State → List Nat := fun _ => []) : Out :=
  let code := h.unknown.getD cmd
  let s' := s.ethernet h.port (32 + h.payload.length)
  if !s.hears h code then .next s
  else if !cmdOk h || h.unknown.isSome then .next (s'.respond h code 1 [])
  else if s.firm.stopped && decide (h.port < 8) && !always then .next (s'.respond h cmd 4 [])
  else if !ports h.port then .next (s'.respond h cmd 3 [])
  else
    match f s' with
    | (t, status, payload) =>
      .next (if status = unanswered then t else
        let u := t.respond h cmd status payload
        if status = 0 then u.holdFor t.out.length (awaits s') else u)

/-- The main ports. -/
def mainPort (p : Nat) : Bool := decide (p < 8)
/-- The side-band port and SMBus. -/
def managePort (p : Nat) : Bool := p == 8 || p == 9

/-! ## Queues (R108, R110, R421, R422) -/

/-- Where the region of queue pages stands (R421). -/
def descRegion : Nat := 0xEFFFFFFF000000
/-- Where the kick pages stand (R421). -/
def kickRegion : Nat := 0xEFFFFFFF200000

/-- Map a page of the queue region the first time it is needed (R421). -/
def State.queuePage (s : State) (base die : Nat) (kind : PageKind) : State :=
  if (tblFind s.pages base).isSome then s else { s with pages := tblPut s.pages base { kind := kind, home := die } }

/-- The remote key of the queue region, the same for every queue (R421); its value is a free value (DESIGN CHOICE, assumption 5). -/
def State.withKickKey (s : State) : State :=
  match s.kickKey with
  | some _ => s
  | none =>
    let (w, s) := s.free
    { s with kickKey := some (w.setWidth 32) }

/-- A ring lies in memory that may be read and written (R421). -/
def State.ringOk (s : State) (base log2 : Nat) : Bool :=
  s.allMapped base (128 * 2 ^ log2) (fun p => (p.kind == .hbm || p.kind == .scratch) && p.allows .read && p.allows .write)

/-- QCREATE (R421). -/
def execQcreate (h : CmdHdr) (base log2size die priomax : Nat) (s : State) : Out :=
  onCommand s h 0x0001 mainPort false (fun s =>
    if base % 4096 ≠ 0 || log2size < 6 || 16 < log2size || 8 ≤ die || 4 ≤ priomax || !s.ringOk base log2size then (s, 2, [])
    else
      match (List.range 4096).find? (fun n => (tblFind s.queues n).isNone) with
      | none => (s, 6, [])
      | some n =>
        let desc := descRegion + die * 0x40000 + 64 * n
        let kick := kickRegion + die * 0x10000 + 8 * n
        let s := ((s.queuePage (desc / 65536 * 65536) die .desc).queuePage (kickRegion + die * 0x10000) die .kick).withKickKey
        let q : Queue := { base := base, log2 := log2size, die := die, priomax := priomax, kickva := kick, descva := desc }
        ({ s with queues := tblPut s.queues n q }, 0,
          leBytes 8 desc ++ leBytes 4 n ++ leBytes 4 (s.kickKey.getD 0).toNat))

/-- The live queue whose descriptor stands at an address. -/
def State.queueAt (s : State) (desc : Nat) : Option (Nat × Queue) := s.queues.find? (fun e => e.2.descva == desc)

/-- The number given to a queue that is no more. -/
def noQueue : Nat := 2 ^ 32

/-- QDESTROY (R110): running grids of the queue are killed with CANCELLED, and the kick register becomes inert. Its packets that
were taken and have not started, and a WAIT that holds it, are let go without record or signal (DESIGN CHOICE, assumption 61). -/
def execQdestroy (h : CmdHdr) (desc : Nat) (s : State) : Out :=
  onCommand s h 0x0002 mainPort false (fun s =>
    match s.queueAt desc with
    | none => (s, 2, [])
    | some (n, _) =>
      let mine := tblKeys (s.grids.filter (fun e => e.2.queue == n))
      let s := mine.foldl (fun s g => (s.killGrid g 7).updGrid g (fun x => { x with queue := noQueue })) (s.dropTaken n)
      ({ s with
          queues := tblDel s.queues n
          packets := s.packets.map (fun e => if e.2.queue = n then (e.1, { e.2 with queue := noQueue }) else e)
          posts := s.posts.map (fun p => if p.queue = n then { p with queue := noQueue } else p)
          remote := s.remote.map (fun r => match r.use with
            | .wait q => if q = n then { r with use := .plain } else r
            | .signal q _ => if q = n then { r with use := .plain } else r
            | _ => r) }, 0, []))

/-- QSTOP (R110, R422). -/
def execQstop (h : CmdHdr) (desc : Nat) (s : State) : Out :=
  onCommand s h 0x0003 mainPort false (fun s =>
    match s.queueAt desc with
    | none => (s, 2, [])
    | some (n, q) => (if q.state = .active then s.updQueue n (fun q => { q with state := .stopped }) else s, 0, []))

/-- Leave ERROR (R110): but for an OVERRUN, the packet at ERRIDX is not taken again; a WAIT that timed out is past. -/
def State.leaveError (s : State) (n : Nat) : State :=
  let q := s.queue n
  if q.errcode = 8 then s
  else if q.rdidx = q.erridx then
    s.updQueue n (fun q => { q with skip := true })
  else s.updQueue n (fun q => { q with waiting := none })

/-- QRESUME (R110, R422): packets already taken stay so. -/
def execQresume (h : CmdHdr) (desc : Nat) (s : State) : Out :=
  onCommand s h 0x0004 mainPort false (fun s =>
    match s.queueAt desc with
    | none => (s, 2, [])
    | some (n, q) =>
      if q.state = .active then (s, 0, [])
      else
        let s := if q.state = .error then s.leaveError n else s
        ((s.updQueue n (fun q => { q with state := .active, empty := false })).skipSlot n, 0, []))

/-! ## Mapping (R179 to R182, R419) -/

/-- An entry of a MAP or UNMAP list: the range's first address, its pages, their size and the entry's bytes. -/
structure MapEntry where
  va    : Nat := 0
  n     : Nat := 0
  size  : Nat := 65536
  bytes : List Byte := []
deriving DecidableEq, Repr

/-- A page size by its code (R180). -/
def pageSize (c : Nat) : Nat := if c = 0 then 65536 else if c = 1 then 2 ^ 21 else 2 ^ 30

/-- A list cut into pieces of n bytes. -/
def cut (n : Nat) (b : List Byte) : List (List Byte) := (List.range (b.length / max 1 n)).map (fun i => bytesAt b (i * n) n)

/-- The end of an entry's range. -/
def MapEntry.last (e : MapEntry) : Nat := e.va + e.n * e.size

/-- VA, NPAGES and SIZE are within their limits (R180, R419). -/
def MapEntry.rangeOk (e : MapEntry) (code : Nat) : Bool :=
  decide (code ≤ 2) && e.va % e.size == 0 && decide (1 ≤ e.n) && decide (e.n ≤ 1048576) && decide (e.last ≤ 0xF0 * 2 ^ 48)

/-- The range reaches into the queue region (R421). -/
def MapEntry.reserved (e : MapEntry) : Bool := decide (e.va < descRegion + 0x280000) && decide (descRegion < e.last)

/-- A MAP entry (R180). -/
def mapEntryOf (b : List Byte) : MapEntry :=
  { va := numAt b 0 8, n := numAt b 16 4, size := pageSize (numAt b 20 1), bytes := b }

/-- A MAP entry keeps to the limits and the permissions of its kind (R180). -/
def MapEntry.mapOk (e : MapEntry) : Bool :=
  let b := e.bytes
  let kind := numAt b 21 1
  let perm := numAt b 23 1
  e.rangeOk (numAt b 20 1) && !e.reserved && (kind == 0 || kind == 1 || kind == 3) && decide (numAt b 22 1 < 8) && zeroAt b 28 4 &&
    (if kind = 3 then decide (numAt b 8 8 < 2 ^ 56) && decide (numAt b 24 4 < 2 ^ 24) else zeroAt b 8 8 && zeroAt b 24 4) &&
    (kind != 3 || fld perm 3 2 == 0) && (kind == 0 || fld perm 7 1 == 0) && (kind != 1 || numAt b 20 1 != 2)

/-- A range overlaps a mapping that stands. -/
def MapEntry.meets (e : MapEntry) (pages : Tbl Page) : Bool :=
  pages.any (fun x => decide (x.1 < e.last) && decide (e.va < x.1 + x.2.size))

/-- No two entries of a list overlap. -/
def entriesApart : List MapEntry → Bool
  | [] => true
  | e :: t => t.all (fun x => decide (x.last ≤ e.va) || decide (e.last ≤ x.va)) && entriesApart t

/-- The places of a die's scratch in use: the first 64 KiB part and the number of parts (R181). -/
def scratchUsed (pages : Tbl Page) (die : Nat) : List (Nat × Nat) :=
  (pages.filter (fun e => e.2.kind == .scratch && e.2.home == die)).map (fun e => (e.2.unit, e.2.size / 65536))

/-- Where a page of scratch is placed: in a unit already carved if one has room, else in a new one; at most 16 (R181). -/
def scratchPlace (used : List (Nat × Nat)) (parts : Nat) : Option Nat :=
  let free := fun (p : Nat) => used.all (fun u => decide (u.1 + u.2 ≤ p) || decide (p + parts ≤ u.1))
  let carved := fun (p : Nat) => used.any (fun u => u.1 / 256 == p / 256)
  let all := (List.range (4096 / max 1 parts)).map (· * parts)
  match all.find? (fun p => free p && carved p) with
  | some p => some p
  | none => all.find? free

/-- Map one page of an entry (R180, R181): status 6 when it finds no backing on its home die. What the cache of a die held in the
ways that scratch takes leaves it. A PEER page belongs to the job of the lowest slot held then, slot 0 where there is none (DESIGN
CHOICE, assumption 59). -/
def State.mapPage (s : State) (e : MapEntry) (key : BitVec 32) (i : Nat) : Option State :=
  let b := e.bytes
  let home := numAt b 22 1
  let perm : BitVec 8 := BitVec.ofNat 8 (numAt b 23 1)
  let va := e.va + i * e.size
  let p : Page := { size := e.size, home := home, perm := perm, rkey := if perm.getLsbD 5 then some key else none }
  let put := fun (p : Page) => some ({ s with pages := tblPut s.pages va p } : State)
  match numAt b 21 1 with
  | 0 =>
    if perm.getLsbD 7 then put { p with backed := false }
    else if s.hbmRoom home e.size then put p else none
  | 1 => (scratchPlace (scratchUsed s.pages home) (e.size / 65536)).bind (fun u => (put { p with kind := .scratch, unit := u }).map (fun s => s.trimLlc home))
  | _ => put { p with kind := .peer, rva := numAt b 8 8 + i * e.size, rank := numAt b 24 4, job := (tblKeys s.jobs).head?.getD 0 }

/-- Map every page of every entry, or none. -/
def State.mapAll (s : State) (l : List MapEntry) (key : BitVec 32) : Option State :=
  l.foldlM (fun s e => (List.range e.n).foldlM (fun s i => s.mapPage e key i) s) s

/-- MAP (R180, R181): performed whole or not at all; the remote key is a free value (DESIGN CHOICE, assumption 5). -/
def execMap (h : CmdHdr) (s : State) : Out :=
  onCommand s h 0x0010 mainPort false (fun s =>
    let l := (cut 32 h.payload).map mapEntryOf
    if h.payload.length % 32 ≠ 0 || !l.all (fun e => e.mapOk && !e.meets s.pages) || !entriesApart l then (s, 2, [])
    else
      let (w, s') := s.free
      let key : BitVec 32 := w.setWidth 32
      match s'.mapAll l key with
      | none => (s, 6, [])
      | some s'' => (s'', 0, leBytes 4 key.toNat))

/-- An UNMAP entry (R419). -/
def unmapEntryOf (b : List Byte) : MapEntry :=
  { va := numAt b 0 8, n := numAt b 8 4, size := pageSize (numAt b 12 1), bytes := b }

/-- An UNMAP entry keeps to its limits and names pages of its size that may be unmapped (R419). -/
def State.unmapOk (s : State) (e : MapEntry) : Bool :=
  e.rangeOk (numAt e.bytes 12 1) && zeroAt e.bytes 13 3 &&
    (s.pages.filter (fun x => decide (e.va ≤ x.1) && decide (x.1 < e.last) && x.2.size == e.size &&
      (x.2.kind == .hbm || x.2.kind == .scratch || x.2.kind == .peer))).length == e.n

/-- A team still counts for what it armed: it is resident or saved (R346). -/
def State.armLives (s : State) (a : Arm) : Bool :=
  !s.gridOver a.grp && (s.team (teamOf a.grp)).life != .ended && (s.team (teamOf a.grp)).life != .killing

/-- Disarm the commands armed in a range (R346): each is abandoned with the translation fault, or its entry retires.
DEDUCED: assumption 36. -/
def State.disarmRange (s : State) (a b : Nat) : State :=
  let mine := s.arms.filter (fun e => decide (a ≤ e.1) && decide (e.1 < b))
  let s := { s with arms := s.arms.filter (fun e => !(decide (a ≤ e.1) && decide (e.1 < b))) }
  (mine.flatMap (fun e => e.2)).foldl (fun s x =>
    if s.armLives x then s.failArm x 0x10 x.addr else s.updGroup x.grp (fun g => g.complete x.cls x.id)) s

/-- Take a range's pages out, with their bytes, their poison and every copy that a cache holds (R182). What cores owe its homes was
stored before and is lost with it. -/
def State.dropRange (s : State) (a b : Nat) : State :=
  let out := fun (x : Nat) => !(decide (a ≤ x) && decide (x < b))
  { s with
    pages := s.pages.filter (fun e => out e.1)
    mem := s.mem.filter (fun e => out e.1)
    poison := s.poison.filter (fun e => out (64 * e.1))
    dies := s.dies.map (fun e => (e.1, { e.2 with llc := e.2.llc.filter (fun x => out (128 * x.line)) }))
    cores := s.cores.map (fun e => (e.1, { e.2 with cache := e.2.cache.filter (fun x => out (128 * x.line)) })) }

/-- Accesses that were translated to a range have been performed as far as the device does that itself: the stores that left
their cores for it reach their homes (R182, R202). -/
def State.flushOut (s : State) (a b : Nat) : State :=
  (tblKeys s.cores).foldl (fun (s : State) c => s.writeBack c (fun x => decide (a ≤ 128 * x.line) && decide (128 * x.line < b))) s

/-- What waited for a page of a range, parked or refused, comes again and finds it unmapped (R182, R188): accesses, and the requests
of hosts and peers. -/
def State.unpark (s : State) (a b : Nat) : State :=
  let f := fun (x : Access) => if a ≤ x.addr % 2 ^ 56 ∧ x.addr % 2 ^ 56 < b then { x with parked := false, refused := false } else x
  ({ s with groups := s.groups.map (fun e => (e.1, { e.2 with log := e.2.log.map f })) } : State).requeue

/-- The pages of a list of entries. -/
def State.pagesIn (s : State) (l : List MapEntry) : List Nat :=
  (tblKeys s.pages).filter (fun b => l.any (fun e => decide (e.va ≤ b) && decide (b < e.last)))

/-- UNMAP (R182, R346, R419): performed whole or not at all; its response comes once every request that was translated to its pages
and sent has been answered. -/
def execUnmap (h : CmdHdr) (s : State) : Out :=
  onCommand s h 0x0011 mainPort false (fun s =>
    let l := (cut 16 h.payload).map unmapEntryOf
    if h.payload.length % 16 ≠ 0 || !l.all s.unmapOk then (s, 2, [])
    else (l.foldl (fun s e => (((s.flushOut e.va e.last).dropRange e.va e.last).disarmRange e.va e.last).unpark e.va e.last) s, 0, []))
    (fun s => s.pagesIn ((cut 16 h.payload).map unmapEntryOf))

/-- RDMAWIN (R105): sets the RDMA window up, in place of the one that stands, or clears it where the length is 0. A base or length
that is no multiple of 64 KiB, a range that passes mapped space or meets a mapping, a port or a queue pair that does not exist are
answered with status 2 (DESIGN CHOICE, assumption 35). -/
def execRdmawin (h : CmdHdr) (base len hostAddr port qp : Nat) (rkey : BitVec 32) (s : State) : Out :=
  onCommand s h 0x0012 mainPort false (fun s =>
    let rest := s.pages.filter (fun e => e.2.kind != .window)
    let e : MapEntry := { va := base, n := len / 65536 }
    if len = 0 then ({ s with pages := rest }, 0, [])
    else if base % 65536 ≠ 0 || len % 65536 ≠ 0 || 0xF0 * 2 ^ 48 < base + len || 8 ≤ port || 16384 ≤ qp || e.reserved || e.meets rest then
      (s, 2, [])
    else
      ({ s with pages := tblPut rest base { size := len, kind := .window, perm := 7, rva := hostAddr, port := port, qp := qp
                                            rkey := some rkey } }, 0, []))

/-! ## The ring (R41) -/

/-- LAPLOAD (R40, R41): an image that passes is pending until the next lap boundary. The payload is the image's list of entries of
32 bytes, so that it holds 2,048 at most (DESIGN CHOICE, assumption 35). -/
def execLapload (h : CmdHdr) (s : State) : Out :=
  onCommand s h 0x0020 mainPort false (fun s =>
    let raw := cut 32 h.payload
    let l := raw.map lapEntryOf
    if h.payload.length % 32 ≠ 0 || !raw.all lapReserved || !l.all s.lapEntryOk || !lapDisjoint l || 2 ^ 29 ≤ lapQ l then (s, 2, [])
    else ({ s with ring := { s.ring with pending := some { entries := l, q := lapQ l, img := 1 - s.ring.lastImg } } }, 0, []))

/-- LAPSTAT (R107): RINGLEN, and whether an image is pending. DESIGN CHOICE: assumption 35. -/
def execLapstat (h : CmdHdr) (s : State) : Out :=
  onCommand s h 0x0021 (fun p => mainPort p || p == 8) true (fun s =>
    (s, 0, leBytes 8 s.ringLen ++ leBytes 8 s.ring.pending.isSome.toNat))

/-! ## Jobs (R116) -/

/-- The job that a JOBSET payload describes. -/
def jobOf (b : List Byte) : Job :=
  { job := BitVec.ofNat 32 (numAt b 0 4), rank := fld (numAt b 4 4) 0 24, n := fld (numAt b 8 4) 0 24, stag := numAt b 12 2
    vlan := fld (numAt b 14 2) 0 12, key := bytesAt b 16 32, peers := numAt b 48 8 }

/-- A JOBSET payload keeps to its limits (R116). -/
def jobOk (b : List Byte) : Bool :=
  let j := jobOf b
  b.length == 80 && j.job != 0 && numAt b 4 4 == j.rank && numAt b 8 4 == j.n && decide (1 ≤ j.n) && decide (j.rank < j.n) &&
    decide (j.stag ≤ 1000) && numAt b 14 2 == j.vlan && zeroAt b 56 24

/-- JOBSET (R116): a new job takes the lowest free slot; a job held keeps its slot and its intent sequence number. -/
def execJobset (h : CmdHdr) (s : State) : Out :=
  onCommand s h 0x0030 mainPort false (fun s =>
    let j := jobOf h.payload
    if !jobOk h.payload then (s, 2, [])
    else
      match s.slotOf j.job with
      | some i => ({ s with jobs := tblUpd s.jobs i (fun x => { j with seq := x.seq }) }, 0, [])
      | none =>
        match (List.range 4).find? (fun i => (tblFind s.jobs i).isNone) with
        | some i => ({ s with jobs := tblPut s.jobs i j }, 0, [])
        | none => (s, 6, []))

/-- JOBCLEAR (R107, R422): the job ends, and its intent entries are free. -/
def execJobclear (h : CmdHdr) (job : BitVec 32) (s : State) : Out :=
  onCommand s h 0x0031 mainPort false (fun s =>
    match s.slotOf job with
    | none => (s, 2, [])
    | some i =>
      ({ s with
          jobs := tblDel s.jobs i
          power := { s.power with intents := s.power.intents.filter (fun e => e.2.job != some job) }
          chunks := tblDel s.chunks i
          ended := tblDel s.ended i }, 0, []))

/-! ## Management (R86, R118) -/

/-- A telemetry block's words: first those that the model holds, then what firmware fills in (DESIGN CHOICE, assumption 9). -/
def telemBlock (known : List Word) (draw : Nat) : List Byte :=
  ((List.range 512).map (fun i => known[i]?.getD (Config.reportWord draw i))).flatMap (fun w => leBytes 8 w.toNat)

/-- The words of a telemetry block that the model holds (R118), in an order of its own (DESIGN CHOICE, assumption 9): of a die,
CHARGE and the counts of errors told to F6 and of corrected ones; of intents, the counts of R95 to R97 and the times of late
ones; of firmware, each core's state and, last, the boot step, the one that failed and its cause (R27). -/
def State.telemWords (s : State) (block : Nat) : List Word :=
  let n := fun (i : Nat) => BitVec.ofNat 64 (tblGet 0 s.firm.telem i)
  if block = 0 then [s.power.flstat, s.power.flcfg]
  else if block ≤ 8 then [BitVec.ofNat 64 (s.die (block - 1)).charge.word, n (23 + block), n (15 + block)]
  else if block = 9 then (List.range 8).map n ++ [BitVec.ofNat 64 s.power.lates.length] ++ s.power.lates.map (BitVec.ofNat 64)
  else (List.range 8).map (fun i => BitVec.ofNat 64 ((s.firm.core i).running.toNat + 2 * (s.firm.core i).missed)) ++
    [BitVec.ofNat 64 s.firm.step, BitVec.ofNat 64 s.firm.failed, s.firm.cause]

/-- TELEM (R118, R422). -/
def execTelem (h : CmdHdr) (block : Nat) (s : State) : Out :=
  onCommand s h 0x0040 (fun _ => true) true (fun s =>
    if 10 < block then (s, 2, [])
    else ({ s with freeNo := s.freeNo + 1 }, 0, telemBlock (s.telemWords block) s.freeNo))

/-- What RESET does by the code in its payload (R118, R422): 0 has running grids complete with DEVICE and resets the compute
side, once the records that go to host memory are there, the device being stopped until then; 1 is as though the 48 V input were
removed and applied again; another is answered with status 2. -/
def resetBy (h : CmdHdr) (s : State) : State × Nat × List Byte :=
  match leNat h.payload with
  | 0 =>
    let s := s.deviceEnd
    if s.recordsOut then ({ s with firm := { s.firm with resetting := some h, stopped := true } }, unanswered, [])
    else (s.resetCompute, 0, [])
  | 1 => (s.powerUp, 0, [])
  | _ => (s, 2, [])

/-- RESET, compute side (R118, R422): the form of code 0. -/
def execResetComputeSide (h : CmdHdr) (s : State) : Out := onCommand s h 0x0041 managePort false (fun s => resetBy h s)

/-- RESET, full (R118, R422): the form of code 1. -/
def execResetFull (h : CmdHdr) (s : State) : Out := onCommand s h 0x0041 managePort false (resetBy h)

/-- Every field of FLCFG is in its range (R86). -/
def flcfgOk (v : Nat) : Bool :=
  decide (500 ≤ fld v 0 12) && decide (fld v 0 12 ≤ 3000) && decide (200 ≤ fld v 12 12) && decide (fld v 12 12 ≤ fld v 0 12) &&
    decide (1 ≤ fld v 24 6) && decide (fld v 24 6 ≤ 50) && decide (5 ≤ fld v 30 12) && decide (fld v 30 12 ≤ 3000) &&
    decide (fld v 42 9 ≤ 500) && decide (fld v 51 6 ≤ 48) && fld v 57 7 == 0

/-- FLCFG (R86): every field at once, or nothing. -/
def execFlcfg (h : CmdHdr) (s : State) : Out :=
  onCommand s h 0x0042 managePort false (fun s =>
    if h.payload.length ≠ 8 || !flcfgOk (leNat h.payload) then (s, 2, [])
    else ({ s with power := { s.power with flcfg := BitVec.ofNat 64 (leNat h.payload), limit := none } }, 0, []))

/-! ## Firmware images and attestation (R28 to R31) -/

/-- Put a chunk into the buffer of an image; bytes below it that no chunk has brought are 0. -/
def putChunk (b : List Byte) (off : Nat) (d : List Byte) : List Byte :=
  (b ++ List.replicate (off - b.length) 0).take off ++ d ++ b.drop (off + d.length)

/-- An accepted image is put into flash and runs, its core's rollback counter rises to its SECVER (R30), and an image of F5 brings
its price table (R73, DESIGN CHOICE, assumption 9). -/
def State.loadImage (s : State) (core : Nat) (b : List Byte) : State :=
  let s := s.updFw core (fun c => c.run b)
  { s with
    pricever := if core = 5 then s.pricever + 1 else s.pricever
    firm := { s.firm with
      flash := tblPut s.firm.flash core b
      rollback := tblPut s.firm.rollback core (max (numAt b 8 4) (tblGet 0 s.firm.rollback core)) } }

/-- FWLOAD (R118): one chunk of an image; at the final one the image is checked, and a rejection answers status 5. -/
def execFwload (h : CmdHdr) (core : Nat) (final : Bool) (s : State) : Out :=
  onCommand s h 0x0043 (fun p => p == 8) false (fun s =>
    if 8 ≤ core || h.payload.length < 4 || 8188 < h.payload.length then (s, 2, [])
    else
      let b := putChunk (tblGet [] s.firm.load core) (numAt h.payload 0 4) (h.payload.drop 4)
      if !final then ({ s with firm := { s.firm with load := tblPut s.firm.load core b } }, 0, [])
      else
        let ok := s.firm.accepts core b
        let s := { s with firm := { s.firm with load := tblDel s.firm.load core } }
        if ok then (s.loadImage core b, 0, []) else (s, 5, []))

/-- The signed part of an attestation report (R31): the nonce, the base MAC address in 6 bytes, the serial in 8, SECVER in 4 and
DIGEST in 32 of each core's image, and the eight rollback counters in 4 each, little-endian; the order and the widths of the
serial and the counters are the model's (DESIGN CHOICE, assumption 35). -/
def State.report31 (s : State) (nonce : List Byte) : List Byte :=
  nonce ++ leBytes 6 Config.baseMac ++ leBytes 8 Config.serial ++
    (List.range 8).flatMap (fun i => leBytes 4 (s.firm.core i).secver ++ leBytes 32 (s.firm.core i).digest.toNat) ++
    (List.range 8).flatMap (fun i => leBytes 4 (tblGet 0 s.firm.rollback i))

/-- The two signatures of the device identity keys on a report (R28, R31), Ed25519 first, with what the second draws. -/
def identitySigns (report : List Byte) (draw : Nat) : List Byte :=
  (List.range 64).map (Config.ed25519Byte Config.identityEd report) ++
    (List.range 3309).map (Config.mlDsaByte Config.identityMl report draw)

/-- ATTEST (R28, R31): the report and its two signatures. -/
def execAttest (h : CmdHdr) (s : State) : Out :=
  onCommand s h 0x0044 (fun p => mainPort p || p == 8) true (fun s =>
    if h.payload.length ≠ 32 then (s, 2, [])
    else ({ s with freeNo := s.freeNo + 1 }, 0, s.report31 h.payload ++ identitySigns (s.report31 h.payload) s.freeNo))

end Sys2Proof.Machine
end

