-- ==== Sys2Proof/Machine/Trans.lean ====
section
/-!
DEFINITION. The transcendental functions of R397: the exact mathematical value, to a floor of 170 leading bits with
its tail, computed in fixed point with a stated error and widened until the floor is certain. -/
namespace Sys2Proof

/-- The sum of r^k / k! from the term `t` on: fixed point with `w` fraction bits, r at most 1. -/
def expSum : Nat → Nat → Nat → Nat → Nat → Nat
  | 0, _, _, _, _ => 0
  | n + 1, w, r, k, t => if t = 0 then 0 else t + expSum n w r (k + 1) (t * r / 2 ^ w / k)

/-- e^r in fixed point, 0 ≤ r < 1. -/
def expFx (w r : Nat) : Nat := expSum w w r 1 (2 ^ w)

/-- The alternating sum t - t x²/((k)(k+1)) + …: sine from k = 2, cosine from k = 1. -/
def trigSum : Nat → Nat → Nat → Nat → Int → Nat → Int
  | 0, _, _, _, _, _ => 0
  | n + 1, w, x2, k, s, t =>
    if t = 0 then 0 else s * t + trigSum n w x2 (k + 2) (-s) (t * x2 / 2 ^ w / (k * (k + 1)))

/-- sin r in fixed point, 0 ≤ r ≤ 1. -/
def sinFx (w r : Nat) : Int := trigSum w w (r * r / 2 ^ w) 2 1 r
/-- cos r in fixed point, 0 ≤ r ≤ 1. -/
def cosFx (w r : Nat) : Int := trigSum w w (r * r / 2 ^ w) 1 1 (2 ^ w)

/-- z + z³/3 + z⁵/5 + …, from the power `p` = z^k. -/
def atanhSum : Nat → Nat → Nat → Nat → Nat → Nat
  | 0, _, _, _, _ => 0
  | n + 1, w, z2, k, p => if p = 0 then 0 else p / k + atanhSum n w z2 (k + 2) (p * z2 / 2 ^ w)

/-- atanh z in fixed point, 0 ≤ z ≤ 1/3. -/
def atanhFx (w z : Nat) : Nat := atanhSum w w (z * z / 2 ^ w) 1 z

/-- ln 2 in fixed point. -/
def ln2Fx (w : Nat) : Nat := 2 * atanhFx w (2 ^ w / 3)

/-- The alternating series of atan (1/q), the power divided by q² each term. -/
def atanInvSum : Nat → Nat → Nat → Int → Nat → Int
  | 0, _, _, _, _ => 0
  | n + 1, q2, k, s, p => if p = 0 then 0 else s * (p / k : Nat) + atanInvSum n q2 (k + 2) (-s) (p / q2)

/-- atan (1/q) in fixed point. -/
def atanInvFx (w q : Nat) : Int := atanInvSum w (q * q) 1 1 (2 ^ w / q)

/-- π in fixed point (Machin). -/
def piFx (w : Nat) : Nat := (16 * atanInvFx w 5 - 4 * atanInvFx w 239).toNat

/-- The error bound, in units of the last place of the working precision, of every value below. -/
def errFx : Nat := 2 ^ 40

/-- A working value `v` with `w` fraction bits and error below `errFx`, cut to 170 bits if its floor is certain. -/
def settle (neg : Bool) (w v : Nat) : Option Exact :=
  if v < 2 ^ 215 then none
  else
    let lo := v - errFx
    let hi := v + errFx
    let sh := bitLen lo - 170
    if lo >>> sh = hi >>> sh then some { neg := neg, m := lo >>> sh, e := (sh : Int) - w, st := true } else none

/-- m x 2^e in fixed point with `w` fraction bits, rounded down. -/
def toFx (w m : Nat) (e : Int) : Nat :=
  let s := e + w
  if 0 ≤ s then m * 2 ^ s.toNat else m >>> (-s).toNat

/-- Try a working precision, doubling it. -/
def widen : Nat → (Nat → Option Exact) → Nat → Option Exact
  | 0, _, _ => none
  | n + 1, f, w =>
    match f w with
    | some x => some x
    | none => widen n f (2 * w)

/-- 2^a for a finite a that is no integer: sign, magnitude m x 2^e. -/
def exp2At (n : Bool) (m : Nat) (e : Int) (w : Nat) : Option Exact :=
  let a := sgn n (toFx (w + 8) m e)
  let i := a / 2 ^ (w + 8)
  let f := (a % 2 ^ (w + 8)).toNat / 2 ^ 8
  (settle false w (expFx w (f * ln2Fx w / 2 ^ w))).map (fun x => { x with e := x.e + i })

/-- log2 of a positive magnitude that is no power of two. -/
def log2At (m : Nat) (e : Int) (w : Nat) : Option Exact :=
  let n := bitLen m - 1
  let t := m * 2 ^ w / 2 ^ n
  let z := (t - 2 ^ w) * 2 ^ w / (t + 2 ^ w)
  let l := 2 * atanhFx w z * 2 ^ w / ln2Fx w
  let v : Int := (e + n) * 2 ^ w + l
  settle (decide (v < 0)) w v.natAbs

/-- sin (quarter 0) or cos (quarter 1) of a magnitude, the argument reduced by π/2 carried to enough bits. -/
def sinAt (neg : Bool) (quarter m : Nat) (e : Int) (w : Nat) : Option Exact :=
  let w2 := w + 16 + (max 0 (e + bitLen m)).toNat
  let hp := piFx w2 / 2
  let x := toFx w2 m e
  let k := (x + hp / 2) / hp
  let d : Int := (x : Int) - k * hp
  let r := d.natAbs / 2 ^ (w2 - w)
  let q := (k + quarter) % 4
  let v : Int := if q % 2 = 0 then (if d < 0 then -(sinFx w r) else sinFx w r) else cosFx w r
  let v' := if q < 2 then v else -v
  settle (decide (v' < 0) != neg) w v'.natAbs

/-- tanh of a positive magnitude. -/
def tanhAt (neg : Bool) (m : Nat) (e : Int) (w : Nat) : Option Exact :=
  let y := 2 * toFx w m e
  let l := ln2Fx w
  let k := y / l + 1
  let d := expFx w (k * l - y) / 2 ^ k
  settle neg w ((2 ^ w - d) * 2 ^ w / (2 ^ w + d))

/-- The value just below (below = true) or just above a magnitude. -/
def besides (neg below : Bool) (m : Nat) (e : Int) : Exact :=
  { neg := neg, m := if below then m * 2 ^ 200 - 1 else m * 2 ^ 200, e := e - 200, st := true }

/-- The function number of `Config.unresolved`. -/
inductive TransOp where
  | exp2 | log2 | sin | cos | tanh
deriving DecidableEq, Repr

/-- The number of a transcendental function. -/
def TransOp.code : TransOp → Nat
  | .exp2 => 0 | .log2 => 1 | .sin => 2 | .cos => 3 | .tanh => 4

/-- Close a widening search. DESIGN CHOICE: assumption 13. -/
def resolved (op : TransOp) (a : FVal) (r : Option Exact) : FRes :=
  .num (r.getD (Config.unresolved op.code a))

/-- fexp2 (R397). -/
def fExp2 (a : FVal) : FRes :=
  match a with
  | .nan s => .nan s
  | .inf n => if n then .zero false else .inf false true false
  | .fin n m e =>
    if m = 0 then .num { neg := false, m := 1, e := 0, st := false }
    else
      let top := e + (bitLen m : Int) - 1
      if 17 ≤ top then .num { neg := false, m := 2 ^ 170, e := (if n then -70000 else 70000), st := true }
      else if top < -200 then .num (besides false n 1 0)
      else if 0 ≤ e ∨ m % 2 ^ (-e).toNat = 0 then
        .num { neg := false, m := 1, e := sgn n (toFx 0 m e), st := false }
      else resolved .exp2 a (widen 12 (exp2At n m e) 320)

/-- flog2 (R397). -/
def fLog2 (a : FVal) : FRes :=
  match a with
  | .nan s => .nan s
  | .inf n => if n then .nan true else .inf false true false
  | .fin n m e =>
    if m = 0 then .inf true false true
    else if n then .nan true
    else if m = 2 ^ (bitLen m - 1) then ofInt (e + (bitLen m : Int) - 1) 0 false
    else resolved .log2 a (widen 12 (log2At m e) 320)

/-- fsin (R397). -/
def fSin (a : FVal) : FRes :=
  match a with
  | .nan s => .nan s
  | .inf _ => .nan true
  | .fin n m e =>
    if m = 0 then .zero n
    else if e + (bitLen m : Int) < -200 then .num (besides n true m e)
    else resolved .sin a (widen 12 (sinAt n 0 m e) 320)

/-- fcos (R397). -/
def fCos (a : FVal) : FRes :=
  match a with
  | .nan s => .nan s
  | .inf _ => .nan true
  | .fin _ m e =>
    if m = 0 then .num { neg := false, m := 1, e := 0, st := false }
    else if e + (bitLen m : Int) < -200 then .num (besides false true 1 0)
    else resolved .cos a (widen 12 (sinAt false 1 m e) 320)

/-- ftanh (R397). -/
def fTanh (a : FVal) : FRes :=
  match a with
  | .nan s => .nan s
  | .inf n => .num { neg := n, m := 1, e := 0, st := false }
  | .fin n m e =>
    if m = 0 then .zero n
    else
      let top := e + (bitLen m : Int) - 1
      if 7 ≤ top then .num (besides n true 1 0)
      else if top < -200 then .num (besides n true m e)
      else resolved .tanh a (widen 12 (tanhAt n m e) 320)

end Sys2Proof
end

