-- ==== Sys2Proof/Machine/LaneFloat.lean ====
section
/-!
DEFINITION. Lane floating point: arithmetic, minimum and maximum, comparison, roots and transcendental functions, class,
scaling and rounding to an integer (R391 to R400). -/
namespace Sys2Proof.Machine

/-- Extra cells of a VP result of a format in a lane. -/
def Group.vpExtra (g : Group) (fmt l : Nat) : Nat := g.resultCells fmt l - 1

/-- Cells and flags of a VP result. -/
def vpOut (r : VpOut) (draws : Nat) : LaneOut := { cells := r.cells, flags := r.flags, low := r.low, draws := draws }

/-- An exact result rounded once to a format in the lane's mode (R391, R392). -/
def Ctx.finish (c : Ctx) (fmt l : Nat) (r : RMode → FRes) (kr : KRule) : LaneOut :=
  let rm := c.g.mode c.f l
  let d := c.g.drawAt c.f l 1
  match ffOf fmt with
  | some lay =>
    let (v, fl) := finishF lay rm c.f.sat d (r rm)
    { cells := cellsOf fmt v, flags := fl, draws := 1 }
  | none => vpOut (vpFinish (c.g.workS fmt l) (c.g.vpExtra fmt l) rm c.f.sat d (r rm) kr) 1

/-- Known bits of source i in a lane. -/
def Ctx.known (c : Ctx) (i l : Nat) : KSrc := (c.src i l).known
/-- Value of source i in a lane. -/
def Ctx.val (c : Ctx) (i l : Nat) : FVal := (c.src i l).val

/-- A kernel of one exact operation on values, with its row of R226. -/
def floatKernel (r : RMode → FVal → FVal → FVal → FRes) (kr : Ctx → Nat → KRule) (long : Bool) : Kernel :=
  { fn := fun c l => c.finish c.f.fmt.toNat l (fun rm => r rm (c.val 0 l) (c.val 1 l) (c.val 2 l)) (kr c l), long := long }

/-- The additive row for two sources. -/
def addRow (c : Ctx) (l : Nat) : KRule := .rule [c.known 0 l, c.known 1 l] (kAdd [c.known 0 l, c.known 1 l])
/-- The multiplicative row. -/
def mulRow (c : Ctx) (l : Nat) : KRule := .rule [c.known 0 l, c.known 1 l] (kMul (c.known 0 l) (c.known 1 l))
/-- The row of fma. -/
def fmaRow (c : Ctx) (l : Nat) : KRule :=
  let ep := match fMul (c.val 0 l) (c.val 1 l) with
    | .num x => some x.top
    | _ => none
  .rule [c.known 0 l, c.known 1 l, c.known 2 l] (kAdd [kProduct (c.known 0 l) (c.known 1 l) ep, c.known 2 l])
/-- A unary row. -/
def oneRow (k : KSrc → Int → Int) (c : Ctx) (l : Nat) : KRule := .rule [c.known 0 l] (kUnary k (c.known 0 l))

/-- FADD (R393). -/
def execFadd (f : LaneF) (s : State) : Out := laneRun 0x040 (floatKernel (fun rm a b _ => fAdd rm a b) addRow false) f s
/-- FSUB (R393). -/
def execFsub (f : LaneF) (s : State) : Out := laneRun 0x041 (floatKernel (fun rm a b _ => fSub rm a b) addRow false) f s
/-- FMUL (R393). -/
def execFmul (f : LaneF) (s : State) : Out := laneRun 0x042 (floatKernel (fun _ a b _ => fMul a b) mulRow false) f s
/-- FMA (R393). -/
def execFma (f : LaneF) (s : State) : Out := laneRun 0x043 (floatKernel (fun rm a b c => fFma rm a b c) fmaRow false) f s
/-- FDIV (R393). -/
def execFdiv (f : LaneF) (s : State) : Out := laneRun 0x049 (floatKernel (fun _ a b _ => fDiv a b) mulRow true) f s

/-! ## Minimum, maximum, comparison (R395, R396) -/

/-- The canonical NaN of a result (R214). -/
def Ctx.nanOut (c : Ctx) (fmt l : Nat) (nv : Bool) : LaneOut :=
  match ffOf fmt with
  | some lay => { cells := cellsOf fmt (nanBits lay), flags := { nv := nv } }
  | none => { cells := vpNan (c.g.vpExtra fmt l), flags := { nv := nv }, draws := if fmt = 0x20 then 1 else 0 }

/-- Minimum or maximum: `first` says whether source A is chosen of two numbers, `num` whether one NaN gives the other
source (R395). -/
def pickKernel (first : FVal → FVal → Bool) (num : Bool) : Kernel :=
  { fn := fun c l =>
      let a := c.src 0 l
      let b := c.src 1 l
      let nv := a.val.isSnan || b.val.isSnan
      if a.val.isNan && b.val.isNan || !num && (a.val.isNan || b.val.isNan) then c.nanOut c.f.fmt.toNat l nv
      else
        let x := if a.val.isNan then b else if b.val.isNan then a else if first a.val b.val then a else b
        let o := chosen c l x
        { o with flags := { o.flags with nv := nv } } }

/-- FMIN (R395). -/
def execFmin (f : LaneF) (s : State) : Out := laneRun 0x044 (pickKernel (fun a b => !fBelow b a) false) f s
/-- FMAX (R395). -/
def execFmax (f : LaneF) (s : State) : Out := laneRun 0x045 (pickKernel (fun a b => !fBelow a b) false) f s
/-- FMINN (R395). -/
def execFminn (f : LaneF) (s : State) : Out := laneRun 0x046 (pickKernel (fun a b => !fBelow b a) true) f s
/-- FMAXN (R395). -/
def execFmaxn (f : LaneF) (s : State) : Out := laneRun 0x047 (pickKernel (fun a b => !fBelow a b) true) f s

/-- The truth of a comparison of two numbers (R396). -/
def fcmpHolds (cond : Nat) (o : Ordering) : Bool :=
  match cond with
  | 0 => o == .eq
  | 1 => o != .eq
  | 2 => o == .lt
  | 3 => o != .gt
  | 4 => o == .gt
  | 5 => o != .lt
  | 6 => false
  | _ => true

/-- FCMP (R396). -/
def execFcmp (f : LaneF) (s : State) : Out :=
  laneRun 0x048 (kern fun c l =>
    let a := c.val 0 l
    let b := c.val 1 l
    let cond := c.f.imm.toNat % 8
    let un := a.isNan || b.isNan
    { bitOut (if un then cond == 1 || cond == 6 else fcmpHolds cond (fCompare a b)) with
      flags := { nv := a.isSnan || b.isSnan || (un && 2 ≤ cond && cond ≤ 5) } }) f s

/-! ## Roots, reciprocals and transcendental functions (R397) -/

/-- FSQRT (R397). -/
def execFsqrt (f : LaneF) (s : State) : Out :=
  laneRun 0x04A (floatKernel (fun _ a _ _ => fSqrt a) (oneRow (fun a _ => a.k + 1)) true) f s
/-- FRCP (R397). -/
def execFrcp (f : LaneF) (s : State) : Out :=
  laneRun 0x04B (floatKernel (fun _ a _ _ => fRcp a) (oneRow (fun a _ => a.k)) true) f s
/-- FRSQ (R397). -/
def execFrsq (f : LaneF) (s : State) : Out :=
  laneRun 0x04C (floatKernel (fun _ a _ _ => fRsq a) (oneRow (fun a _ => a.k + 1)) true) f s
/-- FEXP2 (R397). -/
def execFexp2 (f : LaneF) (s : State) : Out :=
  laneRun 0x04D (floatKernel (fun _ a _ _ => fExp2 a) (oneRow (fun a _ => -a.eps - 1)) true) f s
/-- FLOG2 (R397). -/
def execFlog2 (f : LaneF) (s : State) : Out :=
  laneRun 0x04E (floatKernel (fun _ a _ _ => fLog2 a) (oneRow (fun a er => er + a.k - 1)) true) f s
/-- FSIN (R397). -/
def execFsin (f : LaneF) (s : State) : Out :=
  laneRun 0x04F (floatKernel (fun _ a _ _ => fSin a) (oneRow (fun a er => er - a.eps)) true) f s
/-- FCOS (R397). -/
def execFcos (f : LaneF) (s : State) : Out :=
  laneRun 0x050 (floatKernel (fun _ a _ _ => fCos a) (oneRow (fun a er => er - a.eps)) true) f s
/-- FTANH (R397). -/
def execFtanh (f : LaneF) (s : State) : Out :=
  laneRun 0x051 (floatKernel (fun _ a _ _ => fTanh a) (oneRow (fun a er => er - a.eps)) true) f s

/-! ## Class, scaling, rounding to an integer (R398 to R400) -/

/-- The bit of R398 that describes a value. -/
def classBit (fmt : Nat) (v : FVal) : Nat :=
  match v with
  | .nan s => if s then 0 else 1
  | .inf n => if n then 2 else 9
  | .fin n m _ =>
    if m = 0 then (if n then 5 else 6)
    else
      match ffOf fmt with
      | some lay => if m < 2 ^ lay.fb then (if n then 4 else 7) else (if n then 3 else 8)
      | none => if n then 3 else 8

/-- FCLASS (R398). -/
def execFclass (f : LaneF) (s : State) : Out :=
  laneRun 0x052 (kern fun c l =>
    let a := c.src 0 l
    { cells := [2 ^ classBit a.fmt a.val + (if isVpFmt a.fmt && a.vp.k != 127 then 2 ^ 10 else 0)] }) f s

/-- FSCALE (R399). -/
def execFscale (f : LaneF) (s : State) : Out :=
  laneRun 0x053 (kern fun c l =>
    c.finish c.f.fmt.toNat l (fun _ => fScale (c.val 0 l) (c.src 1 l).int) (.copy (c.known 0 l).k)) f s

/-- A finite non-zero value rounded to an integral value of a VP format: integers, and above 2^S the values S fraction
bits can hold (R400). -/
def frintVp (w len : Nat) (rm : RMode) (d : Nat) (n : Bool) (m : Nat) (e : Int) (kr : KRule) : VpOut :=
  let x : Exact := { neg := n, m := m, e := e, st := false }
  let q := max 0 (x.top - w)
  let (k, ix) := roundAt rm x q d
  if k = 0 then vpZeroOut n len kr { ix := ix } ix
  else
    let y : Exact := { neg := n, m := k, e := q, st := false }
    let (sig, er, _) := vpRound w .rtz y 0
    if 16383 < er then vpFinish w len rm false 0 (.num y) kr else vpFinOut w len n sig er ix kr { ix := ix }

/-- FRINT (R400). -/
def execFrint (f : LaneF) (s : State) : Out :=
  laneRun 0x054 (kern fun c l =>
    let fmt := c.f.fmt.toNat
    let v := c.val 0 l
    let rm := c.g.mode c.f l
    let d := c.g.drawAt c.f l 1
    let kr := KRule.rule [c.known 0 l] (kAdd [c.known 0 l])
    match v with
    | .fin n m e =>
      if m = 0 then c.finish fmt l (fun _ => .zero n) kr
      else
        match ffOf fmt with
        | some lay =>
          let (k, ix) := roundInt rm n m e d
          { cells := cellsOf fmt (finishF lay rm false 0 (if k = 0 then .zero n else ofInt (sgn n k) 0 n)).1
            flags := { ix := ix }, draws := 1 }
        | none => vpOut (frintVp (c.g.workS fmt l) (c.g.vpExtra fmt l) rm d n m e kr) 1
    | v => c.finish fmt l (fun _ => resOf v) kr) f s

end Sys2Proof.Machine
end

