-- ==== Sys2Proof/Machine/LaneConv.lean ====
section
/-!
DEFINITION. Lane conversion and packing (R401 to R403), block quantisation (R404, R405), lengths and known bits of VP
values (R406, R407), and PREC (R408, R409). -/
namespace Sys2Proof.Machine

/-- An integer result brought into the range of a format, and whether it was outside (R219, R401). -/
def clampOut (fmt : Nat) (i : Int) : LaneOut :=
  let r := clampI (intMin fmt) (intMax fmt) i
  { patOut fmt (ofS (fmtWidth fmt) r) with flags := { nv := r != i } }

/-- Floating point to integer (R401). -/
def cvtToInt (c : Ctx) (fmt l : Nat) (v : FVal) : LaneOut :=
  match v with
  | .nan _ => { patOut fmt 0 with flags := { nv := true }, draws := 1 }
  | .inf n => { clampOut fmt (if n then intMin fmt - 1 else intMax fmt + 1) with draws := 1 }
  | .fin n m e =>
    let (k, ix) := roundInt (c.g.mode c.f l) n m e (c.g.drawAt c.f l 1)
    let o := clampOut fmt (sgn n k)
    { o with flags := { o.flags with ix := ix && !o.flags.nv }, draws := 1 }

/-- CVT (R401). -/
def execCvt (f : LaneF) (s : State) : Out :=
  laneRun 0x060 (kern fun c l =>
    let rf := c.f.fmt.toNat
    let x := c.src 0 l
    if isIntFmt x.fmt && isIntFmt rf then clampOut rf x.int
    else if isIntFmt rf then cvtToInt c rf l x.val
    else
      let v := if isIntFmt x.fmt then FVal.ofInteger x.int else x.val
      let r := if rf == 0x0C && v.isInf then FRes.nan true else resOf v
      c.finish rf l (fun _ => r) (.rule [x.known] (kUnary (fun a _ => a.k) x.known))) f s

/-- PACK (R402). -/
def execPack (f : LaneF) (s : State) : Out :=
  laneRun 0x061 (kern fun c l =>
    let w := c.width
    let pair := fld (c.src 1 l).pat 0 w * 2 ^ w + fld (c.src 0 l).pat 0 w
    { cells := [if c.f.imm = 1 then pair * 2 ^ 16 else pair] }) f s

/-- UNPACK (R403). -/
def execUnpack (f : LaneF) (s : State) : Out :=
  laneRun 0x062 (kern fun c l =>
    patOut c.f.fmt.toNat (fld (c.src 0 l).pat (c.width * (c.f.imm.toNat % 4)) c.width)) f s

/-- The block a lane lies in, quantised over the lanes that contribute (R404). -/
def Ctx.block (c : Ctx) (b : Nat) : BlkOut :=
  let ls := c.lanes &&& ~~~ c.poisoned
  quantise (bfpBits c.f.fmt.toNat) c.f.sat ((List.range 32).map (fun i =>
    let l := 32 * b + i
    if ls.getLsbD l then
      ({ x := c.val 0 l, rm := c.g.mode c.f l, d1 := c.g.drawAt c.f l 1, d2 := c.g.drawAt c.f l 2 } : BlkElem)
    else { x := .fin false 0 0, rm := .rne, d1 := 0, d2 := 0 }))

/-- QBLK (R404). -/
def execQblk (f : LaneF) (s : State) : Out :=
  laneRun 0x063 (kern fun c l =>
    let r := c.block (l / 32)
    { cells := [ofS 16 (r.q[l % 32]?.getD 0) + r.e * 2 ^ 16], flags := r.flags, draws := 1 + r.again.toNat }) f s

/-- DQBLK (R405). -/
def execDqblk (f : LaneF) (s : State) : Out :=
  laneRun 0x064 (kern fun c l =>
    let m := bfpBits c.f.fmt.toNat
    let x := (c.src 0 l).pat
    c.finish c.f.imm.toNat l (fun _ => resOf (bfpValue m (fld x 16 8) (toS m x))) (.copy 127)) f s

/-! ## VP lengths and known bits (R406, R407) -/

/-- The extra cells that hold the K of a VP value, or every non-zero fraction bit of an exact one (R406). -/
def vpNeed (x : Src) : Nat :=
  let v := x.vp
  match v.v with
  | .fin _ m _ =>
    if m = 0 then 0
    else if v.k = 127 then
      let fr := vpFracOf (fld x.cell0 0 7) x.cells.tail
      ((List.range 4).find? (fun l => decide (v.l ≤ l) || fr % 2 ^ (vpFrac v.l - vpFrac l) == 0)).getD 3
    else ((List.range 4).find? (fun l => decide (v.k ≤ vpFrac l))).getD 3
  | _ => 0

/-- VPLEN (R406). -/
def execVplen (f : LaneF) (s : State) : Out :=
  laneRun 0x065 (kern fun c l =>
    let fmt := c.f.fmt.toNat
    let x := c.src 0 l
    match c.f.imm.toNat with
    | 0 => { cells := [x.vp.l] }
    | 1 => { cells := [vpNeed x] }
    | _ =>
      let p := min x.vp.k (c.g.workS fmt l)
      vpOut (vpFinish p (c.g.vpExtra fmt l) (c.g.mode c.f l) false (c.g.drawAt c.f l 1) (resOf x.val) (.copy x.vp.k)) 1) f s

/-- VPK (R407). -/
def execVpk (f : LaneF) (s : State) : Out :=
  laneRun 0x066 (kern fun c l =>
    let fmt := c.f.fmt.toNat
    let x := c.src 0 l
    let k := fld c.f.imm.toNat 8 7
    let put := fun k => vpOut (vpFinish (c.g.workS fmt l) (c.g.vpExtra fmt l) .rtz false 0 (resOf x.val) (.copy k)) 0
    match c.f.imm.toNat % 4 with
    | 0 => { cells := [x.vp.k] }
    | 1 => put k
    | _ => put (min x.vp.k k)) f s

/-! ## PREC (R408, R409) -/

/-- An older operation of the lane stream has flags still to set (R220). -/
def Group.flagsDue (g : Group) : Bool := !g.longs.isEmpty || !g.vploads.isEmpty

/-- The bits of PREC that the selection of a `precw` writes (R408). -/
def precSel (sel : Nat) : Nat :=
  (if sel.testBit 0 then 2 ^ 7 - 1 else 0) + (if sel.testBit 1 then 7 * 2 ^ 14 else 0) +
    (if sel.testBit 2 then 127 * 2 ^ 17 else 0) + (if sel.testBit 3 then 2 ^ 24 else 0) +
    (if sel.testBit 4 then 63 * 2 ^ 25 else 0)

/-- PREC after the selected fields are written (R408). -/
def precPut (p v : BitVec 32) (sel : Nat) : BitVec 32 :=
  let m := BitVec.ofNat 32 (precSel sel)
  (p &&& ~~~ m) ||| (v &&& m)

/-- PRECW (R408, R225). -/
def execPrecw (f : LaneF) (s : State) : Out :=
  onLane 0x0D0 f s (fun c g =>
    if c.g.flagsDue then s.laneWaits c.g
    else
      let sel := f.imm.toNat
      let ls := lanesOf (c.lanes &&& ~~~ c.poisoned)
      let new := fun (l : Nat) => precPut (c.g.precOf l) (BitVec.ofNat 32 (c.src 0 l).pat) sel
      let bad := ls.filter (fun l => precS (new l) == 0 && sel.testBit 0 || decide (6 ≤ precRM (new l)) && sel.testBit 1)
      let high := ls.filter (fun l => decide (precCeil (new l) < precS (new l)) && sel.testBit 0)
      if !bad.isEmpty then s.stopLane c.g (laneTrap 0x0D (maskOf bad) (if f.a.kind = 1 then 3 else 0))
      else if !high.isEmpty then s.stopLane c.g (laneTrap 0x07 (maskOf high))
      else
        (s.put ((ls.foldl (fun g l => { g with prec := tblSet 0 g.prec l (new l) }) g).laneNext)).killLanes s.cur c.poisoned)

/-- PRECR (R409). -/
def execPrecr (f : LaneF) (s : State) : Out :=
  onLane 0x0D1 f s (fun c g =>
    if c.g.flagsDue then s.laneWaits c.g
    else s.laneCommit (kern fun c l => { cells := [(c.g.precOf l).toNat % 2 ^ 31] }) c g)

end Sys2Proof.Machine
end

