-- ==== Sys2Proof/Machine/LaneMask.lean ====
section
/-!
DEFINITION. Mask instructions (R369), cross-lane operations (R370 to R374), and control of the lane stream (R375 to
R379). -/
namespace Sys2Proof.Machine

/-! ## Masks -/

/-- Source masks of a mask instruction, in the lanes of L (R369). -/
def Ctx.maskA (c : Ctx) : Lanes := c.g.maskSource c.f.a c.lanes
/-- The second. -/
def Ctx.maskB (c : Ctx) : Lanes := c.g.maskSource c.f.b c.lanes

/-- A kernel whose result is a mask. -/
def maskKernel (r : Ctx → Lanes) : Kernel := { fn := fun c l => bitOut ((r c).getLsbD l) }

/-- MAND (R369). -/
def execMand (f : LaneF) (s : State) : Out := laneRun 0x070 (maskKernel (fun c => c.maskA &&& c.maskB)) f s
/-- MOR (R369). -/
def execMor (f : LaneF) (s : State) : Out := laneRun 0x071 (maskKernel (fun c => c.maskA ||| c.maskB)) f s
/-- MXOR (R369). -/
def execMxor (f : LaneF) (s : State) : Out := laneRun 0x072 (maskKernel (fun c => c.maskA ^^^ c.maskB)) f s
/-- MNOT (R369). -/
def execMnot (f : LaneF) (s : State) : Out := laneRun 0x073 (maskKernel (fun c => ~~~ c.maskA)) f s
/-- MSET (R369). -/
def execMset (f : LaneF) (s : State) : Out :=
  laneRun 0x074 (kern fun c l =>
    let x := (c.src 0 l).pat
    bitOut (match c.f.imm.toNat with
      | 0 => x != 0
      | 1 => x % 2 == 1
      | _ => x.testBit l)) f s
/-- MPOPC (R369, R374). -/
def execMpopc (f : LaneF) (s : State) : Out :=
  laneRun 0x075 { fn := fun c _ => { cells := [(lanesOf c.maskA).length] }, uni := fun c => (lanesOf c.maskA).length } f s

/-! ## Across lanes -/

/-- SHFL (R370): a lane that receives a poisoned element dies. -/
def execShfl (f : LaneF) (s : State) : Out :=
  laneRun 0x080 (Kernel.mk (fun c l =>
    let j := shflLane c.f.imm.toNat (c.src 1 l).pat l
    { cells := (match c.f.fmt.toNat with
        | 0x21 | 0x22 | 0x23 | 0x24 => (c.src 0 j).cells
        | fmt => cellsOf fmt (c.src 0 j).pat)
      dies := (c.poison 0).getLsbD j || (c.poison 1).getLsbD l }) (fun _ => 0) false true) f s

/-- VOTE (R371, R374). -/
def execVote (f : LaneF) (s : State) : Out :=
  laneRun 0x081
    { fn := fun c l => bitOut (match c.f.imm.toNat with
        | 0 => c.maskA.getLsbD l
        | 1 => c.maskA != 0
        | _ => c.maskA == c.lanes)
      uni := fun c => match c.f.imm.toNat with
        | 0 => c.maskA.toNat
        | 1 => (c.maskA != 0).toNat
        | _ => (c.maskA == c.lanes).toNat } f s

/-- The operation of scan and red. -/
def Ctx.comb (c : Ctx) : COp := (cOpOf (c.f.imm.toNat % 8)).getD .add

/-- The lanes that contribute to scan and red: those of L whose element is not poisoned (R251, R253). -/
def Ctx.leaves (c : Ctx) : Lanes := c.lanes &&& ~~~ c.poisoned

/-- The running combine of the lanes below a bound, none when there are none (R372). -/
def scanTo (fmt : Nat) (op : COp) (ls : Lanes) (x : Nat → Nat) : Nat → Option Nat
  | 0 => none
  | n + 1 =>
    let r := scanTo fmt op ls x n
    if ls.getLsbD n then some (match r with | some r => combine fmt op r (x n) | none => x n) else r

/-- SCAN (R372). -/
def execScan (f : LaneF) (s : State) : Out :=
  laneRun 0x082 (kern fun c l =>
    let fmt := c.f.fmt.toNat
    let r := scanTo fmt c.comb c.leaves (fun j => (c.src 0 j).pat) (if c.f.imm.toNat.testBit 3 then l else l + 1)
    patOut fmt (r.getD (combineId fmt c.comb))) f s

/-- The reduction of the lanes of L (R373). -/
def Ctx.reduce (c : Ctx) : Nat :=
  let fmt := c.f.fmt.toNat
  (treeRoot (combine fmt c.comb) 6 ((List.range 64).map (fun l =>
    if c.leaves.getLsbD l then some (c.src 0 l).pat else none))).getD (combineId fmt c.comb)

/-- RED (R373, R374). -/
def execRed (f : LaneF) (s : State) : Out :=
  laneRun 0x083
    { fn := fun c _ => patOut c.f.fmt.toNat c.reduce
      uni := fun c => if isSInt c.f.fmt.toNat then ofS 64 (intVal c.f.fmt.toNat c.reduce) else c.reduce } f s

/-! ## Divergence, calls and the end of a block -/

/-- A lane address a signed number of instructions away, modulo 2^56 (R149, R284). -/
def laneTarget (a : Nat) (d : Int) : Nat := (((a : Int) + 12 * d) % 2 ^ 56).toNat

/-- The running block's lane stream goes on at an address with an active mask and a stack. -/
def Group.laneJump (g : Group) (pc : Nat) (active : Lanes) (stack : List Entry) : Group :=
  { g.laneTo pc with active := active, stack := stack }

/-- A push that would make the depth 64 (R237). -/
def Group.stackFull (g : Group) : Bool := decide (63 ≤ g.stack.length)

/-- LSPLIT (R376). -/
def execLaneLsplit (f : LaneF) (s : State) : Out :=
  onLaneStream s (fun g =>
    let pc := g.lanePc
    let act := g.act
    let pc1 := (pc + 12 * f.imm.toNat) % 2 ^ 56
    let pc2 := (pc + 12 * f.c.raw) % 2 ^ 56
    if act = 0 then s.put (g.laneTo pc2)
    else if g.stackFull then s.stopLane g (laneTrap 0x0E act)
    else
      let m := g.mread (f.a.index.toNat % 16)
      let m := if f.a.neg then ~~~ m else m
      let p1 := act &&& m
      let p2 := act &&& ~~~ m
      let (id, s) := s.fresh
      let e : Entry := { kind := .div, fmt := g.sr.fmt, amask := g.act, pend := p2, pc1 := pc1, pc2 := pc2, id := id }
      if p1 ≠ 0 then s.put (g.laneJump (pc + 12) p1 (e :: g.stack))
      else s.put (g.laneJump pc1 p2 ({ e with pend := 0, second := true } :: g.stack)))

/-- LJOIN (R376, R238). -/
def execLjoin (_f : LaneF) (s : State) : Out :=
  onLaneStream s (fun g =>
    match g.stack with
    | e :: rest =>
      if e.kind != .div then s.stopLane g (laneTrap 0x0A 0)
      else if e.pend ≠ 0 then
        s.put { g.laneJump e.pc1 e.pend ({ e with pend := 0, second := true } :: rest) with
          sr := { g.sr with fmt := e.fmt } }
      else s.put { g.laneJump e.pc2 (e.amask &&& g.live) rest with sr := { g.sr with fmt := e.fmt } }
    | [] => s.stopLane g (laneTrap 0x0A 0))

/-- LEND (R378, R238): the block ends; the lane stream is idle until it begins the next. -/
def execLend (_f : LaneF) (s : State) : Out :=
  onLaneStream s (fun g =>
    match g.run with
    | some r =>
      if g.stack.length ≠ r.base then s.stopLane g (laneTrap 0x0A 0)
      else s.put { g.laneTo g.lanePc with run := none, active := g.live }
    | none => s.waits)

/-- LCALL (R379). -/
def execLcall (f : LaneF) (s : State) : Out :=
  onLaneStream s (fun g =>
    let pc := g.lanePc
    if g.act = 0 then s.put g.laneNext
    else if g.stackFull then s.stopLane g (laneTrap 0x0E g.act)
    else
      s.put (g.laneJump (laneTarget pc f.imm.toInt) g.active
        ({ kind := .call, amask := g.act, pc1 := (pc + 12) % 2 ^ 56 } :: g.stack)))

/-- LRET (R379, R238). -/
def execLret (_f : LaneF) (s : State) : Out :=
  onLaneStream s (fun g =>
    match g.stack with
    | e :: rest =>
      if e.kind != .call then s.stopLane g (laneTrap 0x0A 0)
      else s.put (g.laneJump e.pc1 (e.amask &&& g.live) rest)
    | [] => s.stopLane g (laneTrap 0x0A 0))

end Sys2Proof.Machine
end

