-- ==== Sys2Proof/Machine/ScalarAlu.lean ====
section
/-!
DEFINITION. Scalar arithmetic, immediates, compare and select (R297 to R301). -/
namespace Sys2Proof.Machine

/-- Write a value computed from the registers to d and go on (R297). -/
def scalarAlu (s : State) (d : SReg) (f : Group → Word) : Out :=
  onScalar s (fun g => s.put ((g.swrite d (f g)).advance 4))

/-- Bits [127:64] of the signed product (R297). -/
def mulHigh (a b : Word) : Word := BitVec.ofNat 64 (ofS 128 (a.toInt * b.toInt) / 2 ^ 64)
/-- Bits [127:64] of the natural product (R297). -/
def mulHighN (a b : Word) : Word := BitVec.ofNat 64 (a.toNat * b.toNat / 2 ^ 64)
/-- Signed quotient towards zero; all ones for a divisor of 0 (R297). -/
def divS (a b : Word) : Word := if b = 0 then BitVec.allOnes 64 else BitVec.ofInt 64 (a.toInt.tdiv b.toInt)
/-- Natural quotient; all ones for a divisor of 0 (R297). -/
def divN (a b : Word) : Word := if b = 0 then BitVec.allOnes 64 else BitVec.ofNat 64 (a.toNat / b.toNat)
/-- Signed remainder, sign of a; a for a divisor of 0 (R297). -/
def remS (a b : Word) : Word := if b = 0 then a else BitVec.ofInt 64 (a.toInt.tmod b.toInt)
/-- Natural remainder; a for a divisor of 0 (R297). -/
def remN (a b : Word) : Word := if b = 0 then a else BitVec.ofNat 64 (a.toNat % b.toNat)
/-- The count of a shift: b[5:0] (R297). -/
def shiftCount (b : Word) : Nat := b.toNat % 64

/-- ADD (R297). -/
def execAdd (d a b : SReg) (s : State) : Out := scalarAlu s d (fun g => g.sread a + g.sread b)
/-- SUB (R297). -/
def execSub (d a b : SReg) (s : State) : Out := scalarAlu s d (fun g => g.sread a - g.sread b)
/-- MUL (R297). -/
def execMul (d a b : SReg) (s : State) : Out := scalarAlu s d (fun g => g.sread a * g.sread b)
/-- MULH (R297). -/
def execMulh (d a b : SReg) (s : State) : Out := scalarAlu s d (fun g => mulHigh (g.sread a) (g.sread b))
/-- MULHN (R297). -/
def execMulhn (d a b : SReg) (s : State) : Out := scalarAlu s d (fun g => mulHighN (g.sread a) (g.sread b))
/-- DIV (R297). -/
def execDiv (d a b : SReg) (s : State) : Out := scalarAlu s d (fun g => divS (g.sread a) (g.sread b))
/-- DIVN (R297). -/
def execDivn (d a b : SReg) (s : State) : Out := scalarAlu s d (fun g => divN (g.sread a) (g.sread b))
/-- REM (R297). -/
def execRem (d a b : SReg) (s : State) : Out := scalarAlu s d (fun g => remS (g.sread a) (g.sread b))
/-- REMN (R297). -/
def execRemn (d a b : SReg) (s : State) : Out := scalarAlu s d (fun g => remN (g.sread a) (g.sread b))
/-- AND (R297). -/
def execAnd (d a b : SReg) (s : State) : Out := scalarAlu s d (fun g => g.sread a &&& g.sread b)
/-- OR (R297). -/
def execOr (d a b : SReg) (s : State) : Out := scalarAlu s d (fun g => g.sread a ||| g.sread b)
/-- XOR (R297). -/
def execXor (d a b : SReg) (s : State) : Out := scalarAlu s d (fun g => g.sread a ^^^ g.sread b)
/-- ANDN (R297). -/
def execAndn (d a b : SReg) (s : State) : Out := scalarAlu s d (fun g => g.sread a &&& ~~~ g.sread b)
/-- SHL (R297). -/
def execShl (d a b : SReg) (s : State) : Out := scalarAlu s d (fun g => g.sread a <<< shiftCount (g.sread b))
/-- SHR (R297). -/
def execShr (d a b : SReg) (s : State) : Out := scalarAlu s d (fun g => g.sread a >>> shiftCount (g.sread b))
/-- SAR (R297). -/
def execSar (d a b : SReg) (s : State) : Out := scalarAlu s d (fun g => (g.sread a).sshiftRight (shiftCount (g.sread b)))
/-- MIN (R297). -/
def execMin (d a b : SReg) (s : State) : Out :=
  scalarAlu s d (fun g => if (g.sread b).slt (g.sread a) then g.sread b else g.sread a)
/-- MAX (R297). -/
def execMax (d a b : SReg) (s : State) : Out :=
  scalarAlu s d (fun g => if (g.sread a).slt (g.sread b) then g.sread b else g.sread a)
/-- MINN (R297). -/
def execMinn (d a b : SReg) (s : State) : Out :=
  scalarAlu s d (fun g => if (g.sread b).ult (g.sread a) then g.sread b else g.sread a)
/-- MAXN (R297). -/
def execMaxn (d a b : SReg) (s : State) : Out :=
  scalarAlu s d (fun g => if (g.sread a).ult (g.sread b) then g.sread b else g.sread a)
/-- CLZ (R297). -/
def execClz (d a : SReg) (s : State) : Out :=
  scalarAlu s d (fun g => BitVec.ofNat 64 (leadZeros 64 (g.sread a).toNat))
/-- POPC (R297). -/
def execPopc (d a : SReg) (s : State) : Out :=
  scalarAlu s d (fun g => BitVec.ofNat 64 (popCount 64 (g.sread a).toNat))

/-- ADD_IMMEDIATE (R298): sign-extended. -/
def execAddImm (d a : SReg) (i : BitVec 14) (s : State) : Out := scalarAlu s d (fun g => g.sread a + i.signExtend 64)
/-- AND_IMMEDIATE (R298): zero-extended. -/
def execAndImm (d a : SReg) (i : BitVec 14) (s : State) : Out := scalarAlu s d (fun g => g.sread a &&& i.setWidth 64)
/-- OR_IMMEDIATE (R298). -/
def execOrImm (d a : SReg) (i : BitVec 14) (s : State) : Out := scalarAlu s d (fun g => g.sread a ||| i.setWidth 64)
/-- XOR_IMMEDIATE (R298). -/
def execXorImm (d a : SReg) (i : BitVec 14) (s : State) : Out := scalarAlu s d (fun g => g.sread a ^^^ i.setWidth 64)
/-- SHL_IMMEDIATE (R298). -/
def execShlImm (d a : SReg) (c : BitVec 6) (s : State) : Out := scalarAlu s d (fun g => g.sread a <<< c.toNat)
/-- SHR_IMMEDIATE (R298). -/
def execShrImm (d a : SReg) (c : BitVec 6) (s : State) : Out := scalarAlu s d (fun g => g.sread a >>> c.toNat)
/-- SAR_IMMEDIATE (R298). -/
def execSarImm (d a : SReg) (c : BitVec 6) (s : State) : Out :=
  scalarAlu s d (fun g => (g.sread a).sshiftRight c.toNat)
/-- MUL_IMMEDIATE (R298): sign-extended. -/
def execMulImm (d a : SReg) (i : BitVec 14) (s : State) : Out := scalarAlu s d (fun g => g.sread a * i.signExtend 64)
/-- LI (R299). -/
def execLi (d : SReg) (i : BitVec 20) (s : State) : Out := scalarAlu s d (fun _ => i.signExtend 64)

/-- d with 16 bits at position p replaced (R299). -/
def insert16 (v : Word) (p : BitVec 2) (i : BitVec 16) : Word :=
  (v &&& ~~~ ((0xFFFF : Word) <<< (16 * p.toNat))) ||| (i.setWidth 64 <<< (16 * p.toNat))

/-- LIH (R299). -/
def execLih (d : SReg) (p : BitVec 2) (i : BitVec 16) (s : State) : Out :=
  scalarAlu s d (fun g => insert16 (g.sread d) p i)

/-- The conditions of cmp (R273): 0 eq, 1 ne, 2 lt, 3 ge signed, 4 ltn, 5 gen natural. -/
def condHolds (c : Nat) (a b : Word) : Bool :=
  match c with
  | 0 => a == b
  | 1 => a != b
  | 2 => a.slt b
  | 3 => !a.slt b
  | 4 => a.ult b
  | _ => !a.ult b

/-- CMP (R300). -/
def execCmp (p : BitVec 3) (a b : SReg) (c : BitVec 3) (s : State) : Out :=
  onScalar s (fun g => s.put ((g.bwrite p (condHolds c.toNat (g.sread a) (g.sread b))).advance 4))

/-- The immediate of cmp: sign-extended for conditions 0 to 3, zero-extended for 4 and 5 (R273). -/
def cmpImmValue (c : BitVec 3) (i : BitVec 14) : Word := if c.toNat < 4 then i.signExtend 64 else i.setWidth 64

/-- CMP_IMMEDIATE (R300). -/
def execCmpImm (c p : BitVec 3) (a : SReg) (i : BitVec 14) (s : State) : Out :=
  onScalar s (fun g => s.put ((g.bwrite p (condHolds c.toNat (g.sread a) (cmpImmValue c i))).advance 4))

/-- SEL (R301). -/
def execSel (d a b : SReg) (n : Bool) (p : BitVec 3) (s : State) : Out :=
  scalarAlu s d (fun g => if g.bread p != n then g.sread a else g.sread b)

end Sys2Proof.Machine
end

