-- ==== Sys2Proof/Machine/ScalarFlow.lean ====
section
/-!
DEFINITION. Branches, jumps, calls and loop (R302 to R304), trap, tret, brk and nop (R322 to R325). -/
namespace Sys2Proof.Machine

/-- The address a signed word displacement leads to, from the instruction's first word (R269). -/
def branchTo (pc : Nat) (words : Int) : Nat := (((pc : Int) + 4 * words) % 2 ^ 56).toNat

/-- BR (R302). -/
def execBr (p : BitVec 3) (n : Bool) (d : BitVec 22) (s : State) : Out :=
  onScalar s (fun g => s.put (if g.bread p != n then g.goTo (branchTo g.pc d.toInt) else g.advance 4))

/-- JMP (R303). -/
def execJmp (d : BitVec 26) (s : State) : Out := onScalar s (fun g => s.put (g.goTo (branchTo g.pc d.toInt)))

/-- The link address: PC + 4 (R303). -/
def link (g : Group) : Word := BitVec.ofNat 64 ((g.pc + 4) % 2 ^ 56)

/-- CALL (R303): the link goes to s62. -/
def execCall (d : BitVec 26) (s : State) : Out :=
  onScalar s (fun g => s.put ((g.swrite 62 (link g)).goTo (branchTo g.pc d.toInt)))

/-- JMPR (R303): a is read first; a target whose bits [1:0] are not zero is illegal at the jmpr. -/
def execJmpr (d a : SReg) (s : State) : Out :=
  onScalar s (fun g =>
    let t := (g.sread a).toNat
    if t % 4 = 0 then s.put ((g.swrite d (link g)).goTo t) else s.trap s.cur { cause := 0x01 })

/-- LOOP (R304). -/
def execLoop (d : SReg) (i : BitVec 20) (s : State) : Out :=
  onScalar s (fun g =>
    let v := g.sread d
    let v' := if v = 0 then 0 else v - 1
    s.put (if v' = 0 then (g.swrite d v').advance 4 else (g.swrite d v').goTo (branchTo g.pc i.toInt)))

/-- TRAP (R322): software trap, TPC names the next instruction. -/
def execTrap (c : BitVec 8) (s : State) : Out :=
  onScalar s (fun _ => s.trap s.cur { cause := 0x0C, code := c.toNat, after := 4 })

/-- TRET (R323). -/
def execTret (s : State) : Out := onScalar s (fun _ => s.returnTrap s.cur)

/-- BRK (R324): breakpoint with CODE 4; TMASK holds the live lanes not active. -/
def execBrk (s : State) : Out :=
  onScalar s (fun g => s.trap s.cur { cause := 0x0B, code := 4, after := 4, mask := g.live &&& ~~~ g.active })

/-- NOP (R325). -/
def execNop (s : State) : Out := onScalar s (fun g => s.put (g.advance 4))

end Sys2Proof.Machine
end

