-- ==== Sys2Proof/Machine/Dispatch.lean ====
section
/-!
DEFINITION. One arm per operation: each calls its meaning. -/
namespace Sys2Proof.Machine

def exec (i : Instr) (s : State) : Host.Outcome State Fault Refusal :=
  match i with
  | .temperatureOverLimit pmax => Sys2Proof.Machine.execTemperatureOverLimit pmax s
  | .firmwareHeartbeat core => Sys2Proof.Machine.execFirmwareHeartbeat core s
  | .heartbeatMiss core => Sys2Proof.Machine.execHeartbeatMiss core s
  | .timeSyncReceive die t transit => Sys2Proof.Machine.execTimeSyncReceive die t transit s
  | .timeReferenceReport die => Sys2Proof.Machine.execTimeReferenceReport die s
  | .flitReceive link f => Sys2Proof.Machine.execFlitReceive link f s
  | .replayRequest link seq => Sys2Proof.Machine.execReplayRequest link seq s
  | .linkDown link => Sys2Proof.Machine.execLinkDown link s
  | .ethernetFrameReceive port die cls bytes => Sys2Proof.Machine.execEthernetFrameReceive port die cls bytes s
  | .remoteOperationComplete op => Sys2Proof.Machine.execRemoteOperationComplete op s
  | .dispatcherTurn die => Sys2Proof.Machine.execDispatcherTurn die s
  | .slotReread queue => Sys2Proof.Machine.execSlotReread queue s
  | .launch die n => Sys2Proof.Machine.execLaunch die n s
  | .copyPacket die n => Sys2Proof.Machine.execCopyPacket die n s
  | .signalPacket die n => Sys2Proof.Machine.execSignalPacket die n s
  | .waitPacket die n => Sys2Proof.Machine.execWaitPacket die n s
  | .waitPacketPoll queue => Sys2Proof.Machine.execWaitPacketPoll queue s
  | .waitPacketTimeout queue => Sys2Proof.Machine.execWaitPacketTimeout queue s
  | .gatePacket die n => Sys2Proof.Machine.execGatePacket die n s
  | .nopPacket die n => Sys2Proof.Machine.execNopPacket die n s
  | .forward die => Sys2Proof.Machine.execForward die s
  | .unitAdmission die => Sys2Proof.Machine.execUnitAdmission die s
  | .placeHold die => Sys2Proof.Machine.execPlaceHold die s
  | .highPreemption die => Sys2Proof.Machine.execHighPreemption die s
  | .promptDispatch die => Sys2Proof.Machine.execPromptDispatch die s
  | .teamSave team => Sys2Proof.Machine.execTeamSave team s
  | .saveComplete team => Sys2Proof.Machine.execSaveComplete team s
  | .teamFlush team => Sys2Proof.Machine.execTeamFlush team s
  | .drainDeadline team => Sys2Proof.Machine.execDrainDeadline team s
  | .teamResume die => Sys2Proof.Machine.execTeamResume die s
  | .teamKill team => Sys2Proof.Machine.execTeamKill team s
  | .gridCompletion grid => Sys2Proof.Machine.execGridCompletion grid s
  | .stationReadIssue die => Sys2Proof.Machine.execStationReadIssue die s
  | .slotInjection die => Sys2Proof.Machine.execSlotInjection die s
  | .tapSlotArrival core noise => Sys2Proof.Machine.execTapSlotArrival core noise s
  | .captureComplete core => Sys2Proof.Machine.execCaptureComplete core s
  | .followOnIssue core boarding => Sys2Proof.Machine.execFollowOnIssue core boarding s
  | .laneBlockBegin grp => Sys2Proof.Machine.execLaneBlockBegin grp s
  | .loadQueueFill grp queue => Sys2Proof.Machine.execLoadQueueFill grp queue s
  | .longOperationWrite grp n => Sys2Proof.Machine.execLongOperationWrite grp n s
  | .streamDeadlock grp => Sys2Proof.Machine.execStreamDeadlock grp s
  | .memoryAccessPerform grp n => Sys2Proof.Machine.execMemoryAccessPerform grp n s
  | .uncorrectableError site => Sys2Proof.Machine.execUncorrectableError site s
  | .coreBucketGrant core => Sys2Proof.Machine.execCoreBucketGrant core s
  | .coreRefillGrant die => Sys2Proof.Machine.execCoreRefillGrant die s
  | .coreRefillArrival core => Sys2Proof.Machine.execCoreRefillArrival core s
  | .dieRefillArrival die => Sys2Proof.Machine.execDieRefillArrival die s
  | .calibrationUpdate c staticW => Sys2Proof.Machine.execCalibrationUpdate c staticW s
  | .chargeUpdate die stored => Sys2Proof.Machine.execChargeUpdate die stored s
  | .undercoatDraw die => Sys2Proof.Machine.execUndercoatDraw die s
  | .ballastExpiry die => Sys2Proof.Machine.execBallastExpiry die s
  | .intentFrameReceive port bytes => Sys2Proof.Machine.execIntentFrameReceive port bytes s
  | .rampStart n => Sys2Proof.Machine.execRampStart n s
  | .intentFloorEnd n => Sys2Proof.Machine.execIntentFloorEnd n s
  | .intentPairForget n => Sys2Proof.Machine.execIntentPairForget n s
  | .pageWalkComplete grp n => Sys2Proof.Machine.execPageWalkComplete grp n s
  | .onDemandBacking page => Sys2Proof.Machine.execOnDemandBacking page s
  | .migrationCopy page => Sys2Proof.Machine.execMigrationCopy page s
  | .migrationBackingFree page => Sys2Proof.Machine.execMigrationBackingFree page s
  | .refusedAccessResend grp n => Sys2Proof.Machine.execRefusedAccessResend grp n s
  | .copyChunk core n => Sys2Proof.Machine.execCopyChunk core n s
  | .copyComplete core n => Sys2Proof.Machine.execCopyComplete core n s
  | .mmaArrayStart core quad => Sys2Proof.Machine.execMmaArrayStart core quad s
  | .mmaResultAdd core quad => Sys2Proof.Machine.execMmaResultAdd core quad s
  | .quartetPairing team quartet => Sys2Proof.Machine.execQuartetPairing team quartet s
  | .triggerArm die => Sys2Proof.Machine.execTriggerArm die s
  | .firedCommandEntry die => Sys2Proof.Machine.execFiredCommandEntry die s
  | .collectiveChunkReceive port qp bytes => Sys2Proof.Machine.execCollectiveChunkReceive port qp bytes s
  | .collectiveTimeout n => Sys2Proof.Machine.execCollectiveTimeout n s
  | .heldChunkDiscard slot => Sys2Proof.Machine.execHeldChunkDiscard slot s
  | .remoteReduceReceive port qp bytes => Sys2Proof.Machine.execRemoteReduceReceive port qp bytes s
  | .scrimSignatureExchange team grpid => Sys2Proof.Machine.execScrimSignatureExchange team grpid s
  | .scrimTwinLag team grpid => Sys2Proof.Machine.execScrimTwinLag team grpid s
  | .scrimValueDelivery team grpid => Sys2Proof.Machine.execScrimValueDelivery team grpid s
  | .barrierRelease team => Sys2Proof.Machine.execBarrierRelease team s
  | .regroupComplete team => Sys2Proof.Machine.execRegroupComplete team s
  | .waitmPoll grp => Sys2Proof.Machine.execWaitmPoll grp s
  | .waitmTimeout grp => Sys2Proof.Machine.execWaitmTimeout grp s
  | .add d a b => Sys2Proof.Machine.execAdd d a b s
  | .sub d a b => Sys2Proof.Machine.execSub d a b s
  | .mul d a b => Sys2Proof.Machine.execMul d a b s
  | .mulh d a b => Sys2Proof.Machine.execMulh d a b s
  | .mulhn d a b => Sys2Proof.Machine.execMulhn d a b s
  | .div d a b => Sys2Proof.Machine.execDiv d a b s
  | .divn d a b => Sys2Proof.Machine.execDivn d a b s
  | .rem d a b => Sys2Proof.Machine.execRem d a b s
  | .remn d a b => Sys2Proof.Machine.execRemn d a b s
  | .and d a b => Sys2Proof.Machine.execAnd d a b s
  | .or d a b => Sys2Proof.Machine.execOr d a b s
  | .xor d a b => Sys2Proof.Machine.execXor d a b s
  | .andn d a b => Sys2Proof.Machine.execAndn d a b s
  | .shl d a b => Sys2Proof.Machine.execShl d a b s
  | .shr d a b => Sys2Proof.Machine.execShr d a b s
  | .sar d a b => Sys2Proof.Machine.execSar d a b s
  | .min d a b => Sys2Proof.Machine.execMin d a b s
  | .max d a b => Sys2Proof.Machine.execMax d a b s
  | .minn d a b => Sys2Proof.Machine.execMinn d a b s
  | .maxn d a b => Sys2Proof.Machine.execMaxn d a b s
  | .clz d a => Sys2Proof.Machine.execClz d a s
  | .popc d a => Sys2Proof.Machine.execPopc d a s
  | .addImm d a n => Sys2Proof.Machine.execAddImm d a n s
  | .andImm d a n => Sys2Proof.Machine.execAndImm d a n s
  | .orImm d a n => Sys2Proof.Machine.execOrImm d a n s
  | .xorImm d a n => Sys2Proof.Machine.execXorImm d a n s
  | .shlImm d a c => Sys2Proof.Machine.execShlImm d a c s
  | .shrImm d a c => Sys2Proof.Machine.execShrImm d a c s
  | .sarImm d a c => Sys2Proof.Machine.execSarImm d a c s
  | .mulImm d a n => Sys2Proof.Machine.execMulImm d a n s
  | .cmp p a b c => Sys2Proof.Machine.execCmp p a b c s
  | .cmpImm c p a n => Sys2Proof.Machine.execCmpImm c p a n s
  | .sel d a b n p => Sys2Proof.Machine.execSel d a b n p s
  | .li d n => Sys2Proof.Machine.execLi d n s
  | .lih d p n => Sys2Proof.Machine.execLih d p n s
  | .br p n d => Sys2Proof.Machine.execBr p n d s
  | .jmp d => Sys2Proof.Machine.execJmp d s
  | .call d => Sys2Proof.Machine.execCall d s
  | .jmpr d a => Sys2Proof.Machine.execJmpr d a s
  | .loop d n => Sys2Proof.Machine.execLoop d n s
  | .board a => Sys2Proof.Machine.execBoard a s
  | .unboard a => Sys2Proof.Machine.execUnboard a s
  | .rdc d c => Sys2Proof.Machine.execRdc d c s
  | .tbar a b => Sys2Proof.Machine.execTbar a b s
  | .kick a b => Sys2Proof.Machine.execKick a b s
  | .regroup k => Sys2Proof.Machine.execRegroup k s
  | .accalloc t => Sys2Proof.Machine.execAccalloc t s
  | .accfree t => Sys2Proof.Machine.execAccfree t s
  | .rgateClose a => Sys2Proof.Machine.execRgateClose a s
  | .rgateOpen a => Sys2Proof.Machine.execRgateOpen a s
  | .pintentDev d a b => Sys2Proof.Machine.execPintentDev d a b s
  | .pintentJob d a b => Sys2Proof.Machine.execPintentJob d a b s
  | .tkrd d a => Sys2Proof.Machine.execTkrd d a s
  | .rqpop d => Sys2Proof.Machine.execRqpop d s
  | .srd d r => Sys2Proof.Machine.execSrd d r s
  | .swr v r => Sys2Proof.Machine.execSwr v r s
  | .sfmt a => Sys2Proof.Machine.execSfmt a s
  | .trap c => Sys2Proof.Machine.execTrap c s
  | .waitc c n => Sys2Proof.Machine.execWaitc c n s
  | .ld d base size sext p => Sys2Proof.Machine.execLd d base size sext p s
  | .st d base size p => Sys2Proof.Machine.execSt d base size p s
  | .atom d base o op size p => Sys2Proof.Machine.execAtom d base o op size p s
  | .pref base ballast ext p => Sys2Proof.Machine.execPref base ballast ext p s
  | .vlq q m base stride fmt p => Sys2Proof.Machine.execVlq q m base stride fmt p s
  | .vlqg q m base j fmt p => Sys2Proof.Machine.execVlqg q m base j fmt p s
  | .vsq q m base stride fmt p => Sys2Proof.Machine.execVsq q m base stride fmt p s
  | .vsqs q m base j fmt p => Sys2Proof.Machine.execVsqs q m base j fmt p s
  | .mma t a b ctl => Sys2Proof.Machine.execMma t a b ctl s
  | .copy d v l w => Sys2Proof.Machine.execCopy d v l w s
  | .copyx d v l w => Sys2Proof.Machine.execCopyx d v l w s
  | .coll a w => Sys2Proof.Machine.execColl a w s
  | .rput l r n w => Sys2Proof.Machine.execRput l r n w s
  | .rget l r n w => Sys2Proof.Machine.execRget l r n w s
  | .rred l r n w => Sys2Proof.Machine.execRred l r n w s
  | .trig d c t w => Sys2Proof.Machine.execTrig d c t w s
  | .waitm a v c p => Sys2Proof.Machine.execWaitm a v c p s
  | .sigAdd a v p => Sys2Proof.Machine.execSigAdd a v p s
  | .sigStore a v p => Sys2Proof.Machine.execSigStore a v p s
  | .fence p => Sys2Proof.Machine.execFence p s
  | .lrun k0 k1 k2 k3 idx => Sys2Proof.Machine.execLrun k0 k1 k2 k3 idx s
  | .laneNop f => Sys2Proof.Machine.execLaneNop f s
  | .iadd f => Sys2Proof.Machine.execIadd f s
  | .isub f => Sys2Proof.Machine.execIsub f s
  | .imul f => Sys2Proof.Machine.execImul f s
  | .imad f => Sys2Proof.Machine.execImad f s
  | .imulh f => Sys2Proof.Machine.execImulh f s
  | .idiv f => Sys2Proof.Machine.execIdiv f s
  | .irem f => Sys2Proof.Machine.execIrem f s
  | .imin f => Sys2Proof.Machine.execImin f s
  | .imax f => Sys2Proof.Machine.execImax f s
  | .iabs f => Sys2Proof.Machine.execIabs f s
  | .laneAnd f => Sys2Proof.Machine.execLaneAnd f s
  | .laneOr f => Sys2Proof.Machine.execLaneOr f s
  | .laneXor f => Sys2Proof.Machine.execLaneXor f s
  | .laneNot f => Sys2Proof.Machine.execLaneNot f s
  | .laneShl f => Sys2Proof.Machine.execLaneShl f s
  | .laneShr f => Sys2Proof.Machine.execLaneShr f s
  | .laneSar f => Sys2Proof.Machine.execLaneSar f s
  | .rot f => Sys2Proof.Machine.execRot f s
  | .laneClz f => Sys2Proof.Machine.execLaneClz f s
  | .lanePopc f => Sys2Proof.Machine.execLanePopc f s
  | .brev f => Sys2Proof.Machine.execBrev f s
  | .bfe f => Sys2Proof.Machine.execBfe f s
  | .bfi f => Sys2Proof.Machine.execBfi f s
  | .laneSel f => Sys2Proof.Machine.execLaneSel f s
  | .icmp f => Sys2Proof.Machine.execIcmp f s
  | .fadd f => Sys2Proof.Machine.execFadd f s
  | .fsub f => Sys2Proof.Machine.execFsub f s
  | .fmul f => Sys2Proof.Machine.execFmul f s
  | .fma f => Sys2Proof.Machine.execFma f s
  | .fdiv f => Sys2Proof.Machine.execFdiv f s
  | .fmin f => Sys2Proof.Machine.execFmin f s
  | .fmax f => Sys2Proof.Machine.execFmax f s
  | .fminn f => Sys2Proof.Machine.execFminn f s
  | .fmaxn f => Sys2Proof.Machine.execFmaxn f s
  | .fcmp f => Sys2Proof.Machine.execFcmp f s
  | .fsqrt f => Sys2Proof.Machine.execFsqrt f s
  | .frcp f => Sys2Proof.Machine.execFrcp f s
  | .frsq f => Sys2Proof.Machine.execFrsq f s
  | .fexp2 f => Sys2Proof.Machine.execFexp2 f s
  | .flog2 f => Sys2Proof.Machine.execFlog2 f s
  | .fsin f => Sys2Proof.Machine.execFsin f s
  | .fcos f => Sys2Proof.Machine.execFcos f s
  | .ftanh f => Sys2Proof.Machine.execFtanh f s
  | .fclass f => Sys2Proof.Machine.execFclass f s
  | .fscale f => Sys2Proof.Machine.execFscale f s
  | .frint f => Sys2Proof.Machine.execFrint f s
  | .cvt f => Sys2Proof.Machine.execCvt f s
  | .pack f => Sys2Proof.Machine.execPack f s
  | .unpack f => Sys2Proof.Machine.execUnpack f s
  | .qblk f => Sys2Proof.Machine.execQblk f s
  | .dqblk f => Sys2Proof.Machine.execDqblk f s
  | .vplen f => Sys2Proof.Machine.execVplen f s
  | .vpk f => Sys2Proof.Machine.execVpk f s
  | .mand f => Sys2Proof.Machine.execMand f s
  | .mor f => Sys2Proof.Machine.execMor f s
  | .mxor f => Sys2Proof.Machine.execMxor f s
  | .mnot f => Sys2Proof.Machine.execMnot f s
  | .mset f => Sys2Proof.Machine.execMset f s
  | .mpopc f => Sys2Proof.Machine.execMpopc f s
  | .shfl f => Sys2Proof.Machine.execShfl f s
  | .vote f => Sys2Proof.Machine.execVote f s
  | .scan f => Sys2Proof.Machine.execScan f s
  | .red f => Sys2Proof.Machine.execRed f s
  | .laneLsplit f => Sys2Proof.Machine.execLaneLsplit f s
  | .ljoin f => Sys2Proof.Machine.execLjoin f s
  | .lend f => Sys2Proof.Machine.execLend f s
  | .lcall f => Sys2Proof.Machine.execLcall f s
  | .lret f => Sys2Proof.Machine.execLret f s
  | .ldl f => Sys2Proof.Machine.execLdl f s
  | .stl f => Sys2Proof.Machine.execStl f s
  | .atoml f => Sys2Proof.Machine.execAtoml f s
  | .ldvp f => Sys2Proof.Machine.execLdvp f s
  | .stvp f => Sys2Proof.Machine.execStvp f s
  | .prefl f => Sys2Proof.Machine.execPrefl f s
  | .lfence f => Sys2Proof.Machine.execLfence f s
  | .accrd f => Sys2Proof.Machine.execAccrd f s
  | .accwr f => Sys2Proof.Machine.execAccwr f s
  | .accz f => Sys2Proof.Machine.execAccz f s
  | .rputl f => Sys2Proof.Machine.execRputl f s
  | .rgetl f => Sys2Proof.Machine.execRgetl f s
  | .rredl f => Sys2Proof.Machine.execRredl f s
  | .precw f => Sys2Proof.Machine.execPrecw f s
  | .precr f => Sys2Proof.Machine.execPrecr f s
  | .timeIncrement die => Sys2Proof.Machine.execTimeIncrement die s
  | .roceAcknowledgementReceive port qp ok data poison => Sys2Proof.Machine.execRoceAcknowledgementReceive port qp ok data poison s
  | .coldReset => Sys2Proof.Machine.execColdReset s
  | .powerLoss => Sys2Proof.Machine.execPowerLoss s
  | .alwaysOnWatchdog => Sys2Proof.Machine.execAlwaysOnWatchdog s
  | .timeSyncBroadcast => Sys2Proof.Machine.execTimeSyncBroadcast s
  | .gapAnnouncement => Sys2Proof.Machine.execGapAnnouncement s
  | .gapRateChange => Sys2Proof.Machine.execGapRateChange s
  | .dieRefillGrant => Sys2Proof.Machine.execDieRefillGrant s
  | .floatInterval => Sys2Proof.Machine.execFloatInterval s
  | .gapChoice => Sys2Proof.Machine.execGapChoice s
  | .migrationReview => Sys2Proof.Machine.execMigrationReview s
  | .nop => Sys2Proof.Machine.execNop s
  | .bar => Sys2Proof.Machine.execBar s
  | .cbar => Sys2Proof.Machine.execCbar s
  | .exit => Sys2Proof.Machine.execExit s
  | .lsync => Sys2Proof.Machine.execLsync s
  | .tret => Sys2Proof.Machine.execTret s
  | .brk => Sys2Proof.Machine.execBrk s
  | .packageBucketFill => Sys2Proof.Machine.execPackageBucketFill s
  | .rdmaWriteReceive port qp rkey addr data poison => Sys2Proof.Machine.execRdmaWriteReceive port qp rkey addr data poison s
  | .rdmaWriteImmediateReceive port qp rkey addr imm len => Sys2Proof.Machine.execRdmaWriteImmediateReceive port qp rkey addr imm len s
  | .rdmaReadReceive port qp rkey addr len => Sys2Proof.Machine.execRdmaReadReceive port qp rkey addr len s
  | .atomicReceive port qp rkey addr cas operand comparand => Sys2Proof.Machine.execAtomicReceive port qp rkey addr cas operand comparand s
  | .cnpReceive port qp rate => Sys2Proof.Machine.execCnpReceive port qp rate s
  | .qcreate h base log2size die priomax => Sys2Proof.Machine.execQcreate h base log2size die priomax s
  | .qdestroy h desc => Sys2Proof.Machine.execQdestroy h desc s
  | .qstop h desc => Sys2Proof.Machine.execQstop h desc s
  | .qresume h desc => Sys2Proof.Machine.execQresume h desc s
  | .map h => Sys2Proof.Machine.execMap h s
  | .unmap h => Sys2Proof.Machine.execUnmap h s
  | .rdmawin h base len hostAddr port qp rkey => Sys2Proof.Machine.execRdmawin h base len hostAddr port qp rkey s
  | .lapload h => Sys2Proof.Machine.execLapload h s
  | .lapstat h => Sys2Proof.Machine.execLapstat h s
  | .jobset h => Sys2Proof.Machine.execJobset h s
  | .jobclear h job => Sys2Proof.Machine.execJobclear h job s
  | .telem h block => Sys2Proof.Machine.execTelem h block s
  | .resetComputeSide h => Sys2Proof.Machine.execResetComputeSide h s
  | .resetFull h => Sys2Proof.Machine.execResetFull h s
  | .flcfg h => Sys2Proof.Machine.execFlcfg h s
  | .fwload h core final => Sys2Proof.Machine.execFwload h core final s
  | .attest h => Sys2Proof.Machine.execAttest h s
  | .kickRegisterWrite port qp addr size value => Sys2Proof.Machine.execKickRegisterWrite port qp addr size value s

end Sys2Proof.Machine
end

