-- ==== Sys2Proof/Machine/Issue.lean ====
section
/-!
DEFINITION. Issue: instruction fetch (R267, R268), lane breakpoints (R248), the issue ports and their token requests (R76,
R80, R81, R145, R146), and the agents that may act next. -/
namespace Sys2Proof.Machine

/-! ## Fetch (R267, R268) -/

/-- What a fetch finds: code, a page still to be backed with the address there, or a fault. -/
inductive Fetched where
  | code (w : Nat)
  | unbacked (page addr : Nat)
  | fault (cause addr : Nat)
deriving DecidableEq, Repr

/-- Fetch one word of 32 bits from a page with a code permission (R180, R188, R267). DEDUCED: assumption 37. -/
def State.fetchWord (s : State) (w : Want) (a : Nat) : Fetched :=
  let a := a % 2 ^ 56
  match pageAt s.pages a with
  | none => .fault (if 0xF0 * 2 ^ 48 ≤ a then 0x11 else 0x10) a
  | some (b, p) =>
    if !p.allows w || !(p.kind == .hbm || p.kind == .scratch) then .fault 0x11 a
    else if !p.backed then .unbacked b a
    else .code (leNat (s.homeRead a 4))

/-- Fetch n words, the first lowest. -/
def State.fetchWords (s : State) (w : Want) : Nat → Nat → Fetched
  | 0, _ => .code 0
  | n + 1, a =>
    match s.fetchWord w a with
    | .code x =>
      match State.fetchWords s w n (a + 4) with
      | .code y => .code (x + y * 2 ^ 32)
      | r => r
    | r => r

/-- Fetch a scalar instruction: one word, or two by its major opcode (R267). -/
def State.fetchScalar (s : State) (a : Nat) : Fetched :=
  match s.fetchWord .code a with
  | .code x => if twoWord x then s.fetchWords .code 2 a else .code x
  | r => r

/-- Fetch a lane instruction of three words (R267). -/
def State.fetchLane (s : State) (a : Nat) : Fetched := s.fetchWords .laneCode 3 a

/-- A fetch of a group's stream at `pc` finds a page without backing at an address: it waits for it, or takes the translation
fault where no die had room (R188). -/
def State.awaitFetch (s : State) (h : Nat) (lane : Bool) (pc b a : Nat) : State :=
  let who := Waiter.stream h lane
  if (tblGet {} s.pages b).failed.contains who then s.reportGroup h 0x10 a lane pc 0xFF
  else { s with pages := tblUpd s.pages b (fun p => { p with
    wanted := true, waits := if p.waits.contains who then p.waits else p.waits ++ [who] }) }

/-- The memory that an instruction lies in, or the way there, takes no new request (R79). -/
def State.fetchShut (s : State) (h a : Nat) : Bool :=
  match pageAt s.pages (a % 2 ^ 56) with
  | some (_, p) => s.pageChoked (s.dieOf h) p
  | none => false

/-- The LBKA that a lane PC matches, the lower first (R248). -/
def Group.breakAt (g : Group) (pc : Nat) : Option Nat :=
  (List.range 4).find? (fun i =>
    let v := (g.sr.lbka[i]?.getD 0).toNat
    fld v 63 1 == 1 && fld v 2 54 == fld pc 2 54)

/-! ## Issue ports (R80, R81, R145, R146) -/

/-- The issue port of a group's stream, as a requester of the core bucket (R80). -/
def Group.port (g : Group) (lane : Bool) : Nat := g.quad + (if lane then 4 else 0)

/-- The clock since which a stream has been ready without issuing. -/
def Group.readySince (g : Group) (lane : Bool) : Option Nat := if lane then g.lready else g.sready

/-- The rank of a ready group at its port, lower first: a die's dispatcher group, then PROMPT, then the longest ready of those
ready for 256 clocks, then the higher barrier rank, the earlier team, the lower GRPID (R146). -/
def State.portKey (s : State) (h since : Nat) : Nat :=
  let g := s.group h
  let tm := s.team (teamOf h)
  let aged := if since + 256 ≤ s.clock then since else s.clock + 1
  ((((if isDispatcher h then 0 else if tm.prio = 3 then 1 else 2) * 2 ^ 64 + aged) * 128 + (127 - g.rank)) * 2 ^ 64 + tm.order) * 128 + g.grpid

/-- The die's dispatcher group is ready at a port of its core (R120, R146). -/
def State.dispatcherReady (s : State) (core port : Nat) : Bool :=
  core % 40 == 39 && port == 3 && (s.die (dieOfCore core)).disp.sready.isSome

/-- The stream holds a grant. -/
def Group.granted (g : Group) (lane : Bool) : Bool := if lane then g.lgrant else g.sgrant

/-- The rank of a group's stream at its port. -/
def State.rankNow (s : State) (h : Nat) (lane : Bool) : Nat := s.portKey h (((s.group h).readySince lane).getD s.clock)

/-- The other groups of a port (R146). -/
def State.portMates (s : State) (h : Nat) (lane : Bool) : List Nat :=
  (tblKeys s.groups).filter (fun x =>
    x != h && s.coreOf x == s.coreOf h && (s.group x).port lane == (s.group h).port lane && s.issues x && !(s.group x).exited)

/-- The port chooses the group, `rivals` being the others that are ready there: none of them comes before it, the dispatcher
group is not ready, no request of the port stands but one of the same clock that gives way to it, and the port has had no grant
in this clock (R81, R146). -/
def State.chooses (s : State) (h : Nat) (lane : Bool) (rivals : List Nat) : Bool :=
  let k := s.core (s.coreOf h)
  let port := (s.group h).port lane
  let key := s.rankNow h lane
  !s.dispatcherReady (s.coreOf h) port && rivals.all (fun x => decide (key ≤ s.rankNow x lane)) &&
    k.reqs.all (fun r => r.port != port || (r.since == s.clock && decide (key < s.rankNow r.grp lane))) &&
    tblFind k.chose port != some s.clock

/-- A stream is found ready: it waits on no other stream (R158), and counts as ready from the clock in which it was so first
(R146). -/
def State.markReady (s : State) (lane : Bool) (h : Nat) : State :=
  s.updGroup h (fun g =>
    if lane then { g with lready := some (g.lready.getD s.clock), lblock := none }
    else { g with sready := some (g.sready.getD s.clock), sblock := none })

/-- A stream is ready and has no grant: it and the others that are ready at its port are marked so, and it posts its token
request if the port chooses it (R76, R80, R81, R146). -/
def State.askPort (s : State) (h : Nat) (lane : Bool) (price : Nat) (rivals : List Nat) : State :=
  let s := (h :: rivals).foldl (State.markReady · lane ·) s
  let port := (s.group h).port lane
  if !s.chooses h lane rivals then s
  else
    s.updCore (s.coreOf h) (fun k => { k with
      reqs := k.reqs.filter (·.port != port) ++ [{ port := port, amount := price, grp := h, since := s.clock }] })

/-- A stream that waits is not ready (R145). -/
def State.notReady (s : State) (h : Nat) (lane : Bool) : State :=
  s.updGroup h (fun g => if lane then { g with lready := none } else { g with sready := none })

/-- A stream has issued an instruction of n bytes: its fetch has reached its home (R74, R191), its grant is spent, and its team has
started (R140). -/
def State.spend (s : State) (h : Nat) (lane : Bool) (a n : Nat) : State :=
  ((s.visitHome (s.dieOf h) (a % 2 ^ 56) n).updGroup h (fun g =>
    if lane then { g with lready := none, lgrant := false } else { g with sready := none, sgrant := false })).updTeam (teamOf h)
      (fun t => { t with started := some (t.started.getD (s.timeOf h)) })

/-- An instruction that costs nothing issues in the clock in which its port chooses its group (R73, R146). -/
def State.issueFree (s s' : State) (h : Nat) (lane : Bool) (a n : Nat) (rivals : List Nat) : State :=
  let u := (h :: rivals).foldl (State.markReady · lane ·) s
  let port := (s.group h).port lane
  if !u.chooses h lane rivals then u
  else (s'.spend h lane a n).updCore (s.coreOf h) (fun k => { k with
    reqs := k.reqs.filter (·.port != port), chose := tblPut k.chose port s.clock })

/-- What a stream's turn comes to, given what its instruction of n bytes at `a` does from `s`, its price (R76), and the other
groups that are ready at its port: an instruction that waits is not ready; one that raises illegal instruction is not charged;
another has its effect once its grant is there, and asks for it before. DEDUCED: assumption 41. -/
def State.settle (s : State) (h : Nat) (lane : Bool) (a n price : Nat) (rivals : List Nat) (r : Out) : Out :=
  match r with
  | .next s' =>
    match s'.mark with
    | .waiting => .next (s'.notReady h lane)
    | .uncharged => .next (s'.spend h lane a n)
    | .issued =>
      .next (if (s.group h).granted lane then s'.spend h lane a n
        else if price = 0 then s.issueFree s' h lane a n rivals
        else s.askPort h lane price rivals)
  | .fault e => .fault e
  | .refused e => .refused e

/-- The price of a scalar instruction (R73, R75). -/
def State.scalarPrice (s : State) (i : Instr) : Nat := s.price (priceIndex ((scalarClass i).getD 0) 0 0)

/-- The price of a lane instruction's 96 bits (R75). -/
def State.lanePrice (s : State) (g : Group) (w : Nat) : Nat := s.price (s.laneIndex g (fld w 0 10) (laneFields w))

/-! ## Who may act next -/

/-- The events that time and the firmware bring at any moment. -/
def clockTurns : List Turn :=
  [.event .packageBucketFill, .event .floatInterval, .event .gapChoice, .event .gapAnnouncement, .event .gapRateChange,
    .event .dieRefillGrant, .event .migrationReview, .event .timeSyncBroadcast] ++
    (List.range 9).map (fun d => .event (.timeIncrement d)) ++ (List.range 7).map (fun c => .event (.firmwareHeartbeat (c + 1))) ++
    (List.range 16).flatMap (fun i => [.event (.rampStart i), .event (.intentFloorEnd i)]) ++
    (List.range 4).map (fun i => .event (.heldChunkDiscard i))

/-- The events of a die. -/
def State.dieTurns (s : State) (d : Nat) : List Turn :=
  [.event (.timeReferenceReport d), .event (.coreRefillGrant d), .event (.dieRefillArrival d), .event (.undercoatDraw d),
    .event (.ballastExpiry d), .event (.dispatcherTurn d), .event (.forward d), .event (.unitAdmission d), .event (.placeHold d),
    .event (.highPreemption d), .event (.promptDispatch d), .event (.teamResume d), .event (.stationReadIssue d),
    .event (.slotInjection d), .event (.triggerArm d), .event (.firedCommandEntry d)] ++
    (List.range (s.die d).taken.length).flatMap (fun i =>
      [.event (.launch d i), .event (.copyPacket d i), .event (.signalPacket d i), .event (.waitPacket d i),
        .event (.gatePacket d i), .event (.nopPacket d i)])

/-- The events of a core. -/
def State.coreTurns (s : State) (c : Nat) : List Turn :=
  let k := s.core c
  [.event (.coreBucketGrant c), .event (.coreRefillArrival c), .event (.tapSlotArrival c []), .event (.captureComplete c)] ++
    (List.range 4).flatMap (fun q => [.event (.mmaArrayStart c q), .event (.mmaResultAdd c q)]) ++
    (List.range k.copies.length).flatMap (fun i => [.event (.copyChunk c i), .event (.copyComplete c i)]) ++
    k.boards.map (fun b => .event (.followOnIssue c b.id))

/-- The events of a team. -/
def State.teamTurns (s : State) (t : Nat) : List Turn :=
  [.event (.barrierRelease t), .event (.regroupComplete t), .event (.teamKill t), .event (.teamSave t), .event (.saveComplete t),
    .event (.teamFlush t), .event (.drainDeadline t)] ++
    (List.range (((s.team t).ngroups + 3) / 4)).map (fun q => .event (.quartetPairing t q)) ++
    (if (s.team t).twin.isSome then
      (List.range (s.team t).ngroups).flatMap (fun g =>
        [.event (.scrimSignatureExchange t g), .event (.scrimTwinLag t g), .event (.scrimValueDelivery t g)])
    else [])

/-- The turns of a group: its two streams, and what comes of what they issued. -/
def State.groupTurns (s : State) (h : Nat) : List Turn :=
  let g := s.group h
  [.scalar h, .lane h, .event (.laneBlockBegin h), .event (.streamDeadlock h), .event (.waitmPoll h), .event (.waitmTimeout h)] ++
    (List.range 8).map (fun q => .event (.loadQueueFill h q)) ++
    (List.range g.longs.length).map (fun i => .event (.longOperationWrite h i)) ++
    (List.range (g.log.length + 1)).flatMap (fun i =>
      [.event (.memoryAccessPerform h i), .event (.pageWalkComplete h i), .event (.refusedAccessResend h i)])

/-- Every turn that may be taken next, but for what comes from outside (DESIGN CHOICE, assumption 6): one not yet due changes
nothing. With the compute side down there is the boot, and the reference copy of TIME. -/
def State.enabledTurns (s : State) : List Turn :=
  if !s.firm.up then .event (.timeIncrement 8) :: (if s.firm.step = 1 || !s.firm.powered then [.event .coldReset] else [])
  else
    clockTurns ++ (List.range 8).flatMap s.dieTurns ++ (List.range 320).flatMap s.coreTurns ++
      (tblKeys s.teams).flatMap s.teamTurns ++ (tblKeys s.grids).map (fun g => .event (.gridCompletion g)) ++
      (tblKeys s.groups).flatMap s.groupTurns ++
      (tblKeys s.pages).flatMap (fun p =>
        [.event (.onDemandBacking p), .event (.migrationCopy p), .event (.migrationBackingFree p)]) ++
      (tblKeys s.queues).flatMap (fun q =>
        [.event (.slotReread q), .event (.waitPacketPoll q), .event (.waitPacketTimeout q)]) ++
      s.remotes.map (fun j => .event (.remoteOperationComplete j.id)) ++
      (List.range s.colls.length).map (fun i => .event (.collectiveTimeout i)) ++
      (List.range s.power.pairs.length).map (fun i => .event (.intentPairForget i))

end Sys2Proof.Machine
end

