-- ==== Sys2Proof/Machine/Step.lean ====
section
/-!
DEFINITION. The step: one agent takes its turn. A stream fetches, decodes, runs and pays for one instruction; another
agent's turn is one event. -/
namespace Sys2Proof.Machine

/-- What the words at a scalar stream's pc do: the price and the outcome (R267, R268). -/
def scalarRun (h w : Nat) (s : State) : Nat × Out :=
  match decodeScalar (fld w 0 32) (fld w 32 32) with
  | .ok i => (s.scalarPrice i, exec i s)
  | .error _ => (0, .next (s.trap h { cause := 0x01 }))

/-- What the words at a lane stream's pc do: a breakpoint, the instruction, nothing at all for a reserved word with no lane to
act on (R248, R267, R286). -/
def laneStep (h w : Nat) (g : Group) (s : State) : Nat × Out :=
  match (if g.bskip || g.act == 0 then none else g.breakAt g.lanePc) with
  | some i =>
    (0, .next { s.trap h { cause := 0x0B, stream := true, code := i, mask := g.live &&& ~~~ g.act, bskip := true } with mark := .uncharged })
  | none =>
    match decodeLane w with
    | .ok i => (s.lanePrice g w, exec i s)
    | .error _ =>
      let ls := g.lanes (laneFields w)
      if ls ≠ 0 then (0, .next (s.trap h { cause := 0x01, stream := true, mask := ls }))
      else (s.price (priceIndex 0 0 0), .next (s.put g.laneNext))

/-- The next instruction of a group's stream is ready to issue (R145). -/
def State.readyNow (s : State) (lane : Bool) (h : Nat) : Bool :=
  match tblFind s.groups h with
  | none => false
  | some g =>
    let u := { s with cur := h, mark := .issued }
    if lane then
      u.laneReady g && !u.fetchShut h g.lanePc &&
        (match u.fetchLane g.lanePc with
         | .code w => (match (laneStep h w g u).2 with | .next t => t.mark == .issued | _ => false)
         | _ => false)
    else
      u.scalarReady g && !u.fetchShut h g.pc &&
        (match u.fetchScalar g.pc with
         | .code w => (match (scalarRun h w u).2 with | .next t => t.mark == .issued | _ => false)
         | _ => false)

/-- The other groups that are ready at a group's port (R146). -/
def State.rivals (s : State) (h : Nat) (lane : Bool) : List Nat := (s.portMates h lane).filter (s.readyNow lane)

/-- A scalar stream's turn (R267, R268, R295). DESIGN CHOICE: assumption 46. -/
def scalarTurn (h : Nat) (s : State) : Out :=
  match tblFind s.groups h with
  | none => .fault .noStream
  | some g =>
    let s := { s with cur := h, mark := .issued }
    if !s.scalarReady g || s.fetchShut h g.pc then .next s
    else
      match s.fetchScalar g.pc with
      | .fault cause a => .next (s.reportGroup h cause a false g.pc 0xFF)
      | .unbacked b a => .next (s.awaitFetch h false g.pc b a)
      | .code w =>
        let r := scalarRun h w s
        s.settle h false g.pc (if twoWord (fld w 0 32) then 8 else 4) r.1 (s.rivals h false) r.2

/-- A lane stream's turn (R248, R267, R286). -/
def laneTurn (h : Nat) (s : State) : Out :=
  match tblFind s.groups h with
  | none => .fault .noStream
  | some g =>
    let s := { s with cur := h, mark := .issued }
    if !s.laneReady g || s.fetchShut h g.lanePc then .next s
    else
      match s.fetchLane g.lanePc with
      | .fault cause a => .next (s.reportGroup h cause a true g.lanePc 0xFF)
      | .unbacked b a => .next (s.awaitFetch h true g.lanePc b a)
      | .code w =>
        let r := laneStep h w g s
        s.settle h true g.lanePc 12 r.1 (s.rivals h true) r.2

/-- One turn. -/
def take (t : Turn) (s : State) : Out :=
  match t with
  | .scalar h => scalarTurn h s
  | .lane h => laneTurn h s
  | .event i => exec i s

/-- A turn is a control command (R107). -/
def Turn.isCommand (t : Turn) : Bool :=
  match t with
  | .event (.qcreate ..) => true
  | .event (.qdestroy ..) => true
  | .event (.qstop ..) => true
  | .event (.qresume ..) => true
  | .event (.map ..) => true
  | .event (.unmap ..) => true
  | .event (.rdmawin ..) => true
  | .event (.lapload ..) => true
  | .event (.lapstat ..) => true
  | .event (.jobset ..) => true
  | .event (.jobclear ..) => true
  | .event (.telem ..) => true
  | .event (.resetComputeSide ..) => true
  | .event (.resetFull ..) => true
  | .event (.flcfg ..) => true
  | .event (.fwload ..) => true
  | .event (.attest ..) => true
  | _ => false

/-- The first turn of a list that may be taken, and the others. -/
def firstTurn (may : Turn → Bool) : List Turn → Option (Turn × List Turn)
  | [] => none
  | t :: l => if may t then some (t, l) else (firstTurn may l).map (fun e => (e.1, t :: e.2))

/-- One step: the first turn of the agenda, else the one that `Config.pick` picks (DESIGN CHOICE, assumption 6). A command waits on
the agenda while an UNMAP has not finished: each is executed whole before the next (R106). -/
def step (s : State) : Host.Outcome State Fault Refusal :=
  match firstTurn (fun t => !t.isCommand || (s.unmaps.isEmpty && s.firm.resetting.isNone)) s.agenda with
  | some (t, rest) => take t { s with agenda := rest }
  | none =>
    let l := s.enabledTurns
    match l[(s.turnNo + Config.pick s.turnNo) % l.length]? with
    | some t => take t { s with turnNo := s.turnNo + 1 }
    | none => .next { s with turnNo := s.turnNo + 1 }

/-- Where `withFetchWord` places its instruction. -/
def fetchBase : Nat := 0x10000

/-- A team of one group stands admitted on core 0 with the instruction at the start of a page of code, its token grant given,
and has the next turn (DESIGN CHOICE, assumption 15). -/
def State.withFetchWord (s : State) (nbits w : Nat) : State :=
  let lane := decide (64 < nbits)
  let g := { s.group 128 with
    team := 1, pc := fetchBase, exited := false, swait := .none, sgrant := true, lgrant := true, lpush := none
    active := allLanes, ldead := 0
    run := if lane then some { pc := fetchBase } else none }
  { s with
    firm := { s.firm with up := true }
    teams := tblPut s.teams 1 { s.team 1 with grid := 1, life := .running, report := none, lcode := fetchBase }
    grids := tblPut s.grids 1 (s.grid 1)
    groups := tblPut s.groups 128 g
    pages := tblPut s.pages fetchBase { perm := 0x1F }
    mem := putBytes s.mem fetchBase (leBytes (if lane then 12 else 8) (w % 2 ^ nbits))
    nextId := max 2 s.nextId
    agenda := [if lane then .lane 128 else .scalar 128] }

end Sys2Proof.Machine
end

