-- ==== Sys2Proof/Safety.lean ====
section
/-!
DEFINITION. The terms in which claims are stated: when a stream issues, what an instruction leaves alone, and which
states are in order. -/
namespace Sys2Proof.Machine

/-- An instruction completes: it answers a next state, and P holds of it. -/
def Completes (i : Instr) (s : State) (P : State → Prop) : Prop := ∃ t, exec i s = .next t ∧ P t

/-- The group whose stream runs may issue a scalar instruction: it is resident, its device is up, its team is listed and runs
with no cause against it, it has not exited, nothing holds its scalar stream (R295, R296), and its hold buffer has room (R258). -/
structure Issuing (s : State) (g : Group) : Prop where
  here    : tblFind s.groups s.cur = some g
  up      : s.firm.up = true
  listed  : (tblFind s.teams (teamOf s.cur)).isSome = true
  running : (s.team (teamOf s.cur)).life = .running
  clear   : (s.team (teamOf s.cur)).report = none
  alive   : g.exited = false
  free    : g.swait = .none
  room    : g.held.length < 512

/-- Nothing but the current group differs, and it is g' now. -/
def Becomes (s t : State) (g' : Group) : Prop :=
  t = { s with groups := t.groups } ∧ tblFind t.groups s.cur = some g' ∧
    ∀ h, h ≠ s.cur → tblFind t.groups h = tblFind s.groups h

/-- Every byte of memory reads as before, and so does every byte of every core's store and cache. -/
def MemoryKept (s t : State) : Prop :=
  (∀ a, t.homeRead a 1 = s.homeRead a 1) ∧
    ∀ c, (∀ a, (t.core c).lread a 1 = (s.core c).lread a 1) ∧ (t.core c).cache = (s.core c).cache

/-- No register, flag, queue or other part of a group differs but scalar register d, the PC and the scalar stream's
place. -/
def RegsBut (g g' : Group) (d : SReg) : Prop :=
  g' = { g with sregs := g'.sregs, pc := g'.pc, seq := g'.seq, sblock := g'.sblock, lblock := g'.lblock } ∧
    ∀ r, r ≠ d → g'.sread r = g.sread r

/-- What a scalar instruction with destination d and result v leaves: d holds v, or reads 0 as s63; the PC stands at
`pc`; all else is as it was (R269, R297). -/
def Sets (s : State) (g : Group) (d : SReg) (v : Word) (pc : Nat) (t : State) : Prop :=
  ∃ g', Becomes s t g' ∧ MemoryKept s t ∧ RegsBut g g' d ∧ g'.sread d = (if d = 63 then 0 else v) ∧
    g'.pc = pc % 2 ^ 56

/-- What a compare leaves: boolean p holds v, or reads true as b0; every register is as it was (R300). -/
def SetsBool (s : State) (g : Group) (p : BitVec 3) (v : Bool) (pc : Nat) (t : State) : Prop :=
  ∃ g', Becomes s t g' ∧ MemoryKept s t ∧
    g' = { g with bools := g'.bools, pc := g'.pc, seq := g'.seq, sblock := g'.sblock, lblock := g'.lblock } ∧
    (∀ q, q ≠ p → g'.bread q = g.bread q) ∧ g'.bread p = (p == 0 || v) ∧ g'.pc = pc % 2 ^ 56

/-- A scalar instruction changed the group to g' and nothing else; the PC moved on by n bytes. -/
def Moves (s : State) (n : Nat) (g' : Group) (t : State) : Prop :=
  Becomes s t { g' with pc := (g'.pc + n) % 2 ^ 56, seq := g'.seq + 1, sblock := none, lblock := none } ∧ MemoryKept s t

/-- The group takes a program cause raised by its scalar stream (R239, R242): the frame holds the interrupted state, the
trap registers say what was raised and where it resumes, every live lane is active, and the scalar stream stands at
the trap entry; every other register, cell, mask and queue is as it was. -/
def TakesTrap (s : State) (g : Group) (cause code after : Nat) (mask : Lanes) (entry : Nat) (t : State) : Prop :=
  ∃ g' e, tblFind t.groups s.cur = some g' ∧ (∀ h, h ≠ s.cur → tblFind t.groups h = tblFind s.groups h) ∧
    MemoryKept s t ∧ t.teams = s.teams ∧ t.pages = s.pages ∧
    g'.pc = entry ∧ g'.run = none ∧ g'.active = g.live ∧
    g'.sr = { g.sr with tstat := g'.sr.tstat, tpc := g'.sr.tpc, tlpc := g'.sr.tlpc, tmask := g'.sr.tmask } ∧
    fld g'.sr.tstat.toNat 0 8 = cause ∧ g'.sr.tstat.getLsbD 8 = false ∧ fld g'.sr.tstat.toNat 16 8 = code ∧
    g'.sr.tstat.getLsbD 12 = g.run.isSome ∧ fld g'.sr.tstat.toNat 32 6 = (g.level + 1) % 64 ∧
    g'.sr.tpc.toNat = (g.pc + after) % 2 ^ 56 ∧ (∀ r, g.run = some r → g'.sr.tlpc = BitVec.ofNat 64 r.pc) ∧
    g'.sr.tmask = mask ∧
    g'.stack = e :: g.stack ∧ e.kind = .trap ∧ e.fmt = g.sr.fmt ∧ e.amask = g.act ∧ e.parkn = g.blocks.length ∧
    e.tstat = g.sr.tstat ∧ e.tpc = g.sr.tpc ∧ e.tlpc = g.sr.tlpc ∧ e.tmask = g.sr.tmask ∧ e.lbusy = g.run.isSome ∧
    (∀ r, g.run = some r → e.k = r.k) ∧
    g'.sregs = g.sregs ∧ g'.bools = g.bools ∧ g'.masks = g.masks ∧ g'.cells = g.cells ∧ g'.prec = g.prec ∧
    g'.accmap = g.accmap ∧ g'.blocks = g.blocks ∧ g'.rq = g.rq ∧ g'.lq = g.lq ∧ g'.sq = g.sq ∧ g'.aq = g.aq ∧
    g'.log = g.log ∧ g'.longs = g.longs

/-- The team of the current group stands reported with a cause, and no group has changed (R233, R237). -/
def Reported (s : State) (cause : Nat) (t : State) : Prop :=
  t.groups = s.groups ∧ MemoryKept s t ∧ ((t.team (teamOf s.cur)).report.map (·.cause)) = some cause

/-- The group can take a cause: its kernel has a trap entry, and its stack has room (R233, R237). -/
def CanTrap (s : State) (g : Group) (entry : Nat) : Prop :=
  (s.team (teamOf s.cur)).trapent = some entry ∧ g.stack.length < 64

/-- A team outside Scrim whose grid neither records nor replays (R119, R257). -/
structure Plain (s : State) : Prop where
  alone    : (s.team (teamOf s.cur)).twin = none
  primary  : (s.team (teamOf s.cur)).isTwin = false
  noRec    : (s.gridOf s.cur).flags.testBit 4 = false
  noReplay : (s.gridOf s.cur).flags.testBit 5 = false

/-- A scalar instruction issued the accesses `l` and went on by n bytes: they stand at the end of the group's operand log
under fresh identifiers, and no byte of memory has changed yet (R187). -/
def Issues (s : State) (g : Group) (n : Nat) (l : List Access) (t : State) : Prop :=
  MemoryKept s t ∧ t.nextId = s.nextId + l.length ∧ (∀ h, h ≠ s.cur → tblFind t.groups h = tblFind s.groups h) ∧
    tblFind t.groups s.cur = some { g.advance n with
      log := g.log ++ (l.zip (List.range l.length)).map (fun e => { e.1 with id := s.nextId + e.2 }) }

/-- The n bytes at a lie in one backed HBM page that stands still, at a home that takes requests and that requests of die d
reach, and the page permits reads (bit 0), writes (1) or atomics (2) as `w` names (R14, R79, R179, R180, R192). -/
structure InHbm (s : State) (d a n w b : Nat) (p : Page) : Prop where
  inside  : a + n ≤ 0xF0 * 2 ^ 48
  bytes   : 0 < n
  page    : ∀ i, i < n → pageAt s.pages (a + i) = some (b, p)
  kind    : p.kind = .hbm
  perm    : p.perm.getLsbD w = true
  backed  : p.backed = true
  still   : p.move = .none
  running : (s.die p.home).choked = false
  path    : s.tripBlocked d p.home = false

/-! ## Lane instructions -/

/-- The group whose stream runs may issue a lane instruction: as for a scalar one, with a lane block running and no load
holding the lane port (R150, R282). -/
structure LaneIssuing (s : State) (g : Group) : Prop where
  here    : tblFind s.groups s.cur = some g
  up      : s.firm.up = true
  listed  : (tblFind s.teams (teamOf s.cur)).isSome = true
  running : (s.team (teamOf s.cur)).life = .running
  clear   : (s.team (teamOf s.cur)).report = none
  block   : g.run.isSome = true
  port    : g.lpush = none
  room    : g.held.length < 512
  window  : g.window ≤ 256

/-- What a lane instruction's sources pop, in the order A, B, C (R153). -/
def lanePopped (g : Group) (op : Nat) (f : LaneF) : List (List QEntry) := (popPlan op f g.lq).1

/-- What a lane instruction reads: its lanes, and each source in each lane. -/
def laneCtx (s : State) (g : Group) (op : Nat) (f : LaneF) : Ctx :=
  { g := g, op := op, f := f, lanes := g.lanes f
    seen := (lanePopped g op f).foldl (fun m es => es.foldl (fun m e => max m e.seq) m) g.lseen
    src := s.readSource g op f (lanePopped g op f)
    poison := fun i => poisonOf (lanePopped g op f) i ||| g.errLanes op f i }

/-- The group with a lane instruction's pops made. -/
def lanePop (g : Group) (op : Nat) (f : LaneF) : Group :=
  { g with lq := (popPlan op f g.lq).2
           lseen := (lanePopped g op f).foldl (fun m es => es.foldl (fun m e => max m e.seq) m) g.lseen }

/-- Nothing stops a lane instruction (R153 to R160, R224, R244): no frozen queue, no window fault, no tile, source or
destination that is not ready, no format fault, no poisoned operand. For `shfl` the cells of the lanes read from count. -/
structure LaneGo (s : State) (g : Group) (op : Nat) (f : LaneF) : Prop where
  issue  : LaneIssuing s g
  thawed : (g.inHandler && namesQueue op f) = false
  window : g.windowStop op f (g.lanes f) = none
  tile   : ∀ t, tileSource op f = some t → s.tileStop g t (g.lanes f) 0 f.a.wait = none
  source0 : g.sourceStop op f (lanePopped g op f)
    (if op = 0x080 then maskOf ((lanesOf (g.lanes f)).map (fun l =>
      shflLane f.imm.toNat ((laneCtx s g op f).src 1 l).pat l)) &&& g.live else g.lanes f) 0 = none
  source1 : g.sourceStop op f (lanePopped g op f) (g.lanes f) 1 = none
  source2 : g.sourceStop op f (lanePopped g op f) (g.lanes f) 2 = none
  dest    : s.destStop g op f (g.lanes f) = none
  format  : (laneCtx s g op f).formatStop = none
  clean   : ∀ i, (laneCtx s g op f).poison i = 0

/-- The lanes that are written: those of the instruction that consumed no poison (R251). -/
def writtenLanes (c : Ctx) : Lanes := c.lanes &&& ~~~ c.poisoned

/-- A cell the instruction writes in a lane, as an index from its destination. -/
def laneCellAt (c : Ctx) (cells : Nat → List Nat) (l i : Nat) : Option Nat :=
  if (writtenLanes c).getLsbD l = true ∧ c.f.dest.toNat ≤ i then (cells l)[i - c.f.dest.toNat]? else none

/-- What a lane instruction with results `out` leaves, by the kind of its destination (R279, R281). Cells: each lane that
is written holds its result from the destination's index on, and nothing else of any lane's cells changes; of a long
operation, the cells are empty and the operation is in flight (R154, R155). A store queue: one entry for each cell of
the result. A mask: the bits of the written lanes. In each written lane the flags are joined to PREC (R220); the lane
stream stands at the next instruction; registers, other groups and memory are as they were. -/
def LaneWrites (s : State) (g : Group) (c : Ctx) (long : Bool) (out : Nat → LaneOut) (t : State) : Prop :=
  MemoryKept s t ∧ (∀ h, h ≠ s.cur → tblFind t.groups h = tblFind s.groups h) ∧
  ∃ u, tblFind t.groups s.cur = some u ∧ u.lanePc = (g.lanePc + 12) % 2 ^ 56 ∧
    u.sregs = g.sregs ∧ u.bools = g.bools ∧ u.pc = g.pc ∧ u.sr = g.sr ∧ u.blocks = g.blocks ∧ u.log = g.log ∧
    u.lq = (lanePop g c.op c.f).lq ∧
    (c.f.dkind = 0 → long = false → (∀ l i, l < 64 → i < 256 →
      u.cell l i = (match laneCellAt c (fun l => (out l).cells) l i with
        | some v => v % 2 ^ 32
        | none => g.cell l i)) ∧ u.longs = g.longs ∧ u.empties = g.empties) ∧
    (c.f.dkind = 0 → long = true → writtenLanes c ≠ 0 → u.cells = g.cells ∧ ∃ o, u.longs = g.longs ++ [o] ∧
      o.writes = (lanesOf (writtenLanes c)).flatMap (fun l =>
        ((out l).cells.zip (List.range (out l).cells.length)).map (fun e => (l, c.f.dest.toNat + e.2, e.1))) ∧
      ∀ w, w ∈ o.writes → u.cellFull w.1 w.2.1 = false) ∧
    (c.f.dkind ≠ 0 → u.cells = g.cells ∧ u.longs = g.longs ∧ u.empties = g.empties) ∧
    (c.f.dkind = 2 → c.f.dest ≠ 0 → ∀ l, l < 64 → (u.mread c.f.dest.toNat).getLsbD l =
      (if (writtenLanes c).getLsbD l then (out l).cells.head? == some 1 else (g.mread c.f.dest.toNat).getLsbD l)) ∧
    (c.f.dkind ≠ 2 → u.masks = g.masks) ∧
    (c.f.dkind = 1 → c.f.dest.toNat < 4 → (∀ l, (out l).cells.length ≤ 4) → ∃ es : List QEntry,
      tblGet [] u.sq c.f.dest.toNat = tblGet [] g.sq c.f.dest.toNat ++ es ∧ es.length = popsOf (resultFmt c.op c.f) ∧
      ∀ (p : Nat) (e : QEntry), es[p]? = some e → e.mask = writtenLanes c ∧ e.full = true ∧
        ∀ l, l < 64 → (writtenLanes c).getLsbD l = true → tblGet 0 e.data l = (out l).cells[p]?.getD 0) ∧
    (c.f.dkind ≠ 1 → u.sq = g.sq ∧ u.aq = g.aq ∧ u.rq = g.rq) ∧
    ((long = false ∨ c.f.dkind ≠ 0) → (c.f.dkind = 1 → c.f.dest ≠ 6) → ∀ l, l < 64 → tblGet 0 u.prec l =
      (if (writtenLanes c).getLsbD l then tblGet 0 g.prec l ||| BitVec.ofNat 32 (g.outFlags (l, out l)).bits
       else tblGet 0 g.prec l)) ∧
    (∀ l, l < 64 → tblGet 0 u.z l = (if (writtenLanes c).getLsbD l && g.mode c.f l == .sr
      then Nat.repeat drawStep (out l).draws (tblGet 0 g.z l) else tblGet 0 g.z l))

/-- A lane instruction of opcode op completes with results `out` wherever nothing stops it, no operand is poisoned, and no
result's K lies below its lane's FLOOR (R228). -/
def LaneDoes (i : LaneF → Instr) (op : Nat) (long : Bool) (out : Ctx → Nat → LaneOut) : Prop :=
  ∀ s g f, LaneGo s g op f → (i f).wf = true →
    let c := laneCtx s g op f
    (∀ l, l < 64 → g.belowFloor l (out c l).low = false) → Completes (i f) s (LaneWrites s g c (c.isLong long) (out c))

/-- The cells of an exact integer result: modulo 2^n, or brought to the nearer end of the format (R211, R362). -/
def exactCells (c : Ctx) (v : Int) : List Nat :=
  let fmt := c.f.fmt.toNat
  let x := if c.f.sat then max (intMin fmt) (min (intMax fmt) v) else v
  cellsOf fmt (x % (2 ^ fmtWidth fmt : Nat)).toNat

end Sys2Proof.Machine
end

