-- ==== Sys2Proof/Certificates/Slice0/Obligations.lean ====
section
/-!
DEFINITION. The statements: what the instructions do, by family, and what every step keeps. -/
open Sys2Proof Sys2Proof.Machine

/-! ## Scalar instructions -/

/-- R297: sums, differences, products and bitwise operations; quotients and remainders, a divisor of 0 and the overflow of the
signed quotient among them; shifts by the low 6 bits of b, minimum and maximum, leading zeros and ones counted; with every
other part of the machine as it was; and the word of major 0x01 that each function is read from. -/
def Obligations.ScalarArithmetic : Prop :=
  (∀ s g, Issuing s g → ∀ d a b : SReg,
    let x := g.sread a
    let y := g.sread b
    let sets := fun v => Sets s g d v (g.pc + 4)
    Completes (.add d a b) s (sets (x + y)) ∧
    Completes (.sub d a b) s (sets (x - y)) ∧
    Completes (.mul d a b) s (sets (x * y)) ∧
    Completes (.mulh d a b) s (sets (BitVec.ofInt 64 (x.toInt * y.toInt / 2 ^ 64))) ∧
    Completes (.mulhn d a b) s (sets (BitVec.ofNat 64 (x.toNat * y.toNat / 2 ^ 64))) ∧
    Completes (.and d a b) s (sets (x &&& y)) ∧
    Completes (.or d a b) s (sets (x ||| y)) ∧
    Completes (.xor d a b) s (sets (x ^^^ y)) ∧
    Completes (.andn d a b) s (sets (x &&& ~~~ y))) ∧
  (∀ s g, Issuing s g → ∀ d a b : SReg,
    let x := g.sread a
    let y := g.sread b
    let sets := fun v => Sets s g d v (g.pc + 4)
    (y = 0 →
      Completes (.div d a b) s (sets (BitVec.allOnes 64)) ∧ Completes (.divn d a b) s (sets (BitVec.allOnes 64)) ∧
      Completes (.rem d a b) s (sets x) ∧ Completes (.remn d a b) s (sets x)) ∧
    (y ≠ 0 →
      Completes (.div d a b) s (sets (x.sdiv y)) ∧ Completes (.divn d a b) s (sets (x / y)) ∧
      Completes (.rem d a b) s (sets (x.srem y)) ∧ Completes (.remn d a b) s (sets (x % y))) ∧
    (x = BitVec.intMin 64 → y = BitVec.allOnes 64 →
      Completes (.div d a b) s (sets x) ∧ Completes (.rem d a b) s (sets 0))) ∧
  (∀ s g, Issuing s g → ∀ d a b : SReg,
    let x := g.sread a
    let y := g.sread b
    let sets := fun v => Sets s g d v (g.pc + 4)
    Completes (.shl d a b) s (sets (x <<< (y.toNat % 64))) ∧
    Completes (.shr d a b) s (sets (x >>> (y.toNat % 64))) ∧
    Completes (.sar d a b) s (sets (x.sshiftRight (y.toNat % 64))) ∧
    Completes (.min d a b) s (sets (BitVec.ofInt 64 (min x.toInt y.toInt))) ∧
    Completes (.max d a b) s (sets (BitVec.ofInt 64 (max x.toInt y.toInt))) ∧
    Completes (.minn d a b) s (sets (BitVec.ofNat 64 (min x.toNat y.toNat))) ∧
    Completes (.maxn d a b) s (sets (BitVec.ofNat 64 (max x.toNat y.toNat))) ∧
    (∃ n, n ≤ 64 ∧ (∀ i, i < n → x.getLsbD (63 - i) = false) ∧ (n < 64 → x.getLsbD (63 - n) = true) ∧
      Completes (.clz d a) s (sets (BitVec.ofNat 64 n))) ∧
    Completes (.popc d a) s (sets (BitVec.ofNat 64 ((List.range 64).filter (fun i => x.getLsbD i)).length))) ∧
  (∀ d a b : SReg,
    let reads := fun (f : BitVec 8) (b : SReg) (i : Instr) =>
      decodeTableWord 32 (0x01#6 ++ d ++ a ++ b ++ f).toNat = some i
    reads 0x00 b (.add d a b) ∧ reads 0x01 b (.sub d a b) ∧ reads 0x02 b (.mul d a b) ∧ reads 0x03 b (.mulh d a b) ∧
    reads 0x04 b (.mulhn d a b) ∧ reads 0x05 b (.div d a b) ∧ reads 0x06 b (.divn d a b) ∧ reads 0x07 b (.rem d a b) ∧
    reads 0x08 b (.remn d a b) ∧ reads 0x09 b (.and d a b) ∧ reads 0x0A b (.or d a b) ∧ reads 0x0B b (.xor d a b) ∧
    reads 0x0C b (.andn d a b) ∧ reads 0x0D b (.shl d a b) ∧ reads 0x0E b (.shr d a b) ∧ reads 0x0F b (.sar d a b) ∧
    reads 0x10 b (.min d a b) ∧ reads 0x11 b (.max d a b) ∧ reads 0x12 b (.minn d a b) ∧ reads 0x13 b (.maxn d a b) ∧
    reads 0x14 0 (.clz d a) ∧ reads 0x15 0 (.popc d a))

/-- R298, R299: the immediate forms, sign-extended for sums and products and zero-extended for logic; li and lih. -/
def Obligations.ScalarImmediates : Prop :=
  ∀ s g, Issuing s g → ∀ (d a : SReg) (i : BitVec 14) (c : BitVec 6) (k : BitVec 20) (p : BitVec 2) (h : BitVec 16),
    let x := g.sread a
    let sets := fun v => Sets s g d v (g.pc + 4)
    Completes (.addImm d a i) s (sets (BitVec.ofInt 64 (x.toInt + i.toInt))) ∧
    Completes (.mulImm d a i) s (sets (BitVec.ofInt 64 (x.toInt * i.toInt))) ∧
    Completes (.andImm d a i) s (sets (x &&& BitVec.ofNat 64 i.toNat)) ∧
    Completes (.orImm d a i) s (sets (x ||| BitVec.ofNat 64 i.toNat)) ∧
    Completes (.xorImm d a i) s (sets (x ^^^ BitVec.ofNat 64 i.toNat)) ∧
    Completes (.shlImm d a c) s (sets (x <<< c.toNat)) ∧
    Completes (.shrImm d a c) s (sets (x >>> c.toNat)) ∧
    Completes (.sarImm d a c) s (sets (x.sshiftRight c.toNat)) ∧
    Completes (.li d k) s (sets (BitVec.ofInt 64 k.toInt)) ∧
    (∃ v : Word, Completes (.lih d p h) s (sets v) ∧ ∀ j, j < 64 →
      v.getLsbD j = if j / 16 = p.toNat then h.getLsbD (j % 16) else (g.sread d).getLsbD j)

/-- R300 to R304, R325: a compare writes its boolean, b0 discarding it; sel takes one source or the other; where branches,
jumps, calls and loops go and what they link; nop changes nothing else; and the words of compares and sel. -/
def Obligations.CompareAndBranch : Prop :=
  (∀ s g, Issuing s g → ∀ (d a b : SReg) (p : BitVec 3) (n : Bool) (i : BitVec 14),
    let x := g.sread a
    let y := g.sread b
    let sets := fun v => SetsBool s g p v (g.pc + 4)
    Completes (.cmp p a b 0) s (sets (decide (x = y))) ∧
    Completes (.cmp p a b 1) s (sets (decide (x ≠ y))) ∧
    Completes (.cmp p a b 2) s (sets (decide (x.toInt < y.toInt))) ∧
    Completes (.cmp p a b 3) s (sets (decide (y.toInt ≤ x.toInt))) ∧
    Completes (.cmp p a b 4) s (sets (decide (x.toNat < y.toNat))) ∧
    Completes (.cmp p a b 5) s (sets (decide (y.toNat ≤ x.toNat))) ∧
    Completes (.cmpImm 0 p a i) s (sets (decide (x.toInt = i.toInt))) ∧
    Completes (.cmpImm 1 p a i) s (sets (decide (x.toInt ≠ i.toInt))) ∧
    Completes (.cmpImm 2 p a i) s (sets (decide (x.toInt < i.toInt))) ∧
    Completes (.cmpImm 3 p a i) s (sets (decide (i.toInt ≤ x.toInt))) ∧
    Completes (.cmpImm 4 p a i) s (sets (decide (x.toNat < i.toNat))) ∧
    Completes (.cmpImm 5 p a i) s (sets (decide (i.toNat ≤ x.toNat))) ∧
    Completes (.sel d a b n p) s (Sets s g d (if (g.bread p) = !n then x else y) (g.pc + 4))) ∧
  (∀ (d a b : SReg) (p c : BitVec 3) (n : Bool) (i : BitVec 14),
    (c.toNat < 6 → decodeTableWord 32 (0x08#6 ++ 0#3 ++ p ++ a ++ b ++ 0#5 ++ c).toNat = some (.cmp p a b c) ∧
      decodeTableWord 32 (0x09#6 ++ c ++ p ++ a ++ i).toNat = some (.cmpImm c p a i)) ∧
    (6 ≤ c.toNat → decodeTableWord 32 (0x08#6 ++ 0#3 ++ p ++ a ++ b ++ 0#5 ++ c).toNat = none ∧
      decodeTableWord 32 (0x09#6 ++ c ++ p ++ a ++ i).toNat = none) ∧
    decodeTableWord 32 (0x0A#6 ++ d ++ a ++ b ++ 0#4 ++ BitVec.ofBool n ++ p).toNat = some (.sel d a b n p)) ∧
  (∀ s g, Issuing s g → ∀ (d a : SReg) (p : BitVec 3) (n : Bool) (w : BitVec 22) (j : BitVec 26) (l : BitVec 20),
    let target := fun (k : Int) => (((g.pc : Int) + 4 * k) % 2 ^ 56).toNat
    let next := BitVec.ofNat 64 ((g.pc + 4) % 2 ^ 56)
    Completes (.br p n w) s (Sets s g 63 0 (if (g.bread p) = !n then target w.toInt else g.pc + 4)) ∧
    Completes (.jmp j) s (Sets s g 63 0 (target j.toInt)) ∧
    Completes (.call j) s (Sets s g 62 next (target j.toInt)) ∧
    ((g.sread a).toNat % 4 = 0 → Completes (.jmpr d a) s (Sets s g d next (g.sread a).toNat)) ∧
    (g.sread d ≠ 0 → g.sread d ≠ 1 → Completes (.loop d l) s (Sets s g d (g.sread d - 1) (target l.toInt))) ∧
    (g.sread d = 0 ∨ g.sread d = 1 → Completes (.loop d l) s (Sets s g d 0 (g.pc + 4))) ∧
    Completes .nop s (Sets s g 63 0 (g.pc + 4)))

/-! ## Exceptions -/

/-- R239, R242, R322, R324: `trap e` and `brk` enter the handler, TSTAT.CODE holding e or 4 and TPC naming the next
instruction; without a trap entry the cause stands against the team; and the words they are read from. -/
def Obligations.TrapEntry : Prop :=
  (∀ s g e, Issuing s g → CanTrap s g e → ∀ c : BitVec 8,
    Completes (.trap c) s (TakesTrap s g 0x0C c.toNat 4 0 e) ∧
    Completes .brk s (TakesTrap s g 0x0B 4 4 (g.live &&& ~~~ g.active) e)) ∧
  (∀ s g, Issuing s g → (s.team (teamOf s.cur)).heir = none → (s.team (teamOf s.cur)).trapent = none → ∀ c : BitVec 8,
    Completes (.trap c) s (Reported s 0x0C) ∧ Completes .brk s (Reported s 0x0B)) ∧
  (∀ c : BitVec 8, decodeTableWord 32 (0x12#6 ++ 0#6 ++ c ++ 0#4 ++ 0x78#8).toNat = some (.trap c)) ∧
  decodeTableWord 32 0x4800007A = some .brk

/-- R233, R237, R303, R318, R319, R321, R361: what raises illegal instruction or format fault does so at the instruction, with
nothing written; without a trap entry the cause's own code stands against the team, and with the stack full double trap
does. -/
def Obligations.TrapsAtTheInstruction : Prop :=
  (∀ s g e, Issuing s g → CanTrap s g e → ∀ (d a : SReg) (r : BitVec 12),
    ((g.sread a).toNat % 4 ≠ 0 → Completes (.jmpr d a) s (TakesTrap s g 0x01 0 0 0 e)) ∧
    ((g.sread a).toNat ≥ 2 ^ 16 → Completes (.tkrd d a) s (TakesTrap s g 0x01 0 0 0 e)) ∧
    (r ∈ [0x000, 0x00A, 0x011, 0x024, 0x035, 0x043, 0x055, 0x061, 0x074, 0x07C] →
      Completes (.srd d r) s (TakesTrap s g 0x01 0 0 0 e) ∧ Completes (.swr a r) s (TakesTrap s g 0x01 0 0 0 e)) ∧
    (((g.sread a).toNat ≥ 2 ^ 32 ∨ fld (g.sread a).toNat 12 6 ∉ [0x09, 0x0A] ∨ 4 < fld (g.sread a).toNat 19 3) →
      Completes (.sfmt a) s (TakesTrap s g 0x0D 0 0 0 e)) ∧
    ((g.level = 0 ∨ g.laneIdle = true) → ∀ x t, g.stack = x :: t → x.kind ≠ .trap → Completes .tret s (TakesTrap s g 0x0A 0 0 0 e)) ∧
    (g.stack = [] → Completes .tret s (TakesTrap s g 0x0A 0 0 0 e))) ∧
  (∀ s g, Issuing s g → (s.team (teamOf s.cur)).heir = none → ∀ c : BitVec 8,
    ((s.team (teamOf s.cur)).trapent = none → Completes (.trap c) s (Reported s 0x0C)) ∧
    (∀ e, (s.team (teamOf s.cur)).trapent = some e → g.stack.length = 64 → Completes (.trap c) s (Reported s 0x15)))

/-- R245: `tret` with a TRAP entry on top, the lane stream idle and the frame registers in order restores what the entry
saved and goes on at TPC. -/
def Obligations.TrapReturn : Prop :=
  ∀ s g x rest, Issuing s g → g.stack = x :: rest → x.kind = .trap → g.run = none → g.lpush = none →
    (∀ b, b ∈ g.blocks → b.level ≠ g.level) → tstatReserved g.sr.tstat = false → g.sr.tpc.toNat < 2 ^ 56 →
    g.sr.tlpc.toNat < 2 ^ 56 → g.sr.tpc.toNat % 4 = 0 →
    (x.lbusy = true → (s.team (teamOf s.cur)).lcode ≤ g.sr.tlpc.toNat ∧
      (g.sr.tlpc.toNat - (s.team (teamOf s.cur)).lcode) % 12 = 0) →
    Completes .tret s (fun t => MemoryKept s t ∧ Becomes s t { g with
      stack := rest, pc := g.sr.tpc.toNat, active := x.amask &&& g.live
      sr := { g.sr with fmt := x.fmt, tstat := x.tstat, tpc := x.tpc, tlpc := x.tlpc, tmask := x.tmask }
      bskip := x.lbusy && g.sr.tstat.getLsbD 13
      run := if x.lbusy then some { pc := g.sr.tlpc.toNat, k := x.k, base := x.base, level := x.blevel } else none })

/-! ## Special registers, counters and tiles -/

/-- R277, R318: what `srd` writes to d, register by register, in a team that neither records nor stands in Scrim. That reserved
bits of TSTAT, TPC and TLPC are kept by a write and read as 0 is the model's reading (assumption 51), and that TKPRICE shows the
low bits of a price that does not fit is its choice (assumption 9). -/
def Obligations.SpecialReads : Prop :=
  ∀ s g, Issuing s g → Plain s → (∀ a, a ∈ g.log → a.ord ≠ 1 ∧ a.ord ≠ 3) → ∀ d : SReg,
    let tm := s.team (teamOf s.cur)
    let k := s.core tm.core
    let reads := fun (r : BitVec 12) (v : Word) => Completes (.srd d r) s (Sets s g d v (g.pc + 4))
    reads 0x001 (BitVec.ofNat 64 g.grpid) ∧ reads 0x002 (BitVec.ofNat 64 tm.teamid) ∧ reads 0x003 g.sr.cluid ∧
    reads 0x004 g.sr.clupos ∧ reads 0x005 (BitVec.ofNat 64 (coreIdOf tm.core)) ∧
    reads 0x006 (BitVec.ofNat 64 (g.grpid % 4)) ∧ reads 0x007 (BitVec.ofNat 64 (tm.core / 40)) ∧ reads 0x008 g.sr.args ∧
    reads 0x009 ((s.grid tm.grid).gridid.setWidth 64) ∧ reads 0x010 (BitVec.ofNat 64 (s.die (tm.core / 40)).time) ∧
    reads 0x020 k.ringpos ∧ reads 0x021 (BitVec.ofNat 64 s.ringLen) ∧
    reads 0x022 (BitVec.ofNat 64 (s.ringRate (tm.core / 40))) ∧ reads 0x023 g.sr.misscnt ∧
    reads 0x030 (BitVec.ofNat 64 (s.die (tm.core / 40)).charge.word) ∧
    reads 0x031 (BitVec.ofNat 64 (s.tkLvl tm.core (tm.core / 40))) ∧ reads 0x032 g.sr.tkused ∧
    reads 0x033 g.sr.tkstall ∧ reads 0x034 (BitVec.ofNat 64 (s.tkPrice g)) ∧ reads 0x040 (g.sr.fmt.setWidth 64) ∧
    reads 0x041 g.sr.scb ∧ reads 0x042 g.sr.scsh ∧ reads 0x050 g.sr.wto ∧ reads 0x051 g.sr.prog ∧
    reads 0x052 g.sr.hintdrop ∧ reads 0x053 g.ldead ∧ (g.run.isSome = true → reads 0x054 (g.active &&& ~~~ g.ldead)) ∧
    reads 0x060 (BitVec.ofNat 64 (lsroleOf k (teamOf s.cur))) ∧ reads 0x070 (g.sr.tstat &&& 0x0000003F00FF3FFF) ∧
    reads 0x071 (BitVec.ofNat 64 (g.sr.tpc.toNat % 2 ^ 56)) ∧ reads 0x072 (BitVec.ofNat 64 (g.sr.tlpc.toNat % 2 ^ 56)) ∧ reads 0x073 g.sr.tmask ∧
    (∀ i, i < 4 → reads (BitVec.ofNat 12 (0x078 + i)) (g.sr.lbka[i]?.getD 0))

/-- R277, R319: what `swr` writes, register by register; the read-only registers keep their values. That TSTAT keeps LBUSY and
LEVEL, and what is written to its reserved bits, is the model's reading (assumption 51). -/
def Obligations.SpecialWrites : Prop :=
  ∀ s g, Issuing s g → ∀ a : SReg,
    let v := g.sread a
    let writes := fun (r : BitVec 12) (x : Specials) => Completes (.swr a r) s (Moves s 4 { g with sr := x })
    writes 0x023 { g.sr with misscnt := v } ∧ writes 0x032 { g.sr with tkused := v } ∧
    writes 0x033 { g.sr with tkstall := v } ∧ writes 0x034 { g.sr with tkindex := BitVec.ofNat 16 v.toNat } ∧
    writes 0x041 { g.sr with scb := BitVec.ofNat 64 (v.toNat % 2 ^ 56) } ∧
    writes 0x042 { g.sr with scsh := BitVec.ofNat 64 (v.toNat % 2 ^ 6) } ∧
    writes 0x050 { g.sr with wto := BitVec.ofNat 64 (v.toNat % 2 ^ 40) } ∧
    writes 0x051 { g.sr with prog := BitVec.ofNat 64 (v.toNat % 2 ^ 48) } ∧
    writes 0x052 { g.sr with hintdrop := BitVec.ofNat 64 (v.toNat % 2 ^ 32) } ∧
    writes 0x070 { g.sr with tstat := (v &&& ~~~ 0x0000003F00001000) ||| (g.sr.tstat &&& 0x0000003F00001000) } ∧ writes 0x071 { g.sr with tpc := v } ∧ writes 0x072 { g.sr with tlpc := v } ∧
    (∀ i, i < 4 → writes (BitVec.ofNat 12 (0x078 + i)) { g.sr with
      lbka := setAt g.sr.lbka i (BitVec.ofNat 64 (v.toNat % 2 ^ 56 + v.toNat / 2 ^ 63 * 2 ^ 63)) }) ∧
    (∀ r : BitVec 12, r ∈ [0x001, 0x002, 0x003, 0x004, 0x005, 0x006, 0x007, 0x008, 0x009, 0x010, 0x020, 0x021, 0x022,
      0x030, 0x031, 0x040, 0x053, 0x054, 0x073] → writes r g.sr)

/-- R162: a write of LSROLE moves banks of the team alone, between scratchpad and TOB roles, a TOB bank only while FREE;
bytes stay in place. -/
def Obligations.BankRoles : Prop :=
  ∀ s g, Issuing s g → ∀ a : SReg,
    Completes (.swr a 0x060) s (fun t => t.mem = s.mem ∧
      ∀ b, b < 32 →
        let f := fld (g.sread a).toNat (2 * b) 2
        let c := s.coreOf s.cur
        let old := (s.core c).bank b
        let new := (t.core c).bank b
        (t.core c).store = (s.core c).store ∧
        (old.team ≠ teamOf s.cur → new = old) ∧ (old.role = .cache → new = old) ∧ (f = 0 ∨ f = 3 → new = old) ∧
        (old.team = teamOf s.cur → old.role = .scratch → f = 2 → new.role = .tob ∧ new.state = .free) ∧
        (old.team = teamOf s.cur → old.role = .scratch → f = 1 → new = old) ∧
        (old.team = teamOf s.cur → old.role = .tob → old.state = .free → f = 1 → new.role = .scratch) ∧
        (old.team = teamOf s.cur → old.role = .tob → old.state ≠ .free → new = old))

/-- R229, R321: `sfmt` writes a value every field of which R229 lists. -/
def Obligations.FormatRegister : Prop :=
  ∀ s g, Issuing s g → ∀ a : SReg,
    let v := (g.sread a).toNat
    let listed := [0x08, 0x09, 0x0C, 0x0D, 0x10, 0x11, 0x12, 0x13, 0x14, 0x15, 0x16, 0x17, 0x18, 0x19, 0x1A, 0x1B, 0x1C,
      0x1D, 0x1E]
    fld v 0 6 ∈ listed → fld v 6 6 ∈ listed → fld v 12 6 ∈ [0x09, 0x0A] → fld v 19 3 ≤ 4 → v < 2 ^ 22 →
    Completes (.sfmt a) s (Moves s 4 { g with sr := { g.sr with fmt := BitVec.ofNat 32 v } })

/-- R327, R328: `waitc` goes on once the class count is at most n and waits before, `rdc` reads the count. -/
def Obligations.Counters : Prop :=
  ∀ s g, Issuing s g → Plain s → ∀ (d : SReg) (c : BitVec 3) (n : BitVec 14),
    (g.outCount c.toNat ≤ n.toNat → Completes (.waitc c n) s (fun t =>
      t.groups = (s.put (g.advance 4)).groups ∧ t.mem = s.mem)) ∧
    (n.toNat < g.outCount c.toNat → Completes (.waitc c n) s (fun t =>
      t.mark = .waiting ∧ tblFind t.groups s.cur = some { g with sblock := none })) ∧
    Completes (.rdc d c) s (fun t => t.mem = s.mem ∧ ∃ g', tblFind t.groups s.cur = some g' ∧ RegsBut g g' d ∧
      g'.sread d = (if d = 63 then 0 else BitVec.ofNat 64 (g.outCount c.toNat)) ∧ g'.pc = (g.pc + 4) % 2 ^ 56)

/-- R361: `tkrd` writes the price of the entry at the index that bits [15:0] of its source name; with a bit above them set it
raises illegal instruction and writes nothing; and the word it is read from. -/
def Obligations.PriceRead : Prop :=
  ∀ s g, Issuing s g → ∀ d a : SReg,
    let x := (g.sread a).toNat
    decodeTableWord 32 (0x12#6 ++ d ++ a ++ 0#6 ++ 0x5C#8).toNat = some (.tkrd d a) ∧
    (x / 2 ^ 16 = 0 → Completes (.tkrd d a) s (fun t =>
      Sets s g d (BitVec.ofNat 64 (s.price (x % 2 ^ 16))) (g.pc + 4) t)) ∧
    (x / 2 ^ 16 ≠ 0 →
      (∀ e, CanTrap s g e → Completes (.tkrd d a) s (TakesTrap s g 0x01 0 0 0 e)) ∧
      ((s.team (teamOf s.cur)).heir = none → (s.team (teamOf s.cur)).trapent = none →
        Completes (.tkrd d a) s (Reported s 0x01)))

/-- R358: `accalloc` maps the lowest free tile of the group's reservation, which reads +0.0 throughout; `accfree` unmaps a
full one; with no tile free `accalloc` raises 0x08, and a name mapped twice or not at all is illegal. -/
def Obligations.TileNames : Prop :=
  ∀ s g, Issuing s g → ∀ (a : BitVec 4) (i : Nat),
    (tblFind g.accmap a.toNat = none → g.tileset.find? (fun n => !(tblVals g.accmap).contains n) = some i →
      Completes (.accalloc a) s (fun t => MemoryKept s t ∧
        tblFind t.groups s.cur = some ({ g with accmap := tblPut g.accmap a.toNat i }.advance 4) ∧
        (t.core (s.coreOf s.cur)).tile (g.grpid % 4 * 16 + i) = {})) ∧
    (tblFind g.accmap a.toNat = some i →
      ((s.core (s.coreOf s.cur)).tile (g.grpid % 4 * 16 + i)).pending = [] →
      (∀ b, b ∈ (s.core (s.coreOf s.cur)).boards → b.field 128 4 ≠ a.toNat) →
      Completes (.accfree a) s (fun t => MemoryKept s t ∧
        Becomes s t ({ g with accmap := tblDel g.accmap a.toNat }.advance 4))) ∧
    (∀ e, CanTrap s g e →
      (tblFind g.accmap a.toNat = none → (∀ n, n ∈ g.tileset → n ∈ tblVals g.accmap) →
        Completes (.accalloc a) s (TakesTrap s g 0x08 0 0 0 e)) ∧
      (tblFind g.accmap a.toNat = some i → Completes (.accalloc a) s (TakesTrap s g 0x01 0 0 0 e)) ∧
      (tblFind g.accmap a.toNat = none → Completes (.accfree a) s (TakesTrap s g 0x01 0 0 0 e)))

/-! ## Scalar memory access -/

/-- R305, R307, R308, R349, R351, R355, R187: the accesses that stores, atomics that return nothing, signals, fences and
kicks enter in the operand log: their addresses, sizes, data and order. No byte changes at issue. -/
def Obligations.ScalarStoresIssue : Prop :=
  ∀ s g, Issuing s g → Plain s → s.entriesFree s.cur 1 = true →
    ∀ (d o b : SReg) (op : BitVec 4) (size : BitVec 3) (p : Policy),
      let a : Access := { pc := g.pc, addr := (g.sread b + p.offset.signExtend 64).toNat, ord := p.ord.toNat,
                          scope := p.scope.toNat, evict := p.evict.toNat, seq := g.seq, seen := g.sseen }
      let w := 2 ^ size.toNat
      Completes (.st d b size p) s (Issues s g 8 [{ a with
        kind := .store, size := w, data := (g.sread d).toNat % 2 ^ (8 * w) }]) ∧
      Completes (.atom 63 b o op size p) s (Issues s g 8 [{ a with
        kind := .atomic, size := w, op := op.toNat, data := (g.sread o).toNat % 2 ^ (8 * w) }]) ∧
      (a.addr % 8 = 0 → Completes (.sigAdd b d p) s (Issues s g 8 [{ a with
        kind := .atomic, op := 1, size := 8, data := (g.sread d).toNat }])) ∧
      (a.addr % 8 = 0 → Completes (.sigStore b d p) s (Issues s g 8 [{ a with
        kind := .store, size := 8, data := (g.sread d).toNat }])) ∧
      Completes (.fence p) s (Issues s g 8 [{
        kind := .fence, pc := g.pc, ord := p.ord.toNat, scope := p.scope.toNat, seq := g.seq, seen := g.sseen }]) ∧
      ((g.sread b).toNat % 8 = 0 → (g.sread b).toNat % 2 ^ 56 < 0xF0 * 2 ^ 48 →
        s.pageKind (g.sread b).toNat = some .kick →
        Completes (.kick b d) s (Issues s g 4 [{
          kind := .store, pc := g.pc, addr := (g.sread b).toNat, size := 8, data := (g.sread d).toNat, ord := 2,
          scope := 5, seq := g.seq, seen := g.sseen }]))

/-- R306, R296, R180, R183: with nothing older in its log, a relaxed load from HBM that misses the core cache writes d with the
bytes at EA, sign-extended or zero-extended, and changes no byte of memory and no other register; one that is not naturally aligned
holds its stream while its naturally aligned pieces, each an access of its own, are performed. That a load which nothing
holds back is performed in its own step is the model's choice (assumption 45). -/
def Obligations.LoadValue : Prop :=
  ∀ s g, Issuing s g → Plain s → s.entriesFree s.cur 1 = true → g.log = [] → g.held = [] → g.extra = [] → g.lpush = none →
    g.vploads = [] → (s.core (s.coreOf s.cur)).cache = [] →
    ∀ (d b : SReg) (size : BitVec 3) (sext : Bool) (p : Policy) (base : Nat) (pg : Page),
      let a := (g.sread b + p.offset.signExtend 64).toNat
      let n := 2 ^ size.toNat
      size.toNat ≤ 3 → p.ord = 0 → InHbm s (s.dieOf s.cur) a n 0 base pg → s.homePoison a n = false →
      (a % n ≠ 0 → Completes (.ld d b size sext p) s (fun t =>
        (∀ x, t.homeRead x 1 = s.homeRead x 1) ∧
        ∃ g' parts, tblFind t.groups s.cur = some g' ∧ g'.pc = (g.pc + 8) % 2 ^ 56 ∧ g'.swait = .value d.toNat ∧
          g'.sregs = g.sregs ∧ g'.log.tail.map (fun x => (x.addr, x.size)) = parts ∧
          (∀ e, e ∈ parts → e.1 % e.2 = 0 ∧ e.2 ∈ [1, 2, 4, 8]) ∧
          parts.flatMap (fun e => (List.range e.2).map (e.1 + ·)) = (List.range n).map (a + ·))) ∧
      (a % n = 0 → Completes (.ld d b size sext p) s (fun t =>
        (∀ x, t.homeRead x 1 = s.homeRead x 1) ∧
        ∃ g', tblFind t.groups s.cur = some g' ∧ g'.pc = (g.pc + 8) % 2 ^ 56 ∧ g'.swait = .none ∧ g'.log = [] ∧
          (∀ r, r ≠ d → g'.sread r = g.sread r) ∧
          g'.sread d = (if d = 63 then 0
            else if sext then BitVec.ofInt 64 (toS (8 * n) (leNat (s.homeRead a n)))
            else BitVec.ofNat 64 (leNat (s.homeRead a n)))))

/-- R308, R184: with nothing older in its log, a relaxed atomic of cluster scope or wider on HBM writes d with the old value
and stores the new one in its bytes alone; a compare that fails stores nothing; R308: the new value of each atomic at width
32 or 64, from the old value, the operand and the comparand. That an atomic which nothing holds back is performed in its own
step is the model's choice (assumption 45). -/
def Obligations.AtomicValue : Prop :=
  (∀ s g, Issuing s g → Plain s → s.entriesFree s.cur 1 = true → g.log = [] → g.held = [] → g.lpush = none →
    g.vploads = [] → (s.core (s.coreOf s.cur)).cache = [] → s.arms = [] →
    ∀ (d b o : SReg) (op : BitVec 4) (size : BitVec 3) (p : Policy) (base : Nat) (pg : Page),
      let a := (g.sread b + p.offset.signExtend 64).toNat
      let n := 2 ^ size.toNat
      d ≠ 63 → size = 2 ∨ size = 3 → p.ord = 0 → 2 ≤ p.scope.toNat → a % n = 0 → InHbm s (s.dieOf s.cur) a n 2 base pg →
      s.homePoison a n = false →
      Completes (.atom d b o op size p) s (fun t =>
        let old := leNat (s.homeRead a n)
        let new := atomicNew op.toNat (8 * n) old ((g.sread o).toNat % 2 ^ (8 * n)) ((g.sread d).toNat % 2 ^ (8 * n)) 0
        (∀ x, x < a ∨ a + n ≤ x → t.homeRead x 1 = s.homeRead x 1) ∧
        (∀ v, new = some v → t.homeRead a n = leBytes n v) ∧ (new = none → t.homeRead a n = s.homeRead a n) ∧
        ∃ g', tblFind t.groups s.cur = some g' ∧ g'.pc = (g.pc + 8) % 2 ^ 56 ∧ g'.swait = .none ∧
          (∀ r, r ≠ d → g'.sread r = g.sread r) ∧ g'.sread d = BitVec.ofNat 64 old)) ∧
  (∀ w old v cmp : Nat, w = 32 ∨ w = 64 → old < 2 ^ w → v < 2 ^ w → cmp < 2 ^ w →
    let new := fun op => atomicNew op w old v cmp 0
    let x := BitVec.ofNat w old
    let y := BitVec.ofNat w v
    new 0 = some v ∧ new 1 = some (x + y).toNat ∧ new 2 = some (x &&& y).toNat ∧ new 3 = some (x ||| y).toNat ∧
    new 4 = some (x ^^^ y).toNat ∧ new 5 = some (BitVec.ofInt w (min x.toInt y.toInt)).toNat ∧
    new 6 = some (BitVec.ofInt w (max x.toInt y.toInt)).toNat ∧ new 7 = some (min old v) ∧ new 8 = some (max old v) ∧
    (old = cmp → new 9 = some v) ∧ (old ≠ cmp → new 9 = none))

/-- R184, R187, R347: the access that stands alone in a group's log, a relaxed, naturally aligned store of cluster scope or wider to
HBM, is performed: its bytes hold the data, every other byte of memory is as it was, and it leaves the log. -/
def Obligations.StorePerformed : Prop :=
  ∀ s h g (a : Access) (base : Nat) (pg : Page),
    tblFind s.groups h = some g → g.exited = false → g.log = [a] → a.parked = false → a.refused = false →
    a.sent = false → g.lpush = none → g.vploads = [] → s.arms = [] → (s.team (teamOf h)).life = .running →
    (s.core (s.coreOf h)).cache = [] → a.kind = .store → a.rank = none → a.ord = 0 → 2 ≤ a.scope → a.dest = .none →
    a.addr < 2 ^ 56 → a.addr % a.size = 0 → InHbm s (s.dieOf h) a.addr a.size 1 base pg →
    Completes (.memoryAccessPerform h 0) s (fun t =>
      t.homeRead a.addr a.size = leBytes a.size a.data ∧
      (∀ x, x < a.addr ∨ a.addr + a.size ≤ x → t.homeRead x 1 = s.homeRead x 1) ∧
      ∃ g', tblFind t.groups h = some g' ∧ g'.log = [] ∧ g'.sregs = g.sregs ∧ g'.pc = g.pc ∧ g'.cells = g.cells)

/-- R183, R188, R189: an access that faults is reported against its team with its cause and the address of its first faulting byte and
leaves the log: misalignment before translation, a byte nothing is mapped at, a page that does not permit it. That a misaligned atomic on
the RDMA window takes 0x11 is the model's reading (assumption 52). -/
def Obligations.AccessFaults : Prop :=
  ∀ s h g (a : Access), tblFind s.groups h = some g → g.exited = false → g.log = [a] → a.parked = false →
    a.refused = false → a.sent = false → s.hasLeft h a = false → (s.team (teamOf h)).life = .running →
    (tblFind s.teams (teamOf h)).isSome = true → (s.team (teamOf h)).report = none → (s.team (teamOf h)).heir = none →
    a.kind ≠ .fence → a.kind ≠ .hint → a.rank = none → 0 < a.size → a.addr % 2 ^ 56 + a.size ≤ 0xF0 * 2 ^ 48 → s.orderReady h a = true →
    let faults := fun (c k : Nat) => Completes (.memoryAccessPerform h 0) s (fun t => MemoryKept s t ∧
      (t.team (teamOf h)).report.map (fun r => (r.cause, r.addr, r.stream, r.pc, r.lane)) =
        some (c, (a.addr + k) % 2 ^ 56, a.stream, a.pc, a.lane) ∧
      ∃ g', tblFind t.groups h = some g' ∧ g'.log = [] ∧ g'.sregs = g.sregs ∧ g'.cells = g.cells)
    ((a.kind = .atomic ∨ a.ord ≠ 0) → a.addr % a.size ≠ 0 →
      faults (if a.kind = .atomic ∧ s.pageKind a.addr = some .window then 0x11 else 0x12) 0) ∧
    (∀ k, k < a.size → a.kind ≠ .atomic → a.ord = 0 →
      (∀ i, i < k → ∃ b p, pageAt s.pages ((a.addr + i) % 2 ^ 56) = some (b, p) ∧ p.kind = .hbm ∧
        p.perm.getLsbD (if a.kind = .store then 1 else 0) = true) →
      (pageAt s.pages ((a.addr + k) % 2 ^ 56) = none → faults 0x10 k) ∧
      (∀ b p, pageAt s.pages ((a.addr + k) % 2 ^ 56) = some (b, p) → p.kind = .hbm →
        p.perm.getLsbD (if a.kind = .store then 1 else 0) = false → faults 0x11 k))

/-! ## Decoupled access and lane blocks -/

/-- R311 to R313: what vlq, vlqg, vsq and vsqs enter in the operand log, lane by lane and piece by piece, the load-queue entries that
are reserved, and the entries that are popped, in every element format: its entries, its accesses a lane and the bytes of each;
R152, R312, R314: an entry of a load queue turns full once no access of the log is still to fill it, but for one that a fault has
left. -/
def Obligations.QueueAccess : Prop :=
  (∀ s g, Issuing s g → Plain s → g.inHandler = false → ∀ (q : BitVec 3) (m : BitVec 4) (b r : SReg) (j : BitVec 1)
    (fmt : BitVec 6) (p : Policy) (n k w : Nat),
    (fmt.toNat, n, k, w) ∈ [(0x00, 1, 1, 1), (0x01, 1, 1, 2), (0x02, 1, 1, 4), (0x03, 2, 1, 8), (0x04, 1, 1, 1),
      (0x05, 1, 1, 2), (0x06, 1, 1, 4), (0x07, 2, 1, 8), (0x08, 1, 1, 2), (0x09, 1, 1, 2), (0x0A, 1, 1, 4), (0x0B, 2, 1, 8),
      (0x0C, 1, 1, 1), (0x0D, 1, 1, 1), (0x21, 1, 1, 4), (0x22, 2, 2, 4), (0x23, 3, 3, 4), (0x24, 4, 4, 4)] →
    s.entriesFree s.cur (64 * k) = true →
    let ls := g.mread m.toNat &&& ~~~ g.ldead
    let ea := (g.sread b + p.offset.signExtend 64).toNat
    let acc := fun (g : Group) (kind : AccKind) (addr data l i : Nat) (dest : Dest) =>
      ({ pc := g.pc, lane := l, kind := kind, addr := (addr % 2 ^ 64 + 4 * i) % 2 ^ 64, size := w, data := data, ord := p.ord.toNat,
         scope := p.scope.toNat, evict := p.evict.toNat, dest := dest, seq := g.seq, seen := g.sseen } : Access)
    let number := fun (id : Nat) (l : List Access) => (l.zip (List.range l.length)).map (fun e => { e.1 with id := id + e.2 })
    let entries := fun (lanes : Lanes) => (List.range n).map (fun i =>
      ({ mask := lanes, full := lanes == 0, id := s.nextId + i, elem := s.nextId, seq := g.seq } : QEntry))
    let loads := fun (g : Group) (lanes : Lanes) (addr : Nat → Nat) =>
      number (s.nextId + n) ((lanesOf lanes).flatMap (fun l => (List.range k).map (fun i =>
        acc g .load (addr l) 0 l i (.entry q.toNat s.nextId i (if 0x20 < fmt.toNat then 0x06 else fmt.toNat)))))
    let stores := fun (g : Group) (lanes : Lanes) (addr : Nat → Nat) (ys : List QEntry) =>
      let value := fun (l : Nat) =>
        (ys.zip (List.range n)).foldl (fun v e => v + tblGet 0 e.1.data l * 2 ^ (32 * e.2)) 0
      number s.nextId ((lanesOf (ys.foldl (fun m e => m &&& e.mask) lanes)).flatMap (fun l => (List.range k).map (fun i =>
        acc g .store (addr l) (value l / 2 ^ (32 * i) % 2 ^ (8 * w)) l i .none)))
    let old := tblGet [] g.lq q.toNat
    let here := fun (g' : Group) (t : State) => MemoryKept s t ∧ tblFind t.groups s.cur = some g'
    (old.length + n ≤ 4 → Completes (.vlq q m b r fmt p) s (here { g.advance 8 with
      lq := tblPut g.lq q.toNat (old ++ entries ls)
      log := g.log ++ loads g ls (fun l => ea + l * (g.sread r).toNat) })) ∧
    (∀ x xs, tblGet [] g.aq j.toNat = x :: xs → old.length + n ≤ 4 →
      let g1 := { g with aq := tblPut g.aq j.toNat xs, sseen := max g.sseen x.seq }
      Completes (.vlqg q m b j fmt p) s (here { g1.advance 8 with
        lq := tblPut g.lq q.toNat (old ++ entries (ls &&& x.mask))
        log := g.log ++ loads g1 (ls &&& x.mask) (fun l => ea + tblGet 0 x.data l) })) ∧
    (∀ ys zs : List QEntry, ys.length = n → tblGet [] g.sq q.toNat = ys ++ zs →
      let g1 := { g with sq := tblPut g.sq q.toNat zs, sseen := ys.foldl (fun m (e : QEntry) => max m e.seq) g.sseen }
      Completes (.vsq q m b r fmt p) s (here { g1.advance 8 with
        log := g.log ++ stores g1 ls (fun l => ea + l * (g.sread r).toNat) ys }) ∧
      (∀ x xs, tblGet [] g.aq j.toNat = x :: xs →
        let g2 := { g1 with aq := tblPut g.aq j.toNat xs, sseen := max g1.sseen x.seq }
        Completes (.vsqs q m b j fmt p) s (here { g2.advance 8 with
          log := g.log ++ stores g2 (ls &&& x.mask) (fun l => ea + tblGet 0 x.data l) ys })))) ∧
  (∀ s h g q es, tblFind s.groups h = some g → g.log = [] → tblRising g.lq = true → tblFind g.lq q = some es →
    Completes (.loadQueueFill h q) s (fun t => MemoryKept s t ∧ ∃ g', tblFind t.groups h = some g' ∧
      tblFind g'.lq q = some (es.map (fun e => if e.never then e else { e with full := true })) ∧ g' = { g with lq := g'.lq } ∧
      ∀ x, x ≠ q → tblFind g'.lq x = tblFind g.lq x))

/-- R150, R315 to R317: lrun pushes a block with its address and captured scalars, a lane stream that is idle begins the
first block of its level, lsync passes while the lane stream is idle, and rqpop pops the head of rq. -/
def Obligations.LaneBlocks : Prop :=
  ∀ s g, Issuing s g → ∀ (a b c d : SReg) (idx : BitVec 32),
    ((g.inHandler = false → g.blocks.length < 32) → (g.inHandler = true → g.blocks.length < 34) →
      Completes (.lrun a b c d idx) s (Moves s 8 { g with blocks := g.blocks ++ [{
        pc := ((s.team (teamOf s.cur)).lcode + 12 * idx.toNat) % 2 ^ 56
        k := [g.sread a, g.sread b, g.sread c, g.sread d], level := g.level, seq := g.seq }] })) ∧
    (g.run = none → g.lpush = none → (∀ x, x ∈ g.blocks → x.level ≠ g.level) →
      Completes .lsync s (Moves s 4 { g with sseen := g.lseq - 1 })) ∧
    (∀ e t, g.inHandler = false → g.rq = e :: t → e.poison = false →
      Completes (.rqpop d) s (fun u => MemoryKept s u ∧ ∃ g', Becomes s u g' ∧ g'.rq = t ∧
        g'.pc = (g.pc + 4) % 2 ^ 56 ∧ g'.sread d = (if d = 63 then 0 else e.value) ∧
        ∀ r, r ≠ d → g'.sread r = g.sread r)) ∧
    (∀ x t, g.run = none → g.lpush = none → g.blocks = x :: t → x.level = g.level →
      Completes (.laneBlockBegin s.cur) s (fun u => MemoryKept s u ∧ Becomes s u { g with
        run := some { pc := x.pc, k := x.k, base := g.stack.length, level := x.level }
        blocks := t, active := ~~~ g.ldead, lseen := max g.lseen x.seq, sblock := none }))

/-- R157, R158, R251: with the queue it names empty and the lane stream idle a scalar instruction is an orphan wait; a
poisoned entry of rq raises 0x09 and stays; two streams that waited on each other for 64 clocks raise stream
deadlock. -/
def Obligations.QueueTraps : Prop :=
  ∀ s g e, Issuing s g → CanTrap s g e → g.inHandler = false →
    (∀ d, g.rq = [] → g.laneIdle = true → Completes (.rqpop d) s (fun t => ∃ g', tblFind t.groups s.cur = some g' ∧
      g'.pc = e ∧ fld g'.sr.tstat.toNat 0 8 = 0x03 ∧ fld g'.sr.tstat.toNat 10 2 = 3 ∧ g'.sr.tpc.toNat = g.pc % 2 ^ 56)) ∧
    (∀ d x t, g.rq = x :: t → x.poison = true → Completes (.rqpop d) s (TakesTrap s g 0x09 0 0 0 e)) ∧
    (∀ a b, g.sblock = some a → g.lblock = some b → a + 64 ≤ s.clock → b + 64 ≤ s.clock →
      Completes (.streamDeadlock s.cur) s (TakesTrap s g 0x04 0 0 0 e))

/-! ## Team operations -/

/-- R352, R356, R357: bar, cbar, regroup and exit wait for the lane stream, then hold the scalar stream at the barrier, or
end the group. That exit asks for empty load queues is the model's reading of R377 (assumption 40). -/
def Obligations.TeamArrivals : Prop :=
  ∀ s g, Issuing s g → Plain s → g.laneIdle = true →
    let held := fun (w : ScalarWait) (t : State) => MemoryKept s t ∧
      Becomes s t { g with swait := w, arrived := s.clock + 1, sblock := none }
    Completes .bar s (held .bar) ∧
    ((s.team (teamOf s.cur)).cluster = none → Completes .cbar s (held .bar)) ∧
    ((s.team (teamOf s.cur)).cluster.isSome = true → Completes .cbar s (held .cbar)) ∧
    (∀ k : BitVec 4, (s.team (teamOf s.cur)).roles = false → g.blocks = [] → g.stack = [] → g.queued = false →
      Completes (.regroup k) s (held (.regroup k.toNat))) ∧
    (g.inHandler = true ∨ g.lq.all (fun q => q.2.isEmpty) = true → Completes .exit s (fun t => ∃ g',
      tblFind t.groups s.cur = some g' ∧ g'.exited = true ∧ g'.log = g.log ∧ g'.sregs = g.sregs))

/-- R352, R144: once every group of a team that has not exited has arrived at `bar` with its accesses performed, each goes
on past it, and its barrier rank counts the groups that arrived before it; R357, R412: a team of one group regroups by its
mask: the threads of the masked live lanes move to lanes 0, 1, 2 and on with their cells, the lanes past them are dead,
no cell is left empty, and the group's barrier rank is 0, which is the model's reading (assumption 49). -/
def Obligations.BarriersAndRegroups : Prop :=
  (∀ s t, tblRising s.groups = true → s.liveGroups t ≠ [] → (∀ h, h ∈ s.liveGroups t → (s.group h).swait = .bar ∧
    (s.group h).log = []) →
    Completes (.barrierRelease t) s (fun u => MemoryKept s u ∧ ∀ h, h ∈ s.liveGroups t →
      (u.group h).swait = .none ∧ (u.group h).pc = ((s.group h).pc + 4) % 2 ^ 56 ∧ (u.group h).sregs = (s.group h).sregs ∧
      (u.group h).cells = (s.group h).cells ∧
      (u.group h).rank = ((s.liveGroups t).filter (fun x => decide ((s.group x).arrived < (s.group h).arrived ∨
        (s.group x).arrived = (s.group h).arrived ∧ (s.group x).grpid < (s.group h).grpid))).length)) ∧
  (∀ s t h g k, s.liveGroups t = [h] → tblFind s.groups h = some g → teamOf h = t → g.swait = .regroup k → g.log = [] →
    g.longs = [] → g.vploads = [] → g.window ≤ 256 → g.mread k &&& ~~~ g.ldead ≠ 0 →
    Completes (.regroupComplete t) s (fun u => ∃ g', tblFind u.groups h = some g' ∧ g'.swait = .none ∧
      g'.pc = (g.pc + 4) % 2 ^ 56 ∧ g'.sregs = g.sregs ∧ g'.rank = 0 ∧ g'.empties = [] ∧
      let from_ := lanesOf (g.mread k &&& ~~~ g.ldead)
      ∀ l, l < 64 → g'.ldead.getLsbD l = decide (from_.length ≤ l) ∧
        ∀ x, from_[l]? = some x → tblGet 0 g'.prec l = tblGet 0 g.prec x ∧ tblGet 0 g'.thread l = tblGet 0 g.thread x ∧
          ∀ i, i < g.window → i < 256 → g'.cell l i = g.cell x i % 2 ^ 32))

/-! ## Lane instructions -/

/-- R363 to R368, R380: lane integer arithmetic on the exact values of the sources, a divisor of 0 among them; bitwise
operations, shifts and counts on patterns of the format's width; bit fields, select and compare; nop writes nothing. -/
def Obligations.LaneIntegers : Prop :=
  (let int := fun (r : Int → Int → Int → Int) (c : Ctx) (l : Nat) =>
    ({ cells := exactCells c (r (c.src 0 l).int (c.src 1 l).int (c.src 2 l).int) } : LaneOut)
  LaneDoes .iadd 0x010 false (int fun a b _ => a + b) ∧ LaneDoes .isub 0x011 false (int fun a b _ => a - b) ∧
  LaneDoes .imul 0x012 false (int fun a b _ => a * b) ∧ LaneDoes .imad 0x013 false (int fun a b d => a * b + d) ∧
  LaneDoes .imulh 0x014 false (fun c l =>
    { cells := exactCells c ((c.src 0 l).int * (c.src 1 l).int / (2 ^ c.width : Nat)) }) ∧
  LaneDoes .idiv 0x015 true (int fun a b _ => if b = 0 then -1 else a.tdiv b) ∧
  LaneDoes .irem 0x016 true (int fun a b _ => if b = 0 then a else a.tmod b) ∧
  LaneDoes .imin 0x017 false (int fun a b _ => if a ≤ b then a else b) ∧
  LaneDoes .imax 0x018 false (int fun a b _ => if a ≤ b then b else a) ∧
  LaneDoes .iabs 0x019 false (int fun a _ _ => if a < 0 then -a else a)) ∧
  (let bits := fun (r : (n : Nat) → BitVec n → BitVec n → Nat) (c : Ctx) (l : Nat) =>
    ({ cells := cellsOf c.f.fmt.toNat (r c.width (BitVec.ofNat _ (c.src 0 l).pat) (BitVec.ofNat _ (c.src 1 l).pat)) } :
      LaneOut)
  LaneDoes .laneAnd 0x01A false (bits fun _ a b => (a &&& b).toNat) ∧
  LaneDoes .laneOr 0x01B false (bits fun _ a b => (a ||| b).toNat) ∧
  LaneDoes .laneXor 0x01C false (bits fun _ a b => (a ^^^ b).toNat) ∧
  LaneDoes .laneNot 0x01D false (bits fun _ a _ => (~~~ a).toNat) ∧
  LaneDoes .laneShl 0x01E false (bits fun n a b => (a <<< (b.toNat % n)).toNat) ∧
  LaneDoes .laneShr 0x01F false (bits fun n a b => (a >>> (b.toNat % n)).toNat) ∧
  LaneDoes .laneSar 0x020 false (bits fun n a b => (a.sshiftRight (b.toNat % n)).toNat) ∧
  LaneDoes .rot 0x021 false (bits fun n a b => (a.rotateLeft (b.toNat % n)).toNat) ∧
  LaneDoes .laneClz 0x022 false (bits fun _ a _ => a.clz.toNat) ∧
  LaneDoes .lanePopc 0x023 false (bits fun n a _ => ((List.range n).filter (fun i => a.getLsbD i)).length) ∧
  LaneDoes .brev 0x024 false (bits fun _ a _ => a.reverse.toNat)) ∧
  (let p := fun (c : Ctx) => c.f.imm.toNat % 64
  let n := fun (c : Ctx) => c.f.imm.toNat / 256 % 64
  LaneDoes .bfe 0x025 false (fun c l =>
    let v := (c.src 0 l).pat / 2 ^ p c % 2 ^ n c
    { cells := cellsOf c.f.fmt.toNat (if c.f.fmt.toNat < 4 then (toS (n c) v % (2 ^ c.width : Nat)).toNat else v) }) ∧
  LaneDoes .bfi 0x026 false (fun c l =>
    let a := (c.src 0 l).pat
    { cells := cellsOf c.f.fmt.toNat
        (a % 2 ^ p c + (c.src 1 l).pat % 2 ^ n c * 2 ^ p c + a / 2 ^ (p c + n c) * 2 ^ (p c + n c)) }) ∧
  LaneDoes .laneSel 0x027 false (fun c l =>
    chosen c l (c.src (if (c.g.maskSource c.f.c c.lanes).getLsbD l then 0 else 1) l)) ∧
  LaneDoes .icmp 0x028 false (fun c l =>
    let a := (c.src 0 l).int
    let b := (c.src 1 l).int
    let holds : Bool := if c.f.imm = 0 then decide (a = b) else if c.f.imm = 1 then decide (a ≠ b)
      else if c.f.imm = 2 then decide (a < b) else if c.f.imm = 3 then decide (a ≥ b)
      else if c.f.imm = 4 then decide (a > b) else decide (a ≤ b)
    { cells := [holds.toNat] }) ∧
  LaneDoes .laneNop 0x001 false (fun _ _ => {}))

/-- R391 to R394, R397: floating-point arithmetic, roots, reciprocals and transcendental functions: the exact result of the
sources' values, rounded once to the format in the lane's mode, with its row of R226. K of a zero from an inexact rounding
is the model's reading (assumption 39), and an unsettled transcendental result is a free value (assumption 13). -/
def Obligations.LaneFloats : Prop :=
  let does := fun (i : LaneF → Instr) (op : Nat) (long : Bool) (r : RMode → FVal → FVal → FVal → FRes)
      (k : Ctx → Nat → KRule) => LaneDoes i op long (fun c l =>
        c.finish c.f.fmt.toNat l (fun rm => r rm (c.src 0 l).val (c.src 1 l).val (c.src 2 l).val) (k c l))
  let known := fun (c : Ctx) (i l : Nat) => (c.src i l).known
  let sum := fun (c : Ctx) l => KRule.rule [known c 0 l, known c 1 l] (kAdd [known c 0 l, known c 1 l])
  let prod := fun (c : Ctx) l => KRule.rule [known c 0 l, known c 1 l] (kMul (known c 0 l) (known c 1 l))
  let one := fun (k : KSrc → Int → Int) (c : Ctx) l => KRule.rule [known c 0 l] (kUnary k (known c 0 l))
  does .fadd 0x040 false (fun rm a b _ => fAdd rm a b) sum ∧
  does .fsub 0x041 false (fun rm a b _ => fAdd rm a b.negate) sum ∧
  does .fmul 0x042 false (fun _ a b _ => fMul a b) prod ∧
  does .fma 0x043 false (fun rm a b d => fFma rm a b d) (fun c l =>
    KRule.rule [known c 0 l, known c 1 l, known c 2 l] (kAdd [kProduct (known c 0 l) (known c 1 l)
      (match fMul (c.src 0 l).val (c.src 1 l).val with | .num x => some x.top | _ => none), known c 2 l])) ∧
  does .fdiv 0x049 true (fun _ a b _ => fDiv a b) prod ∧
  does .fsqrt 0x04A true (fun _ a _ _ => fSqrt a) (one fun a _ => a.k + 1) ∧
  does .frcp 0x04B true (fun _ a _ _ => fDiv (.fin false 1 0) a) (one fun a _ => a.k) ∧
  does .frsq 0x04C true (fun _ a _ _ => fRsq a) (one fun a _ => a.k + 1) ∧
  does .fexp2 0x04D true (fun _ a _ _ => fExp2 a) (one fun a _ => -a.eps - 1) ∧
  does .flog2 0x04E true (fun _ a _ _ => fLog2 a) (one fun a er => er + a.k - 1) ∧
  does .fsin 0x04F true (fun _ a _ _ => fSin a) (one fun a er => er - a.eps) ∧
  does .fcos 0x050 true (fun _ a _ _ => fCos a) (one fun a er => er - a.eps) ∧
  does .ftanh 0x051 true (fun _ a _ _ => fTanh a) (one fun a er => er - a.eps)

/-- R393, R397: the exact outcome of a sum, a product and a fused product and sum of finite values is the rational number they
name, and the outcome of a quotient, of a square root and of its reciprocal brackets it, exact where it says so; of a value that is
known within an error, what is settled brackets it. -/
def Obligations.ExactOutcomes : Prop :=
  let q := fun (n : Bool) (m : Nat) (e : Int) => (if n then -1 else 1) * (m : Rat) * (2 : Rat) ^ e
  (∀ (m : Nat) (e : Int), m ≠ 0 →
    let a := q false m e
    (∃ x : Exact, fSqrt (.fin false m e) = .num x ∧ x.neg = false ∧ (q false x.m x.e) ^ 2 ≤ a ∧
      a < (q false (x.m + 1) x.e) ^ 2 ∧ (x.st = false ↔ (q false x.m x.e) ^ 2 = a)) ∧
    (∃ x : Exact, fRsq (.fin false m e) = .num x ∧ x.neg = false ∧ a * (q false x.m x.e) ^ 2 ≤ 1 ∧
      1 < a * (q false (x.m + 1) x.e) ^ 2 ∧ (x.st = false ↔ a * (q false x.m x.e) ^ 2 = 1))) ∧
  (∀ (neg : Bool) (w v : Nat) (x : Exact) (r : Rat), settle neg w v = some x → (v : Rat) - errFx ≤ r * 2 ^ w →
    r * 2 ^ w ≤ (v : Rat) + errFx →
    x.neg = neg ∧ x.st = true ∧ q false x.m x.e ≤ r ∧ r < q false (x.m + 1) x.e) ∧
  ∀ rm na ma ea nb mb eb nc mc ec,
    let a := q na ma ea
    let b := q nb mb eb
    let is := fun (r : FRes) (v : Rat) =>
      (v = 0 → ∃ z, r = .zero z) ∧ (v ≠ 0 → ∃ x : Exact, r = .num x ∧ x.st = false ∧ q x.neg x.m x.e = v)
    is (fAdd rm (.fin na ma ea) (.fin nb mb eb)) (a + b) ∧
    is (fSub rm (.fin na ma ea) (.fin nb mb eb)) (a - b) ∧
    is (fMul (.fin na ma ea) (.fin nb mb eb)) (a * b) ∧
    is (fFma rm (.fin na ma ea) (.fin nb mb eb) (.fin nc mc ec)) (a * b + q nc mc ec) ∧
    (mb ≠ 0 → ma ≠ 0 → ∃ x : Exact, fDiv (.fin na ma ea) (.fin nb mb eb) = .num x ∧ x.neg = (na != nb) ∧
      q false x.m x.e ≤ q false ma ea / q false mb eb ∧ q false ma ea / q false mb eb < q false (x.m + 1) x.e ∧
      (x.st = false ↔ q false x.m x.e = q false ma ea / q false mb eb))

/-- R215, R216, R397: a value rounded to a multiple of 2^q lies within one step of it, on the side its mode names, and is marked
inexact exactly when it was no multiple; so does every value between two neighbours of which the lower and its tail are known. -/
def Obligations.RoundingModes : Prop :=
  (∀ (rm : RMode) (n : Bool) (m : Nat) (e q : Int) (d : Nat) (v : Rat), e < q → (m : Rat) * (2 : Rat) ^ (e - q) < v →
    v < ((m : Rat) + 1) * (2 : Rat) ^ (e - q) →
    let r := roundAt rm { neg := n, m := m, e := e, st := true } q d
    r.2 = true ∧ (r.1 : Rat) < v + 1 ∧ v < (r.1 : Rat) + 1 ∧
    (rm = .rtz → (r.1 : Rat) ≤ v) ∧ (rm = .rup → if n then (r.1 : Rat) ≤ v else v ≤ (r.1 : Rat)) ∧
    (rm = .rdn → if n then v ≤ (r.1 : Rat) else (r.1 : Rat) ≤ v) ∧
    (rm = .rne ∨ rm = .rna → 2 * (r.1 : Rat) ≤ 2 * v + 1 ∧ 2 * v ≤ 2 * (r.1 : Rat) + 1)) ∧
  ∀ (rm : RMode) (n : Bool) (m : Nat) (e q : Int) (d : Nat), 0 < m →
    let x : Exact := { neg := n, m := m, e := e, st := false }
    let v := (m : Rat) * (2 : Rat) ^ (e - q)
    let r := roundAt rm x q d
    let near := 2 * (r.1 : Rat) ≤ 2 * v + 1 ∧ 2 * v ≤ 2 * (r.1 : Rat) + 1
    let tie := 2 * (r.1 : Rat) = 2 * v + 1 ∨ 2 * v = 2 * (r.1 : Rat) + 1
    (r.2 = false → (r.1 : Rat) = v) ∧ (r.2 = true → (r.1 : Rat) ≠ v) ∧ (r.1 : Rat) < v + 1 ∧ v < (r.1 : Rat) + 1 ∧
    (rm = .rtz → (r.1 : Rat) ≤ v) ∧ (rm = .rup → if n then (r.1 : Rat) ≤ v else v ≤ (r.1 : Rat)) ∧
    (rm = .rdn → if n then v ≤ (r.1 : Rat) else (r.1 : Rat) ≤ v) ∧
    (rm = .rne → near ∧ (tie → r.1 % 2 = 0)) ∧
    (rm = .rna → near ∧ (tie → v < (r.1 : Rat)))

/-- R395, R396, R398 to R400: minimum and maximum with -0 below +0, comparison, class, scaling by a power of two, and
rounding to an integral value. K of a zero from an inexact rounding is the model's reading (assumption 39). -/
def Obligations.LaneFloatPicks : Prop :=
  let pick := fun (first : FVal → FVal → Bool) (num : Bool) (c : Ctx) (l : Nat) =>
    let a := c.src 0 l
    let b := c.src 1 l
    let nv := a.val.isSnan || b.val.isSnan
    if a.val.isNan && b.val.isNan || !num && (a.val.isNan || b.val.isNan) then c.nanOut c.f.fmt.toNat l nv
    else
      let o := chosen c l (if a.val.isNan then b else if b.val.isNan then a else if first a.val b.val then a else b)
      { o with flags := { o.flags with nv := nv } }
  LaneDoes .fmin 0x044 false (pick (fun a b => !fBelow b a) false) ∧
  LaneDoes .fmax 0x045 false (pick (fun a b => !fBelow a b) false) ∧
  LaneDoes .fminn 0x046 false (pick (fun a b => !fBelow b a) true) ∧
  LaneDoes .fmaxn 0x047 false (pick (fun a b => !fBelow a b) true) ∧
  LaneDoes .fcmp 0x048 false (fun c l =>
    let a := (c.src 0 l).val
    let b := (c.src 1 l).val
    let k := c.f.imm.toNat % 8
    let un := a.isNan || b.isNan
    let o := fCompare a b
    let holds : Bool := if un then k == 1 || k == 6
      else k == 0 && o == .eq || k == 1 && o != .eq || k == 2 && o == .lt || k == 3 && o != .gt || k == 4 && o == .gt ||
        k == 5 && o != .lt || k == 7
    { cells := [holds.toNat], flags := { nv := a.isSnan || b.isSnan || (un && 2 ≤ k && k ≤ 5) } }) ∧
  LaneDoes .fclass 0x052 false (fun c l =>
    let a := c.src 0 l
    { cells := [2 ^ classBit a.fmt a.val + (if isVpFmt a.fmt && a.vp.k != 127 then 1024 else 0)] }) ∧
  LaneDoes .fscale 0x053 false (fun c l =>
    c.finish c.f.fmt.toNat l (fun _ => fScale (c.src 0 l).val (c.src 1 l).int) (.copy (c.src 0 l).known.k)) ∧
  LaneDoes .frint 0x054 false (fun c l =>
    let rm := c.g.mode c.f l
    let d := c.g.drawAt c.f l 1
    let kr := KRule.rule [(c.src 0 l).known] (kAdd [(c.src 0 l).known])
    let plain := fun (r : FRes) => c.finish c.f.fmt.toNat l (fun _ => r) kr
    match (c.src 0 l).val with
    | .nan sn => plain (.nan sn)
    | .inf n => plain (.inf n true false)
    | .fin n m e =>
      if m = 0 then plain (.zero n)
      else
        match ffOf c.f.fmt.toNat with
        | some lay =>
          let r := roundInt rm n m e d
          { cells := cellsOf c.f.fmt.toNat (finishF lay rm false 0
              (if r.1 = 0 then .zero n else .num { neg := n, m := r.1, e := 0, st := false })).1
            flags := { ix := r.2 }, draws := 1 }
        | none => vpOut (frintVp (c.g.workS c.f.fmt.toNat l) (c.g.vpExtra c.f.fmt.toNat l) rm d n m e kr) 1)

/-- R401 to R407: conversions clamp, round once or change width; packing and unpacking; block quantisation; lengths and
known bits of VP values. K of a zero from an inexact rounding is the model's reading (assumption 39). -/
def Obligations.LaneConversions : Prop :=
  LaneDoes .cvt 0x060 false (fun c l =>
    let rf := c.f.fmt.toNat
    let x := c.src 0 l
    let clamp := fun (v : Int) => max (intMin rf) (min (intMax rf) v)
    let whole := fun (v : Int) (ix : Bool) (n : Nat) =>
      ({ cells := cellsOf rf (clamp v % (2 ^ fmtWidth rf : Nat)).toNat
         flags := { nv := clamp v != v, ix := ix && clamp v == v }, draws := n } : LaneOut)
    if isIntFmt x.fmt && isIntFmt rf then whole x.int false 0
    else if isIntFmt rf then
      (match x.val with
      | .nan _ => { cells := cellsOf rf 0, flags := { nv := true }, draws := 1 }
      | .inf n => whole (if n then intMin rf - 1 else intMax rf + 1) false 1
      | .fin n m e =>
        let r := roundInt (c.g.mode c.f l) n m e (c.g.drawAt c.f l 1)
        whole (if n then -(r.1 : Int) else r.1) r.2 1)
    else
      let v := if isIntFmt x.fmt then FVal.ofInteger x.int else x.val
      c.finish rf l (fun _ => if rf == 0x0C && v.isInf then .nan true else resOf v)
        (.rule [x.known] (kUnary (fun a _ => a.k) x.known))) ∧
  LaneDoes .pack 0x061 false (fun c l =>
    let m := 2 ^ c.width
    let pair := (c.src 1 l).pat % m * m + (c.src 0 l).pat % m
    { cells := [if c.f.imm = 1 then pair * 65536 else pair] }) ∧
  LaneDoes .unpack 0x062 false (fun c l =>
    { cells := cellsOf c.f.fmt.toNat ((c.src 0 l).pat / 2 ^ (c.width * (c.f.imm.toNat % 4)) % 2 ^ c.width) }) ∧
  LaneDoes .qblk 0x063 false (fun c l =>
    let r := c.block (l / 32)
    { cells := [((r.q[l % 32]?.getD 0) % 65536).toNat + r.e * 65536], flags := r.flags
      draws := if r.again then 2 else 1 }) ∧
  LaneDoes .dqblk 0x064 false (fun c l =>
    let m := bfpBits c.f.fmt.toNat
    let x := (c.src 0 l).pat
    c.finish c.f.imm.toNat l (fun _ => resOf (bfpValue m (x / 65536 % 256) (toS m x))) (.copy 127)) ∧
  LaneDoes .vplen 0x065 false (fun c l =>
    let x := c.src 0 l
    if c.f.imm = 0 then { cells := [x.vp.l] }
    else if c.f.imm = 1 then { cells := [vpNeed x] }
    else vpOut (vpFinish (min x.vp.k (c.g.workS c.f.fmt.toNat l)) (c.g.vpExtra c.f.fmt.toNat l) (c.g.mode c.f l) false
      (c.g.drawAt c.f l 1) (resOf x.val) (.copy x.vp.k)) 1) ∧
  LaneDoes .vpk 0x066 false (fun c l =>
    let x := c.src 0 l
    let k := c.f.imm.toNat / 256 % 128
    let put := fun k => vpOut (vpFinish (c.g.workS c.f.fmt.toNat l) (c.g.vpExtra c.f.fmt.toNat l) .rtz false 0
      (resOf x.val) (.copy k)) 0
    if c.f.imm.toNat % 4 = 0 then { cells := [x.vp.k] }
    else if c.f.imm.toNat % 4 = 1 then put k else put (min x.vp.k k))

/-- R369 to R374: mask instructions, shuffles, votes, scans and reductions; to rq, a count, a vote and a reduction push one
value of 64 bits. -/
def Obligations.MasksAndLanes : Prop :=
  let mask := fun (r : Lanes → Lanes → Lanes) (c : Ctx) (l : Nat) =>
    ({ cells := [((r (c.g.maskSource c.f.a c.lanes) (c.g.maskSource c.f.b c.lanes)).getLsbD l).toNat] } : LaneOut)
  let set := fun (c : Ctx) => c.g.maskSource c.f.a c.lanes
  let count := fun (m : Lanes) => ((List.range 64).filter (fun l => m.getLsbD l)).length
  let fold := fun (c : Ctx) => (treeRoot (combine c.f.fmt.toNat c.comb) 6 ((List.range 64).map (fun l =>
    if (writtenLanes c).getLsbD l then some (c.src 0 l).pat else none))).getD (combineId c.f.fmt.toNat c.comb)
  LaneDoes .mand 0x070 false (mask fun a b => a &&& b) ∧ LaneDoes .mor 0x071 false (mask fun a b => a ||| b) ∧
  LaneDoes .mxor 0x072 false (mask fun a b => a ^^^ b) ∧ LaneDoes .mnot 0x073 false (mask fun a _ => ~~~ a) ∧
  LaneDoes .mset 0x074 false (fun c l =>
    let x := (c.src 0 l).pat
    { cells := [(if c.f.imm = 0 then x != 0 else if c.f.imm = 1 then x % 2 == 1 else x.testBit l).toNat] }) ∧
  LaneDoes .mpopc 0x075 false (fun c _ => { cells := [count (set c)] }) ∧
  LaneDoes .shfl 0x080 false (fun c l =>
    let b := (c.src 1 l).pat % 2 ^ 32
    let from_ := if c.f.imm.toNat % 4 = 0 then b % 64 else if c.f.imm.toNat % 4 = 1 then (if l < b then l else l - b)
      else if c.f.imm.toNat % 4 = 2 then (if 63 < l + b then l else l + b) else l ^^^ (b % 64)
    { cells := if isVpFmt c.f.fmt.toNat then (c.src 0 from_).cells else cellsOf c.f.fmt.toNat (c.src 0 from_).pat }) ∧
  LaneDoes .vote 0x081 false (fun c l =>
    { cells := [(if c.f.imm = 0 then (set c).getLsbD l else if c.f.imm = 1 then set c != 0 else set c == c.lanes).toNat] }) ∧
  LaneDoes .scan 0x082 false (fun c l =>
    { cells := cellsOf c.f.fmt.toNat
        ((scanTo c.f.fmt.toNat c.comb (writtenLanes c) (fun j => (c.src 0 j).pat)
          (if c.f.imm.toNat.testBit 3 then l else l + 1)).getD (combineId c.f.fmt.toNat c.comb)) }) ∧
  LaneDoes .red 0x083 false (fun c _ => { cells := cellsOf c.f.fmt.toNat (fold c) }) ∧
  (∀ s g f, f.dkind = 1 → f.dest = 6 →
    let pushes := fun (i : LaneF → Instr) (op : Nat) (v : Ctx → Nat) =>
      LaneGo s g op f → (i f).wf = true → Completes (i f) s (fun t => MemoryKept s t ∧ ∃ u,
        tblFind t.groups s.cur = some u ∧ u.lanePc = (g.lanePc + 12) % 2 ^ 56 ∧ u.cells = g.cells ∧ u.prec = g.prec ∧
        u.sregs = g.sregs ∧ u.sq = g.sq ∧
        u.rq = g.rq ++ [{ value := BitVec.ofNat 64 (v (laneCtx s g op f)), seq := g.lseq }])
    pushes .mpopc 0x075 (fun c => count (set c)) ∧
    pushes .vote 0x081 (fun c => if c.f.imm = 0 then (set c).toNat else if c.f.imm = 1 then (set c != 0).toNat
      else (set c == c.lanes).toNat) ∧
    pushes .red 0x083 (fun c => if c.f.fmt.toNat < 4
      then (toS (fmtWidth c.f.fmt.toNat) (fold c) % (2 ^ 64 : Nat)).toNat else fold c))

/-- R375, R376, R378, R379, R238: divergence, calls and the end of a block. `lsplit` answers a next state wherever no lane is
live or the stack has room, `ljoin` with DIV on top, `lcall` wherever no lane is live or the stack has room, `lret` with CALL
on top, and `lend` at the depth its block began with; and the mask, the stack and the lane PC that each leaves. The AMASK that
is pushed holds no dead lane (R236). -/
def Obligations.LaneControl : Prop :=
  ∀ s g r, LaneIssuing s g → g.run = some r → ∀ f : LaneF,
    let leaves := fun (t : State) (pc : Nat) (on : Lanes) (st : List Entry) (fmt : BitVec 32) =>
      MemoryKept s t ∧ (∀ h, h ≠ s.cur → tblFind t.groups h = tblFind s.groups h) ∧
      tblFind t.groups s.cur = some { g with
        run := some { r with pc := pc % 2 ^ 56 }, active := on, stack := st, sr := { g.sr with fmt := fmt }
        lseq := g.lseq + 1, bskip := false, sblock := none, lblock := none }
    let live := g.active &&& ~~~ g.ldead
    let m := if f.a.neg then ~~~ g.mread (f.a.index.toNat % 16) else g.mread (f.a.index.toNat % 16)
    let second := (r.pc + 12 * f.imm.toNat) % 2 ^ 56
    let join := (r.pc + 12 * f.c.raw) % 2 ^ 56
    let e : Entry := { kind := .div, fmt := g.sr.fmt, amask := live, pc1 := second, pc2 := join, id := s.nextId }
    (live = 0 ∨ g.stack.length < 63 → ∃ t, exec (.laneLsplit f) s = .next t ∧
      (live = 0 → leaves t join g.active g.stack g.sr.fmt) ∧
      (live ≠ 0 → live &&& m ≠ 0 →
        leaves t (r.pc + 12) (live &&& m) ({ e with pend := live &&& ~~~ m } :: g.stack) g.sr.fmt) ∧
      (live ≠ 0 → live &&& m = 0 →
        leaves t second (live &&& ~~~ m) ({ e with second := true } :: g.stack) g.sr.fmt)) ∧
    (∀ x rest, g.stack = x :: rest → x.kind = .div → ∃ t, exec (.ljoin f) s = .next t ∧
      (x.pend ≠ 0 → leaves t x.pc1 x.pend ({ x with pend := 0, second := true } :: rest) x.fmt) ∧
      (x.pend = 0 → leaves t x.pc2 (x.amask &&& ~~~ g.ldead) rest x.fmt)) ∧
    (live = 0 ∨ g.stack.length < 63 → ∃ t, exec (.lcall f) s = .next t ∧
      (live = 0 → leaves t (r.pc + 12) g.active g.stack g.sr.fmt) ∧
      (live ≠ 0 → leaves t (((r.pc : Int) + 12 * f.imm.toInt) % 2 ^ 56).toNat g.active
        ({ kind := .call, amask := live, pc1 := (r.pc + 12) % 2 ^ 56 } :: g.stack) g.sr.fmt)) ∧
    (∀ x rest, g.stack = x :: rest → x.kind = .call → ∃ t, exec (.lret f) s = .next t ∧
      leaves t x.pc1 (x.amask &&& ~~~ g.ldead) rest g.sr.fmt) ∧
    (g.stack.length = r.base → ∃ t, exec (.lend f) s = .next t ∧ MemoryKept s t ∧ Becomes s t { g with
      run := none, active := ~~~ g.ldead, lseq := g.lseq + 1, bskip := false, sblock := none, lblock := none })

/-- R376, R378, R379, R237: a split or call on a full stack raises 0x0E, and a join, a return or an end of block that does
not find its entry raises 0x0A. -/
def Obligations.StackFaults : Prop :=
  ∀ s g r e, LaneIssuing s g → g.run = some r → CanTrap s g e → ∀ f : LaneF,
    let faults := fun (i : Instr) (cause : Nat) (m : Lanes) => Completes i s (fun t => MemoryKept s t ∧ ∃ g',
      tblFind t.groups s.cur = some g' ∧ g'.pc = e ∧ g'.run = none ∧ fld g'.sr.tstat.toNat 0 8 = cause ∧
      g'.sr.tstat.getLsbD 8 = true ∧ g'.sr.tmask = m ∧ g'.sr.tlpc = BitVec.ofNat 64 r.pc ∧ g'.cells = g.cells ∧
      g'.sregs = g.sregs)
    let act := g.active &&& ~~~ g.ldead
    (act ≠ 0 → g.stack.length = 63 → faults (.laneLsplit f) 0x0E act ∧ faults (.lcall f) 0x0E act) ∧
    ((g.stack = [] ∨ ∃ x t, g.stack = x :: t ∧ x.kind ≠ .div) → faults (.ljoin f) 0x0A 0) ∧
    ((g.stack = [] ∨ ∃ x t, g.stack = x :: t ∧ x.kind ≠ .call) → faults (.lret f) 0x0A 0) ∧
    (g.stack.length ≠ r.base → faults (.lend f) 0x0A 0)

/-- R381 to R390: the accesses that lane loads, stores, atomics, VP moves, fences and remote operations enter in the operand
log, lane by lane, and the cells that turn empty; lanes of a prefetch that name one line make one access of it; no byte changes at issue. Formats other than VP, VP1 for `ldvp`, every
format of `stvp`. -/
def Obligations.LaneMemory : Prop :=
  ∀ s g f op, LaneGo s g op f → Plain s → s.entriesFree s.cur 256 = true → g.lanes f ≠ 0 →
    let c := laneCtx s g op f
    let acc := fun (kind : AccKind) (l addr : Nat) => ({
      lane := l, stream := true, pc := g.lanePc, kind := kind,
      addr := addr % 2 ^ 64, size := fmtWidth f.fmt.toNat / 8, ord := f.ord.toNat, scope := f.scope.toNat,
      evict := f.evict.toNat, seq := g.lseq, seen := c.seen, path := g.path } : Access)
    let at_ := fun (l : Nat) => (BitVec.ofNat 64 (c.src 0 l).pat + f.imm.signExtend 64).toNat
    let logs := fun (i : Instr) (l : List Access) (empty : Bool) => Completes i s (fun t => MemoryKept s t ∧
      (∀ h, h ≠ s.cur → tblFind t.groups h = tblFind s.groups h) ∧ ∃ u, tblFind t.groups s.cur = some u ∧
      u.lanePc = (g.lanePc + 12) % 2 ^ 56 ∧ u.cells = g.cells ∧ u.sregs = g.sregs ∧ u.prec = g.prec ∧ u.masks = g.masks ∧
      u.log = g.log ++ (l.zip (List.range l.length)).map (fun e => { e.1 with id := s.nextId + e.2 }) ∧
      (empty = true → ∀ l, (g.lanes f).getLsbD l = true → u.cellFull l f.dest.toNat = false) ∧
      (empty = false → u.empties = g.empties))
    let ls := lanesOf (g.lanes f)
    let data := fun (l : Nat) => (c.src 1 l).pat % 2 ^ fmtWidth f.fmt.toNat
    let cell := Dest.cells f.dest.toNat f.fmt.toNat
    let one := isVpFmt f.fmt.toNat = false
    (op = 0x0A0 → one → (Instr.ldl f).wf = true → f.dkind = 0 →
      logs (.ldl f) (ls.map (fun l => { acc .load l (at_ l) with dest := cell })) true) ∧
    (op = 0x0A1 → one → (Instr.stl f).wf = true →
      logs (.stl f) (ls.map (fun l => { acc .store l (at_ l) with data := data l })) false) ∧
    (op = 0x0A2 → one → (Instr.atoml f).wf = true → f.dkind = 0 → logs (.atoml f) (ls.map (fun l =>
      { acc .atomic l (c.src 0 l).pat with
        op := if (f.fmt = 6 ∨ f.fmt = 7) ∧ (f.imm.toNat % 16 = 5 ∨ f.imm.toNat % 16 = 6) then f.imm.toNat % 16 + 2
          else f.imm.toNat % 16
        data := (c.src 1 l).pat, cmp := if f.imm = 9 then (c.src 2 l).pat else 0
        fp := if f.fmt = 0x0A then 0x0A else 0, dest := cell })) true) ∧
    (op = 0x0A3 → (Instr.ldvp f).wf = true → f.dkind = 0 → f.fmt = 0x21 →
      logs (.ldvp f) (ls.map (fun l => { acc .load l (at_ l) with dest := .cells f.dest.toNat 6 })) true) ∧
    (op = 0x0A4 → (Instr.stvp f).wf = true → logs (.stvp f) (ls.flatMap (fun l =>
      ((c.src 1 l).cells.zip (List.range (c.src 1 l).cells.length)).map (fun e =>
        { acc .store l (at_ l + 4 * e.2) with size := 4, data := e.1 }))) false) ∧
    (op = 0x0A6 → logs (.lfence f) [{ acc .fence 255 0 with size := 0 }] false) ∧
    (∀ slot rank, slot < 4 → rank < 2 ^ 24 → g.slotK (f.imm.toNat % 4) = BitVec.ofNat 64 (rank + slot * 2 ^ 24) → one →
      let rem := fun (a : Access) => { a with rank := some rank, slot := slot }
      (op = 0x0C0 → (Instr.rputl f).wf = true →
        logs (.rputl f) (ls.map (fun l => rem { acc .store l (c.src 0 l).pat with data := data l })) false) ∧
      (op = 0x0C1 → (Instr.rgetl f).wf = true → f.dkind = 0 →
        logs (.rgetl f) (ls.map (fun l => rem { acc .load l (c.src 0 l).pat with dest := cell })) true) ∧
      (op = 0x0C2 → (Instr.rredl f).wf = true → logs (.rredl f) (ls.map (fun l =>
        let k := f.imm.toNat / 4 % 8
        let nat := f.fmt = 6 ∨ f.fmt = 7
        { rem { acc .atomic l (c.src 0 l).pat with data := data l } with
          op := if k = 0 then 1 else if k = 1 then (if nat then 7 else 5) else if k = 2 then (if nat then 8 else 6) else 3
          fp := if 8 ≤ f.fmt.toNat ∧ f.fmt.toNat ≤ 0x0D then f.fmt.toNat else 0, rop := some (k, f.fmt.toNat) })) false)) ∧
    (op = 0x0A5 → (Instr.prefl f).wf = true →
      let line := fun (l : Nat) => at_ l / 128 * 128
      logs (.prefl f) ((ls.filter (fun l => ls.all (fun m => decide (l ≤ m) || line m != line l))).map (fun l =>
        { acc .hint l (line l) with size := 128, op := 2, data := (ls.filter (fun m => line m == line l)).length })) false)

/-- R154, R225, R408 to R410: accumulator moves pair lanes with the elements of half a row; `precw` writes the fields it
selects in the lanes that act and `precr` reads PREC; a long operation writes its cells, which turn full. -/
def Obligations.TilesAndPrecision : Prop :=
  ∀ s g f, f.imm.toNat < 64 →
    let elem := fun (l : Nat) => f.imm.toNat % 32 * 128 + 64 * (f.imm.toNat / 32 % 2) + l
    let tile := fun (t : State) (n : Nat) => tblGet {} (t.core (s.coreOf s.cur)).tiles (g.physTile n)
    let leaves := fun (t : State) => (∀ a, t.homeRead a 1 = s.homeRead a 1) ∧ ∃ u, tblFind t.groups s.cur = some u ∧
      u.lanePc = (g.lanePc + 12) % 2 ^ 56 ∧ u.cells = g.cells ∧ u.sregs = g.sregs ∧ u.prec = g.prec
    (LaneGo s g 0x0B0 f → (Instr.accrd f).wf = true → (tile s (f.a.index.toNat % 16)).poison = false →
      Completes (.accrd f) s (LaneWrites s g (laneCtx s g 0x0B0 f) false (fun l =>
        { cells := [tblGet 0 (tile s (f.a.index.toNat % 16)).data (elem l)] }))) ∧
    (LaneGo s g 0x0B1 f → g.lanes f ≠ 0 → Completes (.accwr f) s (fun t => leaves t ∧
      (tile t f.dest.toNat).poison = (tile s f.dest.toNat).poison ∧
      ∀ l, l < 64 → tblGet 0 (tile t f.dest.toNat).data (elem l) = (if (g.lanes f).getLsbD l
        then ((laneCtx s g 0x0B1 f).src 0 l).pat else tblGet 0 (tile s f.dest.toNat).data (elem l)))) ∧
    (LaneGo s g 0x0B2 f → g.lanes f ≠ 0 → Completes (.accz f) s (fun t => leaves t ∧
      (tile t f.dest.toNat).poison = false ∧ ∀ i, tblGet 0 (tile t f.dest.toNat).data i = 0)) ∧
    (LaneGo s g 0x0D1 f → (Instr.precr f).wf = true → g.longs = [] → g.vploads = [] →
      Completes (.precr f) s (LaneWrites s g (laneCtx s g 0x0D1 f) false (fun l =>
        { cells := [(tblGet 0 g.prec l).toNat % 2 ^ 31] }))) ∧
    (LaneGo s g 0x0D0 f → g.longs = [] → g.vploads = [] →
      let src := fun (l : Nat) => BitVec.ofNat 32 ((laneCtx s g 0x0D0 f).src 0 l).pat
      let new := fun (l : Nat) => precPut (tblGet 0 g.prec l) (src l) f.imm.toNat
      (∀ l, (g.lanes f).getLsbD l = true →
        1 ≤ precS (new l) ∧ precS (new l) ≤ precCeil (new l) ∧ precRM (new l) ≤ 5) →
      Completes (.precw f) s (fun t => MemoryKept s t ∧ ∃ u, tblFind t.groups s.cur = some u ∧
        u.lanePc = (g.lanePc + 12) % 2 ^ 56 ∧ u.cells = g.cells ∧ u.sregs = g.sregs ∧
        ∀ l, l < 64 → tblGet 0 u.prec l = (if (g.lanes f).getLsbD l then new l else tblGet 0 g.prec l))) ∧
    (∀ h i o l x v fl, tblFind s.groups h = some g → g.longs[i]? = some o → o.writes = [(l, x, v)] →
      o.flags = [(l, fl)] → x < 256 →
      Completes (.longOperationWrite h i) s (fun t => MemoryKept s t ∧ ∃ u, tblFind t.groups h = some u ∧
        u.cell l x = v % 2 ^ 32 ∧ u.cellFull l x = true ∧ u.longs = g.longs.filter (fun y => y.id != o.id) ∧
        u.sregs = g.sregs ∧ (∀ m, tblGet 0 u.prec m = if m = l then tblGet 0 g.prec l ||| BitVec.ofNat 32 fl.bits
          else tblGet 0 g.prec m) ∧
        ∀ m y, y < 256 → (m, y) ≠ (l, x) → u.cell m y = g.cell m y ∧ u.cellFull m y = g.cellFull m y))

/-! ## Waits on memory, engines -/

/-- R350, R354, R309, R247: `waitm` reads its flag at once and at every poll, goes on when the condition holds and waits on
when not; past WTO.LIMIT the wait raises 0x05; `tbar` adds its expectation to the barrier word and passes when the phase
changes; `pref` enters its prefetch in the operand log, and one for ballast goes to the queue of its home; it changes no byte. That a flag read which nothing holds back is performed in its own step is the model's
choice (assumption 45). -/
def Obligations.FlagWaits : Prop :=
  (∀ s g, Issuing s g → Plain s → s.entriesFree s.cur 1 = true → g.log = [] → g.held = [] → g.lpush = none →
    g.vploads = [] → (s.core (s.coreOf s.cur)).cache = [] →
      ∀ (a v : SReg) (c : BitVec 3) (p : Policy) (base : Nat) (pg : Page),
    let ea := (g.sread a + p.offset.signExtend 64).toNat
    let x := BitVec.ofNat 64 (leNat (s.homeRead ea 8))
    let y := g.sread v
    let holds : Bool := if c = 0 then decide (y.toNat ≤ x.toNat) else if c = 1 then x == y else if c = 2 then x != y
      else decide (y.toInt ≤ x.toInt)
    p.ord = 0 → ea % 8 = 0 → g.extra = [] → InHbm s (s.dieOf s.cur) ea 8 0 base pg → s.homePoison ea 8 = false →
    Completes (.waitm a v c p) s (fun t => (∀ b, t.homeRead b 1 = s.homeRead b 1) ∧ ∃ g', tblFind t.groups s.cur = some g' ∧
      g'.sregs = g.sregs ∧ g'.log = [] ∧ (holds = true → g'.swait = .none ∧ g'.pc = (g.pc + 8) % 2 ^ 56) ∧
      (holds = false → g'.swait = .waitm ea y c.toNat 0 p.scope.toNat (some (s.timeOf s.cur)) ∧ g'.pc = g.pc))) ∧
  (∀ s h g ea y c scope first base pg, tblFind s.groups h = some g → g.swait = .waitm ea y c 0 scope first → g.log = [] →
    g.held = [] → g.extra = [] → g.lpush = none → g.vploads = [] → (s.core (s.coreOf h)).cache = [] → ea % 8 = 0 →
    InHbm s (s.dieOf h) ea 8 0 base pg → s.homePoison ea 8 = false →
    Completes (.waitmPoll h) s (fun t => (∀ b, t.homeRead b 1 = s.homeRead b 1) ∧ ∃ g', tblFind t.groups h = some g' ∧
      g'.sregs = g.sregs ∧ g'.log = [] ∧
      (flagHolds c (BitVec.ofNat 64 (leNat (s.homeRead ea 8))) y = true → g'.swait = .none ∧ g'.pc = (g.pc + 8) % 2 ^ 56) ∧
      (flagHolds c (BitVec.ofNat 64 (leNat (s.homeRead ea 8))) y = false →
        g'.swait = .waitm ea y c 0 scope (some (first.getD (s.timeOf h))) ∧ g'.pc = g.pc))) ∧
  (∀ s h g ea y c o scope first e, tblFind s.groups h = some g → g.swait = .waitm ea y c o scope (some first) →
    s.issues h = true → fld g.sr.wto.toNat 0 40 ≠ 0 → first + fld g.sr.wto.toNat 0 40 < s.timeOf h →
    (s.team (teamOf h)).trapent = some e → g.stack.length < 64 →
    Completes (.waitmTimeout h) s (fun t => MemoryKept s t ∧ ∃ g', tblFind t.groups h = some g' ∧ g'.swait = .none ∧
      g'.pc = e ∧ fld g'.sr.tstat.toNat 0 8 = 0x05 ∧ g'.sr.tpc.toNat = g.pc % 2 ^ 56 ∧ g'.sregs = g.sregs)) ∧
  (∀ s g, Issuing s g → Plain s → ∀ (a b : SReg) (x : Nat),
    let c := s.coreOf s.cur
    let w := leNat ((s.core c).lread x 8)
    let sum := toS 40 w + (g.sread b).toInt
    g.log = [] → (g.sread a).toNat = 0xF0 * 2 ^ 48 + x → x % 8 = 0 → x < 2 ^ 21 → ((s.core c).bank (x / 65536)).role = .scratch →
    ((s.core c).bank (x / 65536)).team = teamOf s.cur → tblFind g.tbars g.level = none → g.sread b ≠ 0 →
    -(2 ^ 39 : Int) ≤ (g.sread b).toInt → (g.sread b).toInt < 2 ^ 39 → -(2 ^ 39 : Int) ≤ sum → sum < 2 ^ 39 →
    Completes (.tbar a b) s (fun t =>
      let u := leNat ((t.core c).lread x 8)
      toS 40 u = sum ∧ fld u 42 22 = fld w 42 22 ∧
      (∀ y, y < x ∨ x + 8 ≤ y → (t.core c).lread y 1 = (s.core c).lread y 1) ∧
      ∃ g', tblFind t.groups s.cur = some g' ∧ g'.sregs = g.sregs ∧
        (sum ≤ 0 → fld u 40 1 = 0 ∧ fld u 41 1 = 1 - fld w 41 1 ∧ g'.pc = (g.pc + 4) % 2 ^ 56) ∧
        (0 < sum → fld u 40 1 = 1 ∧ fld u 41 1 = fld w 41 1 ∧ g'.pc = g.pc ∧ t.mark = .waiting))) ∧
  (∀ s g, Issuing s g → Plain s → s.entriesFree s.cur 1 = true → ∀ (base : SReg) (ballast : Bool) (ext : BitVec 3) (p : Policy),
    Completes (.pref base ballast ext p) s (Issues s g 8 [{
      kind := .hint, pc := g.pc, addr := (g.sread base + p.offset.signExtend 64).toNat / 128 * 128, size := 128 * 2 ^ ext.toNat
      op := ballast.toNat, scope := p.scope.toNat, evict := p.evict.toNat, seq := g.seq, seen := g.sseen }])) ∧
  (∀ s h g (a : Access), tblFind s.groups h = some g → g.exited = false → (s.team (teamOf h)).life = .running → g.log = [a] →
    a.kind = .hint → a.op = 1 → a.size = 128 → a.addr % 128 = 0 → a.parked = false → a.refused = false → a.sent = false →
    s.hasLeft h a = false → g.lpush = none → g.vploads = [] →
    let d := s.homeDie (a.addr % 2 ^ 56)
    s.tripBlocked (s.dieOf h) d = false → (s.die d).choked = false → (s.core (s.coreOf h)).entryq = [] →
    Completes (.memoryAccessPerform h 0) s (fun t => t.mem = s.mem ∧
      (∃ g', tblFind t.groups h = some g' ∧ g'.log = [] ∧ g'.sregs = g.sregs ∧ g'.cells = g.cells ∧ g'.pc = g.pc) ∧
      (s.hintOk a.addr = true → (s.die d).ballast.length < 1024 → (t.die d).ballast = (s.die d).ballast ++
        [{ addr := a.addr % 2 ^ 56, len := 128, ev := a.evict, time := (s.die d).time }])))

/-- R326, R331 to R342, R346, R334, R335: what each engine command enters in its class and hands to its engine, with the
checks of its own rule passed and its class and queue not full; no byte of memory changes at issue. That an index array lies
at a multiple of 4 is the model's reading (assumption 19), and what counts as an operation of a full queue (assumption 57)
and that a descriptor may lie in the cluster window (assumption 56) are its choices. -/
def Obligations.EngineCommands : Prop :=
  ∀ s g, Issuing s g → Plain s → g.window ≤ 256 → (s.core (s.coreOf s.cur)).cache = [] →
    s.logClear s.cur g.seq g.sseen = true →
    let c := s.coreOf s.cur
    let k := s.core c
    let enters := fun (i : Instr) (n cls : Nat) (p : State → Prop) => g.outCount cls < 255 →
      Completes i s (fun t => (∀ a, t.homeRead a 1 = s.homeRead a 1) ∧
        tblFind t.groups s.cur = some ((g.advance n).enter cls s.nextId) ∧ p t)
    let sig := fun (r : Nat) => if r = 63 then none else some (g.sread (BitVec.ofNat 6 r)).toNat
    let base : CopyOp := { id := s.nextId, grp := s.cur, cls := 0, seq := g.seq, seen := g.sseen, pc := g.pc }
    (∀ (t : BitVec 4) (a b : SReg) (ctl : BitVec 32) (tile : Nat),
      let w := ctl.toNat
      let o : MmaOp := {
        id := s.nextId, grp := s.cur, quad := g.grpid % 4, tile := g.grpid % 4 * 16 + tile, ctl := w, fmt := g.sr.fmt
        scb := g.sr.scb, scsh := g.sr.scsh, aAddr := (g.sread a).toNat, bAddr := (g.sread b).toNat
        bank := if mmaB w = 0 then some (fld w 11 5) else none, release := fld w 10 1 == 1
        quartet := if mmaB w = 2 then some (g.grpid / 4) else none, pc := g.pc }
      let na := aCellCount (fmtA g.sr.fmt) (o.depth k)
      tblFind g.accmap t.toNat = some tile → s.mmaOk g o a b = true → (k.array (g.grpid % 4)).length < 16 →
      (mmaA w = 1 ∨ mmaB w = 2 → g.laneIdle = true ∧ g.empties = []) →
      enters (.mma t a b ctl) 8 1 (fun u => ∃ o', (u.core c).array (g.grpid % 4) = k.array (g.grpid % 4) ++ [o'] ∧
        o' = { o with aCells := o'.aCells, bCells := o'.bCells, dead := o'.dead } ∧
        (mmaA w = 1 → ∀ l i, l < 64 → i < na → tblGet 0 o'.aCells (l * 256 + i) = g.cell l (fld w 16 8 + i)))) ∧
    (∀ a : SReg,
      let x := (g.sread a).toNat
      let desc := k.lread x 32
      let b : Boarding := {
        id := s.nextId, grp := s.cur, key := x, desc := desc, fmt := g.sr.fmt, scb := g.sr.scb, scsh := g.sr.scsh
        ordered := fld (leNat desc) 20 1 == 1 || (fld (leNat desc) 22 1 == 1 && (s.gridOf s.cur).flags.testBit 3)
        since := k.tapTime, pc := g.pc }
      x < 2 ^ 21 → x % 32 = 0 → k.inScratch (teamOf s.cur) x 32 = true → boardOk k g (teamOf s.cur) b = true →
      k.boards.length < 64 →
      enters (.board a) 4 2 (fun u => (u.core c).boards = k.boards ++ [b] ∧
        ∀ i, i < 32 → (u.core c).bank i = (if (fld (leNat desc) 96 32).testBit i
          then { k.bank i with state := .armed, board := some s.nextId } else k.bank i))) ∧
    (∀ a : SReg, (∀ b, b ∈ k.boards → b.grp = s.cur → b.key ≠ (g.sread a).toNat) →
      Completes (.unboard a) s (Moves s 4 g)) ∧
    (∀ (a : SReg) b r, k.boards = b :: r → b.grp = s.cur → b.key = (g.sread a).toNat → b.done = false →
      (∀ x, x ∈ r → x.id ≠ b.id) →
      Completes (.unboard a) s (fun u => (u.core c).boards = r ∧ ∃ g', tblFind u.groups s.cur = some g' ∧
        g'.sregs = g.sregs ∧ g'.pc = (g.pc + 4) % 2 ^ 56)) ∧
    (∀ (d x l : SReg) (w : BitVec 32), k.copies.length < 32 →
      let dst := (g.sread d).toNat
      let src := (g.sread x).toNat
      let len := (g.sread l).toNat
      (copyWordOk w.toNat = true → len ≤ 2 ^ 40 → s.tobBanks s.cur dst len = [] →
        (dst % 2 ^ 56 + len ≤ src % 2 ^ 56 ∨ src % 2 ^ 56 + len ≤ dst % 2 ^ 56) →
        enters (.copy d x l w) 8 0 (fun u => (u.core c).copies = k.copies ++ [{ base with
          dst := dst, src := src, len := len, sig := sig (fld w.toNat 0 6), evict := fld w.toNat 9 3 }])) ∧
      (let e := 2 ^ fld w.toNat 19 3
       let idx := (g.sread (BitVec.ofNat 6 (fld w.toNat 12 6))).toNat
       copyxWordOk w.toNat = true → len < 2 ^ 32 → dst % e = 0 → src % e = 0 → idx % 4 = 0 →
        enters (.copyx d x l w) 8 0 (fun u => (u.core c).copies = k.copies ++ [{ base with
          dst := dst, src := src, len := len * e, sig := sig (fld w.toNat 0 6), evict := fld w.toNat 9 3, idx := some idx
          word := w.toNat }]))) ∧
    (∀ (l r n : SReg) (w : BitVec 32) (rank slot : Nat), rank < 2 ^ 24 → slot < 4 → k.copies.length < 32 →
      g.sread (BitVec.ofNat 6 (fld w.toNat 0 6)) = BitVec.ofNat 64 (rank + slot * 2 ^ 24) → (g.sread n).toNat < 2 ^ 32 →
      let job := fun (kind rop fmt : Nat) => ({
        id := s.nextId, grp := s.cur, kind := kind, loc := (g.sread l).toNat, rem := (g.sread r).toNat
        len := (g.sread n).toNat, rank := rank, slot := slot, rop := rop, fmt := fmt, sig := sig (fld w.toNat 6 6)
        evict := fld w.toNat 24 3, seq := g.seq, seen := g.sseen, pc := g.pc } : RemoteJob)
      let does := fun (i : Instr) (j : RemoteJob) =>
        (s.ownValid slot rank = false → enters i 8 4 (fun u => u.remotes = s.remotes ++ [j])) ∧
        (s.ownValid slot rank = true → enters i 8 4 (fun u => ∃ o, (u.core c).copies = k.copies ++ [o] ∧ o.id = s.nextId ∧
          o.len = j.len ∧ o.dst = (if j.kind = 1 then j.loc else j.rem) ∧ o.src = (if j.kind = 1 then j.rem else j.loc)))
      (remoteWordOk w.toNat = true → does (.rput l r n w) (job 0 (fld w.toNat 15 3) (fld w.toNat 18 6)) ∧
        does (.rget l r n w) (job 1 (fld w.toNat 15 3) (fld w.toNat 18 6))) ∧
      (rredWordOk w.toNat = true → (g.sread n).toNat % (fmtWidth (fld w.toNat 18 6) / 8) = 0 →
        does (.rred l r n w) (job 2 (fld w.toNat 15 3) (fld w.toNat 18 6)))) ∧
    (∀ (a : SReg) (w : BitVec 32) b j,
      let co := { collOf b s.nextId s.cur (sig (fld w.toNat 0 6)) with pc := g.pc }
      let me := j.rank - co.first
      let lim := if numAt b 20 4 = 0 then none else some (s.timeOf s.cur + 1000 * numAt b 20 4)
      (g.sread a).toNat % 64 = 0 → s.pull g (g.sread a).toNat 0 = .bytes b → collOk b = true → co.op = 2 →
      s.jobAt co.slot = some j → s.refuseCode { co with limit := lim } = none → me ≠ 0 → me ≠ co.root →
        underNode co.n me co.root = false →
      tblGet [] s.chunks co.slot = [] → (∀ x, x ∈ s.colls → x.id ≠ s.nextId) →
      enters (.coll a w) 8 3 (fun u => u.colls = s.colls ++ [{ co with
        me := me, up := true, limit := lim, job := j.job, ranks := s.servedEntries { co with me := me }, read := true }])) ∧
    (∀ (d x t : SReg) (w : BitVec 32) b b2 cmd,
      let slots := (List.range 7).map (fun i => BitVec.ofNat 64 (numAt b (8 + 8 * i) 8))
      (g.sread d).toNat % 8 = 0 → s.pull g (g.sread d).toNat 0 = .bytes b → zeroAt b 4 4 = true →
      s.armed s.cur w.toNat (numAt b 0 4) slots = some cmd → s.pullArmed g cmd = .bytes b2 → cmd.limitsOk b2 = true →
      enters (.trig d x t w) 8 cmd.cls (fun u => u.arming = s.arming ++ [{
        id := s.nextId, grp := s.cur, cls := cmd.cls, addr := (g.sread x).toNat, thr := (g.sread t).toNat, w1 := w.toNat
        w2 := numAt b 0 4, slots := slots, seq := g.seq, seen := g.sseen, bank := cmd.bank, touch := cmd.touch b2, pc := g.pc }]))

/-- R359, R44, R45, R360, R94, R96: `rgate` closes and opens a layer's gate; `pintent` records an intent, says in d whether
it did, and a job's is numbered. That a job's numbers begin at 1 is the model's reading (assumption 26), and the mean of D before
there have been 100 intervals its choice (assumption 55). -/
def Obligations.GatesAndIntents : Prop :=
  ∀ s g, Issuing s g → Plain s →
    (∀ a, (g.sread a).toNat < 2 ^ 16 → (s.gridOf s.cur).flags.testBit 1 = true →
      let gate := fun (v : Bool) (t : State) => MemoryKept s t ∧ tblFind t.groups s.cur = some (g.advance 4) ∧
        ∀ m, tblGet false t.ring.gates m = if m = (g.sread a).toNat then v else tblGet false s.ring.gates m
      Completes (.rgateClose a) s (gate false) ∧
      (g.log = [] → (s.core (s.coreOf s.cur)).cache = [] → Completes (.rgateOpen a) s (gate true))) ∧
    (∀ a e, CanTrap s g e → (s.gridOf s.cur).flags.testBit 1 = false →
      Completes (.rgateClose a) s (TakesTrap s g 0x01 0 0 0 e) ∧ Completes (.rgateOpen a) s (TakesTrap s g 0x01 0 0 0 e)) ∧
    (∀ d a b : SReg,
      let size := toS 16 (g.sread a).toNat
      let lead := (g.sread b).toNat % 2 ^ 32
      let dur := (g.sread b).toNat / 2 ^ 32
      let step := s.timeOf s.cur + 1000 * lead
      let slot := (g.sread a).toNat / 2 ^ 16 % 4
      let records := fun (job : Option (BitVec 32)) (origin seq i : Nat) (v : Word) (t : State) =>
        (∀ x, t.homeRead x 1 = s.homeRead x 1) ∧
        (∃ g', tblFind t.groups s.cur = some g' ∧ RegsBut g g' d ∧ g'.sread d = (if d = 63 then 0 else v) ∧
          g'.pc = (g.pc + 4) % 2 ^ 56) ∧
        ∃ x, tblFind t.power.intents i = some x ∧ x.size = size ∧ x.step = step ∧ x.stop = step + 1000 * dur ∧ x.job = job ∧
          x.origin = origin ∧ x.seq = seq ∧ (size < 0 → x.floor = s.power.meanD ∧ x.on = true) ∧
          (0 < size → x.floor = min s.power.pmax (s.power.meanD + 1000000 * size))
      size ≤ 3000 → -3000 ≤ size → (g.sread a).toNat / 2 ^ 18 = 0 →
      (slot = 0 → s.power.freeEntry = none → Completes (.pintentDev d a b) s (Sets s g d 1 (g.pc + 4))) ∧
      (slot = 0 → size ≠ 0 → ∀ i, s.power.freeEntry = some i → Completes (.pintentDev d a b) s (records none 0 0 i 0)) ∧
      (s.jobAt slot = none → Completes (.pintentJob d a b) s (Sets s g d 2 (g.pc + 4))) ∧
      (∀ j i, s.jobAt slot = some j → size ≠ 0 → s.power.freeEntry = some i → j.seq < 2 ^ 32 - 1 →
        Completes (.pintentJob d a b) s (fun t =>
          records (some j.job) j.rank (j.seq + 1) i (BitVec.ofNat 64 ((j.seq + 1) * 2 ^ 16)) t ∧
          t.jobAt slot = some { j with seq := j.seq + 1 })))

/-! ## Engines and the tap -/

/-- R54, R167, R170, R230, R331: the head of an array starts and turns its bank DRAINING; with its clocks paid it adds its
result, element by element, to its tile; four waiting quarters are exchanged; a landed rank issues its follow-on. The
model's readings of pairing and of follow-ons are assumption 43. -/
def Obligations.MatrixEngine : Prop :=
  ∀ s core quad,
    let k := s.core core
    (∀ o rest, k.array quad = o :: rest → o.started = false → o.alone = false → (o.quartet = none ∨ o.quarters ≠ []) →
      Completes (.mmaArrayStart core quad) s (fun t => (∀ a, t.homeRead a 1 = s.homeRead a 1) ∧ t.groups = s.groups ∧
        (t.core core).array quad = { o with started := true, clocks := o.streamClocks k } :: rest ∧
        (∀ b, o.bank = some b → (k.bank b).state = .full → ((t.core core).bank b).state = .draining))) ∧
    (∀ o rest g, k.array quad = o :: rest → o.started = true → o.clocks = 0 → o.alone = false → o.quad = quad →
      o.sneed = 0 → k.follow = [] → tblFind s.groups o.grp = some g → g.exited = false →
      (∀ a, a ∈ s.scaleReads core o → (∃ v, s.scaleByte o a = .ok v) ∧
        s.rangeWaits o.grp core false a 1 = false ∧ s.farEnd o.grp (64 * (a / 64)) = none) →
      Completes (.mmaResultAdd core quad) s (fun t =>
        let depth := o.depth k
        (t.core core).array quad = rest ∧ ((t.core core).tile o.tile).pending = (k.tile o.tile).pending.filter (· != o.id) ∧
        (∀ x, x < 4096 → tblGet 0 ((t.core core).tile o.tile).data x = s.mmaElem core o depth (x / 128) (x % 128)
          (if mmaZero o.ctl then 0 else tblGet 0 (k.tile o.tile).data x)) ∧
        ((t.core core).tile o.tile).poison = (s.mmaPoison core o || ((k.tile o.tile).poison && !mmaZero o.ctl)) ∧
        ∃ g', tblFind t.groups o.grp = some g' ∧ g'.sregs = g.sregs ∧ g'.cells = g.cells ∧ g'.pc = g.pc)) ∧
    (∀ team q o0 o1 o2 o3, (s.team team).core = core →
      (∀ i, i < 4 → (tblFind s.groups (128 * team + 4 * q + i)).isSome = true) →
      k.waitingQuarter (128 * team + 4 * q) = some o0 → k.waitingQuarter (128 * team + 4 * q + 1) = some o1 →
      k.waitingQuarter (128 * team + 4 * q + 2) = some o2 → k.waitingQuarter (128 * team + 4 * q + 3) = some o3 →
      Completes (.quartetPairing team q) s (fun t => t.groups = s.groups ∧
        ∀ x, x ∈ (t.core core).arrays.flatMap (·.2) → (x.id = o0.id ∨ x.id = o1.id ∨ x.id = o2.id ∨ x.id = o3.id) →
          x.quarters = [o0.bCells, o1.bCells, o2.bCells, o3.bCells])) ∧
    (∀ b g j n, k.boards.find? (·.id == b.id) = some b → tblFind s.groups b.grp = some g → b.follow = true →
      (s.team (teamOf b.grp)).life = .running → b.nextFollow = some (j, n) → g.outCount 1 < 255 → k.follow.length < 32 →
      k.inScratch (teamOf b.grp) (b.op g s.nextId j n).aAddr
        (aBytes (fmtA b.fmt) ((b.op g s.nextId j n).depth k)) = true →
      Completes (.followOnIssue core b.id) s (fun t => (∀ a, t.homeRead a 1 = s.homeRead a 1) ∧
        ∃ g', tblFind t.groups b.grp = some g' ∧ g'.outCount 1 = g.outCount 1 + 1 ∧ g'.sregs = g.sregs ∧ g'.pc = g.pc))

/-- R173, R326, R338, R346 to R348: a copy asks for its chunk and, paid, moves it; done, it retires; an armed command waits
at its counter or fires at once; a fired copy, or a remote operation, enters its engine. That the bytes of a chunk move
together, in one step, is the model's choice (assumption 50); when a fired command enters is its reading (assumption 24),
with what counts in the engine's room (assumption 57). -/
def Obligations.CopyEngine : Prop :=
  (∀ s core i o, i < 8 → (s.core core).copies[i]? = some o → s.copyReady o = true → o.paid = false →
    (∀ x, x ∈ (s.core core).copies → x.asking = false) →
    (∀ x, x ∈ (s.core core).copies.take i → s.copyReady x = false ∨ x.paid = true) →
    Completes (.copyChunk core i) s (fun t => (∀ a, t.homeRead a 1 = s.homeRead a 1) ∧ t.groups = s.groups ∧
      (t.core core).reqs = (s.core core).reqs ++
        [{ port := 12, amount := s.price (0x21 * 256), grp := o.grp, since := s.clock }] ∧
      (t.core core).copies = (s.core core).copies.map (fun x => if x.id == o.id then { x with asking := true } else x))) ∧
  (∀ s core i o b p b' p', i < 8 → (s.core core).copies[i]? = some o → s.copyReady o = true → o.paid = true → o.phase = 2 →
    o.idx = none → o.red = none → o.tob = none → o.sig = none → o.bad = false → (s.core core).cache = [] → s.arms = [] →
    s.coreOf o.grp = core →
    let n := min (o.len - o.done) (4096 - (o.dst + o.done) % 4096)
    InHbm s (dieOfCore core) (o.src + o.done) n 0 b p → InHbm s (dieOfCore core) (o.dst + o.done) n 1 b' p' → s.homePoison (o.src + o.done) n = false →
    Completes (.copyChunk core i) s (fun t => t.groups = s.groups ∧
      t.homeRead (o.dst + o.done) n = s.homeRead (o.src + o.done) n ∧
      (∀ a, a < o.dst + o.done ∨ o.dst + o.done + n ≤ a → t.homeRead a 1 = s.homeRead a 1))) ∧
  (∀ s core i o g, i < 8 → (s.core core).copies[i]? = some o → o.len ≤ o.done → o.acks = 0 → o.need = 0 → o.signed = false →
    o.sig = none → o.tob = none → o.pkt = none → s.logClear o.grp o.seq o.seen = true → tblFind s.groups o.grp = some g →
    g.exited = false →
    Completes (.copyComplete core i) s (fun t => (∀ a, t.homeRead a 1 = s.homeRead a 1) ∧
      (t.core core).copies = (s.core core).copies.filter (fun x => x.id != o.id) ∧
      tblFind t.groups o.grp = some (g.complete o.cls o.id))) ∧
  (∀ s die a b p, s.arming.find? (fun y => s.homeDie (y.addr % 2 ^ 56) == die) = some a → s.gridOver a.grp = false →
    a.addr < 2 ^ 56 → a.addr % 8 = 0 → pageAt s.pages a.addr = some (b, p) → p.kind = .hbm → p.backed = true →
    p.move = .none → s.tripBlocked (s.dieOf a.grp) die = false → s.teamGone (teamOf a.grp) = false → a.bank = none → s.armsAt die < 4096 → tblFind s.arms a.addr = none →
    let v := leNat (s.homeRead a.addr 8)
    Completes (.triggerArm die) s (fun t => (∀ x, t.homeRead x 1 = s.homeRead x 1) ∧ t.groups = s.groups ∧
      t.arming = s.arming.filter (fun y => y.id != a.id) ∧
      (v < a.thr → tblFind t.arms a.addr = some [a] ∧ ∀ d, tblGet [] t.fired d = tblGet [] s.fired d) ∧
      (a.thr ≤ v → tblFind t.arms a.addr = none ∧ tblGet [] t.fired die = tblGet [] s.fired die ++ [{ a with when := s.turnNo }]))) ∧
  (∀ s die a rest, tblRising s.fired = true → tblGet [] s.fired die = a :: rest → (∀ x, x ∈ rest → x.id ≠ a.id) →
    (∀ e, e ∈ s.fired → e.1 ≠ die → ∀ x, x ∈ e.2 → a.when ≤ x.when) → s.entryOf a = true →
    (∀ j, s.armed a.grp a.w1 a.w2 a.slots = some (.remote j) → s.ownValid j.slot j.rank = false →
      Completes (.firedCommandEntry die) s (fun t => tblGet [] t.fired die = rest ∧ t.groups = s.groups ∧
        t.remotes = s.remotes ++ [{ j with id := a.id, seq := a.seq, seen := a.seen, pc := a.pc }])) ∧
    (∀ o, s.armed a.grp a.w1 a.w2 a.slots = some (.copy o) → a.bank = none → o.tob = none →
      Completes (.firedCommandEntry die) s (fun t => tblGet [] t.fired die = rest ∧ t.groups = s.groups ∧
        (t.core (s.coreOf a.grp)).copies = (s.core (s.coreOf a.grp)).copies ++
          [{ o with id := a.id, seq := a.seq, seen := a.seen, pc := a.pc }])))

/-- R42 to R54, R47, R48, R92: a station reads its next tile and injects its slot, a gap octet, or a closed tile; a tap
takes a slot's position; a capture lands its tile in its bank; a new gap rate is chosen, announced and takes force at its
frame boundary. That gap rates are judged at die 0's octet is the model's reading (assumption 26). -/
def Obligations.Cornice : Prop :=
  (∀ s die lap im q e t, s.firm.up = true → 0 < s.injections die → s.ahead die 0 = (lap, im, q) → im.slot die q = some (e, t) →
    tblFind (s.die die).station.reads (readKey lap q) = none →
    Completes (.stationReadIssue die) s (fun u => (∀ a, u.homeRead a 1 = s.homeRead a 1) ∧ u.groups = s.groups ∧
      tblFind (u.die die).station.reads (readKey lap q) = some {
        addr := e.vbase + 36864 * t, layer := e.layer
        epoch := tblGet 0 s.ring.changes e.layer, bytes := s.homeRead (e.vbase + 36864 * t) 34816
        bad := s.homePoison (e.vbase + 36864 * t) 34816 })) ∧
  (∀ s die lap im q, s.injectionDue die = true → s.ahead die 0 = (lap, im, q) →
    let st := (s.die die).station
    let key := 8 * st.octet + ringOrd die
    let gap := gapOctet (s.ring.gapsAt st.octet) (st.octet % 64)
    let injects := fun (x : Slot) => Completes (.slotInjection die) s (fun t => t.groups = s.groups ∧
      tblFind t.ring.slots key = some x ∧ (t.die die).station.octet = st.octet + 1)
    (gap = true → injects { kind := 3 }) ∧
    (gap = false → im.slot die q = none → injects { kind := 0, pos := 8 * q + ringOrd die, lap := lap }) ∧
    (∀ e t, gap = false → im.slot die q = some (e, t) →
      let carries : Slot := { die := die, phase := e.phase, layer := e.layer, tile := e.first + t, fmt := e.fmt
                              pos := 8 * q + ringOrd die, lap := lap }
      (tblGet false s.ring.gates e.layer = false → injects { carries with kind := 2 }) ∧
      (∀ r, tblGet false s.ring.gates e.layer = true → tblFind st.reads (readKey lap q) = some r →
        r.addr = e.vbase + 36864 * t → r.layer = e.layer → r.epoch = tblGet 0 s.ring.changes e.layer →
        injects { carries with
          kind := 1, bad := r.bad, sclen := scaleBytes e.fmt / 64, payload := r.bytes.take (payloadBytes e.fmt)
          scales := (r.bytes.drop 32768).take 2048 }))) ∧
  (∀ s core noise key x, s.firm.up = true → core < 320 → (s.core core).boards = [] → s.tapDue core = true →
    slotKey (ringOrd (dieOfCore core)) (s.core core).tapTime = some key → tblFind s.ring.slots key = some x →
    let beat := disturb 0 noise x.beat0
    let y := slotOfHeader (bytesAt beat 0 64)
    Completes (.tapSlotArrival core noise) s (fun t => t.groups = s.groups ∧
      (t.core core).tapTime = (s.core core).tapTime + 1 ∧
      (t.core core).ringpos = (s.core core).posNext.getD (s.core core).ringpos ∧
      (headerGood beat = true → y.kind ≤ 4 → y.kind ≠ 3 →
        (t.core core).posNext = some (BitVec.ofNat 64 (y.pos + y.lap % 2 ^ 32 * 2 ^ 32))) ∧
      (headerGood beat = false → (t.core core).posNext = none ∧
        (s.mailOpen (dieOfCore core) 6 = true → (s.die (dieOfCore core)).notes = [] →
          (tblGet [] t.firm.mail 6).length = (tblGet [] s.firm.mail 6).length + 1)))) ∧
  (∀ s core f rest b, (s.core core).fills = f :: rest → f.corrupt = false → f.payload.length = 32768 →
    f.scales.length = 2048 → f.header.length = 64 →
    (s.core core).boards.find? (fun b => b.id == f.board && !b.off) = some b →
    Completes (.captureComplete core) s (fun t => (∀ a, t.homeRead a 1 = s.homeRead a 1) ∧ (t.core core).fills = rest ∧
      ((t.core core).bank f.bank).state = .full ∧ (t.core core).lread (65536 * f.bank) 32768 = f.payload ∧
      (t.core core).lread (65536 * f.bank + 32768) 2048 = f.scales ∧
      (t.core core).lread (65536 * f.bank + 34816) 64 = f.header)) ∧
  (∀ s, 10 ≤ s.power.count → s.ring.chosen = none → s.ring.next = none →
    let sum := s.power.shist.foldl (· + ·) 0
    let g := min (fld s.power.flcfg.toNat 51 6) (64 * sum / 6400000)
    Completes .gapChoice s (fun t => t.groups = s.groups ∧ t.power.count = 0 ∧
      (6400000 ≤ 16 * sum → g ≠ s.ring.gapsAt (s.die 0).station.octet → t.ring.chosen = some g))) ∧
  (∀ s g, s.ring.chosen = some g → Completes .gapAnnouncement s (fun t => t.groups = s.groups ∧
    t.ring.next = some (g, (s.die 0).station.octet) ∧ t.ring.chosen = none)) ∧
  (∀ s g ann, s.ring.next = some (g, ann) → gapBoundary ann ≤ (s.die 0).station.octet →
    Completes .gapRateChange s (fun t => t.groups = s.groups ∧ t.ring.next = none ∧
      ∀ n, gapBoundary ann ≤ n → t.ring.gapsAt n = g))

/-! ## Tokens and power -/

/-- R78 to R82, R89, R90, R93, R99: buckets grant what they hold and no more, quanta arrive after their delay and never fill
a bucket past its size, the package bucket gains P times c less the static charge, and CHARGE has its hysteresis. That a die
grants a quantum only while it holds the whole of it, but to a PROMPT team's core while it holds anything, is the model's
reading (assumption 17), and how FRAC is scaled is its choice (assumption 55). -/
def Obligations.Tokens : Prop :=
  (∀ s core r g, s.firm.up = true → (s.core core).reqs = [r] → r.port < 4 → isDispatcher r.grp = false →
    tblFind s.groups r.grp = some g →
    ((r.amount : Int) ≤ (s.core core).bucket → Completes (.coreBucketGrant core) s (fun t =>
      (t.core core).bucket = (s.core core).bucket - r.amount ∧ (t.core core).reqs = [] ∧
      tblFind t.groups r.grp = some { g with
        sgrant := true, sr := { g.sr with tkused := g.sr.tkused + BitVec.ofNat 64 r.amount } })) ∧
    ((s.core core).bucket < r.amount → Completes (.coreBucketGrant core) s (fun t =>
      t.groups = s.groups ∧ t.core core = s.core core))) ∧
  (∀ s die i rest, s.firm.up = true → s.coreAsks die = i :: rest → (4096 ≤ (s.die die).bucket ∨
      s.promptCore (40 * die + i) = true ∧ 0 < (s.die die).bucket) →
    Completes (.coreRefillGrant die) s (fun t => (t.die die).bucket = (s.die die).bucket - 4096 ∧
      (t.core (40 * die + i)).flight = (s.core (40 * die + i)).flight ++ [s.clock + 4])) ∧
  (∀ s core t0 rest, (s.core core).flight = t0 :: rest → t0 ≤ s.clock →
    Completes (.coreRefillArrival core) s (fun t => (t.core core).bucket = min 16384 ((s.core core).bucket + 4096) ∧
      (t.core core).flight = rest)) ∧
  (∀ s d rest, s.firm.up = true → 65536 * 10 ^ 12 ≤ s.power.pkg → s.dieAsks = d :: rest →
    Completes .dieRefillGrant s (fun t => t.power.pkg = s.power.pkg - 65536 * 10 ^ 12 ∧
      (t.die d).flight = (s.die d).flight ++ [s.clock + 16])) ∧
  (∀ s die t0 rest, (s.die die).flight = t0 :: rest → t0 ≤ s.clock →
    Completes (.dieRefillArrival die) s (fun t => (t.die die).bucket = min 1048576 ((s.die die).bucket + 65536) ∧
      (t.die die).flight = rest ∧ (-524288 < (t.die die).bucket → (t.die die).choked = false))) ∧
  (∀ s, s.firm.up = true → Completes .packageBucketFill s (fun t => t.clock = s.clock + 1 ∧ t.power.pkg =
    min (s.power.pkg + s.power.p * s.power.cal * 500 - s.power.leak * (5 * 10 ^ 8)) (16777216 * 10 ^ 12))) ∧
  (∀ s c w, (800000 ≤ c → c ≤ 1250000 → Completes (.calibrationUpdate c w) s (fun t =>
      t = { s with power := { s.power with cal := c, leak := w } })) ∧
    ((c < 800000 ∨ 1250000 < c) → Completes (.calibrationUpdate c w) s (fun t => t = s))) ∧
  (∀ s die x, x < 2 ^ 24 → Completes (.chargeUpdate die x) s (fun t =>
    let f := min 0xFFFF (x * 65536 / 120000)
    let old := (s.die die).charge.state
    (t.die die).charge.stored = x ∧ (t.die die).charge.frac = f ∧
    (f < 0x4000 → (t.die die).charge.state = 2) ∧ (0xC000 ≤ f → (t.die die).charge.state = 0) ∧
    (0x4000 ≤ f → f < 0xC000 → (old = 2 ∨ old = 3) → (t.die die).charge.state = 3) ∧
    (0x4000 ≤ f → f < 0x8000 → old ≠ 2 → old ≠ 3 → (t.die die).charge.state = 1) ∧
    (0x8000 ≤ f → f < 0xC000 → old ≠ 2 → old ≠ 3 → (t.die die).charge.state = 0))) ∧
  (∀ s die, s.firm.up = true → (s.die die).coatAt < s.clock → 524288 < (s.die die).bucket → s.coreAsks die = [] →
    (s.die die).ballast = [] → 2000 ≤ (s.die die).coatRate →
    Completes (.undercoatDraw die) s (fun t =>
      let n := min ((s.die die).coatRate / 2000).toNat (20000 + 600 * s.idleArrays die)
      (t.die die).bucket = (s.die die).bucket - n ∧ t.power.coat = s.power.coat + n ∧ t.groups = s.groups)) ∧
  (∀ s die, Completes (.ballastExpiry die) s (fun t => t.groups = s.groups ∧
    ∀ b, b ∈ (t.die die).ballast ↔ b ∈ (s.die die).ballast ∧ (s.die die).time < b.time + 10000000))

/-- R83 to R85, R88, R94 to R97: an interval moves P and PS no faster than their slopes and starts the next; a received
intent is recorded and remembered once; floors start, end and are forgotten; a temperature limit only lowers PMAX; a loss of
power stops issue. That the timers run on die 0's TIME is the model's reading (assumption 26), and the cause of a loss of power, that
is, whether the always-on domain keeps its supply, is a free value (assumption 5). -/
def Obligations.Power : Prop :=
  (∀ s, s.firm.up = true → s.power.due ≤ (s.die 0).time → Completes .floatInterval s (fun t =>
    let sf := 1000000 * (fld s.power.flcfg.toNat 24 6 : Int)
    t.groups = s.groups ∧ (∀ a, t.homeRead a 1 = s.homeRead a 1) ∧ t.power.due = s.power.due + 1000 ∧ t.power.granted = 0 ∧
    s.power.p - sf ≤ t.power.p ∧ t.power.p ≤ s.power.p + sf ∧
    ((s.die 0).charge.state = 2 → t.power.p ≤ s.power.p) ∧
    s.power.ps - 100 * (fld s.power.flcfg.toNat 30 12 : Int) ≤ t.power.ps ∧
    t.power.ps ≤ s.power.ps + 100 * (fld s.power.flcfg.toNat 30 12 : Int))) ∧
  (∀ s port bytes slot j i, s.slotOf (BitVec.ofNat 32 (numAt bytes 4 4)) = some slot → s.jobAt slot = some j →
    intentOk bytes j.key = true → s.power.freeEntry = some i → toS 16 (numAt bytes 16 2) ≠ 0 →
    let origin := numAt bytes 8 3
    let seq := numAt bytes 12 4
    (s.power.pairs.any (fun p => p.job == j.job && p.origin == origin && p.seq == seq) = true →
      Completes (.intentFrameReceive port bytes) s (fun t => t.groups = s.groups ∧ t.power.intents = s.power.intents ∧
        t.power.pairs = s.power.pairs ∧ t.out = s.out)) ∧
    (s.power.pairs.any (fun p => p.job == j.job && p.origin == origin && p.seq == seq) = false →
      Completes (.intentFrameReceive port bytes) s (fun t => t.groups = s.groups ∧
        (∃ x, tblFind t.power.intents i = some x ∧ x.size = toS 16 (numAt bytes 16 2) ∧ x.job = some j.job ∧
          x.origin = origin ∧ x.seq = seq ∧
          x.step = (s.die 0).time + numAt bytes 20 4 + numAt bytes 28 4 * 2 ^ 32) ∧
        t.power.pairs.any (fun p => p.job == j.job && p.origin == origin && p.seq == seq) = true))) ∧
  (∀ s i x, tblFind s.power.intents i = some x →
    (x.start ≤ (s.die 0).time → Completes (.rampStart i) s (fun t => t = { s with power := t.power } ∧
      tblFind t.power.intents i = some { x with on := true })) ∧
    (x.stop ≤ (s.die 0).time → Completes (.intentFloorEnd i) s (fun t => t = { s with power := t.power } ∧
      tblFind t.power.intents i = none))) ∧
  (∀ s i x, s.power.pairs[i]? = some x → x.stop + 1000000000 ≤ (s.die 0).time → Completes (.intentPairForget i) s (fun t =>
    t = { s with power := t.power } ∧ t.power.pairs = s.power.pairs.eraseIdx i)) ∧
  (∀ s n, Completes (.temperatureOverLimit n) s (fun t => t = { s with power := t.power } ∧
    ∃ m, t.power.limit = some m ∧ m ≤ n ∧ ∀ x, s.power.limit = some x → m = min x n)) ∧
  (∀ s, s.firm.powered = true → s.grids = [] → (tblGet [] s.firm.mail 6).length < 64 → (s.die 0).notes = [] →
    Completes .powerLoss s (fun t => t.groups = s.groups ∧
      t.mem = s.mem ∧ t.firm.up = false ∧ t.firm.powered = (Config.freeValue s.freeNo).getLsbD 0 ∧
      ∃ r, tblGet [] t.firm.mail 6 = tblGet [] s.firm.mail 6 ++ [.error 0 r] ∧ r.cause = 0x1A))

/-! ## Memory of the package -/

/-- R188, R191 to R193, R250, R251: an access to an unbacked page is parked until its page is backed; a page is copied to
its new home, its old backing freed, and refused accesses go on; a marked granule is poisoned. -/
def Obligations.Paging : Prop :=
  (∀ s h g (a : Access) i, tblFind s.groups h = some g → g.log[i]? = some a → a.bare = false → a.rank = none →
    a.parked = false → a.refused = false → a.sent = false → (s.team (teamOf h)).life = .running → s.inTwin h = false →
    s.eligible h a = true → a.aligned = true → s.firstFault h a = none →
      s.unbacked h a.addr a.size = true →
    Completes (.pageWalkComplete h i) s (fun t => (∀ x, t.homeRead x 1 = s.homeRead x 1) ∧
      ∃ g', tblFind t.groups h = some g' ∧ g'.sregs = g.sregs ∧
        g'.log = g.log.map (fun x => if x.id == a.id then { x with parked := true, behind := true } else x))) ∧
  (∀ s b p, tblFind s.pages b = some p → p.backed = false → p.wanted = true →
    (∀ d, s.backingDie p.home p.size = some d → Completes (.onDemandBacking b) s (fun t => t.mem = s.mem ∧
      tblFind t.pages b = some { p with backed := true, wanted := false, waits := [], failed := [], home := d } ∧
      ∀ x, x ≠ b → tblFind t.pages x = tblFind s.pages x)) ∧
    (∀ h g (a : Access), s.backingDie p.home p.size = none → s.parkedOn b = [(h, a)] → tblFind s.groups h = some g → g.exited = false →
      (s.team (teamOf h)).life = .running → (tblFind s.teams (teamOf h)).isSome = true → (s.team (teamOf h)).report = none →
      (s.team (teamOf h)).heir = none →
      Completes (.onDemandBacking b) s (fun t => t.mem = s.mem ∧
        tblFind t.pages b = some { p with wanted := false, waits := [], failed := p.waits } ∧
        (t.team (teamOf h)).report.map (fun r => (r.cause, r.addr)) = some (0x10, a.addr % 2 ^ 56)))) ∧
  (∀ s b p, tblFind s.pages b = some p → p.move = .moving → s.lapPage b p = false → (s.die p.home).choked = false →
    (s.die p.newHome).choked = false → s.tripBlocked p.home p.newHome = false → Completes (.migrationCopy b) s (fun t => t.mem = s.mem ∧
    t.groups = s.groups ∧ ∃ p', tblFind t.pages b = some p' ∧ p'.home = p.newHome ∧ p'.move = .copied ∧
      p'.perm = p.perm ∧ p'.kind = p.kind ∧ p'.size = p.size)) ∧
  (∀ s b p, tblFind s.pages b = some p → p.move = .copied → p.movedAt + 1000000 ≤ (s.die 0).time →
    Completes (.migrationBackingFree b) s (fun t => t = { s with pages := t.pages } ∧
      tblFind t.pages b = some { p with move := .none } ∧ ∀ x, x ≠ b → tblFind t.pages x = tblFind s.pages x)) ∧
  (∀ s, s.firm.up = true → tblRising s.pages = true → s.firm.reviewed + 1000000 ≤ (s.die 0).time →
    Completes .migrationReview s (fun t =>
    t.mem = s.mem ∧ t.groups = s.groups ∧ t.firm.reviewed = (s.die 0).time ∧
    ∀ b p, tblFind s.pages b = some p → s.candidate b p = none → tblFind t.pages b =
      some { p with counts := p.counts.map (fun c => (c.1, c.2 / 2)) })) ∧
  (∀ s h g (a : Access) i, tblFind s.groups h = some g → g.log[i]? = some a → a.refused = true → s.logAway h = false →
    s.isRefused h a = false → Completes (.refusedAccessResend h i) s (fun t => t = { s with groups := t.groups } ∧
      ∃ g', tblFind t.groups h = some g' ∧
        g'.log = g.log.map (fun x => if x.id == a.id then { x with refused := false } else x))) ∧
  (∀ s a c h g l i, tblFind s.groups h = some g → (tblFind s.teams (teamOf h)).isSome = true →
    (s.team (teamOf h)).report = none → (s.team (teamOf h)).heir = none → a < 2 ^ 56 →
    Completes (.uncorrectableError (.granule a)) s (fun t => t.mem = s.mem ∧ t.homePoison a 1 = true) ∧
    Completes (.uncorrectableError (.localGranule c a)) s (fun t => (t.core c).lpoisoned (a % 2 ^ 21) 1 = true ∧
      (t.core c).store = (s.core c).store) ∧
    Completes (.uncorrectableError (.groupState h)) s (Reported { s with cur := h } 0x17) ∧
    Completes (.uncorrectableError (.cell h l i)) s (fun t => ∃ g', tblFind t.groups h = some g' ∧
      cellKey l i ∈ g'.errs ∧ g'.cells = g.cells))

/-! ## The package's links and its ends -/

/-- R102 to R105, R109, R341: a served request writes, reads, adds, swaps, increments or kicks where its key and page allow
it and is answered; elsewhere it is refused and changes no byte. That a request is performed whole in the step that receives
it is the model's reading (assumption 25), and the rate after a congestion notification its choice (assumption 54). -/
def Obligations.RemoteRequests : Prop :=
  ∀ s port qp rkey addr b p, s.serves port qp = true → s.arms = [] → pageAt s.pages addr = some (b, p) →
    let answers := fun (t : State) (k : MsgKind) (bytes : List Byte) => ∃ m, t.out = s.out ++ [m] ∧ m.kind = k ∧
      m.port = port ∧ m.qp = qp ∧ m.bytes = bytes
    let others := fun (t : State) (n : Nat) => ∀ a, a < addr ∨ addr + n ≤ a → t.homeRead a 1 = s.homeRead a 1
    (∀ data, (p.kind = .hbm ∨ p.kind = .scratch) →
      (s.regionOk port rkey .write addr data.length = true → s.portWaits port qp true addr data.length = false →
        Completes (.rdmaWriteReceive port qp rkey addr (some data) []) s (fun t => answers t .ack [] ∧
          t.homeRead addr data.length = data ∧ others t data.length ∧ t.groups = s.groups)) ∧
      (s.regionOk port rkey .write addr data.length = false →
        Completes (.rdmaWriteReceive port qp rkey addr (some data) []) s (fun t => answers t .nak [] ∧ t.mem = s.mem ∧
          t.groups = s.groups)) ∧
      Completes (.rdmaWriteReceive port qp rkey addr none []) s (fun t => answers t .nak [] ∧ t.mem = s.mem ∧
        t.groups = s.groups ∧ (tblGet {} t.qps (qpKey port qp)).err = true)) ∧
    (∀ len, (p.kind = .hbm ∨ p.kind = .scratch) → s.regionOk port rkey .read addr len = true → s.poison = [] →
      s.portWaits port qp false addr len = false →
      Completes (.rdmaReadReceive port qp rkey addr len) s (fun t => answers t .readData (s.homeRead addr len) ∧
        t.mem = s.mem)) ∧
    (∀ (v w : Word), (p.kind = .hbm ∨ p.kind = .scratch) → s.regionOk port rkey .atomic addr 8 = true → addr % 8 = 0 →
      s.poison = [] → s.portWaits port qp true addr 8 = false →
      let old := leNat (s.homeRead addr 8)
      Completes (.atomicReceive port qp rkey addr false v w) s (fun t => answers t .ack (s.homeRead addr 8) ∧
        t.homeRead addr 8 = leBytes 8 ((old + v.toNat) % 2 ^ 64) ∧ others t 8) ∧
      Completes (.atomicReceive port qp rkey addr true v w) s (fun t => answers t .ack (s.homeRead addr 8) ∧
        t.homeRead addr 8 = (if old = w.toNat then leBytes 8 v.toNat else s.homeRead addr 8) ∧ others t 8) ∧
      (∀ imm, s.peerPair port qp = true → Completes (.rdmaWriteImmediateReceive port qp rkey addr imm 0) s (fun t =>
        answers t .ack [] ∧ t.homeRead addr 8 = leBytes 8 ((old + imm.toNat) % 2 ^ 64) ∧ others t 8))) ∧
    (p.kind = .kick → s.routeDown port p.home = false → ∀ v : Word,
      (addr % 8 = 0 → s.portWaits port qp true addr 8 = false → Completes (.kickRegisterWrite port qp addr 8 v) s (fun t => answers t .ack [] ∧ t.mem = s.mem ∧
        t.queues = (s.kickAt addr v.toNat).queues)) ∧
      (∀ n, n ≠ 8 → s.portWaits port qp true addr n = false → Completes (.kickRegisterWrite port qp addr n v) s (fun t => answers t .ack [] ∧
        t.queues = s.queues))) ∧
    (∀ rate, Completes (.cnpReceive port qp rate) s (fun t => t = { s with qps := t.qps } ∧
      (s.sendRate port qp = none → (tblGet {} t.qps (qpKey port qp)).rate = some rate) ∧
      ∀ r, s.sendRate port qp = some r → (tblGet {} t.qps (qpKey port qp)).rate = some (min rate (r - 1)))) ∧
    (∀ bytes, s.peerPair port qp = true → reduceOk bytes = true →
      (s.slotOf (BitVec.ofNat 32 (numAt bytes 4 4))).isSome = true → numAt bytes 8 8 = addr → numAt bytes 16 2 = 1 →
      numAt bytes 3 1 = 6 → numAt bytes 2 1 = 0 → addr % 4 = 0 → s.reduceTarget port addr 4 = true →
      s.portWaits port qp true addr 4 = false →
      Completes (.remoteReduceReceive port qp bytes) s (fun t => answers t .ack [] ∧ others t 4 ∧
        t.homeRead addr 4 = leBytes 4 ((leNat (s.homeRead addr 4) + numAt bytes 40 4) % 2 ^ 32)))

/-- R105, R326, R339, R343 to R345, R417: an answered request is done with; a remote operation answered and signed retires;
a chunk whose collective has not begun is held, and held chunks are discarded after 100 ms; a collective past its limit
ends. The model's readings of collectives are assumption 23. -/
def Obligations.RemoteOperations : Prop :=
  (∀ s port qp r, s.remote.find? (fun x => x.port == port && x.qp == qp) = some r → ∀ ok data poison,
    (r.use = .plain → r.core = none → Completes (.roceAcknowledgementReceive port qp ok data poison) s (fun t =>
      t.remote = s.remote.filter (fun x => x.id != r.id) ∧ t.groups = s.groups ∧ t.mem = s.mem)) ∧
    (∀ h g a d, r.use = .access h [a] → ok = true → tblFind s.groups h = some g → g.log = [a] → g.held = [] → g.extra = [] →
      a.kind = .load → a.ord = 0 →
      a.dest = .reg d false → d < 63 → poison = [] → data.length = a.size → a.size ≤ 8 → g.lpush = none → g.vploads = [] →
      Completes (.roceAcknowledgementReceive port qp ok data poison) s (fun t => t.mem = s.mem ∧
        ∃ g', tblFind t.groups h = some g' ∧ g'.log = [] ∧ g'.swait = .none ∧ g'.pc = g.pc ∧
          g'.sread (BitVec.ofNat 6 d) = BitVec.ofNat 64 (leNat data)))) ∧
  (∀ s op j g, s.remotes.find? (·.id == op) = some j → j.sent = true → j.got = none → j.need = 0 → j.signed = true → tblFind s.groups j.grp = some g →
    g.exited = false → Completes (.remoteOperationComplete op) s (fun t => t.mem = s.mem ∧
      t.remotes = s.remotes.filter (fun x => x.id != j.id) ∧ tblFind t.groups j.grp = some (g.complete 4 j.id))) ∧
  (∀ s port qp bytes slot, s.serves port qp = true →
    (s.peerPair port qp = false → Completes (.collectiveChunkReceive port qp bytes) s (fun t => t.colls = s.colls ∧
      t.chunks = s.chunks ∧ t.mem = s.mem ∧ (tblGet {} t.qps (qpKey port qp)).err = true)) ∧
    (s.peerPair port qp = true → s.slotOf (BitVec.ofNat 32 (numAt bytes 4 4)) = some slot →
      (∀ k, k ∈ s.colls → k.slot = slot → k.tag ≠ numAt bytes 8 4) → numAt bytes 8 4 ∉ tblGet [] s.ended slot →
      (tblGet [] s.chunks slot).length < 1024 →
      Completes (.collectiveChunkReceive port qp bytes) s (fun t => t.colls = s.colls ∧ t.mem = s.mem ∧
        tblGet [] t.chunks slot = tblGet [] s.chunks slot ++ [{ bytes := bytes, port := port, time := (s.die 0).time }]))) ∧
  (∀ s slot, Completes (.heldChunkDiscard slot) s (fun t => t.mem = s.mem ∧ t.groups = s.groups ∧
    tblGet [] t.chunks slot = (tblGet [] s.chunks slot).filter (fun c =>
      !decide (c.time + 100000000 ≤ (s.die 0).time)))) ∧
  (∀ s i k x g, s.colls[i]? = some k → s.colls.find? (·.id == k.id) = some k → k.limit = some x → k.needs ≠ [] → k.fin = false →
    k.closing = false → x ≤ s.timeOf k.grp → k.status = 0 → k.sig = none → k.wrote = false → k.writes = 0 → tblFind s.groups k.grp = some g → g.exited = false → Completes (.collectiveTimeout i) s (fun t =>
      (∀ a, t.homeRead a 1 = s.homeRead a 1) ∧ (∀ y, y ∈ t.colls → y.id ≠ k.id) ∧ k.tag ∈ tblGet [] t.ended k.slot ∧
      ∃ g', tblFind t.groups k.grp = some g' ∧ g' = g.complete 3 k.id))

/-- R12, R14 to R16, R20, R22, R25: TIME advances, is sent and received with the forward rule; a good flit is delivered and
a bad one asked for again; a replay sends the flits again; a link that keeps failing goes down and stops the device; a frame
reaches its die. That nine failures take a link down is the model's reading (assumption 33), and what a message leaves in
receive buffers and that a frame is kept at its die its choices (assumption 44); how many flits have left a buffer is a free
value (assumption 5), and the transit time of a link a value of the implementation (assumption 10). -/
def Obligations.LinksAndTime : Prop :=
  (∀ s d, d < 8 → (s.die d).slew = false → Completes (.timeIncrement d) s (fun t => t.groups = s.groups ∧ t.mem = s.mem ∧
    (t.die d).time = ((s.die d).time + 1) % 2 ^ 64 ∧ ∀ e, e ≠ d → (t.die e).time = (s.die e).time)) ∧
  (∀ s, ((s.die 0).time < (s.die 0).synced + 1024 → Completes .timeSyncBroadcast s (fun t => t = s)) ∧
    (s.firm.up = true → (s.die 0).synced + 1024 ≤ (s.die 0).time →
      (∀ d, 1 ≤ d → d < 8 → s.routeDown 0 d = false → s.pathBlocked clsMgmt 0 d = false) →
      Completes .timeSyncBroadcast s (fun t => t.groups = s.groups ∧ t.mem = s.mem ∧ (t.die 0).synced = (s.die 0).time ∧
        ∀ d, 1 ≤ d → d < 8 → s.routeDown 0 d = false →
          Turn.event (.timeSyncReceive d (s.die 0).time (Config.linkTransit d)) ∈ t.agenda))) ∧
  (∀ s d x transit, 1 ≤ d → d < 8 → x < 2 ^ 64 - 1 → (s.die d).time < 2 ^ 64 →
    Completes (.timeSyncReceive d x transit) s (fun t => t.groups = s.groups ∧ x < (t.die d).time ∧
      (s.die d).time ≤ (t.die d).time ∧ ((t.die d).slew = true ↔ x + transit < (t.die d).time))) ∧
  (∀ s d, d < 8 → ((s.die d).time < (s.die d).told + 1024 → Completes (.timeReferenceReport d) s (fun t => t = s)) ∧
    (s.firm.up = true → (s.die d).told + 1024 ≤ (s.die d).time → (s.die d).time < 2 ^ 64 - 1 → s.routeDown d 0 = false →
      s.pathBlocked clsMgmt d 0 = false → Completes (.timeReferenceReport d) s (fun t => t.groups = s.groups ∧ t.mem = s.mem ∧
        (t.die d).told = (s.die d).time ∧ (s.die d).time < t.firm.time ∧ s.firm.time ≤ t.firm.time))) ∧
  (∀ s l f wire, l < 20 → (s.linkDir l).down = false → f.cls < 4 → f.data.length = 256 → (s.linkDir l).wants = false →
    (s.linkDir l).sends f s.clock = true →
    (crc32 wire ≠ f.crc → Completes (.flitReceive l ⟨f, wire⟩) s (fun t => t = { s with links := t.links } ∧
      (t.linkDir l).wants = true ∧ (t.linkDir l).bufs = (s.linkDir l).bufs ∧
      (t.linkDir l).fails = (s.linkDir l).fails + 1)) ∧
    (crc32 wire = f.crc → Completes (.flitReceive l ⟨f, wire⟩) s (fun t =>
      t.groups = s.groups ∧ (t.linkDir l).fails = 0 ∧ (tblGet [] (t.linkDir l).bufs f.cls).getLast? = some f ∧
      (f.first = true → f.time < 2 ^ 64 - 1 → (s.die (linkEnds l).2).time < 2 ^ 64 →
        f.time < (t.die (linkEnds l).2).time)))) ∧
  (∀ s l seq, (s.linkDir l).down = false → (s.linkDir l).wants = true →
    seq + (s.linkDir l).behind = (s.linkDir l).replay.length → Completes (.replayRequest l seq) s (fun t =>
      let again := (s.linkDir l).replay.drop seq ++ (s.linkDir l).resend
      t.agenda = (again.zip (List.range again.length)).map (fun e =>
        Turn.event (.flitReceive l ⟨e.1, onWire e.1 (Config.freeValue (s.freeNo + e.2))⟩)) ++ s.agenda ∧
      (t.linkDir l).wants = false)) ∧
  (∀ s l, l < 20 → (s.linkDir l).down = false → 9 ≤ (s.linkDir l).fails → s.grids = [] → Completes (.linkDown l) s (fun t =>
    t.groups = s.groups ∧ t.mem = s.mem ∧ (t.linkDir l).down = true ∧ (t.linkDir (l / 2 * 2 + (1 - l % 2))).down = true ∧
    t.firm.stopped = true)) ∧
  (∀ s port d cls bytes, s.firm.up = true → port < 8 → d < 8 → bytes.length ≤ 9216 → cls = 0 ∨ cls = 2 →
    s.routeDown port d = false → (d ≠ port → s.pathBlocked cls port d = false) → Completes (.ethernetFrameReceive port d cls bytes) s (fun t => t.groups = s.groups ∧
      t.mem = s.mem ∧ (t.die d).frames = (s.die d).frames ++ [bytes]))

/-- R257 to R261: at a release point that both copies have reached, equal signatures and equal numbers of the point let both go
on: the primary's held accesses enter its log in order, the twin's are discarded but for those whose value the primary sends it,
and both signatures begin again at all ones over the records that came after the 512th; unequal ones report both teams. A copy
that waits 10 ms alone does too. A delivery retires the twin's mirrored entries that the primary has retired, and the TIME that
a primary's srd reads is what its twin's srd writes, which waits while none has come. That the twin's entries retire by ordinal
is the model's reading (assumption 27); that its atomics with values are logged and the records' form are too (assumption 42). -/
def Obligations.ScrimPairs : Prop :=
  (∀ s team w i p q x y, (s.team team).twin = some w → (s.team team).isTwin = false → i < 128 → team ≠ w →
    tblFind s.groups (128 * team + i) = some p → tblFind s.groups (128 * w + i) = some q →
    (tblFind s.teams team).isSome = true → (tblFind s.teams w).isSome = true → (s.team team).report = none →
    (s.team w).report = none → (s.team team).heir = none → (s.team w).heir = none →
    let h := 128 * team + i
    let k := 128 * w + i
    let both := fun (c : Nat) (t : State) => (t.team team).report.map (·.cause) = some c ∧
      (t.team w).report.map (·.cause) = some c ∧ t.mem = s.mem
    let mine := p.held.filterMap (·.acc)
    let others := (q.held.filterMap (·.acc)).filter Access.returns
    let logged := fun (g : Group) (l : List Access) (n : Nat) =>
      g.log ++ (l.zip (List.range l.length)).map (fun e => { e.1 with kept := true, id := n + e.2 })
    let passed := fun (g g' : Group) (log : List Access) => g' = { g with
      held := g.extra, extra := [], atPoint := none, pointOk := true, point := g.point + 1, log := log
      sig := (g.extra.map (·.sign)).foldl crc64 (BitVec.allOnes 64) }
    (p.atPoint = some x → q.atPoint = some y → p.pointOk = false → q.pointOk = false →
      s.exchangeBlocked (s.dieOf h) (s.dieOf k) = false → s.entriesFor h mine.length = true →
      s.entriesFor k others.length = true →
      (p.sig ≠ q.sig ∨ p.point ≠ q.point → Completes (.scrimSignatureExchange team i) s (both 0x13)) ∧
      (p.sig = q.sig → p.point = q.point → Completes (.scrimSignatureExchange team i) s (fun t => t.mem = s.mem ∧
        t.teams = s.teams ∧ ∃ p' q', tblFind t.groups h = some p' ∧ tblFind t.groups k = some q' ∧
          passed p p' (logged p mine s.nextId) ∧ passed q q' (logged q others (s.nextId + mine.length))))) ∧
    (p.atPoint = some x → q.atPoint = none → q.point ≤ p.point → x + 10000000 ≤ s.timeOf h →
      Completes (.scrimTwinLag team i) s (both 0x19)) ∧
    Completes (.scrimValueDelivery team i) s (fun t => t = { s with groups := t.groups } ∧
      tblFind t.groups h = some p ∧ ∃ q', tblFind t.groups k = some q' ∧ q' = { q with outs := q'.outs } ∧
        ∀ c, tblGet [] q'.outs c = ((tblGet [] q.outs c).map (fun o =>
          if o.mirror = true ∧ o.n < tblGet 0 p.entered c ∧ (∀ e, e ∈ tblGet [] p.outs c → e.n ≠ o.n) then
            { o with done := true }
          else o)).dropWhile (·.done))) ∧
  (∀ s g d, Issuing s g → g.acquiring = false →
    let now := BitVec.ofNat 64 (s.timeOf s.cur)
    (∀ w k, (s.team (teamOf s.cur)).twin = some w → (s.team (teamOf s.cur)).isTwin = false → w ≠ teamOf s.cur →
      (s.grid (s.team (teamOf s.cur)).grid).flags.testBit 4 = false →
      (s.grid (s.team (teamOf s.cur)).grid).flags.testBit 5 = false →
      tblFind s.groups (w * 128 + s.cur % 128) = some k →
      Completes (.srd d 0x010) s (fun t => t.mem = s.mem ∧ t.cores = s.cores ∧
        (∃ g', tblFind t.groups s.cur = some g' ∧ RegsBut g g' d ∧ g'.sread d = (if d = 63 then 0 else now) ∧
          g'.pc = (g.pc + 4) % 2 ^ 56) ∧
        tblFind t.groups (w * 128 + s.cur % 128) = some { k with inbox := k.inbox ++ [now] })) ∧
    ((s.team (teamOf s.cur)).isTwin = true →
      (∀ v rest, g.inbox = v :: rest → Completes (.srd d 0x010) s (fun t => t.mem = s.mem ∧ t.cores = s.cores ∧
        ∃ g', tblFind t.groups s.cur = some { g' with inbox := rest } ∧ RegsBut g g' d ∧
          g'.sread d = (if d = 63 then 0 else v) ∧ g'.pc = (g.pc + 4) % 2 ^ 56)) ∧
      (g.inbox = [] → Completes (.srd d 0x010) s (fun t => t.mem = s.mem ∧ t.cores = s.cores ∧
        ∃ g', tblFind t.groups s.cur = some g' ∧ g'.sregs = g.sregs ∧ g'.pc = g.pc ∧ g'.inbox = []))))

/-! ## Queues and packets -/

/-- R105, R111, R112, R123: what each packet that has passed its checks does when it starts: it leaves the list of those
taken, and its own effect happens, once its core's releases can be made; a copy waits for its issue price and for room in
the engine it enters. That the core a packet's copy is charged to is the dispatcher's of its home die is the model's reading
(assumption 29), and that copies at work count in its engine's room its choice (assumption 57). -/
def Obligations.Packets : Prop :=
  ∀ s die i x q, s.startable die i = some x → tblFind s.queues x.queue = some q →
    let b := x.bytes
    let gone := fun (t : State) => (t.die die).taken = dropAt (s.die die).taken i ∧ t.groups = s.groups
    let settled := fun (t : State) => x.index ∉ (t.queue x.queue).pending
    let fresh := ∀ p, p ∈ s.posts → p.id ≠ s.nextId
    (x.type = 7 → Completes (.nopPacket die i) s (fun t => gone t ∧ settled t ∧ t.mem = s.mem)) ∧
    (x.type = 2 →
      let d := s.homeDie (numAt b 16 8)
      let c := dispatcherOf d
      let price := s.price (priceIndex 0x08 0 0)
      ((s.core c).copies.length < 32 → s.pathBlocked clsWork die d = false → s.routeDown die d = false →
        (price = 0 ∨ (s.die d).disp.sgrant = true → Completes (.copyPacket die i) s (fun t => gone t ∧ t.mem = s.mem ∧
          (t.core c).copies = (s.core c).copies ++ [{ id := s.nextId, dst := numAt b 16 8, src := numAt b 8 8,
                                                      len := numAt b 24 8, pkt := some s.nextId }] ∧
          tblFind t.packets s.nextId = some { x.packet with die := die })) ∧
        (price ≠ 0 → (s.die d).disp.sgrant = false → Completes (.copyPacket die i) s (fun t =>
          (t.die die).taken = (s.die die).taken ∧ t.groups = s.groups ∧ t.mem = s.mem ∧
          (t.die d).disp.sready.isSome = true))) ∧
      (32 ≤ (s.core c).copies.length → Completes (.copyPacket die i) s (fun t => t = s))) ∧
    (x.type = 3 → signalPacketOk s x = true → s.arms = [] → s.postStuck die (numAt b 8 8) = false →
      (∃ base p, pageAt s.pages (numAt b 8 8) = some (base, p) ∧ p.kind = .hbm) →
      s.canRelease (dispatcherOf die) 5 = true → (s.core (dispatcherOf die)).cache = [] →
      Completes (.signalPacket die i) s (fun t => gone t ∧ settled t ∧ leNat (t.homeRead (numAt b 8 8) 8) =
        (if numAt b 16 1 = 0 then numAt b 24 8 else leNat (s.homeRead (numAt b 8 8) 8) + numAt b 24 8) % 2 ^ 64)) ∧
    (x.type = 4 → Completes (.waitPacket die i) s (fun t => gone t ∧ t.mem = s.mem ∧ (t.queue x.queue).waiting = some {
      index := x.index, sig := numAt b 8 8, cond := numAt b 16 1, value := BitVec.ofNat 64 (numAt b 24 8)
      timeout := numAt b 32 4, taken := x.time, status := numAt b 56 8, tag := x.tag })) ∧
    (x.type = 5 → s.arms = [] → (numAt b 10 1 = 1 → s.canRelease (dispatcherOf die) 5 = true) → s.mailOpen die 4 = true →
      s.pathBlocked clsMgmt 0 die = false →
      Completes (.gatePacket die i) s (fun t => gone t ∧
        (fresh → numAt b 40 8 = 0 → numAt b 56 8 = 0 → settled t) ∧
        ∀ l, tblGet false t.ring.gates l = if l = numAt b 8 2 then numAt b 10 1 == 1 else tblGet false s.ring.gates l))

/-- R109, R110, R112, R121, R123: a turn and a re-read read a slot that is present; a packet whose checks pass is taken, bytes
0 to 7 of its slot zeroed and RDIDX past it, and one whose checks fail puts its queue into ERROR with code 3 at its index, RDIDX
standing; a slot of zeros leaves its queue waiting; shares come in from the mailbox; a WAIT goes on once its word meets its
condition, and past TIMEOUT its queue stands in ERROR with code 4. That RDIDX stays at a packet whose checks fail, and has
passed a WAIT that times out, is the model's reading (assumption 28). -/
def Obligations.QueueTurns : Prop :=
  (∀ s n q, s.halted = false → tblFind s.queues n = some q → q.die < 8 → q.state = .active → q.rdidx < q.kicked →
    q.waiting = none → q.skip = false → (s.die q.die).taken = [] → (s.core (dispatcherOf q.die)).cache = [] →
    tblRising s.pages = true → s.arms = [] → s.postStuck q.die q.slotAt = false →
    s.allMapped q.slotAt 128 (fun p => p.allows .read && p.allows .write && (p.kind == .hbm || p.kind == .scratch)) = true →
    let b := s.homeRead q.slotAt 128
    let r := (s.acquireAt (dispatcherOf q.die) 5).visitHome q.die q.slotAt 128
    let near := r.postStuck q.die q.slotAt = false ∧ (numAt b 0 1 = 1 → r.pageShut q.die (s.ownAddr (numAt b 8 8)) = false) ∧
      ∀ e, e ∈ ({ queue := n, index := q.rdidx, bytes := b } : Taken).reads → s.anyFar e.1 e.2.1 = false
    let empty := (s.homeRead q.slotAt 8).all (· == 0)
    let x0 : Taken := { queue := n, index := q.rdidx, bytes := b }
    let x : Taken := { x0 with desc := if x0.type = 1 then s.homeRead (s.ownAddr (numAt b 8 8)) 64 else [] }
    let settles := fun (t : State) => t.groups = s.groups ∧
      (s.packetOk q.die x = true →
        (∃ y, (t.die q.die).taken = [y] ∧ y.queue = n ∧ y.index = q.rdidx ∧ y.bytes = b ∧ y.desc = x.desc ∧ y.ok = true) ∧
        (t.queue n).rdidx = q.rdidx + 1 ∧ (t.queue n).pending = q.pending ++ [q.rdidx] ∧
        t.homeRead q.slotAt 8 = List.replicate 8 0 ∧
        ∀ y, y < q.slotAt ∨ q.slotAt + 8 ≤ y → t.homeRead y 1 = s.homeRead y 1) ∧
      (s.packetOk q.die x = false → (t.die q.die).taken = [] ∧ (t.queue n).state = .error ∧
        (t.queue n).erridx = q.rdidx ∧ (t.queue n).errcode = 3 ∧ (t.queue n).rdidx = q.rdidx)
    (q.empty = true → empty = true → Completes (.slotReread n) s (fun t => t.mem = s.mem ∧ (t.queue n).empty = true ∧
      (t.die q.die).taken = [])) ∧
    (q.empty = true → empty = false → (s.die q.die).roomFor q.die q b = true → near → Completes (.slotReread n) s settles) ∧
    (q.empty = false → empty = false → (s.die q.die).roomFor q.die q b = true → near → s.queues = [(n, q)] →
      (s.die q.die).mailbox = [] → (s.die q.die).notes = [] → s.posts = [] →
      Completes (.dispatcherTurn q.die) s (fun t => settles t ∧ (t.die q.die).visit = (s.die q.die).visit + 1))) ∧
  (∀ s die grid b rest, s.halted = false → (s.die die).mailbox = .forward grid b :: rest → (s.die die).pendingCount < 1024 →
    (fitsDie (s.grid grid) die = true → Completes (.forward die) s (fun t => t = { s with dies := t.dies } ∧
      (t.die die).mailbox = rest ∧ (t.die die).pending = (s.die die).pending ++ [shareOf grid b])) ∧
    (fitsDie (s.grid grid) die = false → (tblFind s.grids grid).isSome = true →
      Completes (.forward die) s (fun t => (t.grid grid).forced = some 3))) ∧
  (∀ s n q w base p, tblFind s.queues n = some q → q.waiting = some w → pageAt s.pages w.sig = some (base, p) →
    p.kind = .hbm → s.packetMapped .read false w.sig 8 = true → s.postStuck q.die w.sig = false →
    (s.core (dispatcherOf q.die)).cache = [] → (∀ x, x ∈ s.posts → x.id ≠ s.nextId) → tblRising s.pages = true → s.arms = [] →
    let r := (s.acquireAt (dispatcherOf q.die) 5).visitHome q.die w.sig 8
    (w.status = 0 ∨ s.statusOk w.status = true ∧ s.postStuck q.die w.status = false ∧ r.postStuck q.die w.status = false ∧
      ∃ b2 p2, pageAt s.pages w.status = some (b2, p2) ∧ p2.kind = .hbm) →
    let record := fun (t : State) (code : Nat) => w.status ≠ 0 → leNat (t.homeRead w.status 2) = code ∧
      leNat (t.homeRead (w.status + 4) 4) = w.tag % 2 ^ 32
    let go := flagHolds w.cond (BitVec.ofNat 64 (leNat (s.homeRead w.sig 8))) w.value
    (go = true → Completes (.waitPacketPoll n) s (fun t => t.groups = s.groups ∧ (t.queue n).waiting = none ∧
      w.index ∉ (t.queue n).pending ∧ (t.queue n).state = q.state ∧ record t 0)) ∧
    (go = false → Completes (.waitPacketPoll n) s (fun t => t.groups = s.groups ∧ t.mem = s.mem ∧
      (t.queue n).waiting = some w)) ∧
    (w.timeout ≠ 0 → w.taken + 1000 * w.timeout ≤ (s.die q.die).time →
      Completes (.waitPacketTimeout n) s (fun t => t.groups = s.groups ∧ (t.queue n).waiting = none ∧
        (t.queue n).state = .error ∧ (t.queue n).erridx = w.index ∧ (t.queue n).errcode = 4 ∧ record t 4)) ∧
    ((s.die q.die).time < w.taken + 1000 * w.timeout → Completes (.waitPacketTimeout n) s (fun t => t = s)))

/-- R122, R123: a LAUNCH makes a grid, gives it the next GRIDID of its home die, sends every other die with units its share in a
FORWARD packet of 128 bytes and keeps its own; unit u of U goes to die number ⌊u × n ÷ U⌋ of the n dies. That a LAUNCH waits for
room in every mailbox is the model's reading (assumption 30). -/
def Obligations.Launching : Prop :=
  (∀ s die i x q, s.startable die i = some x → x.type = 1 → tblFind s.queues x.queue = some q → die < 8 →
    let g := s.launchGrid die x
    (∀ d f n, (d, f, n) ∈ g.shares → d ≠ die → (s.die d).mailbox.length < 256 ∧ s.routeDown die d = false ∧
      s.pathBlocked clsWork die d = false) →
    Completes (.launch die i) s (fun t => t.groups = s.groups ∧ t.teams = s.teams ∧ tblFind t.grids s.nextId = some g ∧
      g.gridid = BitVec.ofNat 32 (die * 2 ^ 29 + (s.die die).launches % 2 ^ 29) ∧
      (t.die die).launches = (s.die die).launches + 1 ∧ (t.die die).taken = dropAt (s.die die).taken i ∧
      ∀ d f n, (d, f, n) ∈ g.shares →
        let share := shareOf s.nextId (g.forward x f n)
        (d ≠ die → (t.die d).mailbox = (s.die d).mailbox ++ [.forward s.nextId (g.forward x f n)]) ∧
        (d = die → x.prompt = true →
          (t.die die).prompt = (s.die die).prompt ++ [share] ∧ (t.die die).pending = (s.die die).pending) ∧
        (d = die → x.prompt = false →
          (t.die die).prompt = (s.die die).prompt ∧ (t.die die).pending = (s.die die).pending ++ [share]))) ∧
  (∀ (g : Grid) (x : Taken) key f n, x.bytes.length = 128 → f < 2 ^ 32 → n < 2 ^ 32 → g.prio < 4 → g.arrive < 2 ^ 64 →
    (g.forward x f n).length = 128 ∧ shareOf key (g.forward x f n) =
      { grid := key, first := f, n := n, prio := g.prio, arrive := g.arrive, taken := g.arrive }) ∧
  (∀ (g : Grid) u j, u < g.units → j < g.dies.length →
    ((g.share j).1 ≤ u ∧ u < (g.share j).1 + (g.share j).2 ↔ u * g.dies.length / g.units = j))

/-! ## Admission, pre-emption, the ends of teams and grids -/

/-- R128, R136 to R138, R142, R218, R225: a waiting unit that fits is admitted, its groups at their entry points with their
seeded lanes, a saved one comes back as it was; a head that fails for 1 ms has a place held, and the teams in the way of a
held or prompt unit leave. Units of one team without a twin, alone in their lists. That s0 to s62 begin at 0 is the model's
choice (assumption 1); the order of places and departures is its reading (assumption 30). -/
def Obligations.Admission : Prop :=
  (∀ s die x c w, s.halted = false → die < 8 → s.teams = [] → s.arms = [] → x.back = [] → (s.grid x.grid).flags.testBit 2 = false →
    (s.grid x.grid).cw = 0 → s.placeFor (s.askOf die x) die = some ([c], w) → (s.die die).hold = none →
    let g := s.grid x.grid
    let unit := x.first + x.next
    let k := s.nextId
    let left := if x.next + 1 < x.n then [{ x with next := x.next + 1, failed := none }] else []
    let admitted := fun (t : State) =>
      tblFind t.teams k = some { g.proto with
        grid := x.grid, teamid := unit, unit := unit, core := c, die := dieOfCore c, order := k + 2 } ∧
      (∀ i, i < g.groups → ∃ h, tblFind t.groups (128 * k + i) = some h ∧ h.pc = g.proto.entry i ∧
        h.window = g.proto.window i ∧ h.exited = false ∧ h.cells = [] ∧ h.sregs = [] ∧ h.sr.args = g.args ∧
        ∀ l, l < 64 → tblGet 0 h.z l = seedState g.seed (BitVec.ofNat 64 (unit * 8192 + i * 64 + l)) ∧
          tblGet 0 h.prec l = BitVec.ofNat 32 (g.proto.ceil + g.proto.ceil * 2 ^ 7)) ∧
      (∀ h, h < 128 * k ∨ 128 * k + g.groups ≤ h → tblFind t.groups h = tblFind s.groups h)
    ((s.die die).prompt = [] → (s.die die).pending = [x] →
      Completes (.unitAdmission die) s (fun t => admitted t ∧ (t.die die).pending = left)) ∧
    ((s.die die).pending = [] → (s.die die).prompt = [x] → x.prio = 3 → x.n = x.next + 1 →
      Completes (.promptDispatch die) s (fun t => admitted t ∧ (t.die die).prompt = []))) ∧
  (∀ s die x c w k tm, s.halted = false → die < 8 → s.arms = [] → s.teams = [(k, tm)] → tm.life = .saved → tm.die = die → tm.heir = none →
    tm.isTwin = false → tm.clupos = 0 → x.back = [k] → s.liveGroups k ≠ [] → (s.die die).prompt = [] →
    (s.die die).pending = [x] → s.placeFor (s.askOf die x) die = some ([c], w) →
    Completes (.teamResume die) s (fun t => (t.die die).pending = [] ∧
      (∃ tm', tblFind t.teams k = some tm' ∧ tm'.life = .running ∧ tm'.core = c) ∧
      ∀ h g, tblFind s.groups h = some g → ∃ g', tblFind t.groups h = some g' ∧
        g' = { g with slot := g'.slot, units := g'.units, tileset := g'.tileset, accmap := g'.accmap })) ∧
  (∀ s die x t0, s.halted = false → (s.die die).hold = none → (s.die die).prompt = [] → (s.die die).pending = [x] →
    x.failed = some t0 → (s.grid x.grid).flags.testBit 2 = false → s.placeFor (s.askOf die x) die = none →
    ((s.die die).time < t0 + 1000000 → Completes (.placeHold die) s (fun t => t = s)) ∧
    (∀ p, t0 + 1000000 ≤ (s.die die).time → s.bestPlace (s.askOf die x) die [] = some p →
      Completes (.placeHold die) s (fun t => t = { s with dies := t.dies } ∧
        (t.die die).hold = some { cores := p, grid := x.grid, unit := s.unitOf x, since := (s.die die).time }))) ∧
  (∀ s die x, s.halted = false → die < 8 →
    let leave := fun (l : List Nat) (t : State) => t.groups = s.groups ∧ ∀ v tm, v ∈ l → tblFind s.teams v = some tm →
      tm.life = .running → tm.heir = none → t.goneBy none v = true
    (∀ h, (s.die die).hold = some h → (s.die die).prompt = [] → (s.die die).pending = [x] → h.grid = x.grid →
      h.unit = s.unitOf x → s.classOf die x = 2 → h.since + 1000000 ≤ (s.die die).time →
      Completes (.highPreemption die) s (leave (s.inTheWay (s.askOf die x) none (fun t => t.prio == 0) h.cores))) ∧
    (∀ p l, (s.die die).hold = none → (s.die die).cleared = [] → (s.die die).pending = [] → (s.die die).prompt = [x] →
      x.prio = 3 → x.back = [] → x.next < x.n →
      s.teams.all (fun e => e.2.life == .running) = true → (s.grid x.grid).flags.testBit 2 = false →
      s.placeFor (s.askOf die x) die = none →
      s.promptPlace (s.askOf die x) (some ((s.die die).time + (50000 - ((s.die die).time - x.taken) - 2000))) die [] = some (p, l) →
      Completes (.promptDispatch die) s (leave l)))

/-- R66, R140, R142, R143, R262, R113, R114: a drain past its deadline is saved; with nothing outstanding a save writes the
context and then frees the place, a flush frees it, and a team with a cause against it ends, which F2 hears of and counts; of
a grid whose teams have ended F2 orders the record, and its home's dispatcher writes it, adds to its signal and the grid is
gone. The completion codes, what a save keeps and what a record without a reported cause holds are the model's (assumptions 22,
32 and 53), and so is that F2 stands on die 0 (assumption 44). -/
def Obligations.TeamsAndGridsEnd : Prop :=
  (∀ s k tm d, tblFind s.teams k = some tm → tm.deadline = some d → tm.drain = true → tm.life = .running → tm.heir = none →
    ((s.die tm.die).time < d → Completes (.drainDeadline k) s (fun t => t = s)) ∧
    (d ≤ (s.die tm.die).time → s.poolRoom tm.die (s.unitBytes k) = true → Completes (.drainDeadline k) s (fun t =>
      t = { s with teams := t.teams } ∧ (t.team k).life = .saving ∧ (t.team k).drain = false ∧
        (t.team k).deadline = none))) ∧
  (∀ s k tm, tblFind s.teams k = some tm → tm.core < 320 → tblFind s.cores tm.core = some (s.core tm.core) →
    (s.core tm.core).arrays = [] → (s.core tm.core).copies = [] → (s.core tm.core).boards = [] →
    (s.core tm.core).follow = [] → (s.core tm.core).fills = [] → s.remotes = [] → s.colls = [] → s.fired = [] →
    s.canFlush tm.core = true →
    (∀ h g, tblFind s.groups h = some g → g.log = [] ∧ g.longs = [] ∧ g.vploads = [] ∧ g.lpush = none) →
    let freed := fun (t : State) => ∀ e, e ∈ (t.core tm.core).banks → e.2.team ≠ k
    (tm.life = .saving → Completes (.teamSave k) s (fun t => (t.team k).life = .written ∧ t.mem = s.mem ∧
      (∀ h g, tblFind s.groups h = some g → ∃ g', tblFind t.groups h = some g' ∧
        g' = { g with sready := g'.sready, lready := g'.lready, accmap := g'.accmap, swait := g'.swait }) ∧
      ∀ a b, (a / 65536, b) ∈ (s.core tm.core).banks → b.team = k → b.role = .scratch →
        (t.core (320 + k)).lread a 1 = (s.core tm.core).lread a 1)) ∧
    (tm.life = .written → Completes (.saveComplete k) s (fun t => (t.team k).life = .saved ∧ freed t)) ∧
    (tm.life = .flushing → Completes (.teamFlush k) s (fun t => (t.team k).life = .flushed ∧ freed t ∧
      ∀ h, h ∈ s.teamGroups k → (t.group h).exited = true ∧ (t.group h).blocks = [])) ∧
    (∀ r, tm.life = .running → tm.report = some r → tm.twin = none → tm.isTwin = false → (s.core tm.core).cache = [] →
      let d := dieOfCore tm.core
      s.killBlocked d = false → ((s.crossMesh clsMgmt d 0 64).crossMesh clsMgmt 0 d 64).mailOpen d 2 = true →
      (s.die d).notes = [] → Completes (.teamKill k) s (fun t => (t.team k).life = .ended ∧ freed t ∧
        (∀ h, h ∈ s.teamGroups k → (t.group h).exited = true) ∧
        tblGet [] t.firm.mail 2 = tblGet [] s.firm.mail 2 ++ [.ended tm.grid tm.teamid (some r)]))) ∧
  (∀ s n g k r, tblFind s.grids n = some g → tblGet [] s.firm.mail 2 = [.ended n k r] →
    Completes (.gridCompletion n) s (fun t => (t.grid n).ended = g.ended + 1 ∧
      (g.firstBad = none → (t.grid n).firstBad = r.map (fun x => (k, x))))) ∧
  (∀ s n g, tblFind s.grids n = some g →
    let code := g.forced.getD (match g.firstBad with | some b => causeCode b.2.cause | none => 0)
    let cause := match g.firstBad with | some b => b.2.cause | none => 0
    let first := match g.firstBad with | some b => b.1 | none => 0xFFFFFFFF
    (g.over = true → tblGet [] s.firm.mail 2 = [] → s.arms = [] → s.arming = [] → s.fired = [] → s.remote = [] →
      (∀ k tm, (k, tm) ∈ s.teams → tm.grid = n → tm.life = .ended) → (∀ h x, tblFind s.groups h = some x → x.retired = true) →
      tblRising s.teams = true → tblRising s.groups = true → (s.die g.home).mailbox = [] → (∀ d, (s.die d).notes = []) →
      s.pathBlocked clsWork 0 g.home = false → s.routeDown 0 g.home = false →
      Completes (.gridCompletion n) s (fun t => (t.die g.home).mailbox = [.order n code cause first] ∧ t.groups = s.groups ∧
        t.mem = s.mem ∧ tblFind t.grids n = some g)) ∧
    (s.firm.up = true → g.home < 8 → (s.die g.home).mailbox = [.order n code cause first] → (s.die g.home).notes = [] →
      (s.die g.home).taken = [] → s.posts = [] → s.arms = [] →
      (∀ m q, (m, q) ∈ s.queues → q.skip = false ∧ (q.state = .active → q.kicked ≤ q.rdidx)) → (∀ c, (s.core c).cache = []) →
      let good := fun (a m : Nat) => a + m ≤ 0xF0 * 2 ^ 48 ∧ s.postStuck g.home a = false ∧
        ∃ base p, pageAt s.pages a = some (base, p) ∧ p.kind = .hbm
      let gone := fun (t : State) => tblFind t.grids n = none ∧ (∀ k tm, (k, tm) ∈ t.teams → tm.grid ≠ n) ∧
        g.index ∉ (t.queue g.queue).pending
      (g.status ≠ 0 → good g.status 32 → g.csig = 0 → Completes (.dispatcherTurn g.home) s (fun t => gone t ∧
        leNat (t.homeRead g.status 2) = code % 2 ^ 16 ∧ leNat (t.homeRead (g.status + 2) 2) = cause % 2 ^ 16 ∧
        leNat (t.homeRead (g.status + 4) 4) = g.tag % 2 ^ 32 ∧ leNat (t.homeRead (g.status + 16) 4) = first % 2 ^ 32)) ∧
      (g.status = 0 → g.csig ≠ 0 → good g.csig 8 → Completes (.dispatcherTurn g.home) s (fun t => gone t ∧
        leNat (t.homeRead g.csig 8) = (leNat (s.homeRead g.csig 8) + g.cdelta.toNat) % 2 ^ 64 ∧
        ∀ a, a < g.csig ∨ g.csig + 8 ≤ a → t.homeRead a 1 = s.homeRead a 1))))

/-! ## Firmware and control commands -/

/-- R25 to R27, R30, R87, R117: boot steps run in order until one fails; a device that comes up has full buckets and P at
its floor; TIME never goes back at a compute-side reset; rollback counters stand; a firmware core that misses ten heartbeats
is started again and reported. Whether a boot step succeeds and the transit time are free values (assumption 10); what a
reset keeps is the model's reading (assumption 34). -/
def Obligations.Firmware : Prop :=
  let clear := fun (t : State) => t.groups = [] ∧ t.teams = [] ∧ t.grids = [] ∧ t.pages = [] ∧ t.mem = [] ∧ t.queues = [] ∧
    t.jobs = []
  let booted := fun (s t : State) (steps : List Nat) =>
    let up : State := { s with firm := { s.firm with boots := s.firm.boots + 1 } }
    let ok := steps.all up.bootOk
    clear t ∧ t.firm.up = ok ∧ t.firm.recovery = !ok ∧ t.firm.rollback = s.firm.rollback ∧
      (ok = true → t.firm.step = 8 ∧ t.firm.stopped = false ∧ t.power.pkg = 16777216 * 10 ^ 12 ∧ t.power.flcfg = flcfgReset ∧
        t.power.p = watts 400 ∧ t.power.ps = watts 400 ∧ ∀ d, d < 8 → (t.die d).bucket = 1048576) ∧
      (∀ n, n < steps.length → (steps.take n).all up.bootOk = true → up.bootOk (steps[n]?.getD 0) = false →
        t.firm.step = steps[n]?.getD 0 - 1 ∧ t.firm.failed = steps[n]?.getD 0)
  (∀ s, Completes .coldReset s (fun t => booted s t [2, 3, 4, 5, 6, 7, 8])) ∧
  (∀ s, s.firm.powered = true → s.firm.step < 3 → Completes .alwaysOnWatchdog s (fun t => t = s)) ∧
  (∀ s, s.firm.powered = true → 3 ≤ s.firm.step → Completes .alwaysOnWatchdog s (fun t => booted s t [4, 5, 6, 7, 8] ∧
    ∀ d, d < 8 → (t.die d).time = (s.die d).time ∨
      (t.die d).time = max (s.die d).time (s.firm.time + 2048 + Config.transit) % 2 ^ 64)) ∧
  (∀ s c, 1 ≤ c → c < 8 → s.firm.powered = true →
    let others := fun (t : State) => t.groups = s.groups ∧ ∀ i, i ≠ c → t.firm.core i = s.firm.core i
    ((c = 1 → s.firm.resetting = none) → Completes (.firmwareHeartbeat c) s (fun t => others t ∧
      t.firm.core c = { s.firm.core c with missed := 0 })) ∧
    ((s.firm.core c).missed < 9 → Completes (.heartbeatMiss c) s (fun t => others t ∧
      t.firm.core c = { s.firm.core c with missed := (s.firm.core c).missed + 1 } ∧ t.firm.mail = s.firm.mail)) ∧
    ((s.firm.core c).missed = 9 → c ≠ 2 → Completes (.heartbeatMiss c) s (fun t => others t ∧
      t.firm.core c = (s.firm.core c).run (s.firm.image c) ∧ (t.firm.core c).missed = 0 ∧ (t.firm.core c).running = true ∧
      (s.mailOpen 0 6 = true → (s.die 0).notes = [] → ∃ r, tblGet [] t.firm.mail 6 = tblGet [] s.firm.mail 6 ++ [.error 0 r] ∧
        r.addr = c))))

/-- R105 to R110, R116, R180 to R182, R419, R421, R422: commands of the main ports on queues, mappings, the lap image and
jobs: what each changes, and the status it answers; a command that is not heard changes nothing. Payload layouts that the
spec does not give, and the bytes of LAPSTAT's answer, are the model's choice (assumption 35). -/
def Obligations.MainCommands : Prop :=
  ∀ s (h : CmdHdr),
    let go := fun (cmd : Nat) =>
      h.unknown = none ∧ s.hears h cmd = true ∧ cmdOk h = true ∧ h.port < 8 ∧ s.firm.stopped = false
    let replies := fun (t : State) (cmd status : Nat) (pay : List Byte) => ∃ m, t.out = s.out ++ [m] ∧ m.kind = .response ∧
      m.port = h.port ∧ m.code = cmd ∧ numAt m.bytes 4 2 = cmd ∧ numAt m.bytes 8 8 = h.seq % 2 ^ 64 ∧
      numAt m.bytes 20 2 = status ∧ m.bytes.drop 32 = pay
    let only := fun (t u : State) => t = { u with out := t.out, dies := t.dies, power := t.power } ∧
      t.power = { u.power with reqs := t.power.reqs, granted := t.power.granted }
    let fails := fun (i : Instr) (cmd status : Nat) => Completes i s (fun t => replies t cmd status [] ∧ only t s)
    (∀ base l d p n, go 1 →
      let desc := descRegion + d * 0x40000 + 64 * n
      let good := base % 4096 = 0 ∧ 6 ≤ l ∧ l ≤ 16 ∧ d < 8 ∧ p < 4 ∧ s.ringOk base l = true
      (good → (∀ m, m < n → (tblFind s.queues m).isSome = true) → tblFind s.queues n = none → n < 4096 →
        Completes (.qcreate h base l d p) s (fun t => t.groups = s.groups ∧ t.mem = s.mem ∧
          tblFind t.queues n = some { base := base, log2 := l, die := d, priomax := p, descva := desc
                                      kickva := kickRegion + d * 0x10000 + 8 * n } ∧
          (∀ m, m ≠ n → tblFind t.queues m = tblFind s.queues m) ∧
          ∃ key, t.kickKey = some key ∧ replies t 1 0 (leBytes 8 desc ++ leBytes 4 n ++ leBytes 4 key.toNat))) ∧
      (¬ good → fails (.qcreate h base l d p) 1 2)) ∧
    (∀ desc n q, s.queueAt desc = some (n, q) → tblFind s.queues n = some q →
      (go 2 → s.grids = [] → Completes (.qdestroy h desc) s (fun t => replies t 2 0 [] ∧ t.groups = s.groups ∧
        t.queues = tblDel s.queues n)) ∧
      (go 3 → q.state = .active → Completes (.qstop h desc) s (fun t => replies t 3 0 [] ∧
        only t { s with queues := t.queues } ∧ (t.queue n).state = .stopped ∧ (t.queue n).rdidx = q.rdidx)) ∧
      (go 4 → q.state = .stopped → q.skip = false → Completes (.qresume h desc) s (fun t => replies t 4 0 [] ∧ t.mem = s.mem ∧
        (t.queue n).state = .active ∧ (t.queue n).rdidx = q.rdidx ∧ (t.queue n).kicked = q.kicked))) ∧
    (∀ desc, s.queueAt desc = none → (go 2 → fails (.qdestroy h desc) 2 2) ∧ (go 3 → fails (.qstop h desc) 3 2) ∧
      (go 4 → fails (.qresume h desc) 4 2)) ∧
    (go 0x10 → h.payload.length = 32 →
      let e := mapEntryOf h.payload
      let perm := BitVec.ofNat 8 (numAt h.payload 23 1)
      (e.mapOk = true → e.meets s.pages = false → e.n = 1 → numAt h.payload 21 1 = 0 →
        (perm.getLsbD 7 = true ∨ s.hbmRoom (numAt h.payload 22 1) e.size = true) →
        Completes (.map h) s (fun t => t.mem = s.mem ∧ t.groups = s.groups ∧ ∃ key : BitVec 32,
          replies t 0x10 0 (leBytes 4 key.toNat) ∧ tblFind t.pages e.va = some {
            size := e.size, home := numAt h.payload 22 1, perm := perm, backed := !perm.getLsbD 7
            rkey := if perm.getLsbD 5 then some key else none } ∧
          ∀ b, b ≠ e.va → tblFind t.pages b = tblFind s.pages b)) ∧
      (e.mapOk = false ∨ e.meets s.pages = true → fails (.map h) 0x10 2)) ∧
    (go 0x11 → h.payload.length = 16 →
      let e := unmapEntryOf h.payload
      let unpark := fun (x : Access) =>
        if e.va ≤ x.addr % 2 ^ 56 ∧ x.addr % 2 ^ 56 < e.last then { x with parked := false, refused := false } else x
      (s.unmapOk e = true → s.arms = [] → s.remote = [] → (∀ c, (s.core c).cache = []) → Completes (.unmap h) s (fun t =>
        replies t 0x11 0 [] ∧ (∀ i g, tblFind s.groups i = some g → tblFind t.groups i = some { g with log := g.log.map unpark }) ∧
        ∀ b, (e.va ≤ b → b < e.last → tblFind t.pages b = none ∧ t.homeRead b 1 = [0]) ∧
          (b < e.va ∨ e.last ≤ b → tblFind t.pages b = tblFind s.pages b ∧ t.homeRead b 1 = s.homeRead b 1))) ∧
      (s.unmapOk e = false → fails (.unmap h) 0x11 2)) ∧
    (∀ base len addr port qp key, go 0x12 →
      (len = 0 → Completes (.rdmawin h base len addr port qp key) s (fun t => replies t 0x12 0 [] ∧
        only t { s with pages := t.pages } ∧ ∀ b p, (b, p) ∈ t.pages ↔ (b, p) ∈ s.pages ∧ p.kind ≠ .window)) ∧
      (0 < len → base % 65536 = 0 → len % 65536 = 0 → base + len ≤ 0xF0 * 2 ^ 48 → port < 8 → qp < 16384 →
        (base + len ≤ descRegion ∨ descRegion + 0x280000 ≤ base) →
        (∀ b p, (b, p) ∈ s.pages → p.kind ≠ .window → base + len ≤ b ∨ b + p.size ≤ base) →
        Completes (.rdmawin h base len addr port qp key) s (fun t => replies t 0x12 0 [] ∧ only t { s with pages := t.pages } ∧
          tblFind t.pages base = some {
            size := len, kind := .window, perm := 7, rva := addr, port := port, qp := qp, rkey := some key })) ∧
      (base % 65536 ≠ 0 ∨ len % 65536 ≠ 0 ∨ 8 ≤ port ∨ 16384 ≤ qp → len ≠ 0 →
        fails (.rdmawin h base len addr port qp key) 0x12 2)) ∧
    (go 0x20 → h.payload.length % 32 = 0 →
      let l := (cut 32 h.payload).map lapEntryOf
      let good := (cut 32 h.payload).all lapReserved && l.all s.lapEntryOk && lapDisjoint l && decide (lapQ l < 2 ^ 29)
      (good = true → Completes (.lapload h) s (fun t => replies t 0x20 0 [] ∧ only t { s with ring := t.ring } ∧
        t.ring.images = s.ring.images ∧ ∃ img, t.ring.pending = some { entries := l, q := lapQ l, img := img })) ∧
      (good = false → fails (.lapload h) 0x20 2)) ∧
    (go 0x21 → Completes (.lapstat h) s (fun t => only t s ∧
      replies t 0x21 0 (leBytes 8 s.ringLen ++ leBytes 8 s.ring.pending.isSome.toNat))) ∧
    (go 0x30 →
      let j := jobOf h.payload
      (jobOk h.payload = true → (∀ i, s.slotOf j.job = some i → (tblFind s.jobs i).isSome = true →
          Completes (.jobset h) s (fun t => replies t 0x30 0 [] ∧ only t { s with jobs := t.jobs } ∧
            ∃ x, tblFind t.jobs i = some x ∧ x = { j with seq := x.seq })) ∧
        (s.slotOf j.job = none → ∀ i, i < 4 → (∀ k, k < i → (tblFind s.jobs k).isSome = true) → tblFind s.jobs i = none →
          Completes (.jobset h) s (fun t => replies t 0x30 0 [] ∧ only t { s with jobs := t.jobs } ∧
            tblFind t.jobs i = some j)) ∧
        (s.slotOf j.job = none → (∀ k, k < 4 → (tblFind s.jobs k).isSome = true) → fails (.jobset h) 0x30 6)) ∧
      (jobOk h.payload = false → fails (.jobset h) 0x30 2)) ∧
    (∀ job, go 0x31 →
      (∀ i, s.slotOf job = some i → Completes (.jobclear h job) s (fun t => replies t 0x31 0 [] ∧ t.groups = s.groups ∧
        t.mem = s.mem ∧ tblFind t.jobs i = none ∧ ∀ k x, (k, x) ∈ t.power.intents ↔ (k, x) ∈ s.power.intents ∧
          x.job ≠ some job)) ∧
      (s.slotOf job = none → fails (.jobclear h job) 0x31 2)) ∧
    (h.unknown = none → s.hears h 0x10 = false → Completes (.map h) s (fun t => t = s)) ∧
    (h.unknown = none → s.hears h 0x11 = false → Completes (.unmap h) s (fun t => t = s)) ∧
    (∀ c, h.unknown = some c → c < 2 ^ 16 → s.hears h c = true → fails (.map h) c 1)

/-- R15, R28 to R31, R86, R106, R107, R118, R422: management commands: telemetry and attestation only report; FLCFG takes every
field at once or none, is answered 3 on a main port, and 4 there on a stopped device; a firmware image is taken in chunks and runs
only if F0 accepts it, its core's rollback counter never falling; RESET brings the compute side, or all of the device, back as it
comes up, once no record is on its way to host memory. The place of words in a TELEM answer is the model's choice (assumption 9);
so are the layout of an attestation report and its signatures standing after it, and that FLCFG clears a temperature limit too
(assumption 35), and what a reset waits for and keeps is its reading (assumption 34). -/
def Obligations.ManagementCommands : Prop :=
  ∀ s (h : CmdHdr),
    let replies := fun (t : State) (cmd status : Nat) (pay : List Byte) => ∃ m, t.out.getLast? = some m ∧ m.kind = .response ∧
      m.port = h.port ∧ m.code = cmd ∧ numAt m.bytes 4 2 = cmd ∧ numAt m.bytes 20 2 = status ∧ m.bytes.drop 32 = pay
    let go := fun (cmd : Nat) => h.unknown = none ∧ s.hears h cmd = true ∧ cmdOk h = true ∧ s.firm.stopped = false
    let out := fun (t u : State) => t = { u with out := t.out, dies := t.dies, power := t.power } ∧
      t.power = { u.power with reqs := t.power.reqs, granted := t.power.granted }
    let clear := fun (t : State) => t.groups = [] ∧ t.teams = [] ∧ t.grids = [] ∧ t.pages = [] ∧ t.mem = [] ∧ t.queues = [] ∧
      t.jobs = []
    (∀ block, go 0x40 → block ≤ 10 → Completes (.telem h block) s (fun t =>
      out t { s with freeNo := s.freeNo + 1 } ∧ ∃ pay, replies t 0x40 0 pay ∧ pay.length = 4096 ∧
        ((s.telemWords block).length ≤ 512 →
          pay.take (8 * (s.telemWords block).length) = (s.telemWords block).flatMap (fun w => leBytes 8 w.toNat)))) ∧
    (∀ block, go 0x40 → 10 < block → Completes (.telem h block) s (fun t => replies t 0x40 2 [] ∧ out t s)) ∧
    (go 0x41 → (h.port = 8 ∨ h.port = 9) → leNat h.payload = 0 →
      (s.deviceEnd.recordsOut = false → Completes (.resetComputeSide h) s (fun t => clear t ∧
        replies t 0x41 0 [] ∧ t.firm.rollback = s.firm.rollback)) ∧
      (s.deviceEnd.recordsOut = true → Completes (.resetComputeSide h) s (fun t => t.firm.resetting = some h ∧
        t.firm.stopped = true))) ∧
    (go 0x41 → (h.port = 8 ∨ h.port = 9) → 1 < leNat h.payload →
      Completes (.resetFull h) s (fun t => replies t 0x41 2 [] ∧ out t s) ∧
      Completes (.resetComputeSide h) s (fun t => replies t 0x41 2 [] ∧ out t s)) ∧
    (go 0x41 → (h.port = 8 ∨ h.port = 9) → leNat h.payload = 1 → Completes (.resetFull h) s (fun t => clear t ∧ replies t 0x41 0 [] ∧
      t.firm.rollback = s.firm.rollback)) ∧
    (go 0x42 → (h.port = 8 ∨ h.port = 9) → h.payload.length = 8 →
      (flcfgOk (leNat h.payload) = true → Completes (.flcfg h) s (fun t => replies t 0x42 0 [] ∧ t = { s with
        out := t.out, power := { s.power with flcfg := BitVec.ofNat 64 (leNat h.payload), limit := none } })) ∧
      (flcfgOk (leNat h.payload) = false → Completes (.flcfg h) s (fun t => replies t 0x42 2 [] ∧
        t = { s with out := t.out }))) ∧
    (go 0x42 → h.port < 8 → Completes (.flcfg h) s (fun t => replies t 0x42 3 [] ∧ out t s)) ∧
    (h.unknown = none → s.hears h 0x42 = true → cmdOk h = true → s.firm.stopped = true → h.port < 8 →
      Completes (.flcfg h) s (fun t => replies t 0x42 4 [] ∧ out t s)) ∧
    (∀ core final, go 0x43 → h.port = 8 → core < 8 → 4 ≤ h.payload.length → h.payload.length ≤ 8188 →
      let b := putChunk (tblGet [] s.firm.load core) (numAt h.payload 0 4) (h.payload.drop 4)
      Completes (.fwload h core final) s (fun t => t.groups = s.groups ∧ t.mem = s.mem ∧
        (∀ c, tblGet 0 s.firm.rollback c ≤ tblGet 0 t.firm.rollback c) ∧
        (final = false → replies t 0x43 0 [] ∧ tblGet [] t.firm.load core = b ∧ t.firm.cores = s.firm.cores) ∧
        (final = true → tblFind t.firm.load core = none ∧
          if s.firm.accepts core b then replies t 0x43 0 [] ∧ (t.firm.core core).secver = numAt b 8 4 ∧
            tblGet 0 t.firm.rollback core = numAt b 8 4
          else replies t 0x43 5 [] ∧ t.firm.cores = s.firm.cores ∧ t.firm.rollback = s.firm.rollback))) ∧
    (go 0x44 → (h.port < 8 ∨ h.port = 8) → h.payload.length = 32 → Completes (.attest h) s (fun t =>
      out t { s with freeNo := s.freeNo + 1 } ∧ ∃ sig, sig.length = 3373 ∧
        replies t 0x44 0 (s.report31 h.payload ++ sig)))

/-! ## Every step -/

/-- R76, R145, R146, R180, R188, R248, R267, R286: a stream's turn runs the instruction that its bytes decode to, once its grant is
there, and spends the grant; a word that decodes to nothing raises illegal instruction, but with no lane to act on has no effect;
an enabled LBKA that matches raises a breakpoint with its number; a fetch from an unmapped page, or one without the permission, is
reported at its address against the instruction, and one from a page without backing waits; an event's turn is its effect, and a
command waits for the one before it. That one step is one turn of the agenda is the model's choice (assumption 6), and what a turn
leaves of an instruction that has no grant yet its reading (assumption 41). -/
def Obligations.StepRunsDecoded : Prop :=
  ∀ s rest h g,
    let u := { s with agenda := rest, cur := h, mark := .issued }
    let turns := fun (lane : Bool) (a n price : Nat) (r : Host.Outcome State Fault Refusal) =>
      (∀ t, r = .next t → t.mark = .waiting → step s = .next (t.notReady h lane)) ∧
      (∀ t, r = .next t → t.mark = .uncharged → step s = .next (t.spend h lane a n)) ∧
      (∀ t, r = .next t → t.mark = .issued → g.granted lane = true → step s = .next (t.spend h lane a n)) ∧
      (∀ t, r = .next t → t.mark = .issued → g.granted lane = false →
        step s = .next (if price = 0 then u.issueFree t h lane a n (u.rivals h lane) else u.askPort h lane price (u.rivals h lane))) ∧
      (∀ e, r = .fault e → step s = .fault e) ∧ (∀ e, r = .refused e → step s = .refused e)
    let fetches := fun (lane : Bool) (a : Nat) (r : Fetched) =>
      (∀ cause at', r = .fault cause at' → step s = .next (u.reportGroup h cause at' lane a 0xFF)) ∧
      (∀ b at', r = .unbacked b at' → step s = .next (u.awaitFetch h lane a b at'))
    (s.agenda = .scalar h :: rest → tblFind s.groups h = some g →
      (u.scalarReady g = false ∨ u.fetchShut h g.pc = true → step s = .next u) ∧
      (u.scalarReady g = true → u.fetchShut h g.pc = false → fetches false g.pc (u.fetchScalar g.pc) ∧
        ∀ w, u.fetchScalar g.pc = .code w →
          let n := if twoWord (fld w 0 32) then 8 else 4
          (∀ i, decodeScalar (fld w 0 32) (fld w 32 32) = .ok i → turns false g.pc n (u.scalarPrice i) (exec i u)) ∧
          (∀ e, decodeScalar (fld w 0 32) (fld w 32 32) = .error e →
            turns false g.pc n 0 (.next (u.trap h { cause := 0x01 }))))) ∧
    (s.agenda = .lane h :: rest → tblFind s.groups h = some g →
      (u.laneReady g = false ∨ u.fetchShut h g.lanePc = true → step s = .next u) ∧
      (u.laneReady g = true → u.fetchShut h g.lanePc = false → fetches true g.lanePc (u.fetchLane g.lanePc) ∧
        ∀ w, u.fetchLane g.lanePc = .code w →
          (∀ k, g.bskip = false → g.act ≠ 0 → g.breakAt g.lanePc = some k → step s = .next (({
            u.trap h { cause := 0x0B, stream := true, code := k, mask := g.live &&& ~~~ g.act, bskip := true } with
              mark := .uncharged } : State).spend h true g.lanePc 12)) ∧
          (g.bskip = true ∨ g.act = 0 ∨ g.breakAt g.lanePc = none →
            (∀ i, decodeLane w = .ok i → turns true g.lanePc 12 (u.lanePrice g w) (exec i u)) ∧
            (∀ e, decodeLane w = .error e → let ls := g.lanes (laneFields w)
              (ls ≠ 0 → turns true g.lanePc 12 0 (.next (u.trap h { cause := 0x01, stream := true, mask := ls }))) ∧
              (ls = 0 → turns true g.lanePc 12 (u.price (priceIndex 0 0 0)) (.next (u.put g.laneNext))))))) ∧
    (∀ i, s.agenda = .event i :: rest → (Turn.event i).isCommand = false ∨ (s.unmaps = [] ∧ s.firm.resetting = none) →
      step s = exec i { s with agenda := rest }) ∧
    (∀ a, let x := a % 2 ^ 56
      (pageAt s.pages x = none → s.fetchScalar a = .fault (if x < 0xF0 * 2 ^ 48 then 0x10 else 0x11) x) ∧
      ∀ b p, pageAt s.pages x = some (b, p) →
        (p.allows .code = false → s.fetchScalar a = .fault 0x11 x) ∧
        (p.allows .laneCode = false → s.fetchLane a = .fault 0x11 x) ∧
        (p.allows .code = true → p.kind = .hbm → p.backed = false → s.fetchScalar a = .unbacked b x) ∧
        (∀ w, p.allows .code = true → p.kind = .hbm → p.backed = true → w = leNat (s.homeRead x 4) → twoWord w = false →
          s.fetchScalar a = .code w))

/-- R269, R271 to R276, R278 to R282: words written out from the encoding tables decode to the instructions they stand for. -/
def Obligations.DecodeWords : Prop :=
  let word := fun (w : BitVec 32) => decodeTableWord 32 w.toNat
  let two := fun (w2 w1 : BitVec 32) => decodeTableWord 64 (w2 ++ w1).toNat
  let pol := fun (o : BitVec 2) (s e : BitVec 3) (off : BitVec 24) => o ++ s ++ e ++ off
  let src := fun (k : BitVec 2) (i : BitVec 8) => 0#2 ++ k ++ i
  let operand := fun (k : BitVec 2) (i : BitVec 8) => ({ index := i, kind := k, neg := false, wait := false } : Operand)
  let lane := fun (imm : BitVec 16) (evict scope : BitVec 3) (ord : BitVec 2) (rnd : BitVec 3) (c b a : BitVec 12)
    (dkind : BitVec 2) (dest : BitVec 8) (guard : BitVec 4) (fmt : BitVec 6) (op : BitVec 10) =>
    decodeTableWord 96 (imm ++ 0#1 ++ evict ++ scope ++ ord ++ rnd ++ c ++ b ++ a ++ 0#1 ++ dkind ++ dest ++ 0#1 ++ guard ++
      fmt ++ op).toNat
  let f := fun (imm : BitVec 16) (c b a : Operand) (dkind : BitVec 2) (dest : BitVec 8) (fmt : BitVec 6) => ({
    fmt := fmt, guard := 3, gneg := false, dest := dest, dkind := dkind, sat := false, a := a, b := b, c := c
    rnd := 0, ord := 0, scope := 0, evict := 0, imm := imm } : LaneF)
  let z := operand 0 0
  word (0x01#6 ++ 2#6 ++ 3#6 ++ 4#6 ++ 0x01#8) = some (.sub 2 3 4) ∧
  word (0x01#6 ++ 9#6 ++ 8#6 ++ 0#6 ++ 0x14#8) = some (.clz 9 8) ∧
  word (0x02#6 ++ 1#6 ++ 2#6 ++ 0x3FFF#14) = some (.addImm 1 2 0x3FFF) ∧
  word (0x06#6 ++ 1#6 ++ 2#6 ++ 0#6 ++ 2#2 ++ 63#6) = some (.sarImm 1 2 63) ∧
  word (0x08#6 ++ 0#3 ++ 5#3 ++ 6#6 ++ 7#6 ++ 0#5 ++ 3#3) = some (.cmp 5 6 7 3) ∧
  word (0x0A#6 ++ 1#6 ++ 2#6 ++ 3#6 ++ 0#4 ++ 1#1 ++ 4#3) = some (.sel 1 2 3 true 4) ∧
  word (0x0C#6 ++ 1#6 ++ 0#2 ++ 2#2 ++ 0xBEEF#16) = some (.lih 1 2 0xBEEF) ∧
  word (0x0D#6 ++ 2#3 ++ 1#1 ++ 0x3FFFFE#22) = some (.br 2 true 0x3FFFFE) ∧
  word (0x0F#6 ++ 5#26) = some (.call 5) ∧
  word (0x12#6 ++ 0#18 ++ 0x31#8) = some .exit ∧
  word (0x12#6 ++ 7#6 ++ 0x041#12 ++ 0x70#8) = some (.srd 7 0x041) ∧
  word (0x12#6 ++ 0#6 ++ 0x5A#8 ++ 0#4 ++ 0x78#8) = some (.trap 0x5A) ∧
  word (0x13#6 ++ 0#3 ++ 4#3 ++ 0#6 ++ 9#14) = some (.waitc 4 9) ∧
  two (pol 1 5 0 0xFFFFF8) (0x30#6 ++ 1#6 ++ 2#6 ++ 2#3 ++ 1#1 ++ 0#10) =
    some (.ld 1 2 2 true { ord := 1, scope := 5, evict := 0, offset := 0xFFFFF8 }) ∧
  two (pol 2 1 0 8) (0x32#6 ++ 1#6 ++ 2#6 ++ 3#6 ++ 9#4 ++ 0#1 ++ 3#3) =
    some (.atom 1 2 3 9 3 { ord := 2, scope := 1, evict := 0, offset := 8 }) ∧
  two (pol 0 0 0 0) (0x34#6 ++ 7#3 ++ 2#4 ++ 10#6 ++ 11#6 ++ 0x0A#6 ++ 0#1) =
    some (.vlq 7 2 10 11 0x0A { ord := 0, scope := 0, evict := 0, offset := 0 }) ∧
  two (pol 3 4 0 0) (0x3D#6 ++ 0#26) = some (.fence { ord := 3, scope := 4, evict := 0, offset := 0 }) ∧
  two 6 (0x3E#6 ++ 1#6 ++ 2#6 ++ 3#6 ++ 4#6 ++ 0#2) = some (.lrun 1 2 3 4 6) ∧
  two 0x3F (0x37#6 ++ 1#6 ++ 2#6 ++ 3#6 ++ 0#8) = some (.copy 1 2 3 0x3F) ∧
  lane 0 0 0 0 0 0 (src 0 3) (src 0 2) 0 1 3 2 0x010 = some (.iadd (f 0 z (operand 0 3) (operand 0 2) 0 1 2)) ∧
  lane 0x3F80 0 0 0 0 (src 1 7) (src 2 4) (src 0 2) 0 9 3 0x0A 0x043 =
    some (.fma (f 0x3F80 (operand 1 7) (operand 2 4) (operand 0 2) 0 9 0x0A)) ∧
  lane 4 0 0 0 0 0 (src 0 3) (src 0 2) 2 5 3 6 0x028 = some (.icmp (f 4 z (operand 0 3) (operand 0 2) 2 5 6)) ∧
  lane 0 0 0 0 0 0 0 0 3 0xFF 0 0 0x092 = some (.lend { f 0 z z z 3 0xFF 0 with guard := 0 }) ∧
  lane 0x10 0 0 0 0 0 0 (src 2 1) 0 8 3 2 0x0A0 = some (.ldl (f 0x10 z z (operand 2 1) 0 8 2)) ∧
  lane 7 0 0 0 0 0 0 (src 0 2) 3 1 3 0x0A 0x0B1 = some (.accwr (f 7 z z (operand 0 2) 3 1 0x0A)) ∧
  word 0 = none ∧ word (0x01#6 ++ 2#6 ++ 3#6 ++ 4#6 ++ 0x16#8) = none ∧ word (0x14#6 ++ 0#26) = none ∧
  word (0x12#6 ++ 1#6 ++ 0#12 ++ 0x31#8) = none ∧ lane 0 0 0 0 0 0 0 0 0 1 3 2 0x002 = none

/-- R25, R26, R86, R120, R180: right after reset the always-on domain alone is powered and boot step 1 is done, FLCFG has
its reset value, memory lists nothing and is in canonical form, and no group, team, queue or page stands. That the fields
the spec gives no value for start empty or at 0 is the model's choice (assumptions 2 and 4). -/
def Obligations.ResetState : Prop :=
  let s := State.reset
  Memory.wf s.mem = true ∧ s.mem = [] ∧ s.pages = [] ∧ s.groups = [] ∧ s.teams = [] ∧ s.grids = [] ∧ s.queues = [] ∧
    s.firm.powered = true ∧ s.firm.up = false ∧ s.firm.step = 1 ∧ s.firm.time = 0 ∧
    fld s.power.flcfg.toNat 0 12 = 3000 ∧ fld s.power.flcfg.toNat 12 12 = 400 ∧ fld s.power.flcfg.toNat 24 6 = 10 ∧
    fld s.power.flcfg.toNat 30 12 = 200 ∧ fld s.power.flcfg.toNat 42 9 = 100 ∧ fld s.power.flcfg.toNat 51 6 = 48 ∧
    ∀ d, d < 8 → ((s.core (dispatcherOf d)).bank 30).role = .scratch ∧ ((s.core (dispatcherOf d)).bank 31).role = .scratch

/-- R269 to R286: decoding the words of a well-formed instruction gives it back, every operand at every value it may have. -/
def Obligations.RoundTrip : Prop :=
  ∀ i n w, Instr.wf i = true → encode i = some (n, w) → decodeTableWord n w = some i

/-- R180: every step keeps memory in its canonical form, so that equal memories are equal data. -/
def Obligations.MemoryCanonical : Prop :=
  ∀ s t, Memory.wf s.mem = true → step s = .next t → Memory.wf t.mem = true
end

