-- ==== Sys2Proof/Laws/State.lean ====
section
/-!
SUPPORT. One lemma for each field of State and of Group under each of their updates: what the update leaves alone. -/
namespace Sys2Proof.Machine

/-! ### State.setGroup -/

@[simp] theorem State.setGroup_teams (s : State) (h : Nat) (g : Group) : (s.setGroup h g).teams = s.teams := rfl
@[simp] theorem State.setGroup_grids (s : State) (h : Nat) (g : Group) : (s.setGroup h g).grids = s.grids := rfl
@[simp] theorem State.setGroup_cores (s : State) (h : Nat) (g : Group) : (s.setGroup h g).cores = s.cores := rfl
@[simp] theorem State.setGroup_dies (s : State) (h : Nat) (g : Group) : (s.setGroup h g).dies = s.dies := rfl
@[simp] theorem State.setGroup_pages (s : State) (h : Nat) (g : Group) : (s.setGroup h g).pages = s.pages := rfl
@[simp] theorem State.setGroup_mem (s : State) (h : Nat) (g : Group) : (s.setGroup h g).mem = s.mem := rfl
@[simp] theorem State.setGroup_poison (s : State) (h : Nat) (g : Group) : (s.setGroup h g).poison = s.poison := rfl
@[simp] theorem State.setGroup_ticket (s : State) (h : Nat) (g : Group) : (s.setGroup h g).ticket = s.ticket := rfl
@[simp] theorem State.setGroup_clock (s : State) (h : Nat) (g : Group) : (s.setGroup h g).clock = s.clock := rfl
@[simp] theorem State.setGroup_pricever (s : State) (h : Nat) (g : Group) : (s.setGroup h g).pricever = s.pricever := rfl
@[simp] theorem State.setGroup_remote (s : State) (h : Nat) (g : Group) : (s.setGroup h g).remote = s.remote := rfl
@[simp] theorem State.setGroup_remotes (s : State) (h : Nat) (g : Group) : (s.setGroup h g).remotes = s.remotes := rfl
@[simp] theorem State.setGroup_out (s : State) (h : Nat) (g : Group) : (s.setGroup h g).out = s.out := rfl
@[simp] theorem State.setGroup_queues (s : State) (h : Nat) (g : Group) : (s.setGroup h g).queues = s.queues := rfl
@[simp] theorem State.setGroup_packets (s : State) (h : Nat) (g : Group) : (s.setGroup h g).packets = s.packets := rfl
@[simp] theorem State.setGroup_jobs (s : State) (h : Nat) (g : Group) : (s.setGroup h g).jobs = s.jobs := rfl
@[simp] theorem State.setGroup_arms (s : State) (h : Nat) (g : Group) : (s.setGroup h g).arms = s.arms := rfl
@[simp] theorem State.setGroup_arming (s : State) (h : Nat) (g : Group) : (s.setGroup h g).arming = s.arming := rfl
@[simp] theorem State.setGroup_fired (s : State) (h : Nat) (g : Group) : (s.setGroup h g).fired = s.fired := rfl
@[simp] theorem State.setGroup_ring (s : State) (h : Nat) (g : Group) : (s.setGroup h g).ring = s.ring := rfl
@[simp] theorem State.setGroup_power (s : State) (h : Nat) (g : Group) : (s.setGroup h g).power = s.power := rfl
@[simp] theorem State.setGroup_firm (s : State) (h : Nat) (g : Group) : (s.setGroup h g).firm = s.firm := rfl
@[simp] theorem State.setGroup_links (s : State) (h : Nat) (g : Group) : (s.setGroup h g).links = s.links := rfl
@[simp] theorem State.setGroup_qps (s : State) (h : Nat) (g : Group) : (s.setGroup h g).qps = s.qps := rfl
@[simp] theorem State.setGroup_kickKey (s : State) (h : Nat) (g : Group) : (s.setGroup h g).kickKey = s.kickKey := rfl
@[simp] theorem State.setGroup_colls (s : State) (h : Nat) (g : Group) : (s.setGroup h g).colls = s.colls := rfl
@[simp] theorem State.setGroup_ended (s : State) (h : Nat) (g : Group) : (s.setGroup h g).ended = s.ended := rfl
@[simp] theorem State.setGroup_chunks (s : State) (h : Nat) (g : Group) : (s.setGroup h g).chunks = s.chunks := rfl
@[simp] theorem State.setGroup_posts (s : State) (h : Nat) (g : Group) : (s.setGroup h g).posts = s.posts := rfl
@[simp] theorem State.setGroup_fetches (s : State) (h : Nat) (g : Group) : (s.setGroup h g).fetches = s.fetches := rfl
@[simp] theorem State.setGroup_unmaps (s : State) (h : Nat) (g : Group) : (s.setGroup h g).unmaps = s.unmaps := rfl
@[simp] theorem State.setGroup_parked (s : State) (h : Nat) (g : Group) : (s.setGroup h g).parked = s.parked := rfl
@[simp] theorem State.setGroup_cur (s : State) (h : Nat) (g : Group) : (s.setGroup h g).cur = s.cur := rfl
@[simp] theorem State.setGroup_agenda (s : State) (h : Nat) (g : Group) : (s.setGroup h g).agenda = s.agenda := rfl
@[simp] theorem State.setGroup_turnNo (s : State) (h : Nat) (g : Group) : (s.setGroup h g).turnNo = s.turnNo := rfl
@[simp] theorem State.setGroup_freeNo (s : State) (h : Nat) (g : Group) : (s.setGroup h g).freeNo = s.freeNo := rfl
@[simp] theorem State.setGroup_nextId (s : State) (h : Nat) (g : Group) : (s.setGroup h g).nextId = s.nextId := rfl
@[simp] theorem State.setGroup_mark (s : State) (h : Nat) (g : Group) : (s.setGroup h g).mark = s.mark := rfl

/-! ### State.put -/

@[simp] theorem State.put_teams (s : State) (g : Group) : (s.put g).teams = s.teams := rfl
@[simp] theorem State.put_grids (s : State) (g : Group) : (s.put g).grids = s.grids := rfl
@[simp] theorem State.put_cores (s : State) (g : Group) : (s.put g).cores = s.cores := rfl
@[simp] theorem State.put_dies (s : State) (g : Group) : (s.put g).dies = s.dies := rfl
@[simp] theorem State.put_pages (s : State) (g : Group) : (s.put g).pages = s.pages := rfl
@[simp] theorem State.put_mem (s : State) (g : Group) : (s.put g).mem = s.mem := rfl
@[simp] theorem State.put_poison (s : State) (g : Group) : (s.put g).poison = s.poison := rfl
@[simp] theorem State.put_ticket (s : State) (g : Group) : (s.put g).ticket = s.ticket := rfl
@[simp] theorem State.put_clock (s : State) (g : Group) : (s.put g).clock = s.clock := rfl
@[simp] theorem State.put_pricever (s : State) (g : Group) : (s.put g).pricever = s.pricever := rfl
@[simp] theorem State.put_remote (s : State) (g : Group) : (s.put g).remote = s.remote := rfl
@[simp] theorem State.put_remotes (s : State) (g : Group) : (s.put g).remotes = s.remotes := rfl
@[simp] theorem State.put_out (s : State) (g : Group) : (s.put g).out = s.out := rfl
@[simp] theorem State.put_queues (s : State) (g : Group) : (s.put g).queues = s.queues := rfl
@[simp] theorem State.put_packets (s : State) (g : Group) : (s.put g).packets = s.packets := rfl
@[simp] theorem State.put_jobs (s : State) (g : Group) : (s.put g).jobs = s.jobs := rfl
@[simp] theorem State.put_arms (s : State) (g : Group) : (s.put g).arms = s.arms := rfl
@[simp] theorem State.put_arming (s : State) (g : Group) : (s.put g).arming = s.arming := rfl
@[simp] theorem State.put_fired (s : State) (g : Group) : (s.put g).fired = s.fired := rfl
@[simp] theorem State.put_ring (s : State) (g : Group) : (s.put g).ring = s.ring := rfl
@[simp] theorem State.put_power (s : State) (g : Group) : (s.put g).power = s.power := rfl
@[simp] theorem State.put_firm (s : State) (g : Group) : (s.put g).firm = s.firm := rfl
@[simp] theorem State.put_links (s : State) (g : Group) : (s.put g).links = s.links := rfl
@[simp] theorem State.put_qps (s : State) (g : Group) : (s.put g).qps = s.qps := rfl
@[simp] theorem State.put_kickKey (s : State) (g : Group) : (s.put g).kickKey = s.kickKey := rfl
@[simp] theorem State.put_colls (s : State) (g : Group) : (s.put g).colls = s.colls := rfl
@[simp] theorem State.put_ended (s : State) (g : Group) : (s.put g).ended = s.ended := rfl
@[simp] theorem State.put_chunks (s : State) (g : Group) : (s.put g).chunks = s.chunks := rfl
@[simp] theorem State.put_posts (s : State) (g : Group) : (s.put g).posts = s.posts := rfl
@[simp] theorem State.put_fetches (s : State) (g : Group) : (s.put g).fetches = s.fetches := rfl
@[simp] theorem State.put_unmaps (s : State) (g : Group) : (s.put g).unmaps = s.unmaps := rfl
@[simp] theorem State.put_parked (s : State) (g : Group) : (s.put g).parked = s.parked := rfl
@[simp] theorem State.put_cur (s : State) (g : Group) : (s.put g).cur = s.cur := rfl
@[simp] theorem State.put_agenda (s : State) (g : Group) : (s.put g).agenda = s.agenda := rfl
@[simp] theorem State.put_turnNo (s : State) (g : Group) : (s.put g).turnNo = s.turnNo := rfl
@[simp] theorem State.put_freeNo (s : State) (g : Group) : (s.put g).freeNo = s.freeNo := rfl
@[simp] theorem State.put_nextId (s : State) (g : Group) : (s.put g).nextId = s.nextId := rfl
@[simp] theorem State.put_mark (s : State) (g : Group) : (s.put g).mark = s.mark := rfl

/-! ### State.updGroup -/

@[simp] theorem State.updGroup_teams (s : State) (h : Nat) (f : Group → Group) : (s.updGroup h f).teams = s.teams := rfl
@[simp] theorem State.updGroup_grids (s : State) (h : Nat) (f : Group → Group) : (s.updGroup h f).grids = s.grids := rfl
@[simp] theorem State.updGroup_cores (s : State) (h : Nat) (f : Group → Group) : (s.updGroup h f).cores = s.cores := rfl
@[simp] theorem State.updGroup_dies (s : State) (h : Nat) (f : Group → Group) : (s.updGroup h f).dies = s.dies := rfl
@[simp] theorem State.updGroup_pages (s : State) (h : Nat) (f : Group → Group) : (s.updGroup h f).pages = s.pages := rfl
@[simp] theorem State.updGroup_mem (s : State) (h : Nat) (f : Group → Group) : (s.updGroup h f).mem = s.mem := rfl
@[simp] theorem State.updGroup_poison (s : State) (h : Nat) (f : Group → Group) : (s.updGroup h f).poison = s.poison := rfl
@[simp] theorem State.updGroup_ticket (s : State) (h : Nat) (f : Group → Group) : (s.updGroup h f).ticket = s.ticket := rfl
@[simp] theorem State.updGroup_clock (s : State) (h : Nat) (f : Group → Group) : (s.updGroup h f).clock = s.clock := rfl
@[simp] theorem State.updGroup_pricever (s : State) (h : Nat) (f : Group → Group) : (s.updGroup h f).pricever = s.pricever := rfl
@[simp] theorem State.updGroup_remote (s : State) (h : Nat) (f : Group → Group) : (s.updGroup h f).remote = s.remote := rfl
@[simp] theorem State.updGroup_remotes (s : State) (h : Nat) (f : Group → Group) : (s.updGroup h f).remotes = s.remotes := rfl
@[simp] theorem State.updGroup_out (s : State) (h : Nat) (f : Group → Group) : (s.updGroup h f).out = s.out := rfl
@[simp] theorem State.updGroup_queues (s : State) (h : Nat) (f : Group → Group) : (s.updGroup h f).queues = s.queues := rfl
@[simp] theorem State.updGroup_packets (s : State) (h : Nat) (f : Group → Group) : (s.updGroup h f).packets = s.packets := rfl
@[simp] theorem State.updGroup_jobs (s : State) (h : Nat) (f : Group → Group) : (s.updGroup h f).jobs = s.jobs := rfl
@[simp] theorem State.updGroup_arms (s : State) (h : Nat) (f : Group → Group) : (s.updGroup h f).arms = s.arms := rfl
@[simp] theorem State.updGroup_arming (s : State) (h : Nat) (f : Group → Group) : (s.updGroup h f).arming = s.arming := rfl
@[simp] theorem State.updGroup_fired (s : State) (h : Nat) (f : Group → Group) : (s.updGroup h f).fired = s.fired := rfl
@[simp] theorem State.updGroup_ring (s : State) (h : Nat) (f : Group → Group) : (s.updGroup h f).ring = s.ring := rfl
@[simp] theorem State.updGroup_power (s : State) (h : Nat) (f : Group → Group) : (s.updGroup h f).power = s.power := rfl
@[simp] theorem State.updGroup_firm (s : State) (h : Nat) (f : Group → Group) : (s.updGroup h f).firm = s.firm := rfl
@[simp] theorem State.updGroup_links (s : State) (h : Nat) (f : Group → Group) : (s.updGroup h f).links = s.links := rfl
@[simp] theorem State.updGroup_qps (s : State) (h : Nat) (f : Group → Group) : (s.updGroup h f).qps = s.qps := rfl
@[simp] theorem State.updGroup_kickKey (s : State) (h : Nat) (f : Group → Group) : (s.updGroup h f).kickKey = s.kickKey := rfl
@[simp] theorem State.updGroup_colls (s : State) (h : Nat) (f : Group → Group) : (s.updGroup h f).colls = s.colls := rfl
@[simp] theorem State.updGroup_ended (s : State) (h : Nat) (f : Group → Group) : (s.updGroup h f).ended = s.ended := rfl
@[simp] theorem State.updGroup_chunks (s : State) (h : Nat) (f : Group → Group) : (s.updGroup h f).chunks = s.chunks := rfl
@[simp] theorem State.updGroup_posts (s : State) (h : Nat) (f : Group → Group) : (s.updGroup h f).posts = s.posts := rfl
@[simp] theorem State.updGroup_fetches (s : State) (h : Nat) (f : Group → Group) : (s.updGroup h f).fetches = s.fetches := rfl
@[simp] theorem State.updGroup_unmaps (s : State) (h : Nat) (f : Group → Group) : (s.updGroup h f).unmaps = s.unmaps := rfl
@[simp] theorem State.updGroup_parked (s : State) (h : Nat) (f : Group → Group) : (s.updGroup h f).parked = s.parked := rfl
@[simp] theorem State.updGroup_cur (s : State) (h : Nat) (f : Group → Group) : (s.updGroup h f).cur = s.cur := rfl
@[simp] theorem State.updGroup_agenda (s : State) (h : Nat) (f : Group → Group) : (s.updGroup h f).agenda = s.agenda := rfl
@[simp] theorem State.updGroup_turnNo (s : State) (h : Nat) (f : Group → Group) : (s.updGroup h f).turnNo = s.turnNo := rfl
@[simp] theorem State.updGroup_freeNo (s : State) (h : Nat) (f : Group → Group) : (s.updGroup h f).freeNo = s.freeNo := rfl
@[simp] theorem State.updGroup_nextId (s : State) (h : Nat) (f : Group → Group) : (s.updGroup h f).nextId = s.nextId := rfl
@[simp] theorem State.updGroup_mark (s : State) (h : Nat) (f : Group → Group) : (s.updGroup h f).mark = s.mark := rfl

/-! ### State.updTeam -/

@[simp] theorem State.updTeam_groups (s : State) (h : Nat) (f : Team → Team) : (s.updTeam h f).groups = s.groups := rfl
@[simp] theorem State.updTeam_grids (s : State) (h : Nat) (f : Team → Team) : (s.updTeam h f).grids = s.grids := rfl
@[simp] theorem State.updTeam_cores (s : State) (h : Nat) (f : Team → Team) : (s.updTeam h f).cores = s.cores := rfl
@[simp] theorem State.updTeam_dies (s : State) (h : Nat) (f : Team → Team) : (s.updTeam h f).dies = s.dies := rfl
@[simp] theorem State.updTeam_pages (s : State) (h : Nat) (f : Team → Team) : (s.updTeam h f).pages = s.pages := rfl
@[simp] theorem State.updTeam_mem (s : State) (h : Nat) (f : Team → Team) : (s.updTeam h f).mem = s.mem := rfl
@[simp] theorem State.updTeam_poison (s : State) (h : Nat) (f : Team → Team) : (s.updTeam h f).poison = s.poison := rfl
@[simp] theorem State.updTeam_ticket (s : State) (h : Nat) (f : Team → Team) : (s.updTeam h f).ticket = s.ticket := rfl
@[simp] theorem State.updTeam_clock (s : State) (h : Nat) (f : Team → Team) : (s.updTeam h f).clock = s.clock := rfl
@[simp] theorem State.updTeam_pricever (s : State) (h : Nat) (f : Team → Team) : (s.updTeam h f).pricever = s.pricever := rfl
@[simp] theorem State.updTeam_remote (s : State) (h : Nat) (f : Team → Team) : (s.updTeam h f).remote = s.remote := rfl
@[simp] theorem State.updTeam_remotes (s : State) (h : Nat) (f : Team → Team) : (s.updTeam h f).remotes = s.remotes := rfl
@[simp] theorem State.updTeam_out (s : State) (h : Nat) (f : Team → Team) : (s.updTeam h f).out = s.out := rfl
@[simp] theorem State.updTeam_queues (s : State) (h : Nat) (f : Team → Team) : (s.updTeam h f).queues = s.queues := rfl
@[simp] theorem State.updTeam_packets (s : State) (h : Nat) (f : Team → Team) : (s.updTeam h f).packets = s.packets := rfl
@[simp] theorem State.updTeam_jobs (s : State) (h : Nat) (f : Team → Team) : (s.updTeam h f).jobs = s.jobs := rfl
@[simp] theorem State.updTeam_arms (s : State) (h : Nat) (f : Team → Team) : (s.updTeam h f).arms = s.arms := rfl
@[simp] theorem State.updTeam_arming (s : State) (h : Nat) (f : Team → Team) : (s.updTeam h f).arming = s.arming := rfl
@[simp] theorem State.updTeam_fired (s : State) (h : Nat) (f : Team → Team) : (s.updTeam h f).fired = s.fired := rfl
@[simp] theorem State.updTeam_ring (s : State) (h : Nat) (f : Team → Team) : (s.updTeam h f).ring = s.ring := rfl
@[simp] theorem State.updTeam_power (s : State) (h : Nat) (f : Team → Team) : (s.updTeam h f).power = s.power := rfl
@[simp] theorem State.updTeam_firm (s : State) (h : Nat) (f : Team → Team) : (s.updTeam h f).firm = s.firm := rfl
@[simp] theorem State.updTeam_links (s : State) (h : Nat) (f : Team → Team) : (s.updTeam h f).links = s.links := rfl
@[simp] theorem State.updTeam_qps (s : State) (h : Nat) (f : Team → Team) : (s.updTeam h f).qps = s.qps := rfl
@[simp] theorem State.updTeam_kickKey (s : State) (h : Nat) (f : Team → Team) : (s.updTeam h f).kickKey = s.kickKey := rfl
@[simp] theorem State.updTeam_colls (s : State) (h : Nat) (f : Team → Team) : (s.updTeam h f).colls = s.colls := rfl
@[simp] theorem State.updTeam_ended (s : State) (h : Nat) (f : Team → Team) : (s.updTeam h f).ended = s.ended := rfl
@[simp] theorem State.updTeam_chunks (s : State) (h : Nat) (f : Team → Team) : (s.updTeam h f).chunks = s.chunks := rfl
@[simp] theorem State.updTeam_posts (s : State) (h : Nat) (f : Team → Team) : (s.updTeam h f).posts = s.posts := rfl
@[simp] theorem State.updTeam_fetches (s : State) (h : Nat) (f : Team → Team) : (s.updTeam h f).fetches = s.fetches := rfl
@[simp] theorem State.updTeam_unmaps (s : State) (h : Nat) (f : Team → Team) : (s.updTeam h f).unmaps = s.unmaps := rfl
@[simp] theorem State.updTeam_parked (s : State) (h : Nat) (f : Team → Team) : (s.updTeam h f).parked = s.parked := rfl
@[simp] theorem State.updTeam_cur (s : State) (h : Nat) (f : Team → Team) : (s.updTeam h f).cur = s.cur := rfl
@[simp] theorem State.updTeam_agenda (s : State) (h : Nat) (f : Team → Team) : (s.updTeam h f).agenda = s.agenda := rfl
@[simp] theorem State.updTeam_turnNo (s : State) (h : Nat) (f : Team → Team) : (s.updTeam h f).turnNo = s.turnNo := rfl
@[simp] theorem State.updTeam_freeNo (s : State) (h : Nat) (f : Team → Team) : (s.updTeam h f).freeNo = s.freeNo := rfl
@[simp] theorem State.updTeam_nextId (s : State) (h : Nat) (f : Team → Team) : (s.updTeam h f).nextId = s.nextId := rfl
@[simp] theorem State.updTeam_mark (s : State) (h : Nat) (f : Team → Team) : (s.updTeam h f).mark = s.mark := rfl

/-! ### State.updGrid -/

@[simp] theorem State.updGrid_groups (s : State) (h : Nat) (f : Grid → Grid) : (s.updGrid h f).groups = s.groups := rfl
@[simp] theorem State.updGrid_teams (s : State) (h : Nat) (f : Grid → Grid) : (s.updGrid h f).teams = s.teams := rfl
@[simp] theorem State.updGrid_cores (s : State) (h : Nat) (f : Grid → Grid) : (s.updGrid h f).cores = s.cores := rfl
@[simp] theorem State.updGrid_dies (s : State) (h : Nat) (f : Grid → Grid) : (s.updGrid h f).dies = s.dies := rfl
@[simp] theorem State.updGrid_pages (s : State) (h : Nat) (f : Grid → Grid) : (s.updGrid h f).pages = s.pages := rfl
@[simp] theorem State.updGrid_mem (s : State) (h : Nat) (f : Grid → Grid) : (s.updGrid h f).mem = s.mem := rfl
@[simp] theorem State.updGrid_poison (s : State) (h : Nat) (f : Grid → Grid) : (s.updGrid h f).poison = s.poison := rfl
@[simp] theorem State.updGrid_ticket (s : State) (h : Nat) (f : Grid → Grid) : (s.updGrid h f).ticket = s.ticket := rfl
@[simp] theorem State.updGrid_clock (s : State) (h : Nat) (f : Grid → Grid) : (s.updGrid h f).clock = s.clock := rfl
@[simp] theorem State.updGrid_pricever (s : State) (h : Nat) (f : Grid → Grid) : (s.updGrid h f).pricever = s.pricever := rfl
@[simp] theorem State.updGrid_remote (s : State) (h : Nat) (f : Grid → Grid) : (s.updGrid h f).remote = s.remote := rfl
@[simp] theorem State.updGrid_remotes (s : State) (h : Nat) (f : Grid → Grid) : (s.updGrid h f).remotes = s.remotes := rfl
@[simp] theorem State.updGrid_out (s : State) (h : Nat) (f : Grid → Grid) : (s.updGrid h f).out = s.out := rfl
@[simp] theorem State.updGrid_queues (s : State) (h : Nat) (f : Grid → Grid) : (s.updGrid h f).queues = s.queues := rfl
@[simp] theorem State.updGrid_packets (s : State) (h : Nat) (f : Grid → Grid) : (s.updGrid h f).packets = s.packets := rfl
@[simp] theorem State.updGrid_jobs (s : State) (h : Nat) (f : Grid → Grid) : (s.updGrid h f).jobs = s.jobs := rfl
@[simp] theorem State.updGrid_arms (s : State) (h : Nat) (f : Grid → Grid) : (s.updGrid h f).arms = s.arms := rfl
@[simp] theorem State.updGrid_arming (s : State) (h : Nat) (f : Grid → Grid) : (s.updGrid h f).arming = s.arming := rfl
@[simp] theorem State.updGrid_fired (s : State) (h : Nat) (f : Grid → Grid) : (s.updGrid h f).fired = s.fired := rfl
@[simp] theorem State.updGrid_ring (s : State) (h : Nat) (f : Grid → Grid) : (s.updGrid h f).ring = s.ring := rfl
@[simp] theorem State.updGrid_power (s : State) (h : Nat) (f : Grid → Grid) : (s.updGrid h f).power = s.power := rfl
@[simp] theorem State.updGrid_firm (s : State) (h : Nat) (f : Grid → Grid) : (s.updGrid h f).firm = s.firm := rfl
@[simp] theorem State.updGrid_links (s : State) (h : Nat) (f : Grid → Grid) : (s.updGrid h f).links = s.links := rfl
@[simp] theorem State.updGrid_qps (s : State) (h : Nat) (f : Grid → Grid) : (s.updGrid h f).qps = s.qps := rfl
@[simp] theorem State.updGrid_kickKey (s : State) (h : Nat) (f : Grid → Grid) : (s.updGrid h f).kickKey = s.kickKey := rfl
@[simp] theorem State.updGrid_colls (s : State) (h : Nat) (f : Grid → Grid) : (s.updGrid h f).colls = s.colls := rfl
@[simp] theorem State.updGrid_ended (s : State) (h : Nat) (f : Grid → Grid) : (s.updGrid h f).ended = s.ended := rfl
@[simp] theorem State.updGrid_chunks (s : State) (h : Nat) (f : Grid → Grid) : (s.updGrid h f).chunks = s.chunks := rfl
@[simp] theorem State.updGrid_posts (s : State) (h : Nat) (f : Grid → Grid) : (s.updGrid h f).posts = s.posts := rfl
@[simp] theorem State.updGrid_fetches (s : State) (h : Nat) (f : Grid → Grid) : (s.updGrid h f).fetches = s.fetches := rfl
@[simp] theorem State.updGrid_unmaps (s : State) (h : Nat) (f : Grid → Grid) : (s.updGrid h f).unmaps = s.unmaps := rfl
@[simp] theorem State.updGrid_parked (s : State) (h : Nat) (f : Grid → Grid) : (s.updGrid h f).parked = s.parked := rfl
@[simp] theorem State.updGrid_cur (s : State) (h : Nat) (f : Grid → Grid) : (s.updGrid h f).cur = s.cur := rfl
@[simp] theorem State.updGrid_agenda (s : State) (h : Nat) (f : Grid → Grid) : (s.updGrid h f).agenda = s.agenda := rfl
@[simp] theorem State.updGrid_turnNo (s : State) (h : Nat) (f : Grid → Grid) : (s.updGrid h f).turnNo = s.turnNo := rfl
@[simp] theorem State.updGrid_freeNo (s : State) (h : Nat) (f : Grid → Grid) : (s.updGrid h f).freeNo = s.freeNo := rfl
@[simp] theorem State.updGrid_nextId (s : State) (h : Nat) (f : Grid → Grid) : (s.updGrid h f).nextId = s.nextId := rfl
@[simp] theorem State.updGrid_mark (s : State) (h : Nat) (f : Grid → Grid) : (s.updGrid h f).mark = s.mark := rfl

/-! ### State.setCore -/

@[simp] theorem State.setCore_groups (s : State) (c : Nat) (k : Core) : (s.setCore c k).groups = s.groups := rfl
@[simp] theorem State.setCore_teams (s : State) (c : Nat) (k : Core) : (s.setCore c k).teams = s.teams := rfl
@[simp] theorem State.setCore_grids (s : State) (c : Nat) (k : Core) : (s.setCore c k).grids = s.grids := rfl
@[simp] theorem State.setCore_dies (s : State) (c : Nat) (k : Core) : (s.setCore c k).dies = s.dies := rfl
@[simp] theorem State.setCore_pages (s : State) (c : Nat) (k : Core) : (s.setCore c k).pages = s.pages := rfl
@[simp] theorem State.setCore_mem (s : State) (c : Nat) (k : Core) : (s.setCore c k).mem = s.mem := rfl
@[simp] theorem State.setCore_poison (s : State) (c : Nat) (k : Core) : (s.setCore c k).poison = s.poison := rfl
@[simp] theorem State.setCore_ticket (s : State) (c : Nat) (k : Core) : (s.setCore c k).ticket = s.ticket := rfl
@[simp] theorem State.setCore_clock (s : State) (c : Nat) (k : Core) : (s.setCore c k).clock = s.clock := rfl
@[simp] theorem State.setCore_pricever (s : State) (c : Nat) (k : Core) : (s.setCore c k).pricever = s.pricever := rfl
@[simp] theorem State.setCore_remote (s : State) (c : Nat) (k : Core) : (s.setCore c k).remote = s.remote := rfl
@[simp] theorem State.setCore_remotes (s : State) (c : Nat) (k : Core) : (s.setCore c k).remotes = s.remotes := rfl
@[simp] theorem State.setCore_out (s : State) (c : Nat) (k : Core) : (s.setCore c k).out = s.out := rfl
@[simp] theorem State.setCore_queues (s : State) (c : Nat) (k : Core) : (s.setCore c k).queues = s.queues := rfl
@[simp] theorem State.setCore_packets (s : State) (c : Nat) (k : Core) : (s.setCore c k).packets = s.packets := rfl
@[simp] theorem State.setCore_jobs (s : State) (c : Nat) (k : Core) : (s.setCore c k).jobs = s.jobs := rfl
@[simp] theorem State.setCore_arms (s : State) (c : Nat) (k : Core) : (s.setCore c k).arms = s.arms := rfl
@[simp] theorem State.setCore_arming (s : State) (c : Nat) (k : Core) : (s.setCore c k).arming = s.arming := rfl
@[simp] theorem State.setCore_fired (s : State) (c : Nat) (k : Core) : (s.setCore c k).fired = s.fired := rfl
@[simp] theorem State.setCore_ring (s : State) (c : Nat) (k : Core) : (s.setCore c k).ring = s.ring := rfl
@[simp] theorem State.setCore_power (s : State) (c : Nat) (k : Core) : (s.setCore c k).power = s.power := rfl
@[simp] theorem State.setCore_firm (s : State) (c : Nat) (k : Core) : (s.setCore c k).firm = s.firm := rfl
@[simp] theorem State.setCore_links (s : State) (c : Nat) (k : Core) : (s.setCore c k).links = s.links := rfl
@[simp] theorem State.setCore_qps (s : State) (c : Nat) (k : Core) : (s.setCore c k).qps = s.qps := rfl
@[simp] theorem State.setCore_kickKey (s : State) (c : Nat) (k : Core) : (s.setCore c k).kickKey = s.kickKey := rfl
@[simp] theorem State.setCore_colls (s : State) (c : Nat) (k : Core) : (s.setCore c k).colls = s.colls := rfl
@[simp] theorem State.setCore_ended (s : State) (c : Nat) (k : Core) : (s.setCore c k).ended = s.ended := rfl
@[simp] theorem State.setCore_chunks (s : State) (c : Nat) (k : Core) : (s.setCore c k).chunks = s.chunks := rfl
@[simp] theorem State.setCore_posts (s : State) (c : Nat) (k : Core) : (s.setCore c k).posts = s.posts := rfl
@[simp] theorem State.setCore_fetches (s : State) (c : Nat) (k : Core) : (s.setCore c k).fetches = s.fetches := rfl
@[simp] theorem State.setCore_unmaps (s : State) (c : Nat) (k : Core) : (s.setCore c k).unmaps = s.unmaps := rfl
@[simp] theorem State.setCore_parked (s : State) (c : Nat) (k : Core) : (s.setCore c k).parked = s.parked := rfl
@[simp] theorem State.setCore_cur (s : State) (c : Nat) (k : Core) : (s.setCore c k).cur = s.cur := rfl
@[simp] theorem State.setCore_agenda (s : State) (c : Nat) (k : Core) : (s.setCore c k).agenda = s.agenda := rfl
@[simp] theorem State.setCore_turnNo (s : State) (c : Nat) (k : Core) : (s.setCore c k).turnNo = s.turnNo := rfl
@[simp] theorem State.setCore_freeNo (s : State) (c : Nat) (k : Core) : (s.setCore c k).freeNo = s.freeNo := rfl
@[simp] theorem State.setCore_nextId (s : State) (c : Nat) (k : Core) : (s.setCore c k).nextId = s.nextId := rfl
@[simp] theorem State.setCore_mark (s : State) (c : Nat) (k : Core) : (s.setCore c k).mark = s.mark := rfl

/-! ### State.updCore -/

@[simp] theorem State.updCore_groups (s : State) (c : Nat) (f : Core → Core) : (s.updCore c f).groups = s.groups := rfl
@[simp] theorem State.updCore_teams (s : State) (c : Nat) (f : Core → Core) : (s.updCore c f).teams = s.teams := rfl
@[simp] theorem State.updCore_grids (s : State) (c : Nat) (f : Core → Core) : (s.updCore c f).grids = s.grids := rfl
@[simp] theorem State.updCore_dies (s : State) (c : Nat) (f : Core → Core) : (s.updCore c f).dies = s.dies := rfl
@[simp] theorem State.updCore_pages (s : State) (c : Nat) (f : Core → Core) : (s.updCore c f).pages = s.pages := rfl
@[simp] theorem State.updCore_mem (s : State) (c : Nat) (f : Core → Core) : (s.updCore c f).mem = s.mem := rfl
@[simp] theorem State.updCore_poison (s : State) (c : Nat) (f : Core → Core) : (s.updCore c f).poison = s.poison := rfl
@[simp] theorem State.updCore_ticket (s : State) (c : Nat) (f : Core → Core) : (s.updCore c f).ticket = s.ticket := rfl
@[simp] theorem State.updCore_clock (s : State) (c : Nat) (f : Core → Core) : (s.updCore c f).clock = s.clock := rfl
@[simp] theorem State.updCore_pricever (s : State) (c : Nat) (f : Core → Core) : (s.updCore c f).pricever = s.pricever := rfl
@[simp] theorem State.updCore_remote (s : State) (c : Nat) (f : Core → Core) : (s.updCore c f).remote = s.remote := rfl
@[simp] theorem State.updCore_remotes (s : State) (c : Nat) (f : Core → Core) : (s.updCore c f).remotes = s.remotes := rfl
@[simp] theorem State.updCore_out (s : State) (c : Nat) (f : Core → Core) : (s.updCore c f).out = s.out := rfl
@[simp] theorem State.updCore_queues (s : State) (c : Nat) (f : Core → Core) : (s.updCore c f).queues = s.queues := rfl
@[simp] theorem State.updCore_packets (s : State) (c : Nat) (f : Core → Core) : (s.updCore c f).packets = s.packets := rfl
@[simp] theorem State.updCore_jobs (s : State) (c : Nat) (f : Core → Core) : (s.updCore c f).jobs = s.jobs := rfl
@[simp] theorem State.updCore_arms (s : State) (c : Nat) (f : Core → Core) : (s.updCore c f).arms = s.arms := rfl
@[simp] theorem State.updCore_arming (s : State) (c : Nat) (f : Core → Core) : (s.updCore c f).arming = s.arming := rfl
@[simp] theorem State.updCore_fired (s : State) (c : Nat) (f : Core → Core) : (s.updCore c f).fired = s.fired := rfl
@[simp] theorem State.updCore_ring (s : State) (c : Nat) (f : Core → Core) : (s.updCore c f).ring = s.ring := rfl
@[simp] theorem State.updCore_power (s : State) (c : Nat) (f : Core → Core) : (s.updCore c f).power = s.power := rfl
@[simp] theorem State.updCore_firm (s : State) (c : Nat) (f : Core → Core) : (s.updCore c f).firm = s.firm := rfl
@[simp] theorem State.updCore_links (s : State) (c : Nat) (f : Core → Core) : (s.updCore c f).links = s.links := rfl
@[simp] theorem State.updCore_qps (s : State) (c : Nat) (f : Core → Core) : (s.updCore c f).qps = s.qps := rfl
@[simp] theorem State.updCore_kickKey (s : State) (c : Nat) (f : Core → Core) : (s.updCore c f).kickKey = s.kickKey := rfl
@[simp] theorem State.updCore_colls (s : State) (c : Nat) (f : Core → Core) : (s.updCore c f).colls = s.colls := rfl
@[simp] theorem State.updCore_ended (s : State) (c : Nat) (f : Core → Core) : (s.updCore c f).ended = s.ended := rfl
@[simp] theorem State.updCore_chunks (s : State) (c : Nat) (f : Core → Core) : (s.updCore c f).chunks = s.chunks := rfl
@[simp] theorem State.updCore_posts (s : State) (c : Nat) (f : Core → Core) : (s.updCore c f).posts = s.posts := rfl
@[simp] theorem State.updCore_fetches (s : State) (c : Nat) (f : Core → Core) : (s.updCore c f).fetches = s.fetches := rfl
@[simp] theorem State.updCore_unmaps (s : State) (c : Nat) (f : Core → Core) : (s.updCore c f).unmaps = s.unmaps := rfl
@[simp] theorem State.updCore_parked (s : State) (c : Nat) (f : Core → Core) : (s.updCore c f).parked = s.parked := rfl
@[simp] theorem State.updCore_cur (s : State) (c : Nat) (f : Core → Core) : (s.updCore c f).cur = s.cur := rfl
@[simp] theorem State.updCore_agenda (s : State) (c : Nat) (f : Core → Core) : (s.updCore c f).agenda = s.agenda := rfl
@[simp] theorem State.updCore_turnNo (s : State) (c : Nat) (f : Core → Core) : (s.updCore c f).turnNo = s.turnNo := rfl
@[simp] theorem State.updCore_freeNo (s : State) (c : Nat) (f : Core → Core) : (s.updCore c f).freeNo = s.freeNo := rfl
@[simp] theorem State.updCore_nextId (s : State) (c : Nat) (f : Core → Core) : (s.updCore c f).nextId = s.nextId := rfl
@[simp] theorem State.updCore_mark (s : State) (c : Nat) (f : Core → Core) : (s.updCore c f).mark = s.mark := rfl

/-! ### State.updDie -/

@[simp] theorem State.updDie_groups (s : State) (d : Nat) (f : Die → Die) : (s.updDie d f).groups = s.groups := rfl
@[simp] theorem State.updDie_teams (s : State) (d : Nat) (f : Die → Die) : (s.updDie d f).teams = s.teams := rfl
@[simp] theorem State.updDie_grids (s : State) (d : Nat) (f : Die → Die) : (s.updDie d f).grids = s.grids := rfl
@[simp] theorem State.updDie_cores (s : State) (d : Nat) (f : Die → Die) : (s.updDie d f).cores = s.cores := rfl
@[simp] theorem State.updDie_pages (s : State) (d : Nat) (f : Die → Die) : (s.updDie d f).pages = s.pages := rfl
@[simp] theorem State.updDie_mem (s : State) (d : Nat) (f : Die → Die) : (s.updDie d f).mem = s.mem := rfl
@[simp] theorem State.updDie_poison (s : State) (d : Nat) (f : Die → Die) : (s.updDie d f).poison = s.poison := rfl
@[simp] theorem State.updDie_ticket (s : State) (d : Nat) (f : Die → Die) : (s.updDie d f).ticket = s.ticket := rfl
@[simp] theorem State.updDie_clock (s : State) (d : Nat) (f : Die → Die) : (s.updDie d f).clock = s.clock := rfl
@[simp] theorem State.updDie_pricever (s : State) (d : Nat) (f : Die → Die) : (s.updDie d f).pricever = s.pricever := rfl
@[simp] theorem State.updDie_remote (s : State) (d : Nat) (f : Die → Die) : (s.updDie d f).remote = s.remote := rfl
@[simp] theorem State.updDie_remotes (s : State) (d : Nat) (f : Die → Die) : (s.updDie d f).remotes = s.remotes := rfl
@[simp] theorem State.updDie_out (s : State) (d : Nat) (f : Die → Die) : (s.updDie d f).out = s.out := rfl
@[simp] theorem State.updDie_queues (s : State) (d : Nat) (f : Die → Die) : (s.updDie d f).queues = s.queues := rfl
@[simp] theorem State.updDie_packets (s : State) (d : Nat) (f : Die → Die) : (s.updDie d f).packets = s.packets := rfl
@[simp] theorem State.updDie_jobs (s : State) (d : Nat) (f : Die → Die) : (s.updDie d f).jobs = s.jobs := rfl
@[simp] theorem State.updDie_arms (s : State) (d : Nat) (f : Die → Die) : (s.updDie d f).arms = s.arms := rfl
@[simp] theorem State.updDie_arming (s : State) (d : Nat) (f : Die → Die) : (s.updDie d f).arming = s.arming := rfl
@[simp] theorem State.updDie_fired (s : State) (d : Nat) (f : Die → Die) : (s.updDie d f).fired = s.fired := rfl
@[simp] theorem State.updDie_ring (s : State) (d : Nat) (f : Die → Die) : (s.updDie d f).ring = s.ring := rfl
@[simp] theorem State.updDie_power (s : State) (d : Nat) (f : Die → Die) : (s.updDie d f).power = s.power := rfl
@[simp] theorem State.updDie_firm (s : State) (d : Nat) (f : Die → Die) : (s.updDie d f).firm = s.firm := rfl
@[simp] theorem State.updDie_links (s : State) (d : Nat) (f : Die → Die) : (s.updDie d f).links = s.links := rfl
@[simp] theorem State.updDie_qps (s : State) (d : Nat) (f : Die → Die) : (s.updDie d f).qps = s.qps := rfl
@[simp] theorem State.updDie_kickKey (s : State) (d : Nat) (f : Die → Die) : (s.updDie d f).kickKey = s.kickKey := rfl
@[simp] theorem State.updDie_colls (s : State) (d : Nat) (f : Die → Die) : (s.updDie d f).colls = s.colls := rfl
@[simp] theorem State.updDie_ended (s : State) (d : Nat) (f : Die → Die) : (s.updDie d f).ended = s.ended := rfl
@[simp] theorem State.updDie_chunks (s : State) (d : Nat) (f : Die → Die) : (s.updDie d f).chunks = s.chunks := rfl
@[simp] theorem State.updDie_posts (s : State) (d : Nat) (f : Die → Die) : (s.updDie d f).posts = s.posts := rfl
@[simp] theorem State.updDie_fetches (s : State) (d : Nat) (f : Die → Die) : (s.updDie d f).fetches = s.fetches := rfl
@[simp] theorem State.updDie_unmaps (s : State) (d : Nat) (f : Die → Die) : (s.updDie d f).unmaps = s.unmaps := rfl
@[simp] theorem State.updDie_parked (s : State) (d : Nat) (f : Die → Die) : (s.updDie d f).parked = s.parked := rfl
@[simp] theorem State.updDie_cur (s : State) (d : Nat) (f : Die → Die) : (s.updDie d f).cur = s.cur := rfl
@[simp] theorem State.updDie_agenda (s : State) (d : Nat) (f : Die → Die) : (s.updDie d f).agenda = s.agenda := rfl
@[simp] theorem State.updDie_turnNo (s : State) (d : Nat) (f : Die → Die) : (s.updDie d f).turnNo = s.turnNo := rfl
@[simp] theorem State.updDie_freeNo (s : State) (d : Nat) (f : Die → Die) : (s.updDie d f).freeNo = s.freeNo := rfl
@[simp] theorem State.updDie_nextId (s : State) (d : Nat) (f : Die → Die) : (s.updDie d f).nextId = s.nextId := rfl
@[simp] theorem State.updDie_mark (s : State) (d : Nat) (f : Die → Die) : (s.updDie d f).mark = s.mark := rfl

/-! ### State.waits -/

@[simp] theorem State.waits_groups (s : State) : (s.waits).groups = s.groups := rfl
@[simp] theorem State.waits_teams (s : State) : (s.waits).teams = s.teams := rfl
@[simp] theorem State.waits_grids (s : State) : (s.waits).grids = s.grids := rfl
@[simp] theorem State.waits_cores (s : State) : (s.waits).cores = s.cores := rfl
@[simp] theorem State.waits_dies (s : State) : (s.waits).dies = s.dies := rfl
@[simp] theorem State.waits_pages (s : State) : (s.waits).pages = s.pages := rfl
@[simp] theorem State.waits_mem (s : State) : (s.waits).mem = s.mem := rfl
@[simp] theorem State.waits_poison (s : State) : (s.waits).poison = s.poison := rfl
@[simp] theorem State.waits_ticket (s : State) : (s.waits).ticket = s.ticket := rfl
@[simp] theorem State.waits_clock (s : State) : (s.waits).clock = s.clock := rfl
@[simp] theorem State.waits_pricever (s : State) : (s.waits).pricever = s.pricever := rfl
@[simp] theorem State.waits_remote (s : State) : (s.waits).remote = s.remote := rfl
@[simp] theorem State.waits_remotes (s : State) : (s.waits).remotes = s.remotes := rfl
@[simp] theorem State.waits_out (s : State) : (s.waits).out = s.out := rfl
@[simp] theorem State.waits_queues (s : State) : (s.waits).queues = s.queues := rfl
@[simp] theorem State.waits_packets (s : State) : (s.waits).packets = s.packets := rfl
@[simp] theorem State.waits_jobs (s : State) : (s.waits).jobs = s.jobs := rfl
@[simp] theorem State.waits_arms (s : State) : (s.waits).arms = s.arms := rfl
@[simp] theorem State.waits_arming (s : State) : (s.waits).arming = s.arming := rfl
@[simp] theorem State.waits_fired (s : State) : (s.waits).fired = s.fired := rfl
@[simp] theorem State.waits_ring (s : State) : (s.waits).ring = s.ring := rfl
@[simp] theorem State.waits_power (s : State) : (s.waits).power = s.power := rfl
@[simp] theorem State.waits_firm (s : State) : (s.waits).firm = s.firm := rfl
@[simp] theorem State.waits_links (s : State) : (s.waits).links = s.links := rfl
@[simp] theorem State.waits_qps (s : State) : (s.waits).qps = s.qps := rfl
@[simp] theorem State.waits_kickKey (s : State) : (s.waits).kickKey = s.kickKey := rfl
@[simp] theorem State.waits_colls (s : State) : (s.waits).colls = s.colls := rfl
@[simp] theorem State.waits_ended (s : State) : (s.waits).ended = s.ended := rfl
@[simp] theorem State.waits_chunks (s : State) : (s.waits).chunks = s.chunks := rfl
@[simp] theorem State.waits_posts (s : State) : (s.waits).posts = s.posts := rfl
@[simp] theorem State.waits_fetches (s : State) : (s.waits).fetches = s.fetches := rfl
@[simp] theorem State.waits_unmaps (s : State) : (s.waits).unmaps = s.unmaps := rfl
@[simp] theorem State.waits_parked (s : State) : (s.waits).parked = s.parked := rfl
@[simp] theorem State.waits_cur (s : State) : (s.waits).cur = s.cur := rfl
@[simp] theorem State.waits_agenda (s : State) : (s.waits).agenda = s.agenda := rfl
@[simp] theorem State.waits_turnNo (s : State) : (s.waits).turnNo = s.turnNo := rfl
@[simp] theorem State.waits_freeNo (s : State) : (s.waits).freeNo = s.freeNo := rfl
@[simp] theorem State.waits_nextId (s : State) : (s.waits).nextId = s.nextId := rfl

/-! ### State.unlog -/

@[simp] theorem State.unlog_teams (s : State) (h i : Nat) : (s.unlog h i).teams = s.teams := rfl
@[simp] theorem State.unlog_grids (s : State) (h i : Nat) : (s.unlog h i).grids = s.grids := rfl
@[simp] theorem State.unlog_cores (s : State) (h i : Nat) : (s.unlog h i).cores = s.cores := rfl
@[simp] theorem State.unlog_dies (s : State) (h i : Nat) : (s.unlog h i).dies = s.dies := rfl
@[simp] theorem State.unlog_pages (s : State) (h i : Nat) : (s.unlog h i).pages = s.pages := rfl
@[simp] theorem State.unlog_mem (s : State) (h i : Nat) : (s.unlog h i).mem = s.mem := rfl
@[simp] theorem State.unlog_poison (s : State) (h i : Nat) : (s.unlog h i).poison = s.poison := rfl
@[simp] theorem State.unlog_ticket (s : State) (h i : Nat) : (s.unlog h i).ticket = s.ticket := rfl
@[simp] theorem State.unlog_clock (s : State) (h i : Nat) : (s.unlog h i).clock = s.clock := rfl
@[simp] theorem State.unlog_pricever (s : State) (h i : Nat) : (s.unlog h i).pricever = s.pricever := rfl
@[simp] theorem State.unlog_remote (s : State) (h i : Nat) : (s.unlog h i).remote = s.remote := rfl
@[simp] theorem State.unlog_remotes (s : State) (h i : Nat) : (s.unlog h i).remotes = s.remotes := rfl
@[simp] theorem State.unlog_out (s : State) (h i : Nat) : (s.unlog h i).out = s.out := rfl
@[simp] theorem State.unlog_queues (s : State) (h i : Nat) : (s.unlog h i).queues = s.queues := rfl
@[simp] theorem State.unlog_packets (s : State) (h i : Nat) : (s.unlog h i).packets = s.packets := rfl
@[simp] theorem State.unlog_jobs (s : State) (h i : Nat) : (s.unlog h i).jobs = s.jobs := rfl
@[simp] theorem State.unlog_arms (s : State) (h i : Nat) : (s.unlog h i).arms = s.arms := rfl
@[simp] theorem State.unlog_arming (s : State) (h i : Nat) : (s.unlog h i).arming = s.arming := rfl
@[simp] theorem State.unlog_fired (s : State) (h i : Nat) : (s.unlog h i).fired = s.fired := rfl
@[simp] theorem State.unlog_ring (s : State) (h i : Nat) : (s.unlog h i).ring = s.ring := rfl
@[simp] theorem State.unlog_power (s : State) (h i : Nat) : (s.unlog h i).power = s.power := rfl
@[simp] theorem State.unlog_firm (s : State) (h i : Nat) : (s.unlog h i).firm = s.firm := rfl
@[simp] theorem State.unlog_links (s : State) (h i : Nat) : (s.unlog h i).links = s.links := rfl
@[simp] theorem State.unlog_qps (s : State) (h i : Nat) : (s.unlog h i).qps = s.qps := rfl
@[simp] theorem State.unlog_kickKey (s : State) (h i : Nat) : (s.unlog h i).kickKey = s.kickKey := rfl
@[simp] theorem State.unlog_colls (s : State) (h i : Nat) : (s.unlog h i).colls = s.colls := rfl
@[simp] theorem State.unlog_ended (s : State) (h i : Nat) : (s.unlog h i).ended = s.ended := rfl
@[simp] theorem State.unlog_chunks (s : State) (h i : Nat) : (s.unlog h i).chunks = s.chunks := rfl
@[simp] theorem State.unlog_posts (s : State) (h i : Nat) : (s.unlog h i).posts = s.posts := rfl
@[simp] theorem State.unlog_fetches (s : State) (h i : Nat) : (s.unlog h i).fetches = s.fetches := rfl
@[simp] theorem State.unlog_unmaps (s : State) (h i : Nat) : (s.unlog h i).unmaps = s.unmaps := rfl
@[simp] theorem State.unlog_parked (s : State) (h i : Nat) : (s.unlog h i).parked = s.parked := rfl
@[simp] theorem State.unlog_cur (s : State) (h i : Nat) : (s.unlog h i).cur = s.cur := rfl
@[simp] theorem State.unlog_agenda (s : State) (h i : Nat) : (s.unlog h i).agenda = s.agenda := rfl
@[simp] theorem State.unlog_turnNo (s : State) (h i : Nat) : (s.unlog h i).turnNo = s.turnNo := rfl
@[simp] theorem State.unlog_freeNo (s : State) (h i : Nat) : (s.unlog h i).freeNo = s.freeNo := rfl
@[simp] theorem State.unlog_nextId (s : State) (h i : Nat) : (s.unlog h i).nextId = s.nextId := rfl
@[simp] theorem State.unlog_mark (s : State) (h i : Nat) : (s.unlog h i).mark = s.mark := rfl

/-! ### State.updLog -/

@[simp] theorem State.updLog_teams (s : State) (h i : Nat) (f : Access → Access) : (s.updLog h i f).teams = s.teams := rfl
@[simp] theorem State.updLog_grids (s : State) (h i : Nat) (f : Access → Access) : (s.updLog h i f).grids = s.grids := rfl
@[simp] theorem State.updLog_cores (s : State) (h i : Nat) (f : Access → Access) : (s.updLog h i f).cores = s.cores := rfl
@[simp] theorem State.updLog_dies (s : State) (h i : Nat) (f : Access → Access) : (s.updLog h i f).dies = s.dies := rfl
@[simp] theorem State.updLog_pages (s : State) (h i : Nat) (f : Access → Access) : (s.updLog h i f).pages = s.pages := rfl
@[simp] theorem State.updLog_mem (s : State) (h i : Nat) (f : Access → Access) : (s.updLog h i f).mem = s.mem := rfl
@[simp] theorem State.updLog_poison (s : State) (h i : Nat) (f : Access → Access) : (s.updLog h i f).poison = s.poison := rfl
@[simp] theorem State.updLog_ticket (s : State) (h i : Nat) (f : Access → Access) : (s.updLog h i f).ticket = s.ticket := rfl
@[simp] theorem State.updLog_clock (s : State) (h i : Nat) (f : Access → Access) : (s.updLog h i f).clock = s.clock := rfl
@[simp] theorem State.updLog_pricever (s : State) (h i : Nat) (f : Access → Access) : (s.updLog h i f).pricever = s.pricever := rfl
@[simp] theorem State.updLog_remote (s : State) (h i : Nat) (f : Access → Access) : (s.updLog h i f).remote = s.remote := rfl
@[simp] theorem State.updLog_remotes (s : State) (h i : Nat) (f : Access → Access) : (s.updLog h i f).remotes = s.remotes := rfl
@[simp] theorem State.updLog_out (s : State) (h i : Nat) (f : Access → Access) : (s.updLog h i f).out = s.out := rfl
@[simp] theorem State.updLog_queues (s : State) (h i : Nat) (f : Access → Access) : (s.updLog h i f).queues = s.queues := rfl
@[simp] theorem State.updLog_packets (s : State) (h i : Nat) (f : Access → Access) : (s.updLog h i f).packets = s.packets := rfl
@[simp] theorem State.updLog_jobs (s : State) (h i : Nat) (f : Access → Access) : (s.updLog h i f).jobs = s.jobs := rfl
@[simp] theorem State.updLog_arms (s : State) (h i : Nat) (f : Access → Access) : (s.updLog h i f).arms = s.arms := rfl
@[simp] theorem State.updLog_arming (s : State) (h i : Nat) (f : Access → Access) : (s.updLog h i f).arming = s.arming := rfl
@[simp] theorem State.updLog_fired (s : State) (h i : Nat) (f : Access → Access) : (s.updLog h i f).fired = s.fired := rfl
@[simp] theorem State.updLog_ring (s : State) (h i : Nat) (f : Access → Access) : (s.updLog h i f).ring = s.ring := rfl
@[simp] theorem State.updLog_power (s : State) (h i : Nat) (f : Access → Access) : (s.updLog h i f).power = s.power := rfl
@[simp] theorem State.updLog_firm (s : State) (h i : Nat) (f : Access → Access) : (s.updLog h i f).firm = s.firm := rfl
@[simp] theorem State.updLog_links (s : State) (h i : Nat) (f : Access → Access) : (s.updLog h i f).links = s.links := rfl
@[simp] theorem State.updLog_qps (s : State) (h i : Nat) (f : Access → Access) : (s.updLog h i f).qps = s.qps := rfl
@[simp] theorem State.updLog_kickKey (s : State) (h i : Nat) (f : Access → Access) : (s.updLog h i f).kickKey = s.kickKey := rfl
@[simp] theorem State.updLog_colls (s : State) (h i : Nat) (f : Access → Access) : (s.updLog h i f).colls = s.colls := rfl
@[simp] theorem State.updLog_ended (s : State) (h i : Nat) (f : Access → Access) : (s.updLog h i f).ended = s.ended := rfl
@[simp] theorem State.updLog_chunks (s : State) (h i : Nat) (f : Access → Access) : (s.updLog h i f).chunks = s.chunks := rfl
@[simp] theorem State.updLog_posts (s : State) (h i : Nat) (f : Access → Access) : (s.updLog h i f).posts = s.posts := rfl
@[simp] theorem State.updLog_fetches (s : State) (h i : Nat) (f : Access → Access) : (s.updLog h i f).fetches = s.fetches := rfl
@[simp] theorem State.updLog_unmaps (s : State) (h i : Nat) (f : Access → Access) : (s.updLog h i f).unmaps = s.unmaps := rfl
@[simp] theorem State.updLog_parked (s : State) (h i : Nat) (f : Access → Access) : (s.updLog h i f).parked = s.parked := rfl
@[simp] theorem State.updLog_cur (s : State) (h i : Nat) (f : Access → Access) : (s.updLog h i f).cur = s.cur := rfl
@[simp] theorem State.updLog_agenda (s : State) (h i : Nat) (f : Access → Access) : (s.updLog h i f).agenda = s.agenda := rfl
@[simp] theorem State.updLog_turnNo (s : State) (h i : Nat) (f : Access → Access) : (s.updLog h i f).turnNo = s.turnNo := rfl
@[simp] theorem State.updLog_freeNo (s : State) (h i : Nat) (f : Access → Access) : (s.updLog h i f).freeNo = s.freeNo := rfl
@[simp] theorem State.updLog_nextId (s : State) (h i : Nat) (f : Access → Access) : (s.updLog h i f).nextId = s.nextId := rfl
@[simp] theorem State.updLog_mark (s : State) (h i : Nat) (f : Access → Access) : (s.updLog h i f).mark = s.mark := rfl

/-! ### State.reportGroup -/

@[simp] theorem State.reportGroup_groups (s : State) (h c a : Nat) (b : Bool) (pc l : Nat) : (s.reportGroup h c a b pc l).groups = s.groups := rfl
@[simp] theorem State.reportGroup_grids (s : State) (h c a : Nat) (b : Bool) (pc l : Nat) : (s.reportGroup h c a b pc l).grids = s.grids := rfl
@[simp] theorem State.reportGroup_cores (s : State) (h c a : Nat) (b : Bool) (pc l : Nat) : (s.reportGroup h c a b pc l).cores = s.cores := rfl
@[simp] theorem State.reportGroup_dies (s : State) (h c a : Nat) (b : Bool) (pc l : Nat) : (s.reportGroup h c a b pc l).dies = s.dies := rfl
@[simp] theorem State.reportGroup_pages (s : State) (h c a : Nat) (b : Bool) (pc l : Nat) : (s.reportGroup h c a b pc l).pages = s.pages := rfl
@[simp] theorem State.reportGroup_mem (s : State) (h c a : Nat) (b : Bool) (pc l : Nat) : (s.reportGroup h c a b pc l).mem = s.mem := rfl
@[simp] theorem State.reportGroup_poison (s : State) (h c a : Nat) (b : Bool) (pc l : Nat) : (s.reportGroup h c a b pc l).poison = s.poison := rfl
@[simp] theorem State.reportGroup_ticket (s : State) (h c a : Nat) (b : Bool) (pc l : Nat) : (s.reportGroup h c a b pc l).ticket = s.ticket := rfl
@[simp] theorem State.reportGroup_clock (s : State) (h c a : Nat) (b : Bool) (pc l : Nat) : (s.reportGroup h c a b pc l).clock = s.clock := rfl
@[simp] theorem State.reportGroup_pricever (s : State) (h c a : Nat) (b : Bool) (pc l : Nat) : (s.reportGroup h c a b pc l).pricever = s.pricever := rfl
@[simp] theorem State.reportGroup_remote (s : State) (h c a : Nat) (b : Bool) (pc l : Nat) : (s.reportGroup h c a b pc l).remote = s.remote := rfl
@[simp] theorem State.reportGroup_remotes (s : State) (h c a : Nat) (b : Bool) (pc l : Nat) : (s.reportGroup h c a b pc l).remotes = s.remotes := rfl
@[simp] theorem State.reportGroup_out (s : State) (h c a : Nat) (b : Bool) (pc l : Nat) : (s.reportGroup h c a b pc l).out = s.out := rfl
@[simp] theorem State.reportGroup_queues (s : State) (h c a : Nat) (b : Bool) (pc l : Nat) : (s.reportGroup h c a b pc l).queues = s.queues := rfl
@[simp] theorem State.reportGroup_packets (s : State) (h c a : Nat) (b : Bool) (pc l : Nat) : (s.reportGroup h c a b pc l).packets = s.packets := rfl
@[simp] theorem State.reportGroup_jobs (s : State) (h c a : Nat) (b : Bool) (pc l : Nat) : (s.reportGroup h c a b pc l).jobs = s.jobs := rfl
@[simp] theorem State.reportGroup_arms (s : State) (h c a : Nat) (b : Bool) (pc l : Nat) : (s.reportGroup h c a b pc l).arms = s.arms := rfl
@[simp] theorem State.reportGroup_arming (s : State) (h c a : Nat) (b : Bool) (pc l : Nat) : (s.reportGroup h c a b pc l).arming = s.arming := rfl
@[simp] theorem State.reportGroup_fired (s : State) (h c a : Nat) (b : Bool) (pc l : Nat) : (s.reportGroup h c a b pc l).fired = s.fired := rfl
@[simp] theorem State.reportGroup_ring (s : State) (h c a : Nat) (b : Bool) (pc l : Nat) : (s.reportGroup h c a b pc l).ring = s.ring := rfl
@[simp] theorem State.reportGroup_power (s : State) (h c a : Nat) (b : Bool) (pc l : Nat) : (s.reportGroup h c a b pc l).power = s.power := rfl
@[simp] theorem State.reportGroup_firm (s : State) (h c a : Nat) (b : Bool) (pc l : Nat) : (s.reportGroup h c a b pc l).firm = s.firm := rfl
@[simp] theorem State.reportGroup_links (s : State) (h c a : Nat) (b : Bool) (pc l : Nat) : (s.reportGroup h c a b pc l).links = s.links := rfl
@[simp] theorem State.reportGroup_qps (s : State) (h c a : Nat) (b : Bool) (pc l : Nat) : (s.reportGroup h c a b pc l).qps = s.qps := rfl
@[simp] theorem State.reportGroup_kickKey (s : State) (h c a : Nat) (b : Bool) (pc l : Nat) : (s.reportGroup h c a b pc l).kickKey = s.kickKey := rfl
@[simp] theorem State.reportGroup_colls (s : State) (h c a : Nat) (b : Bool) (pc l : Nat) : (s.reportGroup h c a b pc l).colls = s.colls := rfl
@[simp] theorem State.reportGroup_ended (s : State) (h c a : Nat) (b : Bool) (pc l : Nat) : (s.reportGroup h c a b pc l).ended = s.ended := rfl
@[simp] theorem State.reportGroup_chunks (s : State) (h c a : Nat) (b : Bool) (pc l : Nat) : (s.reportGroup h c a b pc l).chunks = s.chunks := rfl
@[simp] theorem State.reportGroup_posts (s : State) (h c a : Nat) (b : Bool) (pc l : Nat) : (s.reportGroup h c a b pc l).posts = s.posts := rfl
@[simp] theorem State.reportGroup_fetches (s : State) (h c a : Nat) (b : Bool) (pc l : Nat) : (s.reportGroup h c a b pc l).fetches = s.fetches := rfl
@[simp] theorem State.reportGroup_unmaps (s : State) (h c a : Nat) (b : Bool) (pc l : Nat) : (s.reportGroup h c a b pc l).unmaps = s.unmaps := rfl
@[simp] theorem State.reportGroup_parked (s : State) (h c a : Nat) (b : Bool) (pc l : Nat) : (s.reportGroup h c a b pc l).parked = s.parked := rfl
@[simp] theorem State.reportGroup_cur (s : State) (h c a : Nat) (b : Bool) (pc l : Nat) : (s.reportGroup h c a b pc l).cur = s.cur := rfl
@[simp] theorem State.reportGroup_agenda (s : State) (h c a : Nat) (b : Bool) (pc l : Nat) : (s.reportGroup h c a b pc l).agenda = s.agenda := rfl
@[simp] theorem State.reportGroup_turnNo (s : State) (h c a : Nat) (b : Bool) (pc l : Nat) : (s.reportGroup h c a b pc l).turnNo = s.turnNo := rfl
@[simp] theorem State.reportGroup_freeNo (s : State) (h c a : Nat) (b : Bool) (pc l : Nat) : (s.reportGroup h c a b pc l).freeNo = s.freeNo := rfl
@[simp] theorem State.reportGroup_nextId (s : State) (h c a : Nat) (b : Bool) (pc l : Nat) : (s.reportGroup h c a b pc l).nextId = s.nextId := rfl
@[simp] theorem State.reportGroup_mark (s : State) (h c a : Nat) (b : Bool) (pc l : Nat) : (s.reportGroup h c a b pc l).mark = s.mark := rfl

/-! ### State.killLanes -/

@[simp] theorem State.killLanes_grids (s : State) (h : Nat) (m : Lanes) : (s.killLanes h m).grids = s.grids := rfl
@[simp] theorem State.killLanes_cores (s : State) (h : Nat) (m : Lanes) : (s.killLanes h m).cores = s.cores := rfl
@[simp] theorem State.killLanes_dies (s : State) (h : Nat) (m : Lanes) : (s.killLanes h m).dies = s.dies := rfl
@[simp] theorem State.killLanes_pages (s : State) (h : Nat) (m : Lanes) : (s.killLanes h m).pages = s.pages := rfl
@[simp] theorem State.killLanes_mem (s : State) (h : Nat) (m : Lanes) : (s.killLanes h m).mem = s.mem := rfl
@[simp] theorem State.killLanes_poison (s : State) (h : Nat) (m : Lanes) : (s.killLanes h m).poison = s.poison := rfl
@[simp] theorem State.killLanes_ticket (s : State) (h : Nat) (m : Lanes) : (s.killLanes h m).ticket = s.ticket := rfl
@[simp] theorem State.killLanes_clock (s : State) (h : Nat) (m : Lanes) : (s.killLanes h m).clock = s.clock := rfl
@[simp] theorem State.killLanes_pricever (s : State) (h : Nat) (m : Lanes) : (s.killLanes h m).pricever = s.pricever := rfl
@[simp] theorem State.killLanes_remote (s : State) (h : Nat) (m : Lanes) : (s.killLanes h m).remote = s.remote := rfl
@[simp] theorem State.killLanes_remotes (s : State) (h : Nat) (m : Lanes) : (s.killLanes h m).remotes = s.remotes := rfl
@[simp] theorem State.killLanes_out (s : State) (h : Nat) (m : Lanes) : (s.killLanes h m).out = s.out := rfl
@[simp] theorem State.killLanes_queues (s : State) (h : Nat) (m : Lanes) : (s.killLanes h m).queues = s.queues := rfl
@[simp] theorem State.killLanes_packets (s : State) (h : Nat) (m : Lanes) : (s.killLanes h m).packets = s.packets := rfl
@[simp] theorem State.killLanes_jobs (s : State) (h : Nat) (m : Lanes) : (s.killLanes h m).jobs = s.jobs := rfl
@[simp] theorem State.killLanes_arms (s : State) (h : Nat) (m : Lanes) : (s.killLanes h m).arms = s.arms := rfl
@[simp] theorem State.killLanes_arming (s : State) (h : Nat) (m : Lanes) : (s.killLanes h m).arming = s.arming := rfl
@[simp] theorem State.killLanes_fired (s : State) (h : Nat) (m : Lanes) : (s.killLanes h m).fired = s.fired := rfl
@[simp] theorem State.killLanes_ring (s : State) (h : Nat) (m : Lanes) : (s.killLanes h m).ring = s.ring := rfl
@[simp] theorem State.killLanes_power (s : State) (h : Nat) (m : Lanes) : (s.killLanes h m).power = s.power := rfl
@[simp] theorem State.killLanes_firm (s : State) (h : Nat) (m : Lanes) : (s.killLanes h m).firm = s.firm := rfl
@[simp] theorem State.killLanes_links (s : State) (h : Nat) (m : Lanes) : (s.killLanes h m).links = s.links := rfl
@[simp] theorem State.killLanes_qps (s : State) (h : Nat) (m : Lanes) : (s.killLanes h m).qps = s.qps := rfl
@[simp] theorem State.killLanes_kickKey (s : State) (h : Nat) (m : Lanes) : (s.killLanes h m).kickKey = s.kickKey := rfl
@[simp] theorem State.killLanes_colls (s : State) (h : Nat) (m : Lanes) : (s.killLanes h m).colls = s.colls := rfl
@[simp] theorem State.killLanes_ended (s : State) (h : Nat) (m : Lanes) : (s.killLanes h m).ended = s.ended := rfl
@[simp] theorem State.killLanes_chunks (s : State) (h : Nat) (m : Lanes) : (s.killLanes h m).chunks = s.chunks := rfl
@[simp] theorem State.killLanes_posts (s : State) (h : Nat) (m : Lanes) : (s.killLanes h m).posts = s.posts := rfl
@[simp] theorem State.killLanes_fetches (s : State) (h : Nat) (m : Lanes) : (s.killLanes h m).fetches = s.fetches := rfl
@[simp] theorem State.killLanes_unmaps (s : State) (h : Nat) (m : Lanes) : (s.killLanes h m).unmaps = s.unmaps := rfl
@[simp] theorem State.killLanes_parked (s : State) (h : Nat) (m : Lanes) : (s.killLanes h m).parked = s.parked := rfl
@[simp] theorem State.killLanes_cur (s : State) (h : Nat) (m : Lanes) : (s.killLanes h m).cur = s.cur := rfl
@[simp] theorem State.killLanes_agenda (s : State) (h : Nat) (m : Lanes) : (s.killLanes h m).agenda = s.agenda := rfl
@[simp] theorem State.killLanes_turnNo (s : State) (h : Nat) (m : Lanes) : (s.killLanes h m).turnNo = s.turnNo := rfl
@[simp] theorem State.killLanes_freeNo (s : State) (h : Nat) (m : Lanes) : (s.killLanes h m).freeNo = s.freeNo := rfl
@[simp] theorem State.killLanes_nextId (s : State) (h : Nat) (m : Lanes) : (s.killLanes h m).nextId = s.nextId := rfl
@[simp] theorem State.killLanes_mark (s : State) (h : Nat) (m : Lanes) : (s.killLanes h m).mark = s.mark := rfl

/-! ### Group.goTo -/

@[simp] theorem Group.goTo_team (g : Group) (pc : Nat) : (g.goTo pc).team = g.team := rfl
@[simp] theorem Group.goTo_grpid (g : Group) (pc : Nat) : (g.goTo pc).grpid = g.grpid := rfl
@[simp] theorem Group.goTo_slot (g : Group) (pc : Nat) : (g.goTo pc).slot = g.slot := rfl
@[simp] theorem Group.goTo_window (g : Group) (pc : Nat) : (g.goTo pc).window = g.window := rfl
@[simp] theorem Group.goTo_units (g : Group) (pc : Nat) : (g.goTo pc).units = g.units := rfl
@[simp] theorem Group.goTo_reserve (g : Group) (pc : Nat) : (g.goTo pc).reserve = g.reserve := rfl
@[simp] theorem Group.goTo_ceil (g : Group) (pc : Nat) : (g.goTo pc).ceil = g.ceil := rfl
@[simp] theorem Group.goTo_exited (g : Group) (pc : Nat) : (g.goTo pc).exited = g.exited := rfl
@[simp] theorem Group.goTo_sregs (g : Group) (pc : Nat) : (g.goTo pc).sregs = g.sregs := rfl
@[simp] theorem Group.goTo_bools (g : Group) (pc : Nat) : (g.goTo pc).bools = g.bools := rfl
@[simp] theorem Group.goTo_swait (g : Group) (pc : Nat) : (g.goTo pc).swait = g.swait := rfl
@[simp] theorem Group.goTo_sgrant (g : Group) (pc : Nat) : (g.goTo pc).sgrant = g.sgrant := rfl
@[simp] theorem Group.goTo_run (g : Group) (pc : Nat) : (g.goTo pc).run = g.run := rfl
@[simp] theorem Group.goTo_active (g : Group) (pc : Nat) : (g.goTo pc).active = g.active := rfl
@[simp] theorem Group.goTo_ldead (g : Group) (pc : Nat) : (g.goTo pc).ldead = g.ldead := rfl
@[simp] theorem Group.goTo_masks (g : Group) (pc : Nat) : (g.goTo pc).masks = g.masks := rfl
@[simp] theorem Group.goTo_lgrant (g : Group) (pc : Nat) : (g.goTo pc).lgrant = g.lgrant := rfl
@[simp] theorem Group.goTo_lpush (g : Group) (pc : Nat) : (g.goTo pc).lpush = g.lpush := rfl
@[simp] theorem Group.goTo_blocks (g : Group) (pc : Nat) : (g.goTo pc).blocks = g.blocks := rfl
@[simp] theorem Group.goTo_lq (g : Group) (pc : Nat) : (g.goTo pc).lq = g.lq := rfl
@[simp] theorem Group.goTo_sq (g : Group) (pc : Nat) : (g.goTo pc).sq = g.sq := rfl
@[simp] theorem Group.goTo_aq (g : Group) (pc : Nat) : (g.goTo pc).aq = g.aq := rfl
@[simp] theorem Group.goTo_rq (g : Group) (pc : Nat) : (g.goTo pc).rq = g.rq := rfl
@[simp] theorem Group.goTo_stack (g : Group) (pc : Nat) : (g.goTo pc).stack = g.stack := rfl
@[simp] theorem Group.goTo_cells (g : Group) (pc : Nat) : (g.goTo pc).cells = g.cells := rfl
@[simp] theorem Group.goTo_empties (g : Group) (pc : Nat) : (g.goTo pc).empties = g.empties := rfl
@[simp] theorem Group.goTo_errs (g : Group) (pc : Nat) : (g.goTo pc).errs = g.errs := rfl
@[simp] theorem Group.goTo_prec (g : Group) (pc : Nat) : (g.goTo pc).prec = g.prec := rfl
@[simp] theorem Group.goTo_z (g : Group) (pc : Nat) : (g.goTo pc).z = g.z := rfl
@[simp] theorem Group.goTo_thread (g : Group) (pc : Nat) : (g.goTo pc).thread = g.thread := rfl
@[simp] theorem Group.goTo_longs (g : Group) (pc : Nat) : (g.goTo pc).longs = g.longs := rfl
@[simp] theorem Group.goTo_vploads (g : Group) (pc : Nat) : (g.goTo pc).vploads = g.vploads := rfl
@[simp] theorem Group.goTo_joins (g : Group) (pc : Nat) : (g.goTo pc).joins = g.joins := rfl
@[simp] theorem Group.goTo_accmap (g : Group) (pc : Nat) : (g.goTo pc).accmap = g.accmap := rfl
@[simp] theorem Group.goTo_tileset (g : Group) (pc : Nat) : (g.goTo pc).tileset = g.tileset := rfl
@[simp] theorem Group.goTo_outs (g : Group) (pc : Nat) : (g.goTo pc).outs = g.outs := rfl
@[simp] theorem Group.goTo_entered (g : Group) (pc : Nat) : (g.goTo pc).entered = g.entered := rfl
@[simp] theorem Group.goTo_log (g : Group) (pc : Nat) : (g.goTo pc).log = g.log := rfl
@[simp] theorem Group.goTo_lseq (g : Group) (pc : Nat) : (g.goTo pc).lseq = g.lseq := rfl
@[simp] theorem Group.goTo_sseen (g : Group) (pc : Nat) : (g.goTo pc).sseen = g.sseen := rfl
@[simp] theorem Group.goTo_lseen (g : Group) (pc : Nat) : (g.goTo pc).lseen = g.lseen := rfl
@[simp] theorem Group.goTo_pull (g : Group) (pc : Nat) : (g.goTo pc).pull = g.pull := rfl
@[simp] theorem Group.goTo_sr (g : Group) (pc : Nat) : (g.goTo pc).sr = g.sr := rfl
@[simp] theorem Group.goTo_rank (g : Group) (pc : Nat) : (g.goTo pc).rank = g.rank := rfl
@[simp] theorem Group.goTo_arrived (g : Group) (pc : Nat) : (g.goTo pc).arrived = g.arrived := rfl
@[simp] theorem Group.goTo_tbars (g : Group) (pc : Nat) : (g.goTo pc).tbars = g.tbars := rfl
@[simp] theorem Group.goTo_sready (g : Group) (pc : Nat) : (g.goTo pc).sready = g.sready := rfl
@[simp] theorem Group.goTo_lready (g : Group) (pc : Nat) : (g.goTo pc).lready = g.lready := rfl
@[simp] theorem Group.goTo_held (g : Group) (pc : Nat) : (g.goTo pc).held = g.held := rfl
@[simp] theorem Group.goTo_extra (g : Group) (pc : Nat) : (g.goTo pc).extra = g.extra := rfl
@[simp] theorem Group.goTo_sig (g : Group) (pc : Nat) : (g.goTo pc).sig = g.sig := rfl
@[simp] theorem Group.goTo_point (g : Group) (pc : Nat) : (g.goTo pc).point = g.point := rfl
@[simp] theorem Group.goTo_atPoint (g : Group) (pc : Nat) : (g.goTo pc).atPoint = g.atPoint := rfl
@[simp] theorem Group.goTo_pointOk (g : Group) (pc : Nat) : (g.goTo pc).pointOk = g.pointOk := rfl
@[simp] theorem Group.goTo_inbox (g : Group) (pc : Nat) : (g.goTo pc).inbox = g.inbox := rfl
@[simp] theorem Group.goTo_recno (g : Group) (pc : Nat) : (g.goTo pc).recno = g.recno := rfl
@[simp] theorem Group.goTo_bskip (g : Group) (pc : Nat) : (g.goTo pc).bskip = g.bskip := rfl

/-! ### Group.advance -/

@[simp] theorem Group.advance_team (g : Group) (n : Nat) : (g.advance n).team = g.team := rfl
@[simp] theorem Group.advance_grpid (g : Group) (n : Nat) : (g.advance n).grpid = g.grpid := rfl
@[simp] theorem Group.advance_slot (g : Group) (n : Nat) : (g.advance n).slot = g.slot := rfl
@[simp] theorem Group.advance_window (g : Group) (n : Nat) : (g.advance n).window = g.window := rfl
@[simp] theorem Group.advance_units (g : Group) (n : Nat) : (g.advance n).units = g.units := rfl
@[simp] theorem Group.advance_reserve (g : Group) (n : Nat) : (g.advance n).reserve = g.reserve := rfl
@[simp] theorem Group.advance_ceil (g : Group) (n : Nat) : (g.advance n).ceil = g.ceil := rfl
@[simp] theorem Group.advance_exited (g : Group) (n : Nat) : (g.advance n).exited = g.exited := rfl
@[simp] theorem Group.advance_sregs (g : Group) (n : Nat) : (g.advance n).sregs = g.sregs := rfl
@[simp] theorem Group.advance_bools (g : Group) (n : Nat) : (g.advance n).bools = g.bools := rfl
@[simp] theorem Group.advance_swait (g : Group) (n : Nat) : (g.advance n).swait = g.swait := rfl
@[simp] theorem Group.advance_sgrant (g : Group) (n : Nat) : (g.advance n).sgrant = g.sgrant := rfl
@[simp] theorem Group.advance_run (g : Group) (n : Nat) : (g.advance n).run = g.run := rfl
@[simp] theorem Group.advance_active (g : Group) (n : Nat) : (g.advance n).active = g.active := rfl
@[simp] theorem Group.advance_ldead (g : Group) (n : Nat) : (g.advance n).ldead = g.ldead := rfl
@[simp] theorem Group.advance_masks (g : Group) (n : Nat) : (g.advance n).masks = g.masks := rfl
@[simp] theorem Group.advance_lgrant (g : Group) (n : Nat) : (g.advance n).lgrant = g.lgrant := rfl
@[simp] theorem Group.advance_lpush (g : Group) (n : Nat) : (g.advance n).lpush = g.lpush := rfl
@[simp] theorem Group.advance_blocks (g : Group) (n : Nat) : (g.advance n).blocks = g.blocks := rfl
@[simp] theorem Group.advance_lq (g : Group) (n : Nat) : (g.advance n).lq = g.lq := rfl
@[simp] theorem Group.advance_sq (g : Group) (n : Nat) : (g.advance n).sq = g.sq := rfl
@[simp] theorem Group.advance_aq (g : Group) (n : Nat) : (g.advance n).aq = g.aq := rfl
@[simp] theorem Group.advance_rq (g : Group) (n : Nat) : (g.advance n).rq = g.rq := rfl
@[simp] theorem Group.advance_stack (g : Group) (n : Nat) : (g.advance n).stack = g.stack := rfl
@[simp] theorem Group.advance_cells (g : Group) (n : Nat) : (g.advance n).cells = g.cells := rfl
@[simp] theorem Group.advance_empties (g : Group) (n : Nat) : (g.advance n).empties = g.empties := rfl
@[simp] theorem Group.advance_errs (g : Group) (n : Nat) : (g.advance n).errs = g.errs := rfl
@[simp] theorem Group.advance_prec (g : Group) (n : Nat) : (g.advance n).prec = g.prec := rfl
@[simp] theorem Group.advance_z (g : Group) (n : Nat) : (g.advance n).z = g.z := rfl
@[simp] theorem Group.advance_thread (g : Group) (n : Nat) : (g.advance n).thread = g.thread := rfl
@[simp] theorem Group.advance_longs (g : Group) (n : Nat) : (g.advance n).longs = g.longs := rfl
@[simp] theorem Group.advance_vploads (g : Group) (n : Nat) : (g.advance n).vploads = g.vploads := rfl
@[simp] theorem Group.advance_joins (g : Group) (n : Nat) : (g.advance n).joins = g.joins := rfl
@[simp] theorem Group.advance_accmap (g : Group) (n : Nat) : (g.advance n).accmap = g.accmap := rfl
@[simp] theorem Group.advance_tileset (g : Group) (n : Nat) : (g.advance n).tileset = g.tileset := rfl
@[simp] theorem Group.advance_outs (g : Group) (n : Nat) : (g.advance n).outs = g.outs := rfl
@[simp] theorem Group.advance_entered (g : Group) (n : Nat) : (g.advance n).entered = g.entered := rfl
@[simp] theorem Group.advance_log (g : Group) (n : Nat) : (g.advance n).log = g.log := rfl
@[simp] theorem Group.advance_lseq (g : Group) (n : Nat) : (g.advance n).lseq = g.lseq := rfl
@[simp] theorem Group.advance_sseen (g : Group) (n : Nat) : (g.advance n).sseen = g.sseen := rfl
@[simp] theorem Group.advance_lseen (g : Group) (n : Nat) : (g.advance n).lseen = g.lseen := rfl
@[simp] theorem Group.advance_pull (g : Group) (n : Nat) : (g.advance n).pull = g.pull := rfl
@[simp] theorem Group.advance_sr (g : Group) (n : Nat) : (g.advance n).sr = g.sr := rfl
@[simp] theorem Group.advance_rank (g : Group) (n : Nat) : (g.advance n).rank = g.rank := rfl
@[simp] theorem Group.advance_arrived (g : Group) (n : Nat) : (g.advance n).arrived = g.arrived := rfl
@[simp] theorem Group.advance_tbars (g : Group) (n : Nat) : (g.advance n).tbars = g.tbars := rfl
@[simp] theorem Group.advance_sready (g : Group) (n : Nat) : (g.advance n).sready = g.sready := rfl
@[simp] theorem Group.advance_lready (g : Group) (n : Nat) : (g.advance n).lready = g.lready := rfl
@[simp] theorem Group.advance_held (g : Group) (n : Nat) : (g.advance n).held = g.held := rfl
@[simp] theorem Group.advance_extra (g : Group) (n : Nat) : (g.advance n).extra = g.extra := rfl
@[simp] theorem Group.advance_sig (g : Group) (n : Nat) : (g.advance n).sig = g.sig := rfl
@[simp] theorem Group.advance_point (g : Group) (n : Nat) : (g.advance n).point = g.point := rfl
@[simp] theorem Group.advance_atPoint (g : Group) (n : Nat) : (g.advance n).atPoint = g.atPoint := rfl
@[simp] theorem Group.advance_pointOk (g : Group) (n : Nat) : (g.advance n).pointOk = g.pointOk := rfl
@[simp] theorem Group.advance_inbox (g : Group) (n : Nat) : (g.advance n).inbox = g.inbox := rfl
@[simp] theorem Group.advance_recno (g : Group) (n : Nat) : (g.advance n).recno = g.recno := rfl
@[simp] theorem Group.advance_bskip (g : Group) (n : Nat) : (g.advance n).bskip = g.bskip := rfl

/-! ### Group.laneTo -/

@[simp] theorem Group.laneTo_team (g : Group) (pc : Nat) : (g.laneTo pc).team = g.team := rfl
@[simp] theorem Group.laneTo_grpid (g : Group) (pc : Nat) : (g.laneTo pc).grpid = g.grpid := rfl
@[simp] theorem Group.laneTo_slot (g : Group) (pc : Nat) : (g.laneTo pc).slot = g.slot := rfl
@[simp] theorem Group.laneTo_window (g : Group) (pc : Nat) : (g.laneTo pc).window = g.window := rfl
@[simp] theorem Group.laneTo_units (g : Group) (pc : Nat) : (g.laneTo pc).units = g.units := rfl
@[simp] theorem Group.laneTo_reserve (g : Group) (pc : Nat) : (g.laneTo pc).reserve = g.reserve := rfl
@[simp] theorem Group.laneTo_ceil (g : Group) (pc : Nat) : (g.laneTo pc).ceil = g.ceil := rfl
@[simp] theorem Group.laneTo_exited (g : Group) (pc : Nat) : (g.laneTo pc).exited = g.exited := rfl
@[simp] theorem Group.laneTo_pc (g : Group) (pc : Nat) : (g.laneTo pc).pc = g.pc := rfl
@[simp] theorem Group.laneTo_sregs (g : Group) (pc : Nat) : (g.laneTo pc).sregs = g.sregs := rfl
@[simp] theorem Group.laneTo_bools (g : Group) (pc : Nat) : (g.laneTo pc).bools = g.bools := rfl
@[simp] theorem Group.laneTo_swait (g : Group) (pc : Nat) : (g.laneTo pc).swait = g.swait := rfl
@[simp] theorem Group.laneTo_sgrant (g : Group) (pc : Nat) : (g.laneTo pc).sgrant = g.sgrant := rfl
@[simp] theorem Group.laneTo_active (g : Group) (pc : Nat) : (g.laneTo pc).active = g.active := rfl
@[simp] theorem Group.laneTo_ldead (g : Group) (pc : Nat) : (g.laneTo pc).ldead = g.ldead := rfl
@[simp] theorem Group.laneTo_masks (g : Group) (pc : Nat) : (g.laneTo pc).masks = g.masks := rfl
@[simp] theorem Group.laneTo_lgrant (g : Group) (pc : Nat) : (g.laneTo pc).lgrant = g.lgrant := rfl
@[simp] theorem Group.laneTo_lpush (g : Group) (pc : Nat) : (g.laneTo pc).lpush = g.lpush := rfl
@[simp] theorem Group.laneTo_blocks (g : Group) (pc : Nat) : (g.laneTo pc).blocks = g.blocks := rfl
@[simp] theorem Group.laneTo_lq (g : Group) (pc : Nat) : (g.laneTo pc).lq = g.lq := rfl
@[simp] theorem Group.laneTo_sq (g : Group) (pc : Nat) : (g.laneTo pc).sq = g.sq := rfl
@[simp] theorem Group.laneTo_aq (g : Group) (pc : Nat) : (g.laneTo pc).aq = g.aq := rfl
@[simp] theorem Group.laneTo_rq (g : Group) (pc : Nat) : (g.laneTo pc).rq = g.rq := rfl
@[simp] theorem Group.laneTo_stack (g : Group) (pc : Nat) : (g.laneTo pc).stack = g.stack := rfl
@[simp] theorem Group.laneTo_cells (g : Group) (pc : Nat) : (g.laneTo pc).cells = g.cells := rfl
@[simp] theorem Group.laneTo_empties (g : Group) (pc : Nat) : (g.laneTo pc).empties = g.empties := rfl
@[simp] theorem Group.laneTo_errs (g : Group) (pc : Nat) : (g.laneTo pc).errs = g.errs := rfl
@[simp] theorem Group.laneTo_prec (g : Group) (pc : Nat) : (g.laneTo pc).prec = g.prec := rfl
@[simp] theorem Group.laneTo_z (g : Group) (pc : Nat) : (g.laneTo pc).z = g.z := rfl
@[simp] theorem Group.laneTo_thread (g : Group) (pc : Nat) : (g.laneTo pc).thread = g.thread := rfl
@[simp] theorem Group.laneTo_longs (g : Group) (pc : Nat) : (g.laneTo pc).longs = g.longs := rfl
@[simp] theorem Group.laneTo_vploads (g : Group) (pc : Nat) : (g.laneTo pc).vploads = g.vploads := rfl
@[simp] theorem Group.laneTo_joins (g : Group) (pc : Nat) : (g.laneTo pc).joins = g.joins := rfl
@[simp] theorem Group.laneTo_accmap (g : Group) (pc : Nat) : (g.laneTo pc).accmap = g.accmap := rfl
@[simp] theorem Group.laneTo_tileset (g : Group) (pc : Nat) : (g.laneTo pc).tileset = g.tileset := rfl
@[simp] theorem Group.laneTo_outs (g : Group) (pc : Nat) : (g.laneTo pc).outs = g.outs := rfl
@[simp] theorem Group.laneTo_entered (g : Group) (pc : Nat) : (g.laneTo pc).entered = g.entered := rfl
@[simp] theorem Group.laneTo_log (g : Group) (pc : Nat) : (g.laneTo pc).log = g.log := rfl
@[simp] theorem Group.laneTo_seq (g : Group) (pc : Nat) : (g.laneTo pc).seq = g.seq := rfl
@[simp] theorem Group.laneTo_sseen (g : Group) (pc : Nat) : (g.laneTo pc).sseen = g.sseen := rfl
@[simp] theorem Group.laneTo_lseen (g : Group) (pc : Nat) : (g.laneTo pc).lseen = g.lseen := rfl
@[simp] theorem Group.laneTo_pull (g : Group) (pc : Nat) : (g.laneTo pc).pull = g.pull := rfl
@[simp] theorem Group.laneTo_sr (g : Group) (pc : Nat) : (g.laneTo pc).sr = g.sr := rfl
@[simp] theorem Group.laneTo_rank (g : Group) (pc : Nat) : (g.laneTo pc).rank = g.rank := rfl
@[simp] theorem Group.laneTo_arrived (g : Group) (pc : Nat) : (g.laneTo pc).arrived = g.arrived := rfl
@[simp] theorem Group.laneTo_tbars (g : Group) (pc : Nat) : (g.laneTo pc).tbars = g.tbars := rfl
@[simp] theorem Group.laneTo_sready (g : Group) (pc : Nat) : (g.laneTo pc).sready = g.sready := rfl
@[simp] theorem Group.laneTo_lready (g : Group) (pc : Nat) : (g.laneTo pc).lready = g.lready := rfl
@[simp] theorem Group.laneTo_held (g : Group) (pc : Nat) : (g.laneTo pc).held = g.held := rfl
@[simp] theorem Group.laneTo_extra (g : Group) (pc : Nat) : (g.laneTo pc).extra = g.extra := rfl
@[simp] theorem Group.laneTo_sig (g : Group) (pc : Nat) : (g.laneTo pc).sig = g.sig := rfl
@[simp] theorem Group.laneTo_point (g : Group) (pc : Nat) : (g.laneTo pc).point = g.point := rfl
@[simp] theorem Group.laneTo_atPoint (g : Group) (pc : Nat) : (g.laneTo pc).atPoint = g.atPoint := rfl
@[simp] theorem Group.laneTo_pointOk (g : Group) (pc : Nat) : (g.laneTo pc).pointOk = g.pointOk := rfl
@[simp] theorem Group.laneTo_inbox (g : Group) (pc : Nat) : (g.laneTo pc).inbox = g.inbox := rfl
@[simp] theorem Group.laneTo_recno (g : Group) (pc : Nat) : (g.laneTo pc).recno = g.recno := rfl

/-! ### Group.swrite -/

@[simp] theorem Group.swrite_team (g : Group) (r : SReg) (v : Word) : (g.swrite r v).team = g.team := by
  unfold Group.swrite; split <;> rfl
@[simp] theorem Group.swrite_grpid (g : Group) (r : SReg) (v : Word) : (g.swrite r v).grpid = g.grpid := by
  unfold Group.swrite; split <;> rfl
@[simp] theorem Group.swrite_slot (g : Group) (r : SReg) (v : Word) : (g.swrite r v).slot = g.slot := by
  unfold Group.swrite; split <;> rfl
@[simp] theorem Group.swrite_window (g : Group) (r : SReg) (v : Word) : (g.swrite r v).window = g.window := by
  unfold Group.swrite; split <;> rfl
@[simp] theorem Group.swrite_units (g : Group) (r : SReg) (v : Word) : (g.swrite r v).units = g.units := by
  unfold Group.swrite; split <;> rfl
@[simp] theorem Group.swrite_reserve (g : Group) (r : SReg) (v : Word) : (g.swrite r v).reserve = g.reserve := by
  unfold Group.swrite; split <;> rfl
@[simp] theorem Group.swrite_ceil (g : Group) (r : SReg) (v : Word) : (g.swrite r v).ceil = g.ceil := by
  unfold Group.swrite; split <;> rfl
@[simp] theorem Group.swrite_exited (g : Group) (r : SReg) (v : Word) : (g.swrite r v).exited = g.exited := by
  unfold Group.swrite; split <;> rfl
@[simp] theorem Group.swrite_pc (g : Group) (r : SReg) (v : Word) : (g.swrite r v).pc = g.pc := by
  unfold Group.swrite; split <;> rfl
@[simp] theorem Group.swrite_bools (g : Group) (r : SReg) (v : Word) : (g.swrite r v).bools = g.bools := by
  unfold Group.swrite; split <;> rfl
@[simp] theorem Group.swrite_swait (g : Group) (r : SReg) (v : Word) : (g.swrite r v).swait = g.swait := by
  unfold Group.swrite; split <;> rfl
@[simp] theorem Group.swrite_sgrant (g : Group) (r : SReg) (v : Word) : (g.swrite r v).sgrant = g.sgrant := by
  unfold Group.swrite; split <;> rfl
@[simp] theorem Group.swrite_run (g : Group) (r : SReg) (v : Word) : (g.swrite r v).run = g.run := by
  unfold Group.swrite; split <;> rfl
@[simp] theorem Group.swrite_active (g : Group) (r : SReg) (v : Word) : (g.swrite r v).active = g.active := by
  unfold Group.swrite; split <;> rfl
@[simp] theorem Group.swrite_ldead (g : Group) (r : SReg) (v : Word) : (g.swrite r v).ldead = g.ldead := by
  unfold Group.swrite; split <;> rfl
@[simp] theorem Group.swrite_masks (g : Group) (r : SReg) (v : Word) : (g.swrite r v).masks = g.masks := by
  unfold Group.swrite; split <;> rfl
@[simp] theorem Group.swrite_lgrant (g : Group) (r : SReg) (v : Word) : (g.swrite r v).lgrant = g.lgrant := by
  unfold Group.swrite; split <;> rfl
@[simp] theorem Group.swrite_lpush (g : Group) (r : SReg) (v : Word) : (g.swrite r v).lpush = g.lpush := by
  unfold Group.swrite; split <;> rfl
@[simp] theorem Group.swrite_blocks (g : Group) (r : SReg) (v : Word) : (g.swrite r v).blocks = g.blocks := by
  unfold Group.swrite; split <;> rfl
@[simp] theorem Group.swrite_lq (g : Group) (r : SReg) (v : Word) : (g.swrite r v).lq = g.lq := by
  unfold Group.swrite; split <;> rfl
@[simp] theorem Group.swrite_sq (g : Group) (r : SReg) (v : Word) : (g.swrite r v).sq = g.sq := by
  unfold Group.swrite; split <;> rfl
@[simp] theorem Group.swrite_aq (g : Group) (r : SReg) (v : Word) : (g.swrite r v).aq = g.aq := by
  unfold Group.swrite; split <;> rfl
@[simp] theorem Group.swrite_rq (g : Group) (r : SReg) (v : Word) : (g.swrite r v).rq = g.rq := by
  unfold Group.swrite; split <;> rfl
@[simp] theorem Group.swrite_stack (g : Group) (r : SReg) (v : Word) : (g.swrite r v).stack = g.stack := by
  unfold Group.swrite; split <;> rfl
@[simp] theorem Group.swrite_cells (g : Group) (r : SReg) (v : Word) : (g.swrite r v).cells = g.cells := by
  unfold Group.swrite; split <;> rfl
@[simp] theorem Group.swrite_empties (g : Group) (r : SReg) (v : Word) : (g.swrite r v).empties = g.empties := by
  unfold Group.swrite; split <;> rfl
@[simp] theorem Group.swrite_errs (g : Group) (r : SReg) (v : Word) : (g.swrite r v).errs = g.errs := by
  unfold Group.swrite; split <;> rfl
@[simp] theorem Group.swrite_prec (g : Group) (r : SReg) (v : Word) : (g.swrite r v).prec = g.prec := by
  unfold Group.swrite; split <;> rfl
@[simp] theorem Group.swrite_z (g : Group) (r : SReg) (v : Word) : (g.swrite r v).z = g.z := by
  unfold Group.swrite; split <;> rfl
@[simp] theorem Group.swrite_thread (g : Group) (r : SReg) (v : Word) : (g.swrite r v).thread = g.thread := by
  unfold Group.swrite; split <;> rfl
@[simp] theorem Group.swrite_longs (g : Group) (r : SReg) (v : Word) : (g.swrite r v).longs = g.longs := by
  unfold Group.swrite; split <;> rfl
@[simp] theorem Group.swrite_vploads (g : Group) (r : SReg) (v : Word) : (g.swrite r v).vploads = g.vploads := by
  unfold Group.swrite; split <;> rfl
@[simp] theorem Group.swrite_joins (g : Group) (r : SReg) (v : Word) : (g.swrite r v).joins = g.joins := by
  unfold Group.swrite; split <;> rfl
@[simp] theorem Group.swrite_accmap (g : Group) (r : SReg) (v : Word) : (g.swrite r v).accmap = g.accmap := by
  unfold Group.swrite; split <;> rfl
@[simp] theorem Group.swrite_tileset (g : Group) (r : SReg) (v : Word) : (g.swrite r v).tileset = g.tileset := by
  unfold Group.swrite; split <;> rfl
@[simp] theorem Group.swrite_outs (g : Group) (r : SReg) (v : Word) : (g.swrite r v).outs = g.outs := by
  unfold Group.swrite; split <;> rfl
@[simp] theorem Group.swrite_entered (g : Group) (r : SReg) (v : Word) : (g.swrite r v).entered = g.entered := by
  unfold Group.swrite; split <;> rfl
@[simp] theorem Group.swrite_log (g : Group) (r : SReg) (v : Word) : (g.swrite r v).log = g.log := by
  unfold Group.swrite; split <;> rfl
@[simp] theorem Group.swrite_seq (g : Group) (r : SReg) (v : Word) : (g.swrite r v).seq = g.seq := by
  unfold Group.swrite; split <;> rfl
@[simp] theorem Group.swrite_lseq (g : Group) (r : SReg) (v : Word) : (g.swrite r v).lseq = g.lseq := by
  unfold Group.swrite; split <;> rfl
@[simp] theorem Group.swrite_sseen (g : Group) (r : SReg) (v : Word) : (g.swrite r v).sseen = g.sseen := by
  unfold Group.swrite; split <;> rfl
@[simp] theorem Group.swrite_lseen (g : Group) (r : SReg) (v : Word) : (g.swrite r v).lseen = g.lseen := by
  unfold Group.swrite; split <;> rfl
@[simp] theorem Group.swrite_pull (g : Group) (r : SReg) (v : Word) : (g.swrite r v).pull = g.pull := by
  unfold Group.swrite; split <;> rfl
@[simp] theorem Group.swrite_sr (g : Group) (r : SReg) (v : Word) : (g.swrite r v).sr = g.sr := by
  unfold Group.swrite; split <;> rfl
@[simp] theorem Group.swrite_rank (g : Group) (r : SReg) (v : Word) : (g.swrite r v).rank = g.rank := by
  unfold Group.swrite; split <;> rfl
@[simp] theorem Group.swrite_arrived (g : Group) (r : SReg) (v : Word) : (g.swrite r v).arrived = g.arrived := by
  unfold Group.swrite; split <;> rfl
@[simp] theorem Group.swrite_tbars (g : Group) (r : SReg) (v : Word) : (g.swrite r v).tbars = g.tbars := by
  unfold Group.swrite; split <;> rfl
@[simp] theorem Group.swrite_sblock (g : Group) (r : SReg) (v : Word) : (g.swrite r v).sblock = g.sblock := by
  unfold Group.swrite; split <;> rfl
@[simp] theorem Group.swrite_lblock (g : Group) (r : SReg) (v : Word) : (g.swrite r v).lblock = g.lblock := by
  unfold Group.swrite; split <;> rfl
@[simp] theorem Group.swrite_sready (g : Group) (r : SReg) (v : Word) : (g.swrite r v).sready = g.sready := by
  unfold Group.swrite; split <;> rfl
@[simp] theorem Group.swrite_lready (g : Group) (r : SReg) (v : Word) : (g.swrite r v).lready = g.lready := by
  unfold Group.swrite; split <;> rfl
@[simp] theorem Group.swrite_held (g : Group) (r : SReg) (v : Word) : (g.swrite r v).held = g.held := by
  unfold Group.swrite; split <;> rfl
@[simp] theorem Group.swrite_extra (g : Group) (r : SReg) (v : Word) : (g.swrite r v).extra = g.extra := by
  unfold Group.swrite; split <;> rfl
@[simp] theorem Group.swrite_sig (g : Group) (r : SReg) (v : Word) : (g.swrite r v).sig = g.sig := by
  unfold Group.swrite; split <;> rfl
@[simp] theorem Group.swrite_point (g : Group) (r : SReg) (v : Word) : (g.swrite r v).point = g.point := by
  unfold Group.swrite; split <;> rfl
@[simp] theorem Group.swrite_atPoint (g : Group) (r : SReg) (v : Word) : (g.swrite r v).atPoint = g.atPoint := by
  unfold Group.swrite; split <;> rfl
@[simp] theorem Group.swrite_pointOk (g : Group) (r : SReg) (v : Word) : (g.swrite r v).pointOk = g.pointOk := by
  unfold Group.swrite; split <;> rfl
@[simp] theorem Group.swrite_inbox (g : Group) (r : SReg) (v : Word) : (g.swrite r v).inbox = g.inbox := by
  unfold Group.swrite; split <;> rfl
@[simp] theorem Group.swrite_recno (g : Group) (r : SReg) (v : Word) : (g.swrite r v).recno = g.recno := by
  unfold Group.swrite; split <;> rfl
@[simp] theorem Group.swrite_bskip (g : Group) (r : SReg) (v : Word) : (g.swrite r v).bskip = g.bskip := by
  unfold Group.swrite; split <;> rfl

/-! ### Group.bwrite -/

@[simp] theorem Group.bwrite_team (g : Group) (p : BitVec 3) (v : Bool) : (g.bwrite p v).team = g.team := by
  unfold Group.bwrite; split <;> rfl
@[simp] theorem Group.bwrite_grpid (g : Group) (p : BitVec 3) (v : Bool) : (g.bwrite p v).grpid = g.grpid := by
  unfold Group.bwrite; split <;> rfl
@[simp] theorem Group.bwrite_slot (g : Group) (p : BitVec 3) (v : Bool) : (g.bwrite p v).slot = g.slot := by
  unfold Group.bwrite; split <;> rfl
@[simp] theorem Group.bwrite_window (g : Group) (p : BitVec 3) (v : Bool) : (g.bwrite p v).window = g.window := by
  unfold Group.bwrite; split <;> rfl
@[simp] theorem Group.bwrite_units (g : Group) (p : BitVec 3) (v : Bool) : (g.bwrite p v).units = g.units := by
  unfold Group.bwrite; split <;> rfl
@[simp] theorem Group.bwrite_reserve (g : Group) (p : BitVec 3) (v : Bool) : (g.bwrite p v).reserve = g.reserve := by
  unfold Group.bwrite; split <;> rfl
@[simp] theorem Group.bwrite_ceil (g : Group) (p : BitVec 3) (v : Bool) : (g.bwrite p v).ceil = g.ceil := by
  unfold Group.bwrite; split <;> rfl
@[simp] theorem Group.bwrite_exited (g : Group) (p : BitVec 3) (v : Bool) : (g.bwrite p v).exited = g.exited := by
  unfold Group.bwrite; split <;> rfl
@[simp] theorem Group.bwrite_pc (g : Group) (p : BitVec 3) (v : Bool) : (g.bwrite p v).pc = g.pc := by
  unfold Group.bwrite; split <;> rfl
@[simp] theorem Group.bwrite_sregs (g : Group) (p : BitVec 3) (v : Bool) : (g.bwrite p v).sregs = g.sregs := by
  unfold Group.bwrite; split <;> rfl
@[simp] theorem Group.bwrite_swait (g : Group) (p : BitVec 3) (v : Bool) : (g.bwrite p v).swait = g.swait := by
  unfold Group.bwrite; split <;> rfl
@[simp] theorem Group.bwrite_sgrant (g : Group) (p : BitVec 3) (v : Bool) : (g.bwrite p v).sgrant = g.sgrant := by
  unfold Group.bwrite; split <;> rfl
@[simp] theorem Group.bwrite_run (g : Group) (p : BitVec 3) (v : Bool) : (g.bwrite p v).run = g.run := by
  unfold Group.bwrite; split <;> rfl
@[simp] theorem Group.bwrite_active (g : Group) (p : BitVec 3) (v : Bool) : (g.bwrite p v).active = g.active := by
  unfold Group.bwrite; split <;> rfl
@[simp] theorem Group.bwrite_ldead (g : Group) (p : BitVec 3) (v : Bool) : (g.bwrite p v).ldead = g.ldead := by
  unfold Group.bwrite; split <;> rfl
@[simp] theorem Group.bwrite_masks (g : Group) (p : BitVec 3) (v : Bool) : (g.bwrite p v).masks = g.masks := by
  unfold Group.bwrite; split <;> rfl
@[simp] theorem Group.bwrite_lgrant (g : Group) (p : BitVec 3) (v : Bool) : (g.bwrite p v).lgrant = g.lgrant := by
  unfold Group.bwrite; split <;> rfl
@[simp] theorem Group.bwrite_lpush (g : Group) (p : BitVec 3) (v : Bool) : (g.bwrite p v).lpush = g.lpush := by
  unfold Group.bwrite; split <;> rfl
@[simp] theorem Group.bwrite_blocks (g : Group) (p : BitVec 3) (v : Bool) : (g.bwrite p v).blocks = g.blocks := by
  unfold Group.bwrite; split <;> rfl
@[simp] theorem Group.bwrite_lq (g : Group) (p : BitVec 3) (v : Bool) : (g.bwrite p v).lq = g.lq := by
  unfold Group.bwrite; split <;> rfl
@[simp] theorem Group.bwrite_sq (g : Group) (p : BitVec 3) (v : Bool) : (g.bwrite p v).sq = g.sq := by
  unfold Group.bwrite; split <;> rfl
@[simp] theorem Group.bwrite_aq (g : Group) (p : BitVec 3) (v : Bool) : (g.bwrite p v).aq = g.aq := by
  unfold Group.bwrite; split <;> rfl
@[simp] theorem Group.bwrite_rq (g : Group) (p : BitVec 3) (v : Bool) : (g.bwrite p v).rq = g.rq := by
  unfold Group.bwrite; split <;> rfl
@[simp] theorem Group.bwrite_stack (g : Group) (p : BitVec 3) (v : Bool) : (g.bwrite p v).stack = g.stack := by
  unfold Group.bwrite; split <;> rfl
@[simp] theorem Group.bwrite_cells (g : Group) (p : BitVec 3) (v : Bool) : (g.bwrite p v).cells = g.cells := by
  unfold Group.bwrite; split <;> rfl
@[simp] theorem Group.bwrite_empties (g : Group) (p : BitVec 3) (v : Bool) : (g.bwrite p v).empties = g.empties := by
  unfold Group.bwrite; split <;> rfl
@[simp] theorem Group.bwrite_errs (g : Group) (p : BitVec 3) (v : Bool) : (g.bwrite p v).errs = g.errs := by
  unfold Group.bwrite; split <;> rfl
@[simp] theorem Group.bwrite_prec (g : Group) (p : BitVec 3) (v : Bool) : (g.bwrite p v).prec = g.prec := by
  unfold Group.bwrite; split <;> rfl
@[simp] theorem Group.bwrite_z (g : Group) (p : BitVec 3) (v : Bool) : (g.bwrite p v).z = g.z := by
  unfold Group.bwrite; split <;> rfl
@[simp] theorem Group.bwrite_thread (g : Group) (p : BitVec 3) (v : Bool) : (g.bwrite p v).thread = g.thread := by
  unfold Group.bwrite; split <;> rfl
@[simp] theorem Group.bwrite_longs (g : Group) (p : BitVec 3) (v : Bool) : (g.bwrite p v).longs = g.longs := by
  unfold Group.bwrite; split <;> rfl
@[simp] theorem Group.bwrite_vploads (g : Group) (p : BitVec 3) (v : Bool) : (g.bwrite p v).vploads = g.vploads := by
  unfold Group.bwrite; split <;> rfl
@[simp] theorem Group.bwrite_joins (g : Group) (p : BitVec 3) (v : Bool) : (g.bwrite p v).joins = g.joins := by
  unfold Group.bwrite; split <;> rfl
@[simp] theorem Group.bwrite_accmap (g : Group) (p : BitVec 3) (v : Bool) : (g.bwrite p v).accmap = g.accmap := by
  unfold Group.bwrite; split <;> rfl
@[simp] theorem Group.bwrite_tileset (g : Group) (p : BitVec 3) (v : Bool) : (g.bwrite p v).tileset = g.tileset := by
  unfold Group.bwrite; split <;> rfl
@[simp] theorem Group.bwrite_outs (g : Group) (p : BitVec 3) (v : Bool) : (g.bwrite p v).outs = g.outs := by
  unfold Group.bwrite; split <;> rfl
@[simp] theorem Group.bwrite_entered (g : Group) (p : BitVec 3) (v : Bool) : (g.bwrite p v).entered = g.entered := by
  unfold Group.bwrite; split <;> rfl
@[simp] theorem Group.bwrite_log (g : Group) (p : BitVec 3) (v : Bool) : (g.bwrite p v).log = g.log := by
  unfold Group.bwrite; split <;> rfl
@[simp] theorem Group.bwrite_seq (g : Group) (p : BitVec 3) (v : Bool) : (g.bwrite p v).seq = g.seq := by
  unfold Group.bwrite; split <;> rfl
@[simp] theorem Group.bwrite_lseq (g : Group) (p : BitVec 3) (v : Bool) : (g.bwrite p v).lseq = g.lseq := by
  unfold Group.bwrite; split <;> rfl
@[simp] theorem Group.bwrite_sseen (g : Group) (p : BitVec 3) (v : Bool) : (g.bwrite p v).sseen = g.sseen := by
  unfold Group.bwrite; split <;> rfl
@[simp] theorem Group.bwrite_lseen (g : Group) (p : BitVec 3) (v : Bool) : (g.bwrite p v).lseen = g.lseen := by
  unfold Group.bwrite; split <;> rfl
@[simp] theorem Group.bwrite_pull (g : Group) (p : BitVec 3) (v : Bool) : (g.bwrite p v).pull = g.pull := by
  unfold Group.bwrite; split <;> rfl
@[simp] theorem Group.bwrite_sr (g : Group) (p : BitVec 3) (v : Bool) : (g.bwrite p v).sr = g.sr := by
  unfold Group.bwrite; split <;> rfl
@[simp] theorem Group.bwrite_rank (g : Group) (p : BitVec 3) (v : Bool) : (g.bwrite p v).rank = g.rank := by
  unfold Group.bwrite; split <;> rfl
@[simp] theorem Group.bwrite_arrived (g : Group) (p : BitVec 3) (v : Bool) : (g.bwrite p v).arrived = g.arrived := by
  unfold Group.bwrite; split <;> rfl
@[simp] theorem Group.bwrite_tbars (g : Group) (p : BitVec 3) (v : Bool) : (g.bwrite p v).tbars = g.tbars := by
  unfold Group.bwrite; split <;> rfl
@[simp] theorem Group.bwrite_sblock (g : Group) (p : BitVec 3) (v : Bool) : (g.bwrite p v).sblock = g.sblock := by
  unfold Group.bwrite; split <;> rfl
@[simp] theorem Group.bwrite_lblock (g : Group) (p : BitVec 3) (v : Bool) : (g.bwrite p v).lblock = g.lblock := by
  unfold Group.bwrite; split <;> rfl
@[simp] theorem Group.bwrite_sready (g : Group) (p : BitVec 3) (v : Bool) : (g.bwrite p v).sready = g.sready := by
  unfold Group.bwrite; split <;> rfl
@[simp] theorem Group.bwrite_lready (g : Group) (p : BitVec 3) (v : Bool) : (g.bwrite p v).lready = g.lready := by
  unfold Group.bwrite; split <;> rfl
@[simp] theorem Group.bwrite_held (g : Group) (p : BitVec 3) (v : Bool) : (g.bwrite p v).held = g.held := by
  unfold Group.bwrite; split <;> rfl
@[simp] theorem Group.bwrite_extra (g : Group) (p : BitVec 3) (v : Bool) : (g.bwrite p v).extra = g.extra := by
  unfold Group.bwrite; split <;> rfl
@[simp] theorem Group.bwrite_sig (g : Group) (p : BitVec 3) (v : Bool) : (g.bwrite p v).sig = g.sig := by
  unfold Group.bwrite; split <;> rfl
@[simp] theorem Group.bwrite_point (g : Group) (p : BitVec 3) (v : Bool) : (g.bwrite p v).point = g.point := by
  unfold Group.bwrite; split <;> rfl
@[simp] theorem Group.bwrite_atPoint (g : Group) (p : BitVec 3) (v : Bool) : (g.bwrite p v).atPoint = g.atPoint := by
  unfold Group.bwrite; split <;> rfl
@[simp] theorem Group.bwrite_pointOk (g : Group) (p : BitVec 3) (v : Bool) : (g.bwrite p v).pointOk = g.pointOk := by
  unfold Group.bwrite; split <;> rfl
@[simp] theorem Group.bwrite_inbox (g : Group) (p : BitVec 3) (v : Bool) : (g.bwrite p v).inbox = g.inbox := by
  unfold Group.bwrite; split <;> rfl
@[simp] theorem Group.bwrite_recno (g : Group) (p : BitVec 3) (v : Bool) : (g.bwrite p v).recno = g.recno := by
  unfold Group.bwrite; split <;> rfl
@[simp] theorem Group.bwrite_bskip (g : Group) (p : BitVec 3) (v : Bool) : (g.bwrite p v).bskip = g.bskip := by
  unfold Group.bwrite; split <;> rfl

/-! ### Group.mwrite -/

@[simp] theorem Group.mwrite_team (g : Group) (i : Nat) (v : Lanes) : (g.mwrite i v).team = g.team := by
  unfold Group.mwrite; split <;> rfl
@[simp] theorem Group.mwrite_grpid (g : Group) (i : Nat) (v : Lanes) : (g.mwrite i v).grpid = g.grpid := by
  unfold Group.mwrite; split <;> rfl
@[simp] theorem Group.mwrite_slot (g : Group) (i : Nat) (v : Lanes) : (g.mwrite i v).slot = g.slot := by
  unfold Group.mwrite; split <;> rfl
@[simp] theorem Group.mwrite_window (g : Group) (i : Nat) (v : Lanes) : (g.mwrite i v).window = g.window := by
  unfold Group.mwrite; split <;> rfl
@[simp] theorem Group.mwrite_units (g : Group) (i : Nat) (v : Lanes) : (g.mwrite i v).units = g.units := by
  unfold Group.mwrite; split <;> rfl
@[simp] theorem Group.mwrite_reserve (g : Group) (i : Nat) (v : Lanes) : (g.mwrite i v).reserve = g.reserve := by
  unfold Group.mwrite; split <;> rfl
@[simp] theorem Group.mwrite_ceil (g : Group) (i : Nat) (v : Lanes) : (g.mwrite i v).ceil = g.ceil := by
  unfold Group.mwrite; split <;> rfl
@[simp] theorem Group.mwrite_exited (g : Group) (i : Nat) (v : Lanes) : (g.mwrite i v).exited = g.exited := by
  unfold Group.mwrite; split <;> rfl
@[simp] theorem Group.mwrite_pc (g : Group) (i : Nat) (v : Lanes) : (g.mwrite i v).pc = g.pc := by
  unfold Group.mwrite; split <;> rfl
@[simp] theorem Group.mwrite_sregs (g : Group) (i : Nat) (v : Lanes) : (g.mwrite i v).sregs = g.sregs := by
  unfold Group.mwrite; split <;> rfl
@[simp] theorem Group.mwrite_bools (g : Group) (i : Nat) (v : Lanes) : (g.mwrite i v).bools = g.bools := by
  unfold Group.mwrite; split <;> rfl
@[simp] theorem Group.mwrite_swait (g : Group) (i : Nat) (v : Lanes) : (g.mwrite i v).swait = g.swait := by
  unfold Group.mwrite; split <;> rfl
@[simp] theorem Group.mwrite_sgrant (g : Group) (i : Nat) (v : Lanes) : (g.mwrite i v).sgrant = g.sgrant := by
  unfold Group.mwrite; split <;> rfl
@[simp] theorem Group.mwrite_run (g : Group) (i : Nat) (v : Lanes) : (g.mwrite i v).run = g.run := by
  unfold Group.mwrite; split <;> rfl
@[simp] theorem Group.mwrite_active (g : Group) (i : Nat) (v : Lanes) : (g.mwrite i v).active = g.active := by
  unfold Group.mwrite; split <;> rfl
@[simp] theorem Group.mwrite_ldead (g : Group) (i : Nat) (v : Lanes) : (g.mwrite i v).ldead = g.ldead := by
  unfold Group.mwrite; split <;> rfl
@[simp] theorem Group.mwrite_lgrant (g : Group) (i : Nat) (v : Lanes) : (g.mwrite i v).lgrant = g.lgrant := by
  unfold Group.mwrite; split <;> rfl
@[simp] theorem Group.mwrite_lpush (g : Group) (i : Nat) (v : Lanes) : (g.mwrite i v).lpush = g.lpush := by
  unfold Group.mwrite; split <;> rfl
@[simp] theorem Group.mwrite_blocks (g : Group) (i : Nat) (v : Lanes) : (g.mwrite i v).blocks = g.blocks := by
  unfold Group.mwrite; split <;> rfl
@[simp] theorem Group.mwrite_lq (g : Group) (i : Nat) (v : Lanes) : (g.mwrite i v).lq = g.lq := by
  unfold Group.mwrite; split <;> rfl
@[simp] theorem Group.mwrite_sq (g : Group) (i : Nat) (v : Lanes) : (g.mwrite i v).sq = g.sq := by
  unfold Group.mwrite; split <;> rfl
@[simp] theorem Group.mwrite_aq (g : Group) (i : Nat) (v : Lanes) : (g.mwrite i v).aq = g.aq := by
  unfold Group.mwrite; split <;> rfl
@[simp] theorem Group.mwrite_rq (g : Group) (i : Nat) (v : Lanes) : (g.mwrite i v).rq = g.rq := by
  unfold Group.mwrite; split <;> rfl
@[simp] theorem Group.mwrite_stack (g : Group) (i : Nat) (v : Lanes) : (g.mwrite i v).stack = g.stack := by
  unfold Group.mwrite; split <;> rfl
@[simp] theorem Group.mwrite_cells (g : Group) (i : Nat) (v : Lanes) : (g.mwrite i v).cells = g.cells := by
  unfold Group.mwrite; split <;> rfl
@[simp] theorem Group.mwrite_empties (g : Group) (i : Nat) (v : Lanes) : (g.mwrite i v).empties = g.empties := by
  unfold Group.mwrite; split <;> rfl
@[simp] theorem Group.mwrite_errs (g : Group) (i : Nat) (v : Lanes) : (g.mwrite i v).errs = g.errs := by
  unfold Group.mwrite; split <;> rfl
@[simp] theorem Group.mwrite_prec (g : Group) (i : Nat) (v : Lanes) : (g.mwrite i v).prec = g.prec := by
  unfold Group.mwrite; split <;> rfl
@[simp] theorem Group.mwrite_z (g : Group) (i : Nat) (v : Lanes) : (g.mwrite i v).z = g.z := by
  unfold Group.mwrite; split <;> rfl
@[simp] theorem Group.mwrite_thread (g : Group) (i : Nat) (v : Lanes) : (g.mwrite i v).thread = g.thread := by
  unfold Group.mwrite; split <;> rfl
@[simp] theorem Group.mwrite_longs (g : Group) (i : Nat) (v : Lanes) : (g.mwrite i v).longs = g.longs := by
  unfold Group.mwrite; split <;> rfl
@[simp] theorem Group.mwrite_vploads (g : Group) (i : Nat) (v : Lanes) : (g.mwrite i v).vploads = g.vploads := by
  unfold Group.mwrite; split <;> rfl
@[simp] theorem Group.mwrite_joins (g : Group) (i : Nat) (v : Lanes) : (g.mwrite i v).joins = g.joins := by
  unfold Group.mwrite; split <;> rfl
@[simp] theorem Group.mwrite_accmap (g : Group) (i : Nat) (v : Lanes) : (g.mwrite i v).accmap = g.accmap := by
  unfold Group.mwrite; split <;> rfl
@[simp] theorem Group.mwrite_tileset (g : Group) (i : Nat) (v : Lanes) : (g.mwrite i v).tileset = g.tileset := by
  unfold Group.mwrite; split <;> rfl
@[simp] theorem Group.mwrite_outs (g : Group) (i : Nat) (v : Lanes) : (g.mwrite i v).outs = g.outs := by
  unfold Group.mwrite; split <;> rfl
@[simp] theorem Group.mwrite_entered (g : Group) (i : Nat) (v : Lanes) : (g.mwrite i v).entered = g.entered := by
  unfold Group.mwrite; split <;> rfl
@[simp] theorem Group.mwrite_log (g : Group) (i : Nat) (v : Lanes) : (g.mwrite i v).log = g.log := by
  unfold Group.mwrite; split <;> rfl
@[simp] theorem Group.mwrite_seq (g : Group) (i : Nat) (v : Lanes) : (g.mwrite i v).seq = g.seq := by
  unfold Group.mwrite; split <;> rfl
@[simp] theorem Group.mwrite_lseq (g : Group) (i : Nat) (v : Lanes) : (g.mwrite i v).lseq = g.lseq := by
  unfold Group.mwrite; split <;> rfl
@[simp] theorem Group.mwrite_sseen (g : Group) (i : Nat) (v : Lanes) : (g.mwrite i v).sseen = g.sseen := by
  unfold Group.mwrite; split <;> rfl
@[simp] theorem Group.mwrite_lseen (g : Group) (i : Nat) (v : Lanes) : (g.mwrite i v).lseen = g.lseen := by
  unfold Group.mwrite; split <;> rfl
@[simp] theorem Group.mwrite_pull (g : Group) (i : Nat) (v : Lanes) : (g.mwrite i v).pull = g.pull := by
  unfold Group.mwrite; split <;> rfl
@[simp] theorem Group.mwrite_sr (g : Group) (i : Nat) (v : Lanes) : (g.mwrite i v).sr = g.sr := by
  unfold Group.mwrite; split <;> rfl
@[simp] theorem Group.mwrite_rank (g : Group) (i : Nat) (v : Lanes) : (g.mwrite i v).rank = g.rank := by
  unfold Group.mwrite; split <;> rfl
@[simp] theorem Group.mwrite_arrived (g : Group) (i : Nat) (v : Lanes) : (g.mwrite i v).arrived = g.arrived := by
  unfold Group.mwrite; split <;> rfl
@[simp] theorem Group.mwrite_tbars (g : Group) (i : Nat) (v : Lanes) : (g.mwrite i v).tbars = g.tbars := by
  unfold Group.mwrite; split <;> rfl
@[simp] theorem Group.mwrite_sblock (g : Group) (i : Nat) (v : Lanes) : (g.mwrite i v).sblock = g.sblock := by
  unfold Group.mwrite; split <;> rfl
@[simp] theorem Group.mwrite_lblock (g : Group) (i : Nat) (v : Lanes) : (g.mwrite i v).lblock = g.lblock := by
  unfold Group.mwrite; split <;> rfl
@[simp] theorem Group.mwrite_sready (g : Group) (i : Nat) (v : Lanes) : (g.mwrite i v).sready = g.sready := by
  unfold Group.mwrite; split <;> rfl
@[simp] theorem Group.mwrite_lready (g : Group) (i : Nat) (v : Lanes) : (g.mwrite i v).lready = g.lready := by
  unfold Group.mwrite; split <;> rfl
@[simp] theorem Group.mwrite_held (g : Group) (i : Nat) (v : Lanes) : (g.mwrite i v).held = g.held := by
  unfold Group.mwrite; split <;> rfl
@[simp] theorem Group.mwrite_extra (g : Group) (i : Nat) (v : Lanes) : (g.mwrite i v).extra = g.extra := by
  unfold Group.mwrite; split <;> rfl
@[simp] theorem Group.mwrite_sig (g : Group) (i : Nat) (v : Lanes) : (g.mwrite i v).sig = g.sig := by
  unfold Group.mwrite; split <;> rfl
@[simp] theorem Group.mwrite_point (g : Group) (i : Nat) (v : Lanes) : (g.mwrite i v).point = g.point := by
  unfold Group.mwrite; split <;> rfl
@[simp] theorem Group.mwrite_atPoint (g : Group) (i : Nat) (v : Lanes) : (g.mwrite i v).atPoint = g.atPoint := by
  unfold Group.mwrite; split <;> rfl
@[simp] theorem Group.mwrite_pointOk (g : Group) (i : Nat) (v : Lanes) : (g.mwrite i v).pointOk = g.pointOk := by
  unfold Group.mwrite; split <;> rfl
@[simp] theorem Group.mwrite_inbox (g : Group) (i : Nat) (v : Lanes) : (g.mwrite i v).inbox = g.inbox := by
  unfold Group.mwrite; split <;> rfl
@[simp] theorem Group.mwrite_recno (g : Group) (i : Nat) (v : Lanes) : (g.mwrite i v).recno = g.recno := by
  unfold Group.mwrite; split <;> rfl
@[simp] theorem Group.mwrite_bskip (g : Group) (i : Nat) (v : Lanes) : (g.mwrite i v).bskip = g.bskip := by
  unfold Group.mwrite; split <;> rfl

/-! ### Group.setCell -/

@[simp] theorem Group.setCell_team (g : Group) (l i v : Nat) : (g.setCell l i v).team = g.team := rfl
@[simp] theorem Group.setCell_grpid (g : Group) (l i v : Nat) : (g.setCell l i v).grpid = g.grpid := rfl
@[simp] theorem Group.setCell_slot (g : Group) (l i v : Nat) : (g.setCell l i v).slot = g.slot := rfl
@[simp] theorem Group.setCell_window (g : Group) (l i v : Nat) : (g.setCell l i v).window = g.window := rfl
@[simp] theorem Group.setCell_units (g : Group) (l i v : Nat) : (g.setCell l i v).units = g.units := rfl
@[simp] theorem Group.setCell_reserve (g : Group) (l i v : Nat) : (g.setCell l i v).reserve = g.reserve := rfl
@[simp] theorem Group.setCell_ceil (g : Group) (l i v : Nat) : (g.setCell l i v).ceil = g.ceil := rfl
@[simp] theorem Group.setCell_exited (g : Group) (l i v : Nat) : (g.setCell l i v).exited = g.exited := rfl
@[simp] theorem Group.setCell_pc (g : Group) (l i v : Nat) : (g.setCell l i v).pc = g.pc := rfl
@[simp] theorem Group.setCell_sregs (g : Group) (l i v : Nat) : (g.setCell l i v).sregs = g.sregs := rfl
@[simp] theorem Group.setCell_bools (g : Group) (l i v : Nat) : (g.setCell l i v).bools = g.bools := rfl
@[simp] theorem Group.setCell_swait (g : Group) (l i v : Nat) : (g.setCell l i v).swait = g.swait := rfl
@[simp] theorem Group.setCell_sgrant (g : Group) (l i v : Nat) : (g.setCell l i v).sgrant = g.sgrant := rfl
@[simp] theorem Group.setCell_run (g : Group) (l i v : Nat) : (g.setCell l i v).run = g.run := rfl
@[simp] theorem Group.setCell_active (g : Group) (l i v : Nat) : (g.setCell l i v).active = g.active := rfl
@[simp] theorem Group.setCell_ldead (g : Group) (l i v : Nat) : (g.setCell l i v).ldead = g.ldead := rfl
@[simp] theorem Group.setCell_masks (g : Group) (l i v : Nat) : (g.setCell l i v).masks = g.masks := rfl
@[simp] theorem Group.setCell_lgrant (g : Group) (l i v : Nat) : (g.setCell l i v).lgrant = g.lgrant := rfl
@[simp] theorem Group.setCell_lpush (g : Group) (l i v : Nat) : (g.setCell l i v).lpush = g.lpush := rfl
@[simp] theorem Group.setCell_blocks (g : Group) (l i v : Nat) : (g.setCell l i v).blocks = g.blocks := rfl
@[simp] theorem Group.setCell_lq (g : Group) (l i v : Nat) : (g.setCell l i v).lq = g.lq := rfl
@[simp] theorem Group.setCell_sq (g : Group) (l i v : Nat) : (g.setCell l i v).sq = g.sq := rfl
@[simp] theorem Group.setCell_aq (g : Group) (l i v : Nat) : (g.setCell l i v).aq = g.aq := rfl
@[simp] theorem Group.setCell_rq (g : Group) (l i v : Nat) : (g.setCell l i v).rq = g.rq := rfl
@[simp] theorem Group.setCell_stack (g : Group) (l i v : Nat) : (g.setCell l i v).stack = g.stack := rfl
@[simp] theorem Group.setCell_empties (g : Group) (l i v : Nat) : (g.setCell l i v).empties = g.empties := rfl
@[simp] theorem Group.setCell_prec (g : Group) (l i v : Nat) : (g.setCell l i v).prec = g.prec := rfl
@[simp] theorem Group.setCell_z (g : Group) (l i v : Nat) : (g.setCell l i v).z = g.z := rfl
@[simp] theorem Group.setCell_thread (g : Group) (l i v : Nat) : (g.setCell l i v).thread = g.thread := rfl
@[simp] theorem Group.setCell_longs (g : Group) (l i v : Nat) : (g.setCell l i v).longs = g.longs := rfl
@[simp] theorem Group.setCell_vploads (g : Group) (l i v : Nat) : (g.setCell l i v).vploads = g.vploads := rfl
@[simp] theorem Group.setCell_joins (g : Group) (l i v : Nat) : (g.setCell l i v).joins = g.joins := rfl
@[simp] theorem Group.setCell_accmap (g : Group) (l i v : Nat) : (g.setCell l i v).accmap = g.accmap := rfl
@[simp] theorem Group.setCell_tileset (g : Group) (l i v : Nat) : (g.setCell l i v).tileset = g.tileset := rfl
@[simp] theorem Group.setCell_outs (g : Group) (l i v : Nat) : (g.setCell l i v).outs = g.outs := rfl
@[simp] theorem Group.setCell_entered (g : Group) (l i v : Nat) : (g.setCell l i v).entered = g.entered := rfl
@[simp] theorem Group.setCell_log (g : Group) (l i v : Nat) : (g.setCell l i v).log = g.log := rfl
@[simp] theorem Group.setCell_seq (g : Group) (l i v : Nat) : (g.setCell l i v).seq = g.seq := rfl
@[simp] theorem Group.setCell_lseq (g : Group) (l i v : Nat) : (g.setCell l i v).lseq = g.lseq := rfl
@[simp] theorem Group.setCell_sseen (g : Group) (l i v : Nat) : (g.setCell l i v).sseen = g.sseen := rfl
@[simp] theorem Group.setCell_lseen (g : Group) (l i v : Nat) : (g.setCell l i v).lseen = g.lseen := rfl
@[simp] theorem Group.setCell_pull (g : Group) (l i v : Nat) : (g.setCell l i v).pull = g.pull := rfl
@[simp] theorem Group.setCell_sr (g : Group) (l i v : Nat) : (g.setCell l i v).sr = g.sr := rfl
@[simp] theorem Group.setCell_rank (g : Group) (l i v : Nat) : (g.setCell l i v).rank = g.rank := rfl
@[simp] theorem Group.setCell_arrived (g : Group) (l i v : Nat) : (g.setCell l i v).arrived = g.arrived := rfl
@[simp] theorem Group.setCell_tbars (g : Group) (l i v : Nat) : (g.setCell l i v).tbars = g.tbars := rfl
@[simp] theorem Group.setCell_sblock (g : Group) (l i v : Nat) : (g.setCell l i v).sblock = g.sblock := rfl
@[simp] theorem Group.setCell_lblock (g : Group) (l i v : Nat) : (g.setCell l i v).lblock = g.lblock := rfl
@[simp] theorem Group.setCell_sready (g : Group) (l i v : Nat) : (g.setCell l i v).sready = g.sready := rfl
@[simp] theorem Group.setCell_lready (g : Group) (l i v : Nat) : (g.setCell l i v).lready = g.lready := rfl
@[simp] theorem Group.setCell_held (g : Group) (l i v : Nat) : (g.setCell l i v).held = g.held := rfl
@[simp] theorem Group.setCell_extra (g : Group) (l i v : Nat) : (g.setCell l i v).extra = g.extra := rfl
@[simp] theorem Group.setCell_sig (g : Group) (l i v : Nat) : (g.setCell l i v).sig = g.sig := rfl
@[simp] theorem Group.setCell_point (g : Group) (l i v : Nat) : (g.setCell l i v).point = g.point := rfl
@[simp] theorem Group.setCell_atPoint (g : Group) (l i v : Nat) : (g.setCell l i v).atPoint = g.atPoint := rfl
@[simp] theorem Group.setCell_pointOk (g : Group) (l i v : Nat) : (g.setCell l i v).pointOk = g.pointOk := rfl
@[simp] theorem Group.setCell_inbox (g : Group) (l i v : Nat) : (g.setCell l i v).inbox = g.inbox := rfl
@[simp] theorem Group.setCell_recno (g : Group) (l i v : Nat) : (g.setCell l i v).recno = g.recno := rfl
@[simp] theorem Group.setCell_bskip (g : Group) (l i v : Nat) : (g.setCell l i v).bskip = g.bskip := rfl

/-! ### Group.enter -/

@[simp] theorem Group.enter_team (g : Group) (c i : Nat) (m : Bool) : (g.enter c i m).team = g.team := rfl
@[simp] theorem Group.enter_grpid (g : Group) (c i : Nat) (m : Bool) : (g.enter c i m).grpid = g.grpid := rfl
@[simp] theorem Group.enter_slot (g : Group) (c i : Nat) (m : Bool) : (g.enter c i m).slot = g.slot := rfl
@[simp] theorem Group.enter_window (g : Group) (c i : Nat) (m : Bool) : (g.enter c i m).window = g.window := rfl
@[simp] theorem Group.enter_units (g : Group) (c i : Nat) (m : Bool) : (g.enter c i m).units = g.units := rfl
@[simp] theorem Group.enter_reserve (g : Group) (c i : Nat) (m : Bool) : (g.enter c i m).reserve = g.reserve := rfl
@[simp] theorem Group.enter_ceil (g : Group) (c i : Nat) (m : Bool) : (g.enter c i m).ceil = g.ceil := rfl
@[simp] theorem Group.enter_exited (g : Group) (c i : Nat) (m : Bool) : (g.enter c i m).exited = g.exited := rfl
@[simp] theorem Group.enter_pc (g : Group) (c i : Nat) (m : Bool) : (g.enter c i m).pc = g.pc := rfl
@[simp] theorem Group.enter_sregs (g : Group) (c i : Nat) (m : Bool) : (g.enter c i m).sregs = g.sregs := rfl
@[simp] theorem Group.enter_bools (g : Group) (c i : Nat) (m : Bool) : (g.enter c i m).bools = g.bools := rfl
@[simp] theorem Group.enter_swait (g : Group) (c i : Nat) (m : Bool) : (g.enter c i m).swait = g.swait := rfl
@[simp] theorem Group.enter_sgrant (g : Group) (c i : Nat) (m : Bool) : (g.enter c i m).sgrant = g.sgrant := rfl
@[simp] theorem Group.enter_run (g : Group) (c i : Nat) (m : Bool) : (g.enter c i m).run = g.run := rfl
@[simp] theorem Group.enter_active (g : Group) (c i : Nat) (m : Bool) : (g.enter c i m).active = g.active := rfl
@[simp] theorem Group.enter_ldead (g : Group) (c i : Nat) (m : Bool) : (g.enter c i m).ldead = g.ldead := rfl
@[simp] theorem Group.enter_masks (g : Group) (c i : Nat) (m : Bool) : (g.enter c i m).masks = g.masks := rfl
@[simp] theorem Group.enter_lgrant (g : Group) (c i : Nat) (m : Bool) : (g.enter c i m).lgrant = g.lgrant := rfl
@[simp] theorem Group.enter_lpush (g : Group) (c i : Nat) (m : Bool) : (g.enter c i m).lpush = g.lpush := rfl
@[simp] theorem Group.enter_blocks (g : Group) (c i : Nat) (m : Bool) : (g.enter c i m).blocks = g.blocks := rfl
@[simp] theorem Group.enter_lq (g : Group) (c i : Nat) (m : Bool) : (g.enter c i m).lq = g.lq := rfl
@[simp] theorem Group.enter_sq (g : Group) (c i : Nat) (m : Bool) : (g.enter c i m).sq = g.sq := rfl
@[simp] theorem Group.enter_aq (g : Group) (c i : Nat) (m : Bool) : (g.enter c i m).aq = g.aq := rfl
@[simp] theorem Group.enter_rq (g : Group) (c i : Nat) (m : Bool) : (g.enter c i m).rq = g.rq := rfl
@[simp] theorem Group.enter_stack (g : Group) (c i : Nat) (m : Bool) : (g.enter c i m).stack = g.stack := rfl
@[simp] theorem Group.enter_cells (g : Group) (c i : Nat) (m : Bool) : (g.enter c i m).cells = g.cells := rfl
@[simp] theorem Group.enter_empties (g : Group) (c i : Nat) (m : Bool) : (g.enter c i m).empties = g.empties := rfl
@[simp] theorem Group.enter_errs (g : Group) (c i : Nat) (m : Bool) : (g.enter c i m).errs = g.errs := rfl
@[simp] theorem Group.enter_prec (g : Group) (c i : Nat) (m : Bool) : (g.enter c i m).prec = g.prec := rfl
@[simp] theorem Group.enter_z (g : Group) (c i : Nat) (m : Bool) : (g.enter c i m).z = g.z := rfl
@[simp] theorem Group.enter_thread (g : Group) (c i : Nat) (m : Bool) : (g.enter c i m).thread = g.thread := rfl
@[simp] theorem Group.enter_longs (g : Group) (c i : Nat) (m : Bool) : (g.enter c i m).longs = g.longs := rfl
@[simp] theorem Group.enter_vploads (g : Group) (c i : Nat) (m : Bool) : (g.enter c i m).vploads = g.vploads := rfl
@[simp] theorem Group.enter_joins (g : Group) (c i : Nat) (m : Bool) : (g.enter c i m).joins = g.joins := rfl
@[simp] theorem Group.enter_accmap (g : Group) (c i : Nat) (m : Bool) : (g.enter c i m).accmap = g.accmap := rfl
@[simp] theorem Group.enter_tileset (g : Group) (c i : Nat) (m : Bool) : (g.enter c i m).tileset = g.tileset := rfl
@[simp] theorem Group.enter_log (g : Group) (c i : Nat) (m : Bool) : (g.enter c i m).log = g.log := rfl
@[simp] theorem Group.enter_seq (g : Group) (c i : Nat) (m : Bool) : (g.enter c i m).seq = g.seq := rfl
@[simp] theorem Group.enter_lseq (g : Group) (c i : Nat) (m : Bool) : (g.enter c i m).lseq = g.lseq := rfl
@[simp] theorem Group.enter_sseen (g : Group) (c i : Nat) (m : Bool) : (g.enter c i m).sseen = g.sseen := rfl
@[simp] theorem Group.enter_lseen (g : Group) (c i : Nat) (m : Bool) : (g.enter c i m).lseen = g.lseen := rfl
@[simp] theorem Group.enter_pull (g : Group) (c i : Nat) (m : Bool) : (g.enter c i m).pull = g.pull := rfl
@[simp] theorem Group.enter_sr (g : Group) (c i : Nat) (m : Bool) : (g.enter c i m).sr = g.sr := rfl
@[simp] theorem Group.enter_rank (g : Group) (c i : Nat) (m : Bool) : (g.enter c i m).rank = g.rank := rfl
@[simp] theorem Group.enter_arrived (g : Group) (c i : Nat) (m : Bool) : (g.enter c i m).arrived = g.arrived := rfl
@[simp] theorem Group.enter_tbars (g : Group) (c i : Nat) (m : Bool) : (g.enter c i m).tbars = g.tbars := rfl
@[simp] theorem Group.enter_sblock (g : Group) (c i : Nat) (m : Bool) : (g.enter c i m).sblock = g.sblock := rfl
@[simp] theorem Group.enter_lblock (g : Group) (c i : Nat) (m : Bool) : (g.enter c i m).lblock = g.lblock := rfl
@[simp] theorem Group.enter_sready (g : Group) (c i : Nat) (m : Bool) : (g.enter c i m).sready = g.sready := rfl
@[simp] theorem Group.enter_lready (g : Group) (c i : Nat) (m : Bool) : (g.enter c i m).lready = g.lready := rfl
@[simp] theorem Group.enter_held (g : Group) (c i : Nat) (m : Bool) : (g.enter c i m).held = g.held := rfl
@[simp] theorem Group.enter_extra (g : Group) (c i : Nat) (m : Bool) : (g.enter c i m).extra = g.extra := rfl
@[simp] theorem Group.enter_sig (g : Group) (c i : Nat) (m : Bool) : (g.enter c i m).sig = g.sig := rfl
@[simp] theorem Group.enter_point (g : Group) (c i : Nat) (m : Bool) : (g.enter c i m).point = g.point := rfl
@[simp] theorem Group.enter_atPoint (g : Group) (c i : Nat) (m : Bool) : (g.enter c i m).atPoint = g.atPoint := rfl
@[simp] theorem Group.enter_pointOk (g : Group) (c i : Nat) (m : Bool) : (g.enter c i m).pointOk = g.pointOk := rfl
@[simp] theorem Group.enter_inbox (g : Group) (c i : Nat) (m : Bool) : (g.enter c i m).inbox = g.inbox := rfl
@[simp] theorem Group.enter_recno (g : Group) (c i : Nat) (m : Bool) : (g.enter c i m).recno = g.recno := rfl
@[simp] theorem Group.enter_bskip (g : Group) (c i : Nat) (m : Bool) : (g.enter c i m).bskip = g.bskip := rfl

/-! ### Group.complete -/

@[simp] theorem Group.complete_team (g : Group) (c i : Nat) : (g.complete c i).team = g.team := rfl
@[simp] theorem Group.complete_grpid (g : Group) (c i : Nat) : (g.complete c i).grpid = g.grpid := rfl
@[simp] theorem Group.complete_slot (g : Group) (c i : Nat) : (g.complete c i).slot = g.slot := rfl
@[simp] theorem Group.complete_window (g : Group) (c i : Nat) : (g.complete c i).window = g.window := rfl
@[simp] theorem Group.complete_units (g : Group) (c i : Nat) : (g.complete c i).units = g.units := rfl
@[simp] theorem Group.complete_reserve (g : Group) (c i : Nat) : (g.complete c i).reserve = g.reserve := rfl
@[simp] theorem Group.complete_ceil (g : Group) (c i : Nat) : (g.complete c i).ceil = g.ceil := rfl
@[simp] theorem Group.complete_exited (g : Group) (c i : Nat) : (g.complete c i).exited = g.exited := rfl
@[simp] theorem Group.complete_pc (g : Group) (c i : Nat) : (g.complete c i).pc = g.pc := rfl
@[simp] theorem Group.complete_sregs (g : Group) (c i : Nat) : (g.complete c i).sregs = g.sregs := rfl
@[simp] theorem Group.complete_bools (g : Group) (c i : Nat) : (g.complete c i).bools = g.bools := rfl
@[simp] theorem Group.complete_swait (g : Group) (c i : Nat) : (g.complete c i).swait = g.swait := rfl
@[simp] theorem Group.complete_sgrant (g : Group) (c i : Nat) : (g.complete c i).sgrant = g.sgrant := rfl
@[simp] theorem Group.complete_run (g : Group) (c i : Nat) : (g.complete c i).run = g.run := rfl
@[simp] theorem Group.complete_active (g : Group) (c i : Nat) : (g.complete c i).active = g.active := rfl
@[simp] theorem Group.complete_ldead (g : Group) (c i : Nat) : (g.complete c i).ldead = g.ldead := rfl
@[simp] theorem Group.complete_masks (g : Group) (c i : Nat) : (g.complete c i).masks = g.masks := rfl
@[simp] theorem Group.complete_lgrant (g : Group) (c i : Nat) : (g.complete c i).lgrant = g.lgrant := rfl
@[simp] theorem Group.complete_lpush (g : Group) (c i : Nat) : (g.complete c i).lpush = g.lpush := rfl
@[simp] theorem Group.complete_blocks (g : Group) (c i : Nat) : (g.complete c i).blocks = g.blocks := rfl
@[simp] theorem Group.complete_lq (g : Group) (c i : Nat) : (g.complete c i).lq = g.lq := rfl
@[simp] theorem Group.complete_sq (g : Group) (c i : Nat) : (g.complete c i).sq = g.sq := rfl
@[simp] theorem Group.complete_aq (g : Group) (c i : Nat) : (g.complete c i).aq = g.aq := rfl
@[simp] theorem Group.complete_rq (g : Group) (c i : Nat) : (g.complete c i).rq = g.rq := rfl
@[simp] theorem Group.complete_stack (g : Group) (c i : Nat) : (g.complete c i).stack = g.stack := rfl
@[simp] theorem Group.complete_cells (g : Group) (c i : Nat) : (g.complete c i).cells = g.cells := rfl
@[simp] theorem Group.complete_empties (g : Group) (c i : Nat) : (g.complete c i).empties = g.empties := rfl
@[simp] theorem Group.complete_errs (g : Group) (c i : Nat) : (g.complete c i).errs = g.errs := rfl
@[simp] theorem Group.complete_prec (g : Group) (c i : Nat) : (g.complete c i).prec = g.prec := rfl
@[simp] theorem Group.complete_z (g : Group) (c i : Nat) : (g.complete c i).z = g.z := rfl
@[simp] theorem Group.complete_thread (g : Group) (c i : Nat) : (g.complete c i).thread = g.thread := rfl
@[simp] theorem Group.complete_longs (g : Group) (c i : Nat) : (g.complete c i).longs = g.longs := rfl
@[simp] theorem Group.complete_vploads (g : Group) (c i : Nat) : (g.complete c i).vploads = g.vploads := rfl
@[simp] theorem Group.complete_joins (g : Group) (c i : Nat) : (g.complete c i).joins = g.joins := rfl
@[simp] theorem Group.complete_accmap (g : Group) (c i : Nat) : (g.complete c i).accmap = g.accmap := rfl
@[simp] theorem Group.complete_tileset (g : Group) (c i : Nat) : (g.complete c i).tileset = g.tileset := rfl
@[simp] theorem Group.complete_entered (g : Group) (c i : Nat) : (g.complete c i).entered = g.entered := rfl
@[simp] theorem Group.complete_log (g : Group) (c i : Nat) : (g.complete c i).log = g.log := rfl
@[simp] theorem Group.complete_seq (g : Group) (c i : Nat) : (g.complete c i).seq = g.seq := rfl
@[simp] theorem Group.complete_lseq (g : Group) (c i : Nat) : (g.complete c i).lseq = g.lseq := rfl
@[simp] theorem Group.complete_sseen (g : Group) (c i : Nat) : (g.complete c i).sseen = g.sseen := rfl
@[simp] theorem Group.complete_lseen (g : Group) (c i : Nat) : (g.complete c i).lseen = g.lseen := rfl
@[simp] theorem Group.complete_pull (g : Group) (c i : Nat) : (g.complete c i).pull = g.pull := rfl
@[simp] theorem Group.complete_sr (g : Group) (c i : Nat) : (g.complete c i).sr = g.sr := rfl
@[simp] theorem Group.complete_rank (g : Group) (c i : Nat) : (g.complete c i).rank = g.rank := rfl
@[simp] theorem Group.complete_arrived (g : Group) (c i : Nat) : (g.complete c i).arrived = g.arrived := rfl
@[simp] theorem Group.complete_tbars (g : Group) (c i : Nat) : (g.complete c i).tbars = g.tbars := rfl
@[simp] theorem Group.complete_sblock (g : Group) (c i : Nat) : (g.complete c i).sblock = g.sblock := rfl
@[simp] theorem Group.complete_lblock (g : Group) (c i : Nat) : (g.complete c i).lblock = g.lblock := rfl
@[simp] theorem Group.complete_sready (g : Group) (c i : Nat) : (g.complete c i).sready = g.sready := rfl
@[simp] theorem Group.complete_lready (g : Group) (c i : Nat) : (g.complete c i).lready = g.lready := rfl
@[simp] theorem Group.complete_held (g : Group) (c i : Nat) : (g.complete c i).held = g.held := rfl
@[simp] theorem Group.complete_extra (g : Group) (c i : Nat) : (g.complete c i).extra = g.extra := rfl
@[simp] theorem Group.complete_sig (g : Group) (c i : Nat) : (g.complete c i).sig = g.sig := rfl
@[simp] theorem Group.complete_point (g : Group) (c i : Nat) : (g.complete c i).point = g.point := rfl
@[simp] theorem Group.complete_atPoint (g : Group) (c i : Nat) : (g.complete c i).atPoint = g.atPoint := rfl
@[simp] theorem Group.complete_pointOk (g : Group) (c i : Nat) : (g.complete c i).pointOk = g.pointOk := rfl
@[simp] theorem Group.complete_inbox (g : Group) (c i : Nat) : (g.complete c i).inbox = g.inbox := rfl
@[simp] theorem Group.complete_recno (g : Group) (c i : Nat) : (g.complete c i).recno = g.recno := rfl
@[simp] theorem Group.complete_bskip (g : Group) (c i : Nat) : (g.complete c i).bskip = g.bskip := rfl

/-! ### Group.killLane -/

@[simp] theorem Group.killLane_team (g : Group) (l : Nat) : (g.killLane l).team = g.team := rfl
@[simp] theorem Group.killLane_grpid (g : Group) (l : Nat) : (g.killLane l).grpid = g.grpid := rfl
@[simp] theorem Group.killLane_slot (g : Group) (l : Nat) : (g.killLane l).slot = g.slot := rfl
@[simp] theorem Group.killLane_window (g : Group) (l : Nat) : (g.killLane l).window = g.window := rfl
@[simp] theorem Group.killLane_units (g : Group) (l : Nat) : (g.killLane l).units = g.units := rfl
@[simp] theorem Group.killLane_reserve (g : Group) (l : Nat) : (g.killLane l).reserve = g.reserve := rfl
@[simp] theorem Group.killLane_ceil (g : Group) (l : Nat) : (g.killLane l).ceil = g.ceil := rfl
@[simp] theorem Group.killLane_exited (g : Group) (l : Nat) : (g.killLane l).exited = g.exited := rfl
@[simp] theorem Group.killLane_pc (g : Group) (l : Nat) : (g.killLane l).pc = g.pc := rfl
@[simp] theorem Group.killLane_sregs (g : Group) (l : Nat) : (g.killLane l).sregs = g.sregs := rfl
@[simp] theorem Group.killLane_bools (g : Group) (l : Nat) : (g.killLane l).bools = g.bools := rfl
@[simp] theorem Group.killLane_swait (g : Group) (l : Nat) : (g.killLane l).swait = g.swait := rfl
@[simp] theorem Group.killLane_sgrant (g : Group) (l : Nat) : (g.killLane l).sgrant = g.sgrant := rfl
@[simp] theorem Group.killLane_run (g : Group) (l : Nat) : (g.killLane l).run = g.run := rfl
@[simp] theorem Group.killLane_masks (g : Group) (l : Nat) : (g.killLane l).masks = g.masks := rfl
@[simp] theorem Group.killLane_lgrant (g : Group) (l : Nat) : (g.killLane l).lgrant = g.lgrant := rfl
@[simp] theorem Group.killLane_lpush (g : Group) (l : Nat) : (g.killLane l).lpush = g.lpush := rfl
@[simp] theorem Group.killLane_blocks (g : Group) (l : Nat) : (g.killLane l).blocks = g.blocks := rfl
@[simp] theorem Group.killLane_lq (g : Group) (l : Nat) : (g.killLane l).lq = g.lq := rfl
@[simp] theorem Group.killLane_sq (g : Group) (l : Nat) : (g.killLane l).sq = g.sq := rfl
@[simp] theorem Group.killLane_aq (g : Group) (l : Nat) : (g.killLane l).aq = g.aq := rfl
@[simp] theorem Group.killLane_rq (g : Group) (l : Nat) : (g.killLane l).rq = g.rq := rfl
@[simp] theorem Group.killLane_cells (g : Group) (l : Nat) : (g.killLane l).cells = g.cells := rfl
@[simp] theorem Group.killLane_empties (g : Group) (l : Nat) : (g.killLane l).empties = g.empties := rfl
@[simp] theorem Group.killLane_errs (g : Group) (l : Nat) : (g.killLane l).errs = g.errs := rfl
@[simp] theorem Group.killLane_prec (g : Group) (l : Nat) : (g.killLane l).prec = g.prec := rfl
@[simp] theorem Group.killLane_z (g : Group) (l : Nat) : (g.killLane l).z = g.z := rfl
@[simp] theorem Group.killLane_thread (g : Group) (l : Nat) : (g.killLane l).thread = g.thread := rfl
@[simp] theorem Group.killLane_joins (g : Group) (l : Nat) : (g.killLane l).joins = g.joins := rfl
@[simp] theorem Group.killLane_accmap (g : Group) (l : Nat) : (g.killLane l).accmap = g.accmap := rfl
@[simp] theorem Group.killLane_tileset (g : Group) (l : Nat) : (g.killLane l).tileset = g.tileset := rfl
@[simp] theorem Group.killLane_outs (g : Group) (l : Nat) : (g.killLane l).outs = g.outs := rfl
@[simp] theorem Group.killLane_entered (g : Group) (l : Nat) : (g.killLane l).entered = g.entered := rfl
@[simp] theorem Group.killLane_log (g : Group) (l : Nat) : (g.killLane l).log = g.log := rfl
@[simp] theorem Group.killLane_seq (g : Group) (l : Nat) : (g.killLane l).seq = g.seq := rfl
@[simp] theorem Group.killLane_lseq (g : Group) (l : Nat) : (g.killLane l).lseq = g.lseq := rfl
@[simp] theorem Group.killLane_sseen (g : Group) (l : Nat) : (g.killLane l).sseen = g.sseen := rfl
@[simp] theorem Group.killLane_lseen (g : Group) (l : Nat) : (g.killLane l).lseen = g.lseen := rfl
@[simp] theorem Group.killLane_pull (g : Group) (l : Nat) : (g.killLane l).pull = g.pull := rfl
@[simp] theorem Group.killLane_sr (g : Group) (l : Nat) : (g.killLane l).sr = g.sr := rfl
@[simp] theorem Group.killLane_rank (g : Group) (l : Nat) : (g.killLane l).rank = g.rank := rfl
@[simp] theorem Group.killLane_arrived (g : Group) (l : Nat) : (g.killLane l).arrived = g.arrived := rfl
@[simp] theorem Group.killLane_tbars (g : Group) (l : Nat) : (g.killLane l).tbars = g.tbars := rfl
@[simp] theorem Group.killLane_sblock (g : Group) (l : Nat) : (g.killLane l).sblock = g.sblock := rfl
@[simp] theorem Group.killLane_lblock (g : Group) (l : Nat) : (g.killLane l).lblock = g.lblock := rfl
@[simp] theorem Group.killLane_sready (g : Group) (l : Nat) : (g.killLane l).sready = g.sready := rfl
@[simp] theorem Group.killLane_lready (g : Group) (l : Nat) : (g.killLane l).lready = g.lready := rfl
@[simp] theorem Group.killLane_held (g : Group) (l : Nat) : (g.killLane l).held = g.held := rfl
@[simp] theorem Group.killLane_extra (g : Group) (l : Nat) : (g.killLane l).extra = g.extra := rfl
@[simp] theorem Group.killLane_sig (g : Group) (l : Nat) : (g.killLane l).sig = g.sig := rfl
@[simp] theorem Group.killLane_point (g : Group) (l : Nat) : (g.killLane l).point = g.point := rfl
@[simp] theorem Group.killLane_atPoint (g : Group) (l : Nat) : (g.killLane l).atPoint = g.atPoint := rfl
@[simp] theorem Group.killLane_pointOk (g : Group) (l : Nat) : (g.killLane l).pointOk = g.pointOk := rfl
@[simp] theorem Group.killLane_inbox (g : Group) (l : Nat) : (g.killLane l).inbox = g.inbox := rfl
@[simp] theorem Group.killLane_recno (g : Group) (l : Nat) : (g.killLane l).recno = g.recno := rfl
@[simp] theorem Group.killLane_bskip (g : Group) (l : Nat) : (g.killLane l).bskip = g.bskip := rfl

end Sys2Proof.Machine
end

