-- ==== Sys2Proof/Laws/Table.lean ====
section
/-!
SUPPORT. Laws of keyed data: what a read finds after a write, and that every operation keeps the canonical form. -/
namespace Sys2Proof

variable {α : Type}

@[simp] theorem tblFind_nil (i : Nat) : tblFind ([] : Tbl α) i = none := rfl
@[simp] theorem tblGet_nil (d : α) (i : Nat) : tblGet d ([] : Tbl α) i = d := rfl

/-- What stands at a key after a write at a key. -/
theorem tblFind_tblPut (t : Tbl α) (i j : Nat) (v : α) :
    tblFind (tblPut t i v) j = if i = j then some v else tblFind t j := by
  induction t with
  | nil => simp [tblPut, tblFind]
  | cons e t ih =>
    obtain ⟨k, w⟩ := e
    simp only [tblPut]
    by_cases h1 : i < k
    · simp [h1, tblFind]
    · by_cases h2 : k = i
      · subst h2; simp only [h1, if_true, if_false, tblFind]; by_cases h : k = j <;> simp [h]
      · simp only [h1, h2, if_false, tblFind, ih]
        by_cases h3 : k = j
        · have : i ≠ j := by omega
          simp [h3, this]
        · simp [h3]

/-- What stands at a key after a key was taken out. -/
theorem tblFind_tblDel (t : Tbl α) (i j : Nat) :
    tblFind (tblDel t i) j = if i = j then none else tblFind t j := by
  induction t with
  | nil => simp [tblDel, tblFind]
  | cons e t ih =>
    obtain ⟨k, w⟩ := e
    simp only [tblDel]
    by_cases h : k = i
    · subst h; simp only [if_true, ih, tblFind]; by_cases hj : k = j <;> simp [hj]
    · simp only [h, if_false, tblFind, ih]
      by_cases hj : k = j
      · have : i ≠ j := by omega
        simp [hj, this]
      · simp [hj]

@[simp] theorem tblFind_tblPut_self (t : Tbl α) (i : Nat) (v : α) : tblFind (tblPut t i v) i = some v := by
  simp [tblFind_tblPut]

theorem tblFind_tblPut_ne (t : Tbl α) {i j : Nat} (v : α) (h : i ≠ j) : tblFind (tblPut t i v) j = tblFind t j := by
  simp [tblFind_tblPut, h]

theorem tblGet_tblPut (d : α) (t : Tbl α) (i j : Nat) (v : α) :
    tblGet d (tblPut t i v) j = if i = j then v else tblGet d t j := by
  simp only [tblGet, tblFind_tblPut]; split <;> rfl

@[simp] theorem tblGet_tblPut_self (d : α) (t : Tbl α) (i : Nat) (v : α) : tblGet d (tblPut t i v) i = v := by
  simp [tblGet_tblPut]

/-- What a key reads as after a write at a key. -/
theorem tblGet_tblSet [DecidableEq α] (d : α) (t : Tbl α) (i j : Nat) (v : α) :
    tblGet d (tblSet d t i v) j = if i = j then v else tblGet d t j := by
  unfold tblSet
  by_cases hv : v = d
  · simp only [hv, if_true, tblGet, tblFind_tblDel]; split <;> simp
  · simp only [hv, if_false, tblGet_tblPut]

@[simp] theorem tblGet_tblSet_self [DecidableEq α] (d : α) (t : Tbl α) (i : Nat) (v : α) :
    tblGet d (tblSet d t i v) i = v := by
  simp [tblGet_tblSet]

/-- What stands at a key after an entry was changed in place. -/
theorem tblFind_tblUpd (t : Tbl α) (i j : Nat) (f : α → α) :
    tblFind (tblUpd t i f) j = if i = j then (tblFind t j).map f else tblFind t j := by
  unfold tblUpd
  cases h : tblFind t i with
  | none => by_cases hj : i = j <;> simp [hj]; subst hj; simp [h]
  | some v =>
    simp only [tblFind_tblPut]
    by_cases hj : i = j
    · subst hj; simp [h]
    · simp [hj]

theorem tblFind_tblUpd_ne (t : Tbl α) {i j : Nat} (f : α → α) (h : i ≠ j) : tblFind (tblUpd t i f) j = tblFind t j := by
  simp [tblFind_tblUpd, h]

theorem tblGet_tblUpd_ne (d : α) (t : Tbl α) {i j : Nat} (f : α → α) (h : i ≠ j) :
    tblGet d (tblUpd t i f) j = tblGet d t j := by
  simp [tblGet, tblFind_tblUpd, h]

/-! ## The canonical form -/

/-- Every key of a table lies above a bound. -/
def tblAbove (b : Nat) (t : Tbl α) : Prop := ∀ e ∈ t, b < e.1

theorem tblRising_cons (k : Nat) (v : α) (t : Tbl α) :
    tblRising ((k, v) :: t) = true ↔ tblAbove k t ∧ tblRising t = true := by
  induction t generalizing k v with
  | nil => simp [tblRising, tblAbove]
  | cons e t ih =>
    obtain ⟨k', w⟩ := e
    simp only [tblRising, Bool.and_eq_true, decide_eq_true_eq]
    constructor
    · rintro ⟨h1, h2⟩
      refine ⟨?_, h2⟩
      have h3 := (ih k' w).mp h2
      intro e he
      rcases List.mem_cons.mp he with rfl | he
      · exact h1
      · have := h3.1 e he; omega
    · rintro ⟨h1, h2⟩
      exact ⟨h1 (k', w) (by simp), h2⟩

theorem tblAbove_tblPut {b i : Nat} {t : Tbl α} (v : α) (h : tblAbove b t) (hi : b < i) : tblAbove b (tblPut t i v) := by
  induction t with
  | nil => intro e he; simp [tblPut] at he; subst he; exact hi
  | cons e t ih =>
    obtain ⟨k, w⟩ := e
    have hk : b < k := h (k, w) (by simp)
    have ht : tblAbove b t := fun e he => h e (by simp [he])
    intro e he
    simp only [tblPut] at he
    split at he
    · rcases List.mem_cons.mp he with rfl | he
      · exact hi
      · exact h e he
    · split at he
      · rcases List.mem_cons.mp he with rfl | he
        · exact hi
        · exact ht e he
      · rcases List.mem_cons.mp he with rfl | he
        · exact hk
        · exact ih ht e he

theorem tblAbove_tblDel {b : Nat} {t : Tbl α} (i : Nat) (h : tblAbove b t) : tblAbove b (tblDel t i) := by
  induction t with
  | nil => exact h
  | cons e t ih =>
    obtain ⟨k, w⟩ := e
    have ht : tblAbove b t := fun e he => h e (by simp [he])
    intro e he
    simp only [tblDel] at he
    split at he
    · exact ih ht e he
    · rcases List.mem_cons.mp he with rfl | he
      · exact h _ (by simp)
      · exact ih ht e he

theorem tblRising_tblPut {t : Tbl α} (i : Nat) (v : α) (h : tblRising t = true) : tblRising (tblPut t i v) = true := by
  induction t with
  | nil => rfl
  | cons e t ih =>
    obtain ⟨k, w⟩ := e
    have h' := (tblRising_cons k w t).mp h
    simp only [tblPut]
    split
    · rename_i hlt
      refine (tblRising_cons _ _ _).mpr ⟨?_, h⟩
      intro e he
      rcases List.mem_cons.mp he with rfl | he
      · exact hlt
      · have := h'.1 e he; omega
    · split
      · rename_i hk; subst hk; exact (tblRising_cons _ _ _).mpr h'
      · exact (tblRising_cons _ _ _).mpr ⟨tblAbove_tblPut v h'.1 (by omega), ih h'.2⟩

theorem tblRising_tblDel {t : Tbl α} (i : Nat) (h : tblRising t = true) : tblRising (tblDel t i) = true := by
  induction t with
  | nil => rfl
  | cons e t ih =>
    obtain ⟨k, w⟩ := e
    have h' := (tblRising_cons k w t).mp h
    simp only [tblDel]
    split
    · exact ih h'.2
    · exact (tblRising_cons _ _ _).mpr ⟨tblAbove_tblDel i h'.1, ih h'.2⟩

theorem mem_tblPut {t : Tbl α} {i : Nat} {v : α} {e : Nat × α} (h : e ∈ tblPut t i v) : e = (i, v) ∨ e ∈ t := by
  induction t with
  | nil => simpa [tblPut] using h
  | cons x t ih =>
    obtain ⟨k, w⟩ := x
    simp only [tblPut] at h
    split at h
    · simpa using h
    · split at h
      · rcases List.mem_cons.mp h with rfl | h
        · exact .inl rfl
        · exact .inr (by simp [h])
      · rcases List.mem_cons.mp h with rfl | h
        · exact .inr (by simp)
        · rcases ih h with h | h
          · exact .inl h
          · exact .inr (by simp [h])

theorem mem_tblDel {t : Tbl α} {i : Nat} {e : Nat × α} (h : e ∈ tblDel t i) : e ∈ t := by
  induction t with
  | nil => exact h
  | cons x t ih =>
    obtain ⟨k, w⟩ := x
    simp only [tblDel] at h
    split at h
    · exact List.mem_cons_of_mem _ (ih h)
    · rcases List.mem_cons.mp h with rfl | h
      · simp
      · exact List.mem_cons_of_mem _ (ih h)

/-- A write keeps the canonical form. -/
theorem tblWf_tblSet [DecidableEq α] {d : α} {t : Tbl α} (i : Nat) (v : α) (h : tblWf d t = true) :
    tblWf d (tblSet d t i v) = true := by
  simp only [tblWf, Bool.and_eq_true, List.all_eq_true, decide_eq_true_eq] at h ⊢
  unfold tblSet
  by_cases hv : v = d
  · simp only [hv, if_true]
    exact ⟨tblRising_tblDel i h.1, fun e he => h.2 e (mem_tblDel he)⟩
  · simp only [hv, if_false]
    refine ⟨tblRising_tblPut i v h.1, fun e he => ?_⟩
    rcases mem_tblPut he with rfl | he
    · exact hv
    · exact h.2 e he

/-- Taking entries out keeps the canonical form. -/
theorem tblWf_filter [DecidableEq α] {d : α} {t : Tbl α} (p : Nat × α → Bool) (h : tblWf d t = true) :
    tblWf d (t.filter p) = true := by
  simp only [tblWf, Bool.and_eq_true, List.all_eq_true, decide_eq_true_eq] at h ⊢
  refine ⟨?_, fun e he => h.2 e (List.mem_filter.mp he).1⟩
  have hr := h.1
  clear h
  induction t with
  | nil => rfl
  | cons e t ih =>
    obtain ⟨k, w⟩ := e
    have h' := (tblRising_cons k w t).mp hr
    simp only [List.filter_cons]
    split
    · exact (tblRising_cons _ _ _).mpr ⟨fun e he => h'.1 e (List.mem_filter.mp he).1, ih h'.2⟩
    · exact ih h'.2

end Sys2Proof
end

