-- ==== Sys2Proof/Laws/Lane.lean ====
section
/-!
SUPPORT. Laws of lane instructions: masks and lane lists, the writing of results, and what an instruction that nothing
stops leaves. -/
namespace Sys2Proof.Machine

/-! ## Masks and lanes -/

theorem getLsbD_oneBit (l i : Nat) (hi : i < 64) : (BitVec.ofNat 64 (2 ^ (l % 64))).getLsbD i = decide (l % 64 = i) := by
  simp only [BitVec.getLsbD_ofNat, hi, decide_true, Bool.true_and, Nat.testBit_two_pow]

theorem getLsbD_maskOf (ls : List Nat) (i : Nat) (hi : i < 64) : (maskOf ls).getLsbD i = ls.any (fun l => l % 64 == i) := by
  induction ls with
  | nil => simp [maskOf]
  | cons l t ih => rw [maskOf, BitVec.getLsbD_or, ih, getLsbD_oneBit _ _ hi, List.any_cons]; rfl

theorem mem_lanesOf {m : Lanes} {l : Nat} : l ∈ lanesOf m ↔ l < 64 ∧ m.getLsbD l = true := by
  simp [lanesOf]

theorem maskOf_lanesOf (m : Lanes) : maskOf (lanesOf m) = m := by
  apply BitVec.eq_of_getLsbD_eq
  intro i hi
  rw [getLsbD_maskOf _ _ hi]
  cases h : m.getLsbD i
  · rw [List.any_eq_false]
    intro l hl
    obtain ⟨h1, h2⟩ := mem_lanesOf.mp hl
    rw [Nat.mod_eq_of_lt h1]
    intro e
    rw [beq_iff_eq] at e; subst e; rw [h] at h2; cases h2
  · rw [List.any_eq_true]
    exact ⟨i, mem_lanesOf.mpr ⟨hi, h⟩, by rw [Nat.mod_eq_of_lt hi]; exact beq_self_eq_true i⟩

theorem nodup_lanesOf (m : Lanes) : (lanesOf m).Nodup := List.Nodup.sublist List.filter_sublist List.nodup_range

@[simp] theorem lanesOf_zero : lanesOf 0 = [] := by
  simp [lanesOf]

theorem lanesOf_eq_nil {m : Lanes} : lanesOf m = [] ↔ m = 0 := by
  constructor
  · intro h; rw [← maskOf_lanesOf m, h]; rfl
  · intro h; rw [h]; exact lanesOf_zero

/-! ## Cells -/

/-- A read of a cell after a write of one (R159). -/
theorem Group.cell_setCell (g : Group) (l i v x j : Nat) (hi : i < 256) (hj : j < 256) :
    (g.setCell l i v).cell x j = if x = l ∧ j = i then v % 2 ^ 32 else g.cell x j := by
  unfold Group.setCell Group.cell
  simp only [tblGet_tblSet, cellKey]
  by_cases h : x = l ∧ j = i
  · rw [if_pos h, if_pos (by omega)]
  · rw [if_neg h, if_neg (by omega)]

/-- The cells of one lane's result. -/
theorem Group.cell_writeList (l d : Nat) (x j : Nat) (hj : j < 256) :
    ∀ (cs : List Nat) (k : Nat) (g : Group), d + k + cs.length ≤ 256 →
      ((cs.zip (List.range' k cs.length)).foldl (fun g e => g.setCell l (d + e.2) e.1) g).cell x j =
        if x = l ∧ d + k ≤ j ∧ j < d + k + cs.length then (cs[j - (d + k)]?.getD 0) % 2 ^ 32 else g.cell x j
  | [], k, g, _ => by
    simp only [List.length_nil, List.zip_nil_left, List.foldl_nil]
    rw [if_neg (by omega)]
  | c :: cs, k, g, h => by
    simp only [List.length_cons] at h ⊢
    rw [List.range'_succ, List.zip_cons_cons, List.foldl_cons, Group.cell_writeList l d x j hj cs (k + 1) _ (by omega),
      Group.cell_setCell _ _ _ _ _ _ (by omega) hj]
    by_cases h1 : x = l
    · by_cases h2 : j = d + k
      · subst h2
        rw [if_neg (by omega), if_pos ⟨h1, rfl⟩, if_pos ⟨h1, by omega⟩]
        simp
      · by_cases h3 : d + k + 1 ≤ j ∧ j < d + k + 1 + cs.length
        · rw [if_pos ⟨h1, by omega⟩, if_pos ⟨h1, by omega⟩]
          have : j - (d + k) = (j - (d + (k + 1))) + 1 := by omega
          rw [this, List.getElem?_cons_succ]
        · rw [if_neg (by omega), if_neg (by omega), if_neg (by omega)]
    · rw [if_neg (by omega), if_neg (by omega), if_neg (by omega)]

/-- A fold that leaves a projection of its state alone at every step. -/
theorem foldl_proj {α σ τ : Type} (p : σ → τ) (f : σ → α → σ) (h : ∀ s a, p (f s a) = p s) :
    ∀ (l : List α) (s : σ), p (l.foldl f s) = p s
  | [], _ => rfl
  | a :: l, s => by rw [List.foldl_cons, foldl_proj p f h l, h]

theorem lookup_absent {β : Type} (x : Nat) : ∀ (l : List (Nat × β)), x ∉ l.map (·.1) → l.lookup x = none
  | [], _ => rfl
  | (a, b) :: l, h => by
    simp only [List.map_cons, List.mem_cons, not_or] at h
    have : (x == a) = false := by simpa using h.1
    simp [List.lookup, this, lookup_absent x l h.2]

/-- What no write of cells changes. -/
theorem Group.setCell_rest (g : Group) (l i v : Nat) :
    g.setCell l i v = { g with cells := (g.setCell l i v).cells, errs := (g.setCell l i v).errs } := rfl

/-- A group without its cells and error marks. -/
def Group.bare (g : Group) : Group := { g with cells := [], errs := [] }

theorem Group.bare_setCell (g : Group) (l i v : Nat) : (g.setCell l i v).bare = g.bare := rfl

theorem Group.bare_writeOuts (g : Group) (d : Nat) (outs : List (Nat × LaneOut)) : (g.writeOuts d outs).bare = g.bare := by
  unfold Group.writeOuts
  apply foldl_proj Group.bare
  intro g o
  apply foldl_proj Group.bare
  intro g e
  rfl

/-- The cells after results were written: each lane's own, from index d on. -/
theorem Group.cell_writeOuts (d x j : Nat) (hj : j < 256) :
    ∀ (outs : List (Nat × LaneOut)) (g : Group), (outs.map (·.1)).Nodup → (∀ o, o ∈ outs → d + o.2.cells.length ≤ 256) →
      (g.writeOuts d outs).cell x j =
        match outs.lookup x with
        | some o => if d ≤ j ∧ j < d + o.cells.length then (o.cells[j - d]?.getD 0) % 2 ^ 32 else g.cell x j
        | none => g.cell x j
  | [], g, _, _ => rfl
  | o :: outs, g, hn, hl => by
    rw [List.map_cons, List.nodup_cons] at hn
    have ho : d + o.2.cells.length ≤ 256 := hl o List.mem_cons_self
    have step : g.writeOuts d (o :: outs) = Group.writeOuts
      ((o.2.cells.zip (List.range o.2.cells.length)).foldl (fun g e => g.setCell o.1 (d + e.2) e.1) g) d outs := rfl
    have ih := Group.cell_writeOuts d x j hj outs
      ((o.2.cells.zip (List.range o.2.cells.length)).foldl (fun g e => g.setCell o.1 (d + e.2) e.1) g) hn.2
      (fun p hp => hl p (List.mem_cons_of_mem _ hp))
    rw [step, ih, List.range_eq_range', Group.cell_writeList o.1 d x j hj o.2.cells 0 g (by omega)]
    by_cases h : x = o.1
    · subst h
      have hnone : outs.lookup o.1 = none := lookup_absent _ _ hn.1
      have hsome : (o :: outs).lookup o.1 = some o.2 := by
        obtain ⟨a, b⟩ := o
        simp [List.lookup]
      rw [hnone, hsome]
      simp
    · have hsame : (o :: outs).lookup x = outs.lookup x := by
        obtain ⟨a, b⟩ := o
        have : (x == a) = false := by simpa using h
        simp [List.lookup, this]
      rw [hsame, if_neg (by omega : ¬ (x = o.1 ∧ _ ∧ _))]

/-! ## Flags and draws -/

/-- Setting flags changes PREC alone. -/
theorem Group.setFlags_rest (g : Group) (l : Nat) (f : Flags) :
    g.setFlags l f = { g with prec := (g.setFlags l f).prec } := by
  unfold Group.setFlags; split <;> rfl

theorem Group.prec_setFlags (g : Group) (l x : Nat) (f : Flags) : tblGet 0 (g.setFlags l f).prec x =
    if x = l then tblGet 0 g.prec x ||| BitVec.ofNat 32 f.bits else tblGet 0 g.prec x := by
  unfold Group.setFlags
  by_cases hb : f.bits = 0
  · rw [if_pos hb, hb]
    split
    · rw [show BitVec.ofNat 32 0 = 0#32 from rfl, BitVec.or_zero]
    · rfl
  · rw [if_neg hb]
    simp only [tblGet_tblSet]
    by_cases h : x = l
    · rw [if_pos h, if_pos h.symm, h]
    · rw [if_neg h, if_neg (fun e => h e.symm)]

/-- Flags of a list of results, set in a group. -/
theorem prec_foldl_setFlags (fl : Nat × LaneOut → Flags) (x : Nat) :
    ∀ (outs : List (Nat × LaneOut)) (g : Group), (outs.map (·.1)).Nodup →
      tblGet 0 (outs.foldl (fun k o => k.setFlags o.1 (fl o)) g).prec x =
        match outs.lookup x with
        | some o => tblGet 0 g.prec x ||| BitVec.ofNat 32 (fl (x, o)).bits
        | none => tblGet 0 g.prec x
  | [], g, _ => rfl
  | o :: outs, g, hn => by
    rw [List.map_cons, List.nodup_cons] at hn
    rw [List.foldl_cons, prec_foldl_setFlags fl x outs _ hn.2, Group.prec_setFlags]
    obtain ⟨a, b⟩ := o
    by_cases h : x = a
    · subst h
      have hnone : outs.lookup x = none := lookup_absent _ _ hn.1
      rw [hnone]; simp [List.lookup]
    · have : (x == a) = false := by simpa using h
      simp [List.lookup, this, h]

/-- Setting the flags of results changes PREC alone. -/
theorem Group.flagOuts_rest (g : Group) (outs : List (Nat × LaneOut)) :
    g.flagOuts outs = { g with prec := (g.flagOuts outs).prec } := by
  unfold Group.flagOuts
  have : ∀ (fl : Nat × LaneOut → Flags) (outs : List (Nat × LaneOut)) (k : Group),
      outs.foldl (fun k o => k.setFlags o.1 (fl o)) k =
        { k with prec := (outs.foldl (fun k o => k.setFlags o.1 (fl o)) k).prec } := by
    intro fl outs
    induction outs with
    | nil => intro k; rfl
    | cons o outs ih =>
      intro k
      simp only [List.foldl_cons]
      rw [ih (k.setFlags o.1 (fl o)), Group.setFlags_rest]
  exact this g.outFlags outs g

/-- Taking draws changes the stochastic states alone. -/
theorem Group.takeDraws_rest (g : Group) (f : LaneF) (l n : Nat) : g.takeDraws f l n = { g with z := (g.takeDraws f l n).z } := by
  unfold Group.takeDraws; split <;> rfl

theorem Group.z_takeDraws (g : Group) (f : LaneF) (l n x : Nat) : tblGet 0 (g.takeDraws f l n).z x =
    if x = l ∧ g.mode f l = .sr then Nat.repeat drawStep n (tblGet 0 g.z x) else tblGet 0 g.z x := by
  unfold Group.takeDraws
  by_cases hm : g.mode f l = .sr
  · by_cases h : x = l
    · subst h; simp only [hm, and_self, if_true, tblGet_tblSet]
    · have h' : ¬ l = x := fun e => h e.symm
      simp only [hm, h, h', false_and, if_true, if_false, tblGet_tblSet]
  · simp only [hm, and_false, if_false]

/-- The draws of a list of results, taken. -/
def Group.drawOuts (g : Group) (f : LaneF) (outs : List (Nat × LaneOut)) : Group :=
  outs.foldl (fun g o => g.takeDraws f o.1 o.2.draws) g

theorem Group.drawOuts_rest (f : LaneF) (outs : List (Nat × LaneOut)) (g : Group) :
    g.drawOuts f outs = { g with z := (g.drawOuts f outs).z } := by
  unfold Group.drawOuts
  induction outs generalizing g with
  | nil => rfl
  | cons o outs ih =>
    simp only [List.foldl_cons]
    rw [ih (g.takeDraws f o.1 o.2.draws), Group.takeDraws_rest]

theorem Group.z_drawOuts (f : LaneF) (x : Nat) : ∀ (outs : List (Nat × LaneOut)) (g : Group), (outs.map (·.1)).Nodup →
    tblGet 0 (g.drawOuts f outs).z x =
      match outs.lookup x with
      | some o => if g.mode f x = .sr then Nat.repeat drawStep o.draws (tblGet 0 g.z x) else tblGet 0 g.z x
      | none => tblGet 0 g.z x
  | [], _, _ => rfl
  | o :: outs, g, hn => by
    rw [List.map_cons, List.nodup_cons] at hn
    have hmode : ∀ y, (g.takeDraws f o.1 o.2.draws).mode f y = g.mode f y := by
      intro y; rw [Group.takeDraws_rest]; rfl
    show tblGet 0 ((g.takeDraws f o.1 o.2.draws).drawOuts f outs).z x = _
    rw [Group.z_drawOuts f x outs _ hn.2, Group.z_takeDraws, hmode]
    obtain ⟨a, b⟩ := o
    by_cases h : x = a
    · subst h
      have hnone : outs.lookup x = none := lookup_absent _ _ hn.1
      rw [hnone]; simp [List.lookup]
    · have : (x == a) = false := by simpa using h
      simp [List.lookup, this, h]

/-! ## What an instruction that nothing stops leaves -/

/-- A lane instruction that nothing stops goes on with its context and the group after its pops. -/
theorem onLane_go {s : State} {g : Group} {op : Nat} {f : LaneF} (h : LaneGo s g op f) (k : Ctx → Group → State) :
    onLane op f s k = .next (k (laneCtx s g op f) (lanePop g op f)) := by
  have hi := h.issue
  have hr : s.laneReady g = true := by
    simp [State.laneReady, State.issues, hi.up, hi.running, hi.clear, hi.block, hi.port]
  have hl : ¬ 512 ≤ g.held.length := by have := hi.room; omega
  have hf := h.format
  simp only [onLane, onLaneStream, onGroup, hi.here, hr, hl, h.thawed, Bool.not_true, Bool.false_eq_true, if_false]
  have h0 := h.source0
  have h1 := h.source1
  have h2 := h.source2
  have ht := h.tile
  simp only [lanePopped, laneCtx] at h0 h1 h2 hf
  simp only [lanePop, lanePopped, laneCtx, h.window, h1, Option.isSome_none, Bool.false_eq_true, if_false, h0, h2, h.dest]
  cases hs : tileSource op f with
  | none => simp only [firstStop, List.findSome?_cons, List.findSome?_nil, hf]
  | some t => simp only [ht t hs, firstStop, List.findSome?_cons, List.findSome?_nil, hf]

/-- Writing results changes cells and error marks alone. -/
theorem Group.writeOuts_rest (g : Group) (d : Nat) (outs : List (Nat × LaneOut)) :
    g.writeOuts d outs = { g with cells := (g.writeOuts d outs).cells, errs := (g.writeOuts d outs).errs } := by
  have inner : ∀ (l : Nat) (es : List (Nat × Nat)) (k : Group),
      es.foldl (fun g e => g.setCell l (d + e.2) e.1) k =
        { k with cells := (es.foldl (fun g e => g.setCell l (d + e.2) e.1) k).cells
                 errs := (es.foldl (fun g e => g.setCell l (d + e.2) e.1) k).errs } := by
    intro l es
    induction es with
    | nil => intro k; rfl
    | cons e es ih => intro k; simp only [List.foldl_cons]; rw [ih (k.setCell l (d + e.2) e.1)]; rfl
  unfold Group.writeOuts
  induction outs generalizing g with
  | nil => rfl
  | cons o outs ih =>
    simp only [List.foldl_cons]
    rw [ih, inner o.1 _ g]

/-- A mask after results were written to it. -/
theorem Group.mread_maskOuts (g : Group) (d : Nat) (hd : d ≠ 0) (outs : List (Nat × LaneOut))
    (hn : (outs.map (·.1)).Nodup) (hl : ∀ o, o ∈ outs → o.1 < 64) (l : Nat) (h : l < 64) :
    ((g.maskOuts d outs).mread d).getLsbD l = (match outs.lookup l with
      | some o => o.cells.head? == some 1
      | none => (g.mread d).getLsbD l) := by
  have hon : (maskOf ((outs.filter (fun o => o.2.cells.head? == some 1)).map (·.1))).getLsbD l =
      (match outs.lookup l with
      | some o => o.cells.head? == some 1
      | none => false) := by
    rw [getLsbD_maskOf _ _ h]
    clear g
    induction outs with
    | nil => rfl
    | cons o outs ih =>
      obtain ⟨a, b⟩ := o
      rw [List.map_cons, List.nodup_cons] at hn
      have ha : a < 64 := hl (a, b) List.mem_cons_self
      have ih' := ih hn.2 (fun o ho => hl o (List.mem_cons_of_mem _ ho))
      by_cases hla : l = a
      · subst hla
        rw [lookup_absent _ _ hn.1] at ih'
        by_cases hb : b.cells.head? = some 1
        · simp [hb, List.lookup, Nat.mod_eq_of_lt ha]
        · have hb' : (b.cells.head? == some 1) = false := by simpa using hb
          simp only [List.filter_cons, hb', List.lookup, beq_self_eq_true, Bool.false_eq_true, if_false]
          exact ih'
      · have hne : (l == a) = false := by simpa using hla
        have hne' : (a % 64 == l) = false := by rw [Nat.mod_eq_of_lt ha]; simpa using fun e => hla e.symm
        simp only [List.filter_cons, List.lookup, hne]
        split
        · rw [List.map_cons, List.any_cons, hne', Bool.false_or]; exact ih'
        · exact ih'
  have hall : (maskOf (outs.map (·.1))).getLsbD l = (outs.lookup l).isSome := by
    rw [getLsbD_maskOf _ _ h]
    clear hon g
    induction outs with
    | nil => rfl
    | cons o outs ih =>
      obtain ⟨a, b⟩ := o
      rw [List.map_cons, List.nodup_cons] at hn
      have ha : a < 64 := hl (a, b) List.mem_cons_self
      have ih' := ih hn.2 (fun o ho => hl o (List.mem_cons_of_mem _ ho))
      by_cases hla : l = a
      · subst hla; simp [List.lookup, Nat.mod_eq_of_lt ha]
      · have hne : (l == a) = false := by simpa using hla
        have hne' : (a % 64 == l) = false := by rw [Nat.mod_eq_of_lt ha]; simpa using fun e => hla e.symm
        rw [List.map_cons, List.any_cons, hne', Bool.false_or, ih']; simp only [List.lookup, hne]
  have hset : (g.maskOuts d outs).mread d = (g.mread d &&& ~~~ maskOf (outs.map (·.1))) |||
      maskOf ((outs.filter (fun o => o.2.cells.head? == some 1)).map (·.1)) := by
    unfold Group.maskOuts Group.mwrite Group.mread
    simp only [if_neg hd, tblGet_tblSet_self]
  rw [hset, BitVec.getLsbD_or, BitVec.getLsbD_and, BitVec.getLsbD_not, hon, hall]
  cases outs.lookup l <;> simp [h]

/-- A mask destination changes the masks alone. -/
theorem Group.maskOuts_rest (g : Group) (d : Nat) (outs : List (Nat × LaneOut)) :
    g.maskOuts d outs = { g with masks := (g.maskOuts d outs).masks } := by
  unfold Group.maskOuts Group.mwrite; split <;> rfl

/-- A push to a store queue or an address queue changes these alone. -/
theorem Group.pushQueue_rest (g : Group) (q n : Nat) (m : Lanes) (data : Tbl Nat) (k : Nat) :
    g.pushQueue q n m data k = { g with sq := (g.pushQueue q n m data k).sq, aq := (g.pushQueue q n m data k).aq } := by
  unfold Group.pushQueue; dsimp only; split <;> rfl

/-- The results of an instruction by lane, looked up. -/
theorem lookup_results (m : Lanes) (out : Nat → LaneOut) (l : Nat) (h : l < 64) :
    ((lanesOf m).map (fun l => (l, out l))).lookup l = if m.getLsbD l then some (out l) else none := by
  have gen : ∀ ls : List Nat, (ls.map (fun l => (l, out l))).lookup l = if l ∈ ls then some (out l) else none := by
    intro ls
    induction ls with
    | nil => rfl
    | cons a ls ih =>
      by_cases hla : l = a
      · subst hla; simp
      · have hne : (l == a) = false := by simpa using hla
        simp [List.lookup, hne, hla, ih]
  rw [gen]
  by_cases hm : m.getLsbD l = true
  · rw [if_pos (mem_lanesOf.mpr ⟨h, hm⟩), if_pos hm]
  · rw [if_neg (fun e => hm (mem_lanesOf.mp e).2), if_neg hm]

/-- A table filled lane by lane. -/
theorem tblGet_fill (f : Nat → Nat) (x : Nat) : ∀ (ls : List Nat) (t : Tbl Nat),
    tblGet 0 (ls.foldl (fun t l => tblSet 0 t l (f l)) t) x = if x ∈ ls then f x else tblGet 0 t x
  | [], _ => by simp
  | a :: ls, t => by
    rw [List.foldl_cons, tblGet_fill f x ls, tblGet_tblSet]
    by_cases h : x ∈ ls
    · simp [h]
    · by_cases ha : x = a
      · subst ha; simp
      · have : ¬ a = x := fun e => ha e.symm
        simp [h, ha, this]

theorem tblGet_pushRow (a x p : Nat) (hp : p < 4) : ∀ (cs : List Nat) (k : Nat) (t : Tbl Nat), k + cs.length ≤ 4 →
    tblGet 0 ((cs.zip (List.range' k cs.length)).foldl (fun t e => tblSet 0 t (a * 4 + e.2) e.1) t) (x * 4 + p) =
      if x = a ∧ k ≤ p ∧ p < k + cs.length then cs[p - k]?.getD 0 else tblGet 0 t (x * 4 + p)
  | [], k, t, _ => by
    simp only [List.length_nil, List.zip_nil_left, List.foldl_nil]
    rw [if_neg (by omega)]
  | c :: cs, k, t, h => by
    simp only [List.length_cons] at h ⊢
    rw [List.range'_succ, List.zip_cons_cons, List.foldl_cons, tblGet_pushRow a x p hp cs (k + 1) _ (by omega),
      tblGet_tblSet]
    by_cases h1 : x = a
    · by_cases h2 : p = k
      · subst h2; subst h1
        rw [if_neg (by omega), if_pos rfl, if_pos ⟨rfl, by omega⟩]
        simp
      · by_cases h3 : k + 1 ≤ p ∧ p < k + 1 + cs.length
        · rw [if_pos ⟨h1, by omega⟩, if_pos ⟨h1, by omega⟩]
          have : p - k = (p - (k + 1)) + 1 := by omega
          rw [this, List.getElem?_cons_succ]
        · rw [if_neg (by omega), if_neg (by omega), if_neg (by omega)]
    · rw [if_neg (by omega), if_neg (by omega), if_neg (by omega)]

/-- The data that a push to a store queue carries: each lane's cells by part. -/
theorem tblGet_pushData (x p : Nat) (hp : p < 4) (outs : List (Nat × LaneOut)) (hn : (outs.map (·.1)).Nodup)
    (hl : ∀ o, o ∈ outs → o.2.cells.length ≤ 4) :
    tblGet 0 (pushData outs) (x * 4 + p) = (match outs.lookup x with
      | some o => o.cells[p]?.getD 0
      | none => 0) := by
  unfold pushData
  have gen : ∀ (outs : List (Nat × LaneOut)) (t : Tbl Nat), (outs.map (·.1)).Nodup →
      (∀ o, o ∈ outs → o.2.cells.length ≤ 4) →
      tblGet 0 (outs.foldl (fun t o => (o.2.cells.zip (List.range o.2.cells.length)).foldl (fun t e =>
        tblSet 0 t (o.1 * 4 + e.2) e.1) t) t) (x * 4 + p) = (match outs.lookup x with
        | some o => if p < o.cells.length then o.cells[p]?.getD 0 else tblGet 0 t (x * 4 + p)
        | none => tblGet 0 t (x * 4 + p)) := by
    intro outs
    induction outs with
    | nil => intro t _ _; rfl
    | cons o outs ih =>
      intro t hn hl
      obtain ⟨a, b⟩ := o
      rw [List.map_cons, List.nodup_cons] at hn
      rw [List.foldl_cons, ih _ hn.2 (fun o ho => hl o (List.mem_cons_of_mem _ ho)), List.range_eq_range',
        tblGet_pushRow a x p hp b.cells 0 t (by have := hl (a, b) List.mem_cons_self; simp at this; omega)]
      by_cases h : x = a
      · subst h; rw [lookup_absent _ _ hn.1]; simp [List.lookup]
      · have hne : (x == a) = false := by simpa using h
        simp [List.lookup, hne, h]
  rw [gen outs [] hn hl]
  cases outs.lookup x with
  | none => rfl
  | some o =>
    simp only [tblGet_nil]
    split
    · rfl
    · rw [List.getElem?_eq_none (by omega)]; rfl

theorem popsOf_le (fmt : Nat) : popsOf fmt ≤ 4 := by
  unfold popsOf fmtCells
  split
  · decide
  · split
    · rename_i h; simp [isVpFmt] at h; omega
    · decide

/-- No lane dies: groups, cores and memory are as they were. -/
theorem State.killLanes_none (s : State) (h : Nat) :
    (∀ x, tblFind (s.killLanes h 0).groups x = tblFind s.groups x) ∧ (s.killLanes h 0).mem = s.mem ∧
      (s.killLanes h 0).cores = s.cores := by
  have h0 : lanesOf (0 &&& (s.group h).live) = [] := by simp [lanesOf]
  refine ⟨fun x => ?_, rfl, rfl⟩
  simp only [State.killLanes, h0, List.foldl_nil]
  show tblFind (tblUpd s.groups h fun g => g) x = _
  rw [tblFind_tblUpd]
  split
  · exact Option.map_id'
  · rfl

/-- The group that an instruction's results and draws leave, before the lane stream moves on. -/
def laneResult (c : Ctx) (g' : Group) (long : Bool) (id uni : Nat) (outs : List (Nat × LaneOut)) : Group :=
  (g'.drawOuts c.f outs).deposit c long id uni outs

/-- Finishing an instruction none of whose operands is poisoned and none of whose results is too uncertain (R228, R251):
its results are put at its destination and the lane stream moves on. -/
theorem laneCommit_clean (s : State) (K : Kernel) (c : Ctx) (g' : Group) (hp : c.poisoned = 0)
    (hd : ∀ l, (K.fn c l).dies = false) (hlow : ∀ l, l < 64 → c.g.belowFloor l (K.fn c l).low = false) :
    s.laneCommit K c g' = (({ s with nextId := s.nextId + 1 } : State).put
      (laneResult c g' (c.isLong K.long) s.nextId (K.uni c)
        ((lanesOf (writtenLanes c)).map (fun l => (l, K.fn c l)))).laneNext).killLanes s.cur 0 := by
  have hz : ~~~ (0 : Lanes) = BitVec.allOnes 64 := by decide
  have hw : writtenLanes c = c.lanes := by
    rw [writtenLanes, hp, hz, BitVec.and_allOnes]
  have halive : (if K.own then c.lanes else c.lanes &&& ~~~ c.poisoned) = c.lanes := by
    rw [hp, hz, BitVec.and_allOnes]; split <;> rfl
  have hlow' : ((lanesOf c.lanes).map (fun l => (l, K.fn c l))).filter (fun o => c.g.belowFloor o.1 o.2.low) = [] := by
    rw [List.filter_eq_nil_iff]
    intro o ho
    obtain ⟨l, hl, rfl⟩ := List.mem_map.mp ho
    simpa using hlow l (mem_lanesOf.mp hl).1
  have hdead : ((lanesOf c.lanes).map (fun l => (l, K.fn c l))).filter (·.2.dies) = [] := by
    rw [List.filter_eq_nil_iff]
    intro o ho
    obtain ⟨l, hl, rfl⟩ := List.mem_map.mp ho
    simpa using hd l
  have hlive : ((lanesOf c.lanes).map (fun l => (l, K.fn c l))).filter (fun o => !o.2.dies) =
      (lanesOf c.lanes).map (fun l => (l, K.fn c l)) := by
    rw [List.filter_eq_self]
    intro o ho
    obtain ⟨l, hl, rfl⟩ := List.mem_map.mp ho
    simpa using hd l
  have hdz : (if K.own then maskOf ([] : List Nat) else c.poisoned) = 0 := by rw [hp]; split <;> rfl
  rw [hw]
  unfold State.laneCommit
  simp only [halive, hlow', hdead, hlive, List.any_nil, Bool.false_eq_true, if_false, List.map_nil, hdz]
  rfl

/-- What a lane instruction that nothing stops leaves, for a kernel whose results lie within its destination. -/
theorem laneCommit_writes {s : State} {g : Group} {op : Nat} {f : LaneF} (h : LaneGo s g op f) (K : Kernel)
    (hd : ∀ l, (K.fn (laneCtx s g op f) l).dies = false)
    (hlow : ∀ l, l < 64 → g.belowFloor l (K.fn (laneCtx s g op f) l).low = false)
    (hlen : f.dkind = 0 → ∀ l, l < 64 → (writtenLanes (laneCtx s g op f)).getLsbD l = true →
      f.dest.toNat + (K.fn (laneCtx s g op f) l).cells.length ≤ 256) :
    LaneWrites s g (laneCtx s g op f) ((laneCtx s g op f).isLong K.long) (K.fn (laneCtx s g op f))
      (s.laneCommit K (laneCtx s g op f) (lanePop g op f)) := by
  generalize hc : laneCtx s g op f = c at *
  have hcg : c.g = g := by rw [← hc]; rfl
  have hcf : c.f = f := by rw [← hc]; rfl
  have hcop : c.op = op := by rw [← hc]; rfl
  have hcl : ∀ i, c.poison i = 0 := by rw [← hc]; exact h.clean
  have hp : c.poisoned = 0 := by simp [Ctx.poisoned, hcl]
  rw [laneCommit_clean s K c _ hp hd (by rw [hcg]; exact hlow)]
  generalize hW : writtenLanes c = W at *
  generalize hout : K.fn c = out at *
  have hpairs : ((lanesOf W).map (fun l => (l, out l))).map (·.1) = lanesOf W := by
    rw [List.map_map]; exact List.map_id _
  have hnod : (((lanesOf W).map (fun l => (l, out l))).map (·.1)).Nodup := by rw [hpairs]; exact nodup_lanesOf W
  have hlt : ∀ o, o ∈ (lanesOf W).map (fun l => (l, out l)) → o.1 < 64 := by
    intro o ho
    obtain ⟨l, hl, rfl⟩ := List.mem_map.mp ho
    exact (mem_lanesOf.mp hl).1
  generalize houts : (lanesOf W).map (fun l => (l, out l)) = outs at *
  have hlook : ∀ l, l < 64 → outs.lookup l = if W.getLsbD l then some (out l) else none := by
    intro l hl; rw [← houts]; exact lookup_results W out l hl
  obtain ⟨r, hrun⟩ := Option.isSome_iff_exists.mp h.issue.block
  let base := lanePop g op f
  let g1 := base.drawOuts c.f outs
  have hg1 : g1 = { base with z := g1.z } := Group.drawOuts_rest _ _ _
  let G := laneResult c base (c.isLong K.long) s.nextId (K.uni c) outs
  -- what every destination leaves alone
  have hG : ∃ ce em er pr ms lo sq' aq' rq', G = { g1 with
      cells := ce, empties := em, errs := er, prec := pr, masks := ms
      longs := lo, sq := sq', aq := aq', rq := rq' } := by
    show ∃ ce em er pr ms lo sq aq rq, g1.deposit c (c.isLong K.long) s.nextId (K.uni c) outs = _
    unfold Group.deposit
    dsimp only
    split
    · split
      · exact ⟨_, _, _, _, _, _, _, _, _, rfl⟩
      · rw [Group.flagOuts_rest, Group.writeOuts_rest]; exact ⟨_, _, _, _, _, _, _, _, _, rfl⟩
    · split
      · exact ⟨_, _, _, _, _, _, _, _, _, rfl⟩
      · rw [Group.flagOuts_rest, Group.pushQueue_rest]; exact ⟨_, _, _, _, _, _, _, _, _, rfl⟩
    · rw [Group.flagOuts_rest, Group.maskOuts_rest]; exact ⟨_, _, _, _, _, _, _, _, _, rfl⟩
    · rw [Group.flagOuts_rest]; exact ⟨_, _, _, _, _, _, _, _, _, rfl⟩
  have hfields : G.run = g.run ∧ G.sregs = g.sregs ∧ G.bools = g.bools ∧ G.pc = g.pc ∧ G.sr = g.sr ∧
      G.blocks = g.blocks ∧ G.log = g.log ∧ G.lq = (lanePop g op f).lq ∧ G.z = g1.z := by
    obtain ⟨ce, em, er, pr, ms, lo, sq', aq', rq', e⟩ := hG
    rw [e, hg1]
    exact ⟨rfl, rfl, rfl, rfl, rfl, rfl, rfl, rfl, rfl⟩
  obtain ⟨fRun, fRegs, fBools, fPc, fSr, fBlocks, fLog, fLq, fZ⟩ := hfields
  have hdep : ∀ k : Nat, c.f.dkind.toNat = k → G = (match k with
      | 0 => if (c.isLong K.long) && !outs.isEmpty then g1.startLong s.nextId c.f.dest.toNat outs
             else (g1.writeOuts c.f.dest.toNat outs).flagOuts outs
      | 1 => if c.f.dest.toNat = 6 then { g1 with rq := g1.rq ++ [{ value := BitVec.ofNat 64 (K.uni c), seq := g1.lseq }] }
             else (g1.pushQueue c.f.dest.toNat (popsOf (resultFmt c.op c.f)) (maskOf (outs.map (·.1))) (pushData outs)
               g1.lseq).flagOuts outs
      | 2 => (g1.maskOuts c.f.dest.toNat outs).flagOuts outs
      | _ => g1.flagOuts outs) := by
    intro k hk; subst hk; rfl
  have hdep0 : c.f.dkind.toNat = 0 → G = if (c.isLong K.long) && !outs.isEmpty
      then g1.startLong s.nextId c.f.dest.toNat outs
      else (g1.writeOuts c.f.dest.toNat outs).flagOuts outs := hdep 0
  have hdep1 : c.f.dkind.toNat = 1 → G = if c.f.dest.toNat = 6
      then { g1 with rq := g1.rq ++ [{ value := BitVec.ofNat 64 (K.uni c), seq := g1.lseq }] }
      else (g1.pushQueue c.f.dest.toNat (popsOf (resultFmt c.op c.f)) (maskOf (outs.map (·.1))) (pushData outs)
        g1.lseq).flagOuts outs := hdep 1
  have hdep2 : c.f.dkind.toNat = 2 → G = (g1.maskOuts c.f.dest.toNat outs).flagOuts outs := hdep 2
  have hdep3 : c.f.dkind.toNat = 3 → G = g1.flagOuts outs := hdep 3
  have hprec1 : g1.prec = g.prec := by rw [hg1]; rfl
  have hbelow : ∀ (k : Group), k.prec = g.prec → k.outFlags = g.outFlags := by
    intro k hk
    have hb : k.belowFloor = g.belowFloor := by
      funext l low; unfold Group.belowFloor Group.precOf; rw [hk]
    funext o; simp only [Group.outFlags, hb]
  have hflag : ∀ (k : Group), k.prec = g.prec → ∀ l, l < 64 → tblGet 0 (k.flagOuts outs).prec l =
      if W.getLsbD l then tblGet 0 g.prec l ||| BitVec.ofNat 32 (g.outFlags (l, out l)).bits else tblGet 0 g.prec l := by
    intro k hk l hl
    unfold Group.flagOuts
    rw [hbelow k hk, prec_foldl_setFlags g.outFlags l outs k hnod, hlook l hl, hk]
    by_cases hw : W.getLsbD l = true
    · simp only [hw, if_true]
    · simp only [hw, Bool.false_eq_true, if_false]
  have hcellsOut : ∀ (k : Group), (k.flagOuts outs).cells = k.cells ∧ (k.flagOuts outs).longs = k.longs ∧
      (k.flagOuts outs).empties = k.empties ∧ (k.flagOuts outs).masks = k.masks ∧ (k.flagOuts outs).sq = k.sq ∧
      (k.flagOuts outs).aq = k.aq ∧ (k.flagOuts outs).rq = k.rq := by
    intro k; rw [Group.flagOuts_rest]; exact ⟨rfl, rfl, rfl, rfl, rfl, rfl, rfl⟩
  have hg1f : g1.cells = g.cells ∧ g1.longs = g.longs ∧ g1.empties = g.empties ∧ g1.masks = g.masks ∧ g1.sq = g.sq ∧
      g1.aq = g.aq ∧ g1.rq = g.rq := by rw [hg1]; exact ⟨rfl, rfl, rfl, rfl, rfl, rfl, rfl⟩
  obtain ⟨k1, k2, k3, k4, k5, k6, k7⟩ := hg1f
  have hmaskAll : maskOf (outs.map (·.1)) = W := by rw [hpairs]; exact maskOf_lanesOf W
  have hne : ∀ k : BitVec 2, c.f.dkind ≠ k → c.f.dkind.toNat ≠ k.toNat := fun k e1 e2 => e1 (BitVec.eq_of_toNat_eq e2)
  let T := (({ s with nextId := s.nextId + 1 } : State).put G.laneNext).killLanes s.cur 0
  have hT : ∀ x, tblFind T.groups x = tblFind (tblPut s.groups s.cur G.laneNext) x :=
    (State.killLanes_none (({ s with nextId := s.nextId + 1 } : State).put G.laneNext) s.cur).1
  refine ⟨⟨fun _ => rfl, fun _ => ⟨fun _ => rfl, rfl⟩⟩, fun x hx => ?_, G.laneNext, ?_, ?_, fRegs, fBools, fPc, fSr, fBlocks,
    fLog, ?_, ?_, ?_, ?_, ?_, ?_, ?_, ?_, ?_, ?_⟩
  · exact (hT x).trans (tblFind_tblPut_ne _ _ (Ne.symm hx))
  · exact (hT s.cur).trans (tblFind_tblPut_self _ _ _)
  · simp only [Group.laneNext, Group.laneTo, Group.lanePc, fRun, hrun, Option.map_some, Option.getD_some]
  · rw [hcop, hcf]; exact fLq
  · intro hk hlong
    have e := hdep0 (by rw [hk]; rfl)
    simp only [hlong, Bool.false_and, Bool.false_eq_true, if_false] at e
    refine ⟨fun l i hl hi => ?_, ?_, ?_⟩
    · show G.cell l i = _
      have hcell : G.cell l i = (g1.writeOuts c.f.dest.toNat outs).cell l i := by
        unfold Group.cell; rw [e, (hcellsOut _).1]
      have hlen' : ∀ o, o ∈ outs → c.f.dest.toNat + o.2.cells.length ≤ 256 := by
        intro o ho
        rw [← houts] at ho
        obtain ⟨l, hl, rfl⟩ := List.mem_map.mp ho
        have := mem_lanesOf.mp hl
        rw [hcf]
        exact hlen (by rw [← hcf]; exact hk) l this.1 this.2
      have hbase : g1.cell l i = g.cell l i := by unfold Group.cell; rw [k1]
      rw [hcell, Group.cell_writeOuts c.f.dest.toNat l i hi outs g1 hnod hlen', hlook l hl, hbase]
      unfold laneCellAt
      rw [hW]
      by_cases hw : W.getLsbD l = true
      · by_cases hd : c.f.dest.toNat ≤ i
        · by_cases hi2 : i < c.f.dest.toNat + (out l).cells.length
          · have hix : i - c.f.dest.toNat < (out l).cells.length := by omega
            simp only [hw, hd, hi2, and_self, if_true, List.getElem?_eq_getElem hix, Option.getD_some]
          · have : (out l).cells[i - c.f.dest.toNat]? = none := List.getElem?_eq_none (by omega)
            simp only [hw, hd, hi2, and_false, and_self, if_true, if_false, this]
        · simp only [hw, hd, false_and, and_false, if_true, if_false]
      · simp only [hw, Bool.false_eq_true, false_and, if_false]
    · show G.longs = _
      rw [e, (hcellsOut _).2.1, Group.writeOuts_rest]; exact k2
    · show G.empties = _
      rw [e, (hcellsOut _).2.2.1, Group.writeOuts_rest]; exact k3
  · intro hk hlong hW0
    have e := hdep0 (by rw [hk]; rfl)
    have hemp : outs.isEmpty = false := by
      rw [← houts, List.isEmpty_eq_false_iff]
      intro hnil
      rw [List.map_eq_nil_iff, lanesOf_eq_nil] at hnil
      exact hW0 (hW ▸ hnil)
    simp only [hlong, hemp, Bool.not_false, Bool.and_self, if_true] at e
    let ws := outs.flatMap (fun o => (o.2.cells.zip (List.range o.2.cells.length)).map
      (fun e => (o.1, c.f.dest.toNat + e.2, e.1)))
    refine ⟨?_, { id := s.nextId, writes := ws, flags := outs.map (fun o => (o.1, g1.outFlags o)) }, ?_, ?_, ?_⟩
    · show G.cells = _
      rw [e]; exact k1
    · show G.longs = _
      rw [e, ← k2]; rfl
    · show ws = _
      rw [show ws = outs.flatMap _ from rfl, ← houts, hW, List.flatMap_map]
    · intro w hw
      have key : ∀ (ws : List (Nat × Nat × Nat)) (t : Tbl Nat) (x : Nat), (x ∈ ws.map (fun w => cellKey w.1 w.2.1) ∨
          (tblFind t x).isSome = true) →
          (tblFind (ws.foldl (fun t w => tblPut t (cellKey w.1 w.2.1) s.nextId) t) x).isSome = true := by
        intro ws
        induction ws with
        | nil => intro t x hx; simpa using hx
        | cons a ws ih =>
          intro t x hx
          rw [List.foldl_cons]
          apply ih
          rw [tblFind_tblPut]
          by_cases ha : cellKey a.1 a.2.1 = x
          · right; simp [ha]
          · rcases hx with hx | hx
            · rw [List.map_cons, List.mem_cons] at hx
              rcases hx with hx | hx
              · exact absurd hx.symm ha
              · left; exact hx
            · right; simp [ha, hx]
      show (tblFind G.empties (cellKey w.1 w.2.1)).isNone = false
      rw [e]
      have := key (outs.flatMap (fun o => (o.2.cells.zip (List.range o.2.cells.length)).map
        (fun e => (o.1, c.f.dest.toNat + e.2, e.1)))) g1.empties (cellKey w.1 w.2.1) (Or.inl (List.mem_map_of_mem hw))
      show (tblFind (List.foldl _ g1.empties _) _).isNone = false
      rw [Option.isNone_eq_false_iff]
      exact this
  · intro hk
    have hk0 : c.f.dkind.toNat ≠ 0 := hne 0 hk
    have h4 : c.f.dkind.toNat < 4 := c.f.dkind.isLt
    show G.cells = _ ∧ G.longs = _ ∧ G.empties = _
    have h123 : c.f.dkind.toNat = 1 ∨ c.f.dkind.toNat = 2 ∨ c.f.dkind.toNat = 3 := by omega
    rcases h123 with hv | hv | hv
    · have e := hdep1 hv
      split at e
      · rw [e]; exact ⟨k1, k2, k3⟩
      · rw [e, (hcellsOut _).1, (hcellsOut _).2.1, (hcellsOut _).2.2.1, Group.pushQueue_rest]; exact ⟨k1, k2, k3⟩
    · have e := hdep2 hv
      rw [e, (hcellsOut _).1, (hcellsOut _).2.1, (hcellsOut _).2.2.1, Group.maskOuts_rest]; exact ⟨k1, k2, k3⟩
    · have e := hdep3 hv
      rw [e, (hcellsOut _).1, (hcellsOut _).2.1, (hcellsOut _).2.2.1]; exact ⟨k1, k2, k3⟩
  · intro hk hd0 l hl
    have e := hdep2 (by rw [hk]; rfl)
    have hd0' : c.f.dest.toNat ≠ 0 := fun e => hd0 (BitVec.eq_of_toNat_eq e)
    have hm : G.mread c.f.dest.toNat = (g1.maskOuts c.f.dest.toNat outs).mread c.f.dest.toNat := by
      unfold Group.mread; rw [e, (hcellsOut _).2.2.2.1]
    have hbase : g1.mread c.f.dest.toNat = g.mread c.f.dest.toNat := by unfold Group.mread; rw [k4]
    show (G.mread c.f.dest.toNat).getLsbD l = _
    rw [hm, Group.mread_maskOuts g1 _ hd0' outs hnod hlt l hl, hlook l hl, hW, hbase]
    by_cases hw : W.getLsbD l = true
    · simp only [hw, if_true]
    · simp only [hw, Bool.false_eq_true, if_false]
  · intro hk
    have hk2 : c.f.dkind.toNat ≠ 2 := hne 2 hk
    have h4 : c.f.dkind.toNat < 4 := c.f.dkind.isLt
    show G.masks = _
    have h013 : c.f.dkind.toNat = 0 ∨ c.f.dkind.toNat = 1 ∨ c.f.dkind.toNat = 3 := by omega
    rcases h013 with hv | hv | hv
    · have e := hdep0 hv
      split at e
      · rw [e]; exact k4
      · rw [e, (hcellsOut _).2.2.2.1, Group.writeOuts_rest]; exact k4
    · have e := hdep1 hv
      split at e
      · rw [e]; exact k4
      · rw [e, (hcellsOut _).2.2.2.1, Group.pushQueue_rest]; exact k4
    · have e := hdep3 hv
      rw [e, (hcellsOut _).2.2.2.1]; exact k4
  · intro hk hd4 hcl4
    have e := hdep1 (by rw [hk]; rfl)
    rw [if_neg (by omega)] at e
    refine ⟨(List.range (popsOf (resultFmt c.op c.f))).map (fun p => ({
        data := (lanesOf W).foldl (fun t l => tblSet 0 t l (tblGet 0 (pushData outs) (l * 4 + p))) ([] : Tbl Nat)
        mask := W, seq := g1.lseq } : QEntry)), ?_, ?_, ?_⟩
    · show tblGet [] G.sq c.f.dest.toNat = _
      rw [e, (hcellsOut _).2.2.2.2.1, hmaskAll, ← k5]
      unfold Group.pushQueue
      simp only [hd4, if_true, tblGet_tblPut_self]
    · rw [List.length_map, List.length_range]
    · intro p en hp
      have hpl : p < popsOf (resultFmt c.op c.f) := by
        have := (List.getElem?_eq_some_iff.mp hp).1
        simpa using this
      have hp4 : p < 4 := Nat.lt_of_lt_of_le hpl (popsOf_le _)
      rw [List.getElem?_map, List.getElem?_range hpl] at hp
      simp only [Option.map_some, Option.some.injEq] at hp
      subst hp
      refine ⟨hW.symm ▸ rfl, rfl, fun l hl hw => ?_⟩
      rw [hW] at hw
      show tblGet 0 (List.foldl _ _ _) l = _
      rw [tblGet_fill, if_pos (mem_lanesOf.mpr ⟨hl, hw⟩), tblGet_pushData l p hp4 outs hnod, hlook l hl]
      · simp only [hw, if_true]
      · intro o ho
        rw [← houts] at ho
        obtain ⟨x, _, rfl⟩ := List.mem_map.mp ho
        exact hcl4 x
  · intro hk
    have hk1 : c.f.dkind.toNat ≠ 1 := hne 1 hk
    have h4 : c.f.dkind.toNat < 4 := c.f.dkind.isLt
    show G.sq = _ ∧ G.aq = _ ∧ G.rq = _
    have h023 : c.f.dkind.toNat = 0 ∨ c.f.dkind.toNat = 2 ∨ c.f.dkind.toNat = 3 := by omega
    rcases h023 with hv | hv | hv
    · have e := hdep0 hv
      split at e
      · rw [e]; exact ⟨k5, k6, k7⟩
      · rw [e, (hcellsOut _).2.2.2.2.1, (hcellsOut _).2.2.2.2.2.1, (hcellsOut _).2.2.2.2.2.2, Group.writeOuts_rest]
        exact ⟨k5, k6, k7⟩
    · have e := hdep2 hv
      rw [e, (hcellsOut _).2.2.2.2.1, (hcellsOut _).2.2.2.2.2.1, (hcellsOut _).2.2.2.2.2.2, Group.maskOuts_rest]
      exact ⟨k5, k6, k7⟩
    · have e := hdep3 hv
      rw [e, (hcellsOut _).2.2.2.2.1, (hcellsOut _).2.2.2.2.2.1, (hcellsOut _).2.2.2.2.2.2]; exact ⟨k5, k6, k7⟩
  · intro hshort hrq l hl
    have h4 : c.f.dkind.toNat < 4 := c.f.dkind.isLt
    show tblGet 0 G.prec l = _
    rw [hW]
    have h0123 : c.f.dkind.toNat = 0 ∨ c.f.dkind.toNat = 1 ∨ c.f.dkind.toNat = 2 ∨ c.f.dkind.toNat = 3 := by omega
    rcases h0123 with hv | hv | hv | hv
    · have hdk : c.f.dkind = 0 := BitVec.eq_of_toNat_eq hv
      have hs : c.isLong K.long = false := hshort.resolve_right (fun e => e hdk)
      have e := hdep0 hv
      simp only [hs, Bool.false_and, Bool.false_eq_true, if_false] at e
      rw [e]; exact hflag _ (by rw [Group.writeOuts_rest]; exact hprec1) l hl
    · have hdk : c.f.dkind = 1 := BitVec.eq_of_toNat_eq hv
      have e := hdep1 hv
      have h6 : ¬ c.f.dest.toNat = 6 := fun e => hrq hdk (BitVec.eq_of_toNat_eq e)
      rw [if_neg h6] at e
      rw [e]; exact hflag _ (by rw [Group.pushQueue_rest]; exact hprec1) l hl
    · have e := hdep2 hv
      rw [e]; exact hflag _ (by rw [Group.maskOuts_rest]; exact hprec1) l hl
    · have e := hdep3 hv
      rw [e]; exact hflag _ hprec1 l hl
  · intro l hl
    show tblGet 0 G.z l = _
    have hmode : base.mode c.f l = g.mode c.f l := rfl
    have hz : base.z = g.z := rfl
    rw [fZ, Group.z_drawOuts c.f l outs base hnod, hlook l hl, hW, hmode, hz]
    by_cases hw : W.getLsbD l = true
    · by_cases hm : g.mode c.f l = .sr <;> simp [hw, hm]
    · simp [hw]

/-- A result that no window fault stops lies below the window (R160). -/
theorem windowStop_dest {g : Group} {op : Nat} {f : LaneF} {ls : Lanes} (h : g.windowStop op f ls = none) (hk : f.dkind = 0)
    (l : Nat) (hl : l < 64) (hm : ls.getLsbD l = true) : f.dest.toNat + g.resultCells (resultFmt op f) l ≤ g.window := by
  unfold Group.windowStop at h
  dsimp only at h
  rw [if_pos hk] at h
  have hlast : ∀ (a b c d : Option LaneStop), firstStop [a, b, c, d] = none → d = none := by
    intro a b c d hf
    unfold firstStop at hf
    cases d with
    | none => rfl
    | some x =>
      exfalso
      split at hf
      · cases hf
      · rw [List.findSome?_eq_none_iff] at hf
        have := hf (some x) (by simp)
        cases this
  have hd := hlast _ _ _ _ h
  by_cases hbad : maskOf ((lanesOf ls).filter (fun l => decide (g.window < f.dest.toNat + g.resultCells (resultFmt op f) l))) = 0
  · have hb : (maskOf ((lanesOf ls).filter (fun l =>
        decide (g.window < f.dest.toNat + g.resultCells (resultFmt op f) l)))).getLsbD l = false := by rw [hbad]; simp
    rw [getLsbD_maskOf _ _ hl, List.any_eq_false] at hb
    by_cases hw : g.window < f.dest.toNat + g.resultCells (resultFmt op f) l
    · exfalso
      exact hb l (List.mem_filter.mpr ⟨mem_lanesOf.mpr ⟨hl, hm⟩, by simpa using hw⟩) (by simp [Nat.mod_eq_of_lt hl])
    · omega
  · rw [if_neg hbad] at hd; cases hd

/-- How a lane instruction that computes a kernel is shown to do what `out` says. -/
theorem LaneDoes.of_kernel {i : LaneF → Instr} {op : Nat} {K : Kernel} {out : Ctx → Nat → LaneOut}
    (he : ∀ f s, exec (i f) s = laneRun op K f s)
    (hout : ∀ s g f, LaneGo s g op f → (i f).wf = true → ∀ l, K.fn (laneCtx s g op f) l = out (laneCtx s g op f) l)
    (hd : ∀ s g f, LaneGo s g op f → ∀ l, (K.fn (laneCtx s g op f) l).dies = false)
    (hlen : ∀ s g f, LaneGo s g op f → (i f).wf = true → f.dkind = 0 → ∀ l, l < 64 →
      (K.fn (laneCtx s g op f) l).cells.length ≤ g.resultCells (resultFmt op f) l) :
    LaneDoes i op K.long out := by
  intro s g f h hwf c hlow
  have ho : K.fn c = out c := funext fun l => hout s g f h hwf l
  refine ⟨_, (he f s).trans (onLane_go h _), ?_⟩
  rw [← ho] at hlow ⊢
  refine laneCommit_writes h K (hd s g f h) hlow (fun hk l hl hw => ?_)
  have hin : (g.lanes f).getLsbD l = true := by
    have : (writtenLanes (laneCtx s g op f)).getLsbD l = true := hw
    rw [writtenLanes, BitVec.getLsbD_and, Bool.and_eq_true] at this
    exact this.1
  have h1 := windowStop_dest h.window hk l hl hin
  have h2 := h.issue.window
  have h3 := hlen s g f h hwf hk l hl
  omega

end Sys2Proof.Machine
end

