-- ==== Sys2Proof/Laws/Memory.lean ====
section
/-!
SUPPORT. Laws of memory: what is read after a write, and that every memory operation keeps the canonical form. -/
namespace Sys2Proof.Machine

/-! ## Tables of bytes -/

/-- A byte list written reads back within its range, and leaves every other byte as it was. -/
theorem tblGet_putBytes (m : Tbl Byte) (a : Nat) (bs : List Byte) (x : Nat) :
    tblGet 0 (putBytes m a bs) x = if a ≤ x ∧ x < a + bs.length then bs[x - a]?.getD 0 else tblGet 0 m x := by
  induction bs generalizing m a with
  | nil => simp only [putBytes, List.length_nil]; split <;> first | omega | rfl
  | cons b t ih =>
    simp only [putBytes, ih, tblGet_tblSet, List.length_cons]
    by_cases h1 : a + 1 ≤ x ∧ x < a + 1 + t.length
    · rw [if_pos h1, if_pos (by omega), show x - a = (x - (a + 1)) + 1 by omega, List.getElem?_cons_succ]
    · rw [if_neg h1]
      by_cases h2 : a = x
      · subst h2; simp
      · rw [if_neg h2, if_neg (by omega)]

/-- Writing bytes keeps the canonical form. -/
theorem wf_putBytes {m : Tbl Byte} (a : Nat) (bs : List Byte) (h : Memory.wf m = true) :
    Memory.wf (putBytes m a bs) = true := by
  induction bs generalizing m a with
  | nil => exact h
  | cons b t ih => exact ih _ (tblWf_tblSet a b h)

/-- Steps that each keep the canonical form keep it together. -/
theorem wf_foldl {α : Type} (f : State → α → State)
    (hf : ∀ s a, Memory.wf s.mem = true → Memory.wf (f s a).mem = true) :
    ∀ (l : List α) (s : State), Memory.wf s.mem = true → Memory.wf (l.foldl f s).mem = true
  | [], _, h => h
  | a :: t, s, h => wf_foldl f hf t (f s a) (hf s a h)

/-- Steps that each leave memory alone leave it alone together. -/
theorem mem_foldl {α : Type} (f : State → α → State) (hf : ∀ s a, (f s a).mem = s.mem) :
    ∀ (l : List α) (s : State), (l.foldl f s).mem = s.mem
  | [], _ => rfl
  | a :: t, s => (mem_foldl f hf t (f s a)).trans (hf s a)

/-! ## Reads and writes at a home -/

/-- A fired command changes no byte of memory. -/
theorem State.fireArm_mem (s : State) (d : Nat) (a : Arm) : (s.fireArm d a).mem = s.mem := by
  unfold State.fireArm State.claimBank
  split
  · simp
  · split
    · rename_i h
      split at h
      · cases h; rfl
      · dsimp only at h
        split at h
        · cases h; rfl
        · split at h
          · cases h; rfl
          · cases h
    · simp

theorem State.fireWord_mem (s : State) (w : Nat) : (s.fireWord w).mem = s.mem := by
  unfold State.fireWord
  split
  · rfl
  · exact mem_foldl _ (fun s a => State.fireArm_mem s _ a) _ _

/-- What a write fires is on its way to its engine; no byte changes. -/
@[simp] theorem State.fire_mem (s : State) (a n : Nat) : (s.fire a n).mem = s.mem := by
  unfold State.fire
  split
  · rfl
  · exact mem_foldl _ State.fireWord_mem _ _

@[simp] theorem State.homeWrite_mem (s : State) (a : Nat) (bs : List Byte) : (s.homeWrite a bs).mem = putBytes s.mem a bs := by
  simp [State.homeWrite]

/-- The byte at an address after a write at a home. -/
theorem State.byte_homeWrite (s : State) (a : Nat) (bs : List Byte) (x : Nat) : (s.homeWrite a bs).homeRead x 1 =
    [if a ≤ x ∧ x < a + bs.length then bs[x - a]?.getD 0 else tblGet 0 s.mem x] := by
  simp only [State.homeRead, State.homeWrite_mem, ← tblGet_putBytes]; rfl

/-- A read after a write to the same place gives the bytes written. -/
theorem State.homeRead_homeWrite (s : State) (a : Nat) (bs : List Byte) :
    (s.homeWrite a bs).homeRead a bs.length = bs := by
  apply List.ext_getElem
  · simp [State.homeRead]
  · intro i h1 h2
    have h3 : a + i < a + bs.length := by simp [State.homeRead] at h1; omega
    simp only [State.homeRead, State.homeWrite_mem, List.getElem_map, List.getElem_range, tblGet_putBytes]
    rw [if_pos ⟨by omega, h3⟩, show a + i - a = i by omega, List.getElem?_eq_getElem h2]; rfl

/-- A write leaves every byte outside its range alone. -/
theorem State.homeRead_homeWrite_ne (s : State) (a : Nat) (bs : List Byte) (x n : Nat) (h : x + n ≤ a ∨ a + bs.length ≤ x) :
    (s.homeWrite a bs).homeRead x n = s.homeRead x n := by
  simp only [State.homeRead, State.homeWrite_mem]
  apply List.map_congr_left
  intro i hi
  have := List.mem_range.mp hi
  rw [tblGet_putBytes, if_neg (by omega)]

theorem State.wf_homeWrite {s : State} (a : Nat) (bs : List Byte) (h : Memory.wf s.mem = true) :
    Memory.wf (s.homeWrite a bs).mem = true := by simpa using wf_putBytes a bs h

@[simp] theorem State.poisonHome_mem (s : State) (a n : Nat) : (s.poisonHome a n).mem = s.mem := rfl

@[simp] theorem State.askDie_mem (s : State) (d : Nat) : (s.askDie d).mem = s.mem := by
  unfold State.askDie; split <;> rfl

@[simp] theorem State.charge_mem (s : State) (d n : Nat) : (s.charge d n).mem = s.mem := State.askDie_mem _ d

@[simp] theorem State.forwardTime_mem (s : State) (a b : Nat) : (s.forwardTime a b).mem = s.mem := by
  unfold State.forwardTime; dsimp only; split <;> rfl

@[simp] theorem State.crossMesh_mem (s : State) (cls a b n : Nat) : (s.crossMesh cls a b n).mem = s.mem := by
  unfold State.crossMesh
  rw [mem_foldl _ (fun _ _ => by exact State.charge_mem _ _ _)]
  simp only [State.forwardTime_mem]

@[simp] theorem State.roundTrip_mem (s : State) (a b n m : Nat) : (s.roundTrip a b n m).mem = s.mem := by
  unfold State.roundTrip; split <;> simp

@[simp] theorem State.llcAccess_mem (s : State) (a n code : Nat) : (s.llcAccess a n code).mem = s.mem := by
  unfold State.llcAccess
  split
  · split
    · exact State.charge_mem _ _ _
    · rfl
  · rfl

@[simp] theorem State.chargeHome_mem (s : State) (a b n code : Nat) (w : Bool) : (s.chargeHome a b n code w).mem = s.mem := by
  simp [State.chargeHome]

@[simp] theorem State.visitHome_mem (s : State) (d a n code : Nat) (w : Bool) : (s.visitHome d a n code w).mem = s.mem := by
  simp [State.visitHome]

/-! ## The core cache -/

/-- A line flushed writes bytes at homes alone. -/
theorem State.wf_flushLine {s : State} (c l : Nat) (h : Memory.wf s.mem = true) :
    Memory.wf (s.flushLine c l).mem = true := by
  unfold State.flushLine
  split
  · exact h
  · rename_i x _
    have ho : ∀ d (s : State), Memory.wf s.mem = true → Memory.wf (x.out.foldl (fun s o =>
        ((s.homeWrite o.addr o.bytes).visitHome d o.addr o.bytes.length x.code true).unlog o.grp o.id) s).mem = true :=
      fun d s hs => wf_foldl _ (fun s o hs => by simpa using wf_putBytes _ _ hs) _ _ hs
    simp only [State.updCore_mem]
    split
    · exact ho _ _ h
    · rw [State.visitHome_mem]
      exact wf_foldl _ (fun s e hs => State.wf_homeWrite _ _ hs) _ _ (ho _ _ h)

/-- Flushing some lines of a list keeps the canonical form. -/
theorem State.wf_flushSome {s : State} (c : Nat) (p : State → Nat → Bool) (ls : List Nat) (h : Memory.wf s.mem = true) :
    Memory.wf (ls.foldl (fun s l => if p s l then s.flushLine c l else s) s).mem = true :=
  wf_foldl _ (fun s l hs => by
    split
    · exact State.wf_flushLine _ _ hs
    · exact hs) _ _ h

theorem State.wf_flushRange {s : State} (c a n : Nat) (h : Memory.wf s.mem = true) :
    Memory.wf (s.flushRange c a n).mem = true := State.wf_flushSome c (fun s l => ((s.core c).line? l).any CLine.owed) _ h

theorem State.wf_writeBack {s : State} (c : Nat) (p : CLine → Bool) (h : Memory.wf s.mem = true) :
    Memory.wf (s.writeBack c p).mem = true := wf_foldl _ (fun _ _ hs => State.wf_flushLine _ _ hs) _ _ h

@[simp] theorem State.fillLine_mem (s : State) (c l code : Nat) : (s.fillLine c l code).mem = s.mem := by
  unfold State.fillLine
  dsimp only
  split
  · rfl
  · split
    · rfl
    · split
      · rfl
      · split <;> rfl

@[simp] theorem State.touchLines_mem (s : State) (c a n code : Nat) : (s.touchLines c a n code).mem = s.mem :=
  mem_foldl _ (fun s l => by split <;> simp) _ _

@[simp] theorem State.refresh_mem (s : State) (c a n : Nat) : (s.refresh c a n).mem = s.mem := by
  unfold State.refresh; split <;> rfl

/-- Meeting the dirty lines of a range keeps the canonical form. -/
theorem State.wf_meetDirty {s : State} (c a n : Nat) (h : Memory.wf s.mem = true) :
    Memory.wf (s.meetDirty c a n).mem = true := by
  unfold State.meetDirty
  split
  · dsimp only [State.free]
    split
    · exact h
    · exact State.wf_flushSome (s := { s with freeNo := s.freeNo + 1 }) c
        (fun s l => ((s.core c).line? l).any (fun x => x.dirty != 0)) _ h
  · exact h

theorem State.wf_readAt {s : State} (c scope evict a n : Nat) (h : Memory.wf s.mem = true) :
    Memory.wf (s.readAt c scope evict a n).1.mem = true := by
  unfold State.readAt
  dsimp only
  split
  · simpa using h
  · simpa using State.wf_meetDirty c a n h

theorem State.wf_writeLine {s : State} (c a : Nat) (bs : List Byte) (h : Memory.wf s.mem = true) :
    Memory.wf (s.writeLine c a bs).mem = true := by
  unfold State.writeLine
  dsimp only
  split
  · exact h
  · simpa using wf_putBytes _ _ h

theorem State.wf_writeAt {s : State} (c scope evict a : Nat) (bs : List Byte) (h : Memory.wf s.mem = true) :
    Memory.wf (s.writeAt c scope evict a bs).mem = true := by
  unfold State.writeAt
  split
  · refine wf_foldl _ (fun s l hs => State.wf_writeLine _ _ _ hs) _ _ ?_
    simpa using State.wf_flushSome c (fun s l => ((s.core c).line? l).any (fun x => !x.out.isEmpty)) _ h
  · simpa using wf_putBytes _ _ (State.wf_flushRange _ _ _ h)

theorem State.wf_releaseAt {s : State} (c scope : Nat) (h : Memory.wf s.mem = true) :
    Memory.wf (s.releaseAt c scope).mem = true := by
  unfold State.releaseAt; split
  · exact State.wf_writeBack _ _ h
  · exact h

@[simp] theorem State.acquireAt_mem (s : State) (c scope : Nat) : (s.acquireAt c scope).mem = s.mem := by
  unfold State.acquireAt; dsimp only; split <;> rfl

@[simp] theorem State.takeTicket_mem (s : State) (d : Nat) : (s.takeTicket d).mem = s.mem := by
  simp [State.takeTicket]

/-! ## Mappings and reset -/

theorem State.wf_dropRange {s : State} (a b : Nat) (h : Memory.wf s.mem = true) : Memory.wf (s.dropRange a b).mem = true :=
  tblWf_filter _ h

theorem reset_wf : Memory.wf State.reset.mem = true := rfl

end Sys2Proof.Machine
end

