-- ==== Sys2Proof/Laws/Scalar.lean ====
section
/-!
SUPPORT. Laws of the scalar stream: its registers, when it issues, and what an instruction that writes one register leaves. -/
namespace Sys2Proof.Machine

/-! ## Registers -/

/-- A read of a scalar register after a write of one (R269). -/
theorem Group.sread_swrite (g : Group) (d r : SReg) (v : Word) :
    (g.swrite d v).sread r = if r = 63 then 0 else if r = d then v else g.sread r := by
  unfold Group.swrite Group.sread
  by_cases hr : r = 63
  · rw [if_pos hr, if_pos hr]
  · rw [if_neg hr, if_neg hr]
    by_cases hd : d = 63
    · have h : r ≠ d := fun h => hr (h.trans hd)
      rw [if_pos hd, if_neg h, if_neg hr]
    · rw [if_neg hd, tblGet_tblSet, if_neg hr]
      by_cases h : r = d
      · rw [if_pos h, if_pos (by rw [h])]
      · rw [if_neg h, if_neg (fun e => h (BitVec.eq_of_toNat_eq e.symm))]

@[simp] theorem Group.sread_zero (g : Group) : g.sread 63 = 0 := if_pos rfl

theorem Group.sread_swrite_self (g : Group) (d : SReg) (v : Word) :
    (g.swrite d v).sread d = if d = 63 then 0 else v := by
  rw [Group.sread_swrite, if_pos rfl]

theorem Group.sread_swrite_ne (g : Group) {d r : SReg} (v : Word) (h : r ≠ d) : (g.swrite d v).sread r = g.sread r := by
  rw [Group.sread_swrite, if_neg h]
  by_cases hr : r = 63
  · rw [if_pos hr, hr, Group.sread_zero]
  · rw [if_neg hr]

/-- A read of a boolean after a write of one (R149, R269). -/
theorem Group.bread_bwrite (g : Group) (p q : BitVec 3) (v : Bool) :
    (g.bwrite p v).bread q = if q = 0 then true else if q = p then v else g.bread q := by
  unfold Group.bwrite Group.bread
  by_cases hq : q = 0
  · rw [if_pos hq, if_pos hq]
  · rw [if_neg hq, if_neg hq]
    by_cases hp : p = 0
    · have h : q ≠ p := fun h => hq (h.trans hp)
      rw [if_pos hp, if_neg h, if_neg hq]
    · rw [if_neg hp, tblGet_tblSet, if_neg hq]
      by_cases h : q = p
      · rw [if_pos h, if_pos (by rw [h])]
      · rw [if_neg h, if_neg (fun e => h (BitVec.eq_of_toNat_eq e.symm))]

theorem Group.bread_bwrite_ne (g : Group) {p q : BitVec 3} (v : Bool) (h : q ≠ p) : (g.bwrite p v).bread q = g.bread q := by
  rw [Group.bread_bwrite, if_neg h]
  by_cases hq : q = 0
  · rw [if_pos hq, hq]; exact (if_pos rfl).symm
  · rw [if_neg hq]

theorem Group.bread_bwrite_self (g : Group) (p : BitVec 3) (v : Bool) : (g.bwrite p v).bread p = (p == 0 || v) := by
  rw [Group.bread_bwrite, if_pos rfl]
  by_cases hp : p = 0
  · rw [if_pos hp, hp]; rfl
  · rw [if_neg hp, beq_eq_false_iff_ne.mpr hp]; rfl

/-- A write of a scalar register changes the register table alone. -/
theorem Group.swrite_eq (g : Group) (d : SReg) (v : Word) : g.swrite d v = { g with sregs := (g.swrite d v).sregs } := by
  unfold Group.swrite; split <;> rfl

/-- A write of a boolean changes the boolean table alone. -/
theorem Group.bwrite_eq (g : Group) (p : BitVec 3) (v : Bool) : g.bwrite p v = { g with bools := (g.bwrite p v).bools } := by
  unfold Group.bwrite; split <;> rfl

@[simp] theorem Group.sread_goTo (g : Group) (n : Nat) (r : SReg) : (g.goTo n).sread r = g.sread r := rfl
@[simp] theorem Group.bread_goTo (g : Group) (n : Nat) (p : BitVec 3) : (g.goTo n).bread p = g.bread p := rfl
@[simp] theorem Group.goTo_pc (g : Group) (n : Nat) : (g.goTo n).pc = n % 2 ^ 56 := rfl
theorem Group.advance_eq (g : Group) (n : Nat) : g.advance n = g.goTo (g.pc + n) := rfl

/-! ## Issue -/

/-- A group that issues is the current one. -/
theorem onGroup_here {s : State} {g : Group} (h : tblFind s.groups s.cur = some g) (f : Group → State) :
    onGroup s f = .next (f g) := by simp [onGroup, h]

/-- A scalar instruction of a group that issues answers its effect on that group. -/
theorem onScalar_issuing {s : State} {g : Group} (h : Issuing s g) (f : Group → State) : onScalar s f = .next (f g) := by
  have hr : s.scalarReady g = true := by
    simp [State.scalarReady, State.issues, h.up, h.running, h.clear, h.alive, h.free]
  have hl : ¬ 512 ≤ g.held.length := by have := h.room; omega
  simp [onScalar, onGroup_here h.here, hr, hl]

/-- What putting the current group back leaves. -/
theorem Becomes.put (s : State) (g : Group) : Becomes s (s.put g) g :=
  ⟨rfl, by simp [State.put, State.setGroup], fun h hh => tblFind_tblPut_ne _ _ (fun e => hh e.symm)⟩

theorem MemoryKept.put (s : State) (g : Group) : MemoryKept s (s.put g) := ⟨fun _ => rfl, fun _ => ⟨fun _ => rfl, rfl⟩⟩

/-- A write of a register and a move of the scalar stream. -/
theorem Sets.put (s : State) (g : Group) (d : SReg) (v : Word) (pc : Nat) :
    Sets s g d v pc (s.put ((g.swrite d v).goTo pc)) := by
  refine ⟨_, Becomes.put _ _, MemoryKept.put _ _, ⟨?_, fun r hr => ?_⟩, ?_, rfl⟩
  · rw [Group.swrite_eq]; rfl
  · rw [Group.sread_goTo, Group.sread_swrite_ne _ _ hr]
  · rw [Group.sread_goTo, Group.sread_swrite_self]

/-- A write of a register and a move to the next instruction. -/
theorem Sets.next (s : State) (g : Group) (d : SReg) (v : Word) (n : Nat) :
    Sets s g d v (g.pc + n) (s.put ((g.swrite d v).advance n)) := by
  rw [Group.advance_eq, Group.swrite_pc]; exact Sets.put s g d v (g.pc + n)

/-- A move of the scalar stream alone. -/
theorem Sets.go (s : State) (g : Group) (pc : Nat) : Sets s g 63 0 pc (s.put (g.goTo pc)) := by
  have := Sets.put s g 63 0 pc
  simpa [Group.swrite] using this

/-- A write of a boolean and a move of the scalar stream. -/
theorem SetsBool.put (s : State) (g : Group) (p : BitVec 3) (v : Bool) (pc : Nat) :
    SetsBool s g p v pc (s.put ((g.bwrite p v).goTo pc)) := by
  refine ⟨_, Becomes.put _ _, MemoryKept.put _ _, ?_, fun q hq => ?_, ?_, rfl⟩
  · rw [Group.bwrite_eq]; rfl
  · rw [Group.bread_goTo, Group.bread_bwrite_ne _ _ hq]
  · rw [Group.bread_goTo, Group.bread_bwrite_self]

/-- An instruction that computes a register's value from the group. -/
theorem Completes.alu {s : State} {g : Group} (h : Issuing s g) {i : Instr} {d : SReg} {f : Group → Word} {v : Word}
    (he : exec i s = scalarAlu s d f) (hv : f g = v) : Completes i s (Sets s g d v (g.pc + 4)) := by
  refine ⟨_, by rw [he, scalarAlu, onScalar_issuing h], ?_⟩
  rw [hv, Group.advance_eq, Group.swrite_pc]
  exact Sets.put s g d v (g.pc + 4)

/-! ## Taking an exception -/

/-- The current group as a lookup finds it. -/
theorem State.group_here {s : State} {g : Group} (h : tblFind s.groups s.cur = some g) : s.group s.cur = g := by
  simp [State.group, tblGet, h]

theorem core_updCore_kept (s : State) (c : Nat) (f : Core → Core) (hs : ∀ k, (f k).store = k.store)
    (hc : ∀ k, (f k).cache = k.cache) (x : Nat) :
    ((s.updCore c f).core x).store = (s.core x).store ∧ ((s.updCore c f).core x).cache = (s.core x).cache := by
  simp only [State.updCore, State.setCore, State.core, tblGet_tblPut]
  split
  · rename_i h; subst h; exact ⟨hs _, hc _⟩
  · exact ⟨rfl, rfl⟩

/-- Withdrawing token requests leaves every core's store and cache. -/
theorem State.withdrawTokens_core (s : State) (c : Nat) (p : Nat → Bool) (x : Nat) :
    ((s.withdrawTokens c p).core x).store = (s.core x).store ∧ ((s.withdrawTokens c p).core x).cache = (s.core x).cache := by
  simp only [State.withdrawTokens, State.core, tblGet, tblFind_tblUpd]
  split
  · rename_i h; subst h; cases tblFind s.cores c <;> exact ⟨rfl, rfl⟩
  · exact ⟨rfl, rfl⟩

/-- Everything a trap does that the handler takes (R239): the group enters it, its token requests are withdrawn, and one
free value is drawn. -/
theorem State.trap_taken (s : State) (h : Nat) (tr : Trap) (e : Nat) (he : (s.team (teamOf h)).trapent = some e)
    (hl : (s.group h).stack.length < 64) :
    s.trap h tr = { s with
      mark := if tr.cause = 1 ∨ tr.cause = 3 then Mark.uncharged else s.mark
      freeNo := s.freeNo + 1
      cores := (s.withdrawTokens (s.coreOf h) (· == h)).cores
      groups := tblPut s.groups h ((s.group h).enterTrap tr e (Config.freeValue s.freeNo)) } := by
  have hl' : ¬ 64 ≤ (s.group h).stack.length := by omega
  have h1 : ({ s with mark := if tr.cause = 1 ∨ tr.cause = 3 then Mark.uncharged else s.mark } : State).team (teamOf h) =
    s.team (teamOf h) := rfl
  unfold State.trap
  simp only [h1, he, if_neg hl']
  rfl

/-- A trap without a trap entry reports its own cause (R233). -/
theorem State.trap_reported (s : State) (h : Nat) (tr : Trap) (he : (s.team (teamOf h)).trapent = none) :
    ∃ pc lane, s.trap h tr = ({ s with mark := if tr.cause = 1 ∨ tr.cause = 3 then Mark.uncharged else s.mark } : State).reportGroup h
      tr.cause 0 tr.stream pc lane := by
  have h1 : ({ s with mark := if tr.cause = 1 ∨ tr.cause = 3 then Mark.uncharged else s.mark } : State).team (teamOf h) =
    s.team (teamOf h) := rfl
  unfold State.trap
  simp only [h1, he]
  exact ⟨_, _, rfl⟩

/-- A trap with the stack full reports double trap (R237). -/
theorem State.trap_double (s : State) (h : Nat) (tr : Trap) (e : Nat) (he : (s.team (teamOf h)).trapent = some e)
    (hl : 64 ≤ (s.group h).stack.length) :
    ∃ pc lane, s.trap h tr = ({ s with mark := if tr.cause = 1 ∨ tr.cause = 3 then Mark.uncharged else s.mark } : State).reportGroup h
      0x15 0 tr.stream pc lane := by
  have h1 : ({ s with mark := if tr.cause = 1 ∨ tr.cause = 3 then Mark.uncharged else s.mark } : State).team (teamOf h) =
    s.team (teamOf h) := rfl
  unfold State.trap
  simp only [h1, he, if_pos hl]
  exact ⟨_, _, rfl⟩

end Sys2Proof.Machine
end

