-- ==== Sys2Proof/Machine/Context.lean ====
section
/-!
DEFINITION. The context image of a saved team (R263 to R265), as F2's save pool holds it and firmware and debug tools read it:
computed from the records that State keeps of the team, which TEAM_RESUME takes up again (R266). -/
namespace Sys2Proof.Machine

/-- Bytes made up with zeros to the next 64 B boundary (R263). -/
def pad64 (l : List Byte) : List Byte := padTo ((l.length + 63) / 64 * 64) l

/-- Eight bytes each. -/
def words (l : List Nat) : List Byte := l.flatMap (leBytes 8)

/-- The bitmap of a list of numbers below `n`, least significant bit first. -/
def bitmap (n : Nat) (l : List Nat) : List Byte :=
  leBytes ((n + 7) / 8) (((List.range n).filter l.contains).foldl (fun v i => v + 2 ^ i) 0)

/-- Where an operation stands among those of its class (R263, R326). -/
def Group.position (g : Group) (cls id : Nat) : Nat := (tblGet [] g.outs cls).findIdx (·.id == id)

/-- Cells emptied by an operation that ended without writing them (R265): nothing that is still in flight writes them. -/
def Group.lostCells (g : Group) : List Nat := (tblKeys g.empties).filter (fun k => !g.hasProducer (k / 256) (k % 256))

/-- The accesses of a group's log that are written as records (R263, R265): one in parts as a whole, and no fence. -/
def Group.records (g : Group) : List Access := g.log.filter (fun a => !a.isPiece && a.kind != .fence)

/-- The physical tile of each name of a group, acc0 upwards (R166), where the team's context has been written. -/
def Group.savedTiles (g : Group) : List (Nat × Nat) := g.accmap.map (fun e => (e.1, g.tileset[e.2]?.getD 0))

/-- A group block (R264). -/
def Group.block (g : Group) : List Byte :=
  let sr := g.sr
  let k := (g.run.map (·.k)).getD [0, 0, 0, 0]
  let lens := fun (t : Tbl (List QEntry)) (n : Nat) => (List.range n).map (fun i => BitVec.ofNat 8 (tblGet [] t i).length)
  padTo 4096 (
    words [g.pc, (g.run.map (·.pc)).getD 0] ++
    words ((List.range 63).map (fun i => (tblGet 0 g.sregs i).toNat)) ++
    padTo 8 (leBytes 1 (((List.range 8).filter (fun i => decide (0 < i) && tblGet false g.bools i)).foldl (fun v i => v + 2 ^ i) 0)) ++
    words ((List.range 15).map (fun i => (tblGet 0 g.masks (i + 1)).toNat)) ++
    words ([g.active, g.ldead].map (·.toNat)) ++
    words ([sr.fmt.setWidth 64, sr.scb, sr.scsh, sr.wto, sr.prog, sr.hintdrop, sr.misscnt, sr.tkused, sr.tkstall, sr.tstat, sr.tpc,
      sr.tlpc, sr.tmask].map (·.toNat)) ++
    words (sr.lbka.map (·.toNat)) ++
    words [g.rank] ++
    (List.range 16).map (fun i => BitVec.ofNat 8 ((tblFind g.savedTiles i).getD 0xFF)) ++
    padTo 8 (leBytes 1 g.stack.length) ++
    padTo 8 ((List.range 5).map (fun c => BitVec.ofNat 8 (g.outCount c)) ++ leBytes 1 g.blocks.length) ++
    padTo 16 (lens g.lq 8 ++ lens g.sq 4 ++ lens g.aq 2 ++ leBytes 1 g.rq.length) ++
    words [g.lostCells.length] ++
    padTo 160 (words (k.map (·.toNat))) ++
    (List.range 64).flatMap (fun l => leBytes 4 (tblGet 0 g.prec l).toNat) ++
    words ((List.range 64).map (fun l => (tblGet 0 g.z l).toNat)) ++
    g.blocks.flatMap (fun b => words (b.pc :: b.k.map (·.toNat))))

/-- A group's window (R263): cell c of lane l in unit c / 4. -/
def Group.windowBytes (g : Group) : List Byte :=
  (List.range ((g.window + 3) / 4 * 4)).flatMap (fun c => (List.range 64).flatMap (fun l => leBytes 4 (g.cell l c)))

/-- A stack entry (R236). -/
def Entry.bytes (e : Entry) : List Byte :=
  let word := fun (w : Word) => leBytes 8 w.toNat
  padTo 128 (
    padTo 4 (leBytes 1 (match e.kind with | .div => 1 | .call => 2 | .trap => 3)) ++ leBytes 4 e.fmt.toNat ++
    word e.amask ++ word e.pend ++ leBytes 8 e.pc1 ++
    (match e.kind with | .trap => word e.tstat | _ => leBytes 8 e.pc2) ++
    word e.tpc ++ word e.tlpc ++ word e.tmask ++ padTo 8 (leBytes 2 e.parkn ++ leBytes 1 e.lbusy.toNat) ++
    e.k.flatMap word)

/-- An entry of a load, store or address queue: its data, `n` bytes a lane, and its lane mask (R265). -/
def QEntry.bytes (e : QEntry) (n : Nat) : List Byte :=
  (List.range 64).flatMap (fun l => leBytes n (tblGet 0 e.data l)) ++ leBytes 8 e.mask.toNat

/-- A group's part of the queue section (R265). -/
def Group.queueBytes (g : Group) : List Byte :=
  (List.range 8).flatMap (fun i => (tblGet [] g.lq i).flatMap (fun e => e.bytes 4 ++ leBytes 8 e.poison.toNat)) ++
  (List.range 4).flatMap (fun i => (tblGet [] g.sq i).flatMap (fun e => e.bytes 4)) ++
  (List.range 2).flatMap (fun i => (tblGet [] g.aq i).flatMap (fun e => e.bytes 8)) ++
  g.rq.flatMap (fun e => leBytes 8 e.value.toNat) ++
  g.lostCells.flatMap (fun k => [BitVec.ofNat 8 (k / 256), BitVec.ofNat 8 k, 0, 0])

/-- The destination of a log record (R265): 0 a cell, 1 a load-queue entry, 2 a scalar register, 3 none; its index. -/
def Group.destField (g : Group) (d : Dest) : Nat :=
  match d with
  | .cells i _ => 4 * i
  | .vp id part => 4 * (((g.vploads.find? (·.id == id)).map (·.idx)).getD 0 + part)
  | .entry q _ _ _ => 1 + 4 * q
  | .push _ _ => 1 + 4 * ((g.lpush.map (·.q)).getD 0)
  | .reg r _ => 2 + 4 * r
  | .flag _ | .piece _ _ | .none => 3

/-- A log record (R265). -/
def Group.logRecord (g : Group) (a : Access) : List Byte :=
  padTo 48 (
    words [a.addr, a.data, if a.kind == .atomic then a.cmp else 0] ++
    leBytes 1 (match a.kind with | .load | .fence | .hint => 0 | .store => 1 | .atomic => 2) ++
    leBytes 1 a.size ++ leBytes 1 (a.ord + 4 * a.scope + 32 * a.evict) ++ leBytes 1 a.lane ++
    leBytes 2 (g.destField a.dest) ++ padTo 2 (leBytes 1 a.stream.toNat) ++ leBytes 8 a.pc)

/-- A suspended boarding: 64 B and the bitmap of its released ranks (R263, R66). DESIGN CHOICE: assumption 22 for the place of
the group (byte 32) and of the BOARD position (byte 33). -/
def Boarding.bytes (b : Boarding) (g : Group) : List Byte :=
  padTo 64 (b.desc ++ leBytes 1 g.grpid ++ leBytes 1 (g.position 2 b.id)) ++ bitmap b.count b.released

/-- A suspended copy (R263). DESIGN CHOICE: assumption 22 for the places of its fields. -/
def CopyOp.bytes (o : CopyOp) (g : Group) : List Byte :=
  padTo 64 (padTo 8 (leBytes 1 g.grpid ++ leBytes 1 (g.position 0 o.id)) ++ words [o.src + o.done, o.dst + o.done, o.len - o.done])

/-- The sections of a team's context image but for its header, in the order of R263. -/
def State.imageSections (s : State) (t : Nat) : List (List Byte) :=
  let tm := s.team t
  let k := s.core (320 + t)
  let gs := (s.teamGroups t).map s.group
  let scratch := (List.range 32).filter (fun i => (tblFind k.banks i).any (·.role == .scratch))
  let tiles := gs.flatMap (fun g => g.accmap.map (fun e => k.tile (g.grpid * 16 + e.2)))
  [ gs.flatMap Group.block,
    gs.flatMap Group.windowBytes,
    scratch.flatMap (fun i => k.lread (65536 * i) 65536),
    tiles.flatMap (fun x => (List.range 4096).flatMap (fun i => leBytes 4 (tblGet 0 x.data i))) ++
      tiles.map (fun x => BitVec.ofNat 8 x.poison.toNat),
    gs.flatMap (fun g => g.stack.reverse.flatMap Entry.bytes),
    gs.flatMap Group.queueBytes,
    tm.boards.flatMap (fun b => b.bytes (s.group b.grp)),
    tm.copies.flatMap (fun o => o.bytes (s.group o.grp)),
    gs.flatMap (fun g => g.records.flatMap g.logRecord) ].map pad64

/-- The context image of a team whose context has been written (R263), its header first. DESIGN CHOICE: assumption 22 for the
places of the three record counts and the lengths, 4 B each in the order of the table. -/
def State.contextImage (s : State) (t : Nat) : List Byte :=
  let tm := s.team t
  let k := s.core (320 + t)
  let gs := (s.teamGroups t).map s.group
  let secs := s.imageSections t
  let held := (tblKeys k.banks).foldl (fun v i => v + 2 ^ i) 0
  padTo 4096 (padTo 64 (
    leBytes 4 0x43585443 ++ leBytes 2 1 ++ leBytes 1 tm.ngroups ++ leBytes 1 tm.isTwin.toNat ++
    leBytes 4 (s.grid tm.grid).gridid.toNat ++ leBytes 4 tm.teamid ++ leBytes 8 tm.arrive ++ leBytes 8 (lsroleOf k t) ++
    leBytes 4 held ++
    [tm.boards.length, tm.copies.length, total (gs.map (·.records.length))].flatMap (leBytes 4)) ++
    ((4096 :: secs.map List.length).flatMap (leBytes 4))) ++ secs.flatten

end Sys2Proof.Machine
end

