-- ==== Sys2Proof/Tests/Slice0.lean ====
section
/-!
SUPPORT. Tests: words written out from the encoding tables, ill-formed terms that the check refuses, results from the
spec's rules and examples, and states that meet the hypotheses of each statement. -/
namespace Sys2Proof.Tests
open Sys2Proof Sys2Proof.Machine

/-! ## Small states -/

/-- A team of one group on core 0, with a trap entry. -/
def tm : Team := { grid := 1, trapent := some 0x4000, lcode := 0x8000 }

/-- A page of 64 KiB of HBM on die 0 that permits everything. -/
def page : Page := { perm := 0x1F }

/-- A device that is up, with that team, its group 128 and that page at 0x10000. -/
def st (g : Group) : State :=
  { State.reset with
    firm := { up := true, step := 8 }, teams := [(1, tm)], grids := [(1, {})], groups := [(128, g)]
    pages := [(0x10000, page)], cur := 128 }

@[simp] theorem st_team (g : Group) : (st g).team (teamOf (st g).cur) = tm := by
  simp [st, State.team, teamOf, tblGet, tblFind]

@[simp] theorem st_grid (g : Group) : (st g).gridOf (st g).cur = {} := by
  simp [State.gridOf, State.grid]; simp [st, tm, tblGet, tblFind]

theorem st_listed (g : Group) : (tblFind (st g).teams (teamOf (st g).cur)).isSome = true := by
  simp [st, teamOf, tblFind]

theorem issuing (g : Group) (a : g.exited = false) (b : g.swait = .none) (c : g.held.length < 512) : Issuing (st g) g :=
  { here := rfl, up := rfl, listed := st_listed g, running := by simp [tm], clear := by simp [tm], alive := a, free := b
    room := c }

theorem canTrap (g : Group) (a : g.stack.length < 64) : CanTrap (st g) g 0x4000 := ⟨by simp [tm], a⟩

theorem plain (g : Group) : Plain (st g) :=
  { alone := by simp [tm], primary := by simp [tm], noRec := by simp, noReplay := by simp }

theorem laneIssuing (g : Group) (r : LaneRun) (a : g.run = some r) (b : g.lpush = none) (c : g.held.length < 512)
    (d : g.window ≤ 256) : LaneIssuing (st g) g :=
  { here := rfl, up := rfl, listed := st_listed g, running := by simp [tm], clear := by simp [tm], block := by simp [a]
    port := b, room := c, window := d }

/-- A group with a few registers set: the smallest and the largest number, small numbers, and an address in the page. -/
def g1 : Group :=
  { team := 1, active := allLanes, ldead := 0
    sregs := [(1, 0x8000000000000000), (2, 0xFFFFFFFFFFFFFFFF), (3, 1), (4, 2), (5, 0x10000), (6, 3)] }

theorem issuing_g1 : Issuing (st g1) g1 := issuing g1 rfl rfl (by decide)
theorem canTrap_g1 : CanTrap (st g1) g1 0x4000 := canTrap g1 (by decide)

/-- The bytes at 0x10000 may be read (0), written (1) and changed by atomics (2). -/
theorem inHbm (g : Group) (w : Nat) (h : w = 0 ∨ w = 1 ∨ w = 2) : InHbm (st g) 0 0x10000 8 w 0x10000 page :=
  { inside := by decide, bytes := by decide, kind := rfl, backed := rfl, still := rfl, path := rfl
    perm := by rcases h with rfl | rfl | rfl <;> decide
    page := by intro i hi; have : pageAt [(0x10000, page)] (0x10000 + i) = some (0x10000, page) := by
                 simp only [pageAt]; rw [if_pos]; simp only [page]; omega
               exact this
    running := by simp [st, State.die, tblGet, tblFind, State.reset, page] }

/-! ## Words written out from the encoding tables (R269 to R281) -/

theorem test_decode_sub : decodeTableWord 32 (0x01#6 ++ 2#6 ++ 3#6 ++ 4#6 ++ 0x01#8).toNat = some (.sub 2 3 4) := by decide
theorem test_decode_addImm : decodeTableWord 32 (0x02#6 ++ 1#6 ++ 2#6 ++ 0x3FFF#14).toNat = some (.addImm 1 2 0x3FFF) := by
  decide
theorem test_decode_cmpImm : decodeTableWord 32 (0x09#6 ++ 2#3 ++ 1#3 ++ 7#6 ++ 5#14).toNat = some (.cmpImm 2 1 7 5) := by
  decide
theorem test_decode_br : decodeTableWord 32 (0x0D#6 ++ 2#3 ++ 1#1 ++ 0x3FFFFE#22).toNat = some (.br 2 true 0x3FFFFE) := by
  decide
theorem test_decode_swr : decodeTableWord 32 (0x12#6 ++ 7#6 ++ 0x023#12 ++ 0x71#8).toNat = some (.swr 7 0x023) := by decide
theorem test_decode_ld : decodeTableWord 64 ((1#2 ++ 5#3 ++ 0#3 ++ 8#24) ++ (0x30#6 ++ 1#6 ++ 2#6 ++ 3#3 ++ 0#11)).toNat =
    some (.ld 1 2 3 false { ord := 1, scope := 5, evict := 0, offset := 8 }) := by decide
theorem test_decode_vsqs :
    decodeTableWord 64 (0#32 ++ (0x35#6 ++ 3#3 ++ 2#4 ++ 10#6 ++ 0#5 ++ 1#1 ++ 6#6 ++ 1#1)).toNat =
      some (.vsqs 3 2 10 1 6 { ord := 0, scope := 0, evict := 0, offset := 0 }) := by decide
theorem test_decode_mma : decodeTableWord 64 ((0#8 ++ 12#8 ++ 24#5 ++ 0#1 ++ 1#1 ++ 0#5 ++ 0#2 ++ 1#2) ++
    (0x36#6 ++ 1#4 ++ 0#2 ++ 0#6 ++ 0#6 ++ 0#8)).toNat = some (.mma 1 0 0 0x000CC201) := by decide
/-- `iadd.i32 v1, v2, v3` under mask m3. -/
theorem test_decode_iadd : decodeTableWord 96 (0#16 ++ 0#1 ++ 0#3 ++ 0#3 ++ 0#2 ++ 0#3 ++ 0#12 ++ 3#12 ++ 2#12 ++ 0#1 ++ 0#2 ++
    1#8 ++ 0#1 ++ 3#4 ++ 2#6 ++ 0x010#10).toNat = some (.iadd {
      fmt := 2, guard := 3, gneg := false, dest := 1, dkind := 0, sat := false
      a := { index := 2, kind := 0, neg := false, wait := false }, b := { index := 3, kind := 0, neg := false, wait := false }
      c := { index := 0, kind := 0, neg := false, wait := false }, rnd := 0, ord := 0, scope := 0, evict := 0, imm := 0 }) := by
  decide
/-- `ldl` names no destination mask. -/
theorem test_decode_reserved : decodeTableWord 32 0 = none ∧ decodeTableWord 32 (0x14#6 ++ 0#26).toNat = none ∧
    decodeTableWord 32 (0x12#6 ++ 0#18 ++ 0x7B#8).toNat = none ∧ decodeTableWord 64 (0#32 ++ (0x37#6 ++ 0#18 ++ 2#8)).toNat = none ∧
    decodeTableWord 96 0x002 = none := by decide

/-! ## Ill-formed terms (R271 to R287) -/

/-- The lane fields of `fadd.f32 v1, v2, v3`. -/
def lf : LaneF :=
  { fmt := 0x0A, guard := 0, gneg := false, dest := 1, dkind := 0, sat := false
    a := { index := 2, kind := 0, neg := false, wait := false }, b := { index := 3, kind := 0, neg := false, wait := false }
    c := { index := 0, kind := 0, neg := false, wait := false }, rnd := 0, ord := 0, scope := 0, evict := 0, imm := 0 }

theorem test_wellFormed_lane : (Instr.fadd lf).wf = true ∧ (Instr.fadd { lf with fmt := 2 }).wf = false ∧
    (Instr.fadd { lf with dkind := 2 }).wf = false ∧ (Instr.fadd { lf with dkind := 1, dest := 6 }).wf = false ∧
    (Instr.fadd { lf with rnd := 7 }).wf = false ∧ (Instr.fmin { lf with sat := true }).wf = false ∧
    (Instr.fclass { lf with b := lf.c, imm := 1 }).wf = false ∧ (Instr.fadd { lf with scope := 1 }).wf = false ∧
    (Instr.fadd { lf with c := { index := 4, kind := 0, neg := false, wait := false } }).wf = false ∧
    (Instr.fadd { lf with a := { index := 8, kind := 1, neg := false, wait := false } }).wf = false ∧
    (Instr.fadd { lf with a := { index := 5, kind := 2, neg := false, wait := false } }).wf = false ∧
    (Instr.fclass { lf with b := { index := 0, kind := 0, neg := false, wait := false }
                            a := { index := 2, kind := 0, neg := true, wait := false } }).wf = false ∧
    (Instr.lend { lf with guard := 1 }).wf = false := by decide

theorem test_wellFormed_scalar : (Instr.cmp 1 2 3 6).wf = false ∧ (Instr.waitc 5 0).wf = false ∧ (Instr.waitc 4 256).wf = false ∧
    (Instr.atom 1 2 3 10 3 { ord := 0, scope := 0, evict := 0, offset := 0 }).wf = false ∧
    (Instr.ld 1 2 4 false { ord := 0, scope := 0, evict := 0, offset := 0 }).wf = false ∧
    (Instr.ld 1 2 3 true { ord := 0, scope := 0, evict := 0, offset := 0 }).wf = false ∧
    (Instr.ld 1 2 3 false { ord := 2, scope := 0, evict := 0, offset := 0 }).wf = false ∧
    (Instr.st 1 2 3 { ord := 1, scope := 0, evict := 0, offset := 0 }).wf = false ∧
    (Instr.fence { ord := 0, scope := 0, evict := 0, offset := 0 }).wf = false ∧
    (Instr.fence { ord := 3, scope := 6, evict := 0, offset := 0 }).wf = false ∧
    (Instr.vlq 0 0 1 2 0x0E { ord := 0, scope := 0, evict := 0, offset := 0 }).wf = false ∧
    (Instr.vsq 4 0 1 2 2 { ord := 0, scope := 0, evict := 0, offset := 0 }).wf = false ∧
    (Instr.srd 1 0x00A).wf = false ∧ (Instr.copy 1 2 3 0x1000).wf = false := by decide

/-! ## Witnesses: scalar instructions, exceptions, special registers -/

theorem witness_scalarArithmetic : Issuing (st g1) g1 ∧ g1.sread 7 = 0 ∧ g1.sread 2 ≠ 0 ∧ g1.sread 1 = BitVec.intMin 64 ∧
    g1.sread 2 = BitVec.allOnes 64 := ⟨issuing_g1, by decide⟩

theorem witness_compareAndBranch : Issuing (st g1) g1 ∧ (g1.sread 5).toNat % 4 = 0 ∧ (g1.sread 4 ≠ 0 ∧ g1.sread 4 ≠ 1) ∧
    g1.sread 3 = 1 ∧ g1.sread 7 = 0 := ⟨issuing_g1, by decide⟩

theorem witness_trapEntry : Issuing (st g1) g1 ∧ CanTrap (st g1) g1 0x4000 := ⟨issuing_g1, canTrap_g1⟩

/-- A group with 64 entries on its stack, the top one of kind DIV. -/
def gFull : Group := { g1 with stack := List.replicate 64 {} }

theorem witness_trapsAtTheInstruction : Issuing (st g1) g1 ∧ CanTrap (st g1) g1 0x4000 ∧ (g1.sread 3).toNat % 4 ≠ 0 ∧
    (g1.sread 5).toNat ≥ 2 ^ 16 ∧ (g1.sread 2).toNat ≥ 2 ^ 32 ∧ fld (g1.sread 7).toNat 12 6 ∉ [0x09, 0x0A] ∧ g1.stack = [] ∧
    (st g1).team (teamOf (st g1).cur) = tm ∧ tm.heir = none :=
  ⟨issuing_g1, canTrap_g1, by decide, by decide, by decide, by decide, rfl, st_team g1, rfl⟩

theorem witness_tretWithoutTrap : Issuing (st { g1 with stack := [{}] }) { g1 with stack := [{}] } ∧
    CanTrap (st { g1 with stack := [{}] }) { g1 with stack := [{}] } 0x4000 ∧ ({} : Entry).kind ≠ .trap ∧
    ({ g1 with stack := [{}] } : Group).level = 0 ∧ ({ g1 with stack := [{}] } : Group).laneIdle = true :=
  ⟨issuing _ rfl rfl (by decide), canTrap _ (by decide), by decide⟩

theorem witness_doubleTrap : Issuing (st gFull) gFull ∧ ((st gFull).team (teamOf (st gFull).cur)).trapent = some 0x4000 ∧
    gFull.stack.length = 64 ∧ ((st gFull).team (teamOf (st gFull).cur)).heir = none :=
  ⟨issuing _ rfl rfl (by decide), by simp [tm], by decide, by simp [tm]⟩

/-- The same state with a kernel that has no trap entry. -/
def stBare : State := { st g1 with teams := [(1, { tm with trapent := none })] }

theorem witness_noTrapEntry : Issuing stBare g1 ∧ (stBare.team (teamOf stBare.cur)).trapent = none ∧
    (stBare.team (teamOf stBare.cur)).heir = none := ⟨by constructor <;> decide, by decide, by decide⟩

/-- In a handler that interrupted a lane block. -/
def gTrap : Group :=
  { g1 with stack := [{ kind := .trap, lbusy := true }], sr := { tpc := 0x2000, tlpc := 0x8018 } }

theorem witness_trapReturn : Issuing (st gTrap) gTrap ∧ gTrap.stack = { kind := .trap, lbusy := true } :: [] ∧
    gTrap.run = none ∧ gTrap.lpush = none ∧ gTrap.blocks = [] ∧ tstatReserved gTrap.sr.tstat = false ∧
    gTrap.sr.tpc.toNat < 2 ^ 56 ∧ gTrap.sr.tlpc.toNat < 2 ^ 56 ∧ gTrap.sr.tpc.toNat % 4 = 0 ∧
    tm.lcode ≤ gTrap.sr.tlpc.toNat ∧ (gTrap.sr.tlpc.toNat - tm.lcode) % 12 = 0 :=
  ⟨issuing _ rfl rfl (by decide), rfl, by decide, by decide, rfl, by decide⟩

theorem witness_specialRegisters : Issuing (st g1) g1 ∧ Plain (st g1) ∧ (∀ a, a ∈ g1.log → a.ord ≠ 1 ∧ a.ord ≠ 3) :=
  ⟨issuing_g1, plain g1, by simp [g1]⟩

/-- A core with three banks of team 1: one in scratchpad role and two in TOB role, of which one is FREE. -/
def kBanks : Core :=
  { banks := [(0, { role := .scratch, team := 1 }), (1, { role := .tob, team := 1 }),
      (2, { role := .tob, team := 1, state := .full })] }

theorem witness_bankRoles : Issuing { st g1 with cores := [(0, kBanks)] } g1 ∧
    (kBanks.bank 0).team = 1 ∧ (kBanks.bank 1).state = .free ∧ (kBanks.bank 2).state ≠ .free :=
  ⟨by constructor <;> decide, by decide⟩

theorem witness_formatRegister : Issuing (st { g1 with sregs := [(1, 0xA596)] }) { g1 with sregs := [(1, 0xA596)] } ∧
    fld 0xA596 0 6 = 0x16 ∧ fld 0xA596 6 6 = 0x16 ∧ fld 0xA596 12 6 = 0x0A ∧ fld 0xA596 19 3 = 0 :=
  ⟨issuing _ rfl rfl (by decide), by decide⟩

theorem witness_counters : Issuing (st g1) g1 ∧ Plain (st g1) ∧ g1.outCount 0 ≤ 0 ∧
    (0 : Nat) < ({ g1 with outs := [(0, [{}])] } : Group).outCount 0 := ⟨issuing_g1, plain g1, by decide⟩

theorem witness_priceRead : (Issuing (st g1) g1 ∧ (g1.sread 4).toNat / 2 ^ 16 = 0 ∧ CanTrap (st g1) g1 0x4000 ∧
    (g1.sread 2).toNat / 2 ^ 16 ≠ 0) ∧ Issuing stBare g1 ∧ (stBare.team (teamOf stBare.cur)).trapent = none ∧
    (stBare.team (teamOf stBare.cur)).heir = none :=
  ⟨⟨issuing_g1, by decide, canTrap_g1, by decide⟩, by constructor <;> decide, by decide, by decide⟩

/-- A group with two reserved tiles, one of them named. -/
def gTiles : Group := { g1 with tileset := [4, 5], accmap := [(3, 4)] }

theorem witness_tileNames : Issuing (st gTiles) gTiles ∧ CanTrap (st gTiles) gTiles 0x4000 ∧
    tblFind gTiles.accmap 7 = none ∧ gTiles.tileset.find? (fun n => !(tblVals gTiles.accmap).contains n) = some 5 ∧
    tblFind gTiles.accmap 3 = some 4 ∧ (((st gTiles).core ((st gTiles).coreOf 128)).tile 4).pending = [] ∧
    ((st gTiles).core ((st gTiles).coreOf 128)).boards = [] ∧
    ∀ n, n ∈ ({ gTiles with tileset := [4] } : Group).tileset → n ∈ tblVals gTiles.accmap :=
  ⟨issuing _ rfl rfl (by decide), canTrap _ (by decide), by decide⟩

/-! ## Witnesses: scalar memory access -/

theorem witness_scalarStoresIssue : Issuing (st g1) g1 ∧ Plain (st g1) ∧ (st g1).entriesFree 128 1 = true ∧
    (g1.sread 5 + (0 : Word)).toNat % 8 = 0 := ⟨issuing_g1, plain g1, by decide⟩

/-- The page at 0x10000 is a KICK page. -/
def stKick : State := { st g1 with pages := [(0x10000, { kind := .kick })] }

theorem witness_kick : Issuing stKick g1 ∧ Plain stKick ∧ stKick.entriesFree 128 1 = true ∧ (g1.sread 5).toNat % 8 = 0 ∧
    (g1.sread 5).toNat % 2 ^ 56 < 0xF0 * 2 ^ 48 ∧ stKick.pageKind (g1.sread 5).toNat = some .kick :=
  ⟨by constructor <;> decide, by constructor <;> decide, by decide⟩

theorem witness_loadValue : Issuing (st g1) g1 ∧ Plain (st g1) ∧ (st g1).entriesFree 128 1 = true ∧ g1.log = [] ∧
    g1.held = [] ∧ g1.lpush = none ∧ g1.vploads = [] ∧ ((st g1).core ((st g1).coreOf 128)).cache = [] ∧
    (g1.sread 5 + (0 : Word)).toNat = 0x10000 ∧ InHbm (st g1) ((st g1).dieOf (st g1).cur) 0x10000 8 0 0x10000 page ∧
    (st g1).homePoison 0x10000 8 = false :=
  ⟨issuing_g1, plain g1, by decide, rfl, rfl, rfl, rfl, by decide, by decide, inHbm g1 0 (by simp), by decide⟩

theorem witness_atomicValue : Issuing (st g1) g1 ∧ (st g1).arms = [] ∧ InHbm (st g1) ((st g1).dieOf (st g1).cur) 0x10000 8 2 0x10000 page ∧
    0x10000 % 8 = 0 ∧ (2 : Nat) ≤ (5#3).toNat := ⟨issuing_g1, rfl, inHbm g1 2 (by simp), by decide⟩

/-- A group whose log holds one access. -/
def gLog (a : Access) : Group := { g1 with log := [a] }

theorem witness_storePerformed : ∃ a : Access, tblFind (st (gLog a)).groups 128 = some (gLog a) ∧ a.kind = .store ∧
    a.parked = false ∧ a.refused = false ∧ a.sent = false ∧ a.rank = none ∧ a.ord = 0 ∧ 2 ≤ a.scope ∧ a.dest = .none ∧
    a.addr < 2 ^ 56 ∧ InHbm (st (gLog a)) ((st (gLog a)).dieOf 128) a.addr a.size 1 0x10000 page ∧ (gLog a).lpush = none ∧ (gLog a).vploads = [] :=
  ⟨{ kind := .store, addr := 0x10000, size := 8, data := 5, scope := 5 }, rfl, by decide, by decide, by decide, by decide,
    by decide, by decide, by decide, by decide, by decide, inHbm _ 1 (by simp), rfl, rfl⟩

/-- A misaligned atomic, a load where nothing is mapped, and a store to a page that permits none. -/
theorem witness_accessFaults :
    (∃ a : Access, a.kind = .atomic ∧ 0 < a.size ∧ a.addr % a.size ≠ 0 ∧ a.addr % 2 ^ 56 + a.size ≤ 0xF0 * 2 ^ 48 ∧
      (st (gLog a)).orderReady 128 a = true) ∧
    (∃ a : Access, a.kind = .load ∧ a.ord = 0 ∧ pageAt (st g1).pages (a.addr % 2 ^ 56) = none ∧
      (st (gLog a)).orderReady 128 a = true) ∧
    (∃ a : Access, a.kind = .store ∧ a.ord = 0 ∧ (st (gLog a)).orderReady 128 a = true ∧
      pageAt [(0x10000, ({} : Page))] (a.addr % 2 ^ 56) = some (0x10000, {}) ∧ ({} : Page).perm.getLsbD 1 = false) ∧
    (tblFind (st g1).teams (teamOf 128)).isSome = true ∧ ((st g1).team (teamOf 128)).report = none ∧
    ((st g1).team (teamOf 128)).heir = none :=
  ⟨⟨{ kind := .atomic, addr := 0x10004, size := 8 }, by decide⟩, ⟨{ addr := 0x30000, size := 8 }, by decide⟩,
    ⟨{ kind := .store, addr := 0x10008, size := 8 }, by decide⟩, by decide⟩

/-! ## Witnesses: queues, blocks, team operations -/

/-- A group with an entry in aq0 and one in sq0. -/
def gQueues : Group := { g1 with aq := [(0, [{}])], sq := [(0, [{}])] }

theorem witness_queueAccess : Issuing (st gQueues) gQueues ∧ Plain (st gQueues) ∧ gQueues.inHandler = false ∧
    (st gQueues).entriesFree 128 64 = true ∧ (tblGet [] gQueues.lq 0).length < 4 ∧ tblGet [] gQueues.aq 0 = {} :: [] ∧
    tblGet [] gQueues.sq 0 = {} :: [] := ⟨issuing _ rfl rfl (by decide), plain _, by decide⟩

theorem witness_loadQueueFill : ∃ g : Group, tblFind (st g).groups 128 = some g ∧ g.log = [] ∧ tblRising g.lq = true ∧
    tblFind g.lq 3 = some [{ full := false }] := ⟨{ lq := [(3, [{ full := false }])] }, rfl, rfl, by decide, by decide⟩

theorem witness_laneBlocks : Issuing (st g1) g1 ∧ g1.inHandler = false ∧ g1.blocks.length < 32 ∧ g1.run = none ∧
    g1.lpush = none ∧ (∀ x, x ∈ g1.blocks → x.level ≠ g1.level) ∧
    ({ g1 with rq := [{}] } : Group).rq = ({} : RqEntry) :: [] ∧ ({} : RqEntry).poison = false ∧
    ({ g1 with blocks := [{}] } : Group).blocks = ({} : Block) :: [] ∧ ({} : Block).level = ({ g1 with blocks := [{}] } : Group).level :=
  ⟨issuing_g1, by decide, by decide, rfl, rfl, by simp [g1], by decide⟩

/-- In a handler the lane block queue has room for two more. -/
theorem witness_laneBlocksHandler : Issuing (st gTrap) gTrap ∧ gTrap.inHandler = true ∧ gTrap.blocks.length < 34 :=
  ⟨issuing _ rfl rfl (by decide), by decide⟩

/-- A group both of whose streams wait since clock 0, at clock 64. -/
def stDead : State := { st { g1 with sblock := some 0, lblock := some 0 } with clock := 64 }

theorem witness_queueTraps : Issuing (st g1) g1 ∧ CanTrap (st g1) g1 0x4000 ∧ g1.inHandler = false ∧ g1.rq = [] ∧
    g1.laneIdle = true ∧ ({ poison := true } : RqEntry).poison = true ∧ (0 : Nat) + 64 ≤ stDead.clock :=
  ⟨issuing_g1, canTrap_g1, by decide⟩

theorem witness_teamArrivals : Issuing (st g1) g1 ∧ Plain (st g1) ∧ g1.laneIdle = true ∧ tm.cluster = none ∧
    tm.roles = false ∧ g1.blocks = [] ∧ g1.stack = [] ∧ g1.queued = false ∧ g1.lq.all (fun q => q.2.isEmpty) = true :=
  ⟨issuing_g1, plain g1, by decide⟩

theorem witness_clusters : (({ st g1 with teams := [(1, { tm with cluster := some 0 })] } : State).team 1).cluster.isSome = true := by
  decide

theorem witness_barrierOpens :
    let s := st { g1 with swait := .bar }
    tblRising s.groups = true ∧ s.liveGroups 1 = [128] ∧ (s.group 128).swait = .bar ∧ (s.group 128).log = [] := by decide

/-- A group that has arrived at a regroup by m0. -/
def gRegroup : Group := { g1 with swait := .regroup 0 }

theorem witness_regroups : (st gRegroup).liveGroups 1 = [128] ∧ tblFind (st gRegroup).groups 128 = some gRegroup ∧ teamOf 128 = 1 ∧
    gRegroup.log = [] ∧ gRegroup.longs = [] ∧ gRegroup.vploads = [] ∧ gRegroup.window ≤ 256 ∧
    gRegroup.mread 0 &&& ~~~ gRegroup.ldead ≠ 0 := by decide

/-! ## Witnesses: lane instructions -/

/-- A group whose lane block runs; its operands are cells that are full. -/
def gLane : Group := { g1 with run := some { pc := 0x8000 }, blocks := [], cells := [(2, 5), (3, 7)] }

theorem laneIssuing_gLane : LaneIssuing (st gLane) gLane := laneIssuing gLane { pc := 0x8000 } rfl rfl (by decide) (by decide)

theorem clean (s : State) (g : Group) (op : Nat) (f : LaneF) (h : g.errs = []) (hp : lanePopped g op f = [[], [], []]) (i : Nat) :
    (laneCtx s g op f).poison i = 0 := by
  simp only [laneCtx, Group.errLanes, h, hp, List.isEmpty_nil, Bool.true_or, if_true]
  match i with
  | 0 | 1 | 2 => rfl
  | n + 3 => simp [poisonOf]

/-- A witness of `LaneGo` from what can be computed. -/
theorem laneGoOf (g : Group) (r : LaneRun) (op : Nat) (f : LaneF) (hr : g.run = some r) (h : op ≠ 0x0B0)
    (hd : g.lpush = none ∧ g.held.length < 512 ∧ g.window ≤ 256 ∧ (g.inHandler && namesQueue op f) = false ∧
      g.windowStop op f (g.lanes f) = none ∧
      g.sourceStop op f (lanePopped g op f)
        (if op = 0x080 then maskOf ((lanesOf (g.lanes f)).map (fun l =>
          shflLane f.imm.toNat ((laneCtx (st g) g op f).src 1 l).pat l)) &&& g.live else g.lanes f) 0 = none ∧
      g.sourceStop op f (lanePopped g op f) (g.lanes f) 1 = none ∧ g.sourceStop op f (lanePopped g op f) (g.lanes f) 2 = none ∧
      (st g).destStop g op f (g.lanes f) = none ∧ (laneCtx (st g) g op f).formatStop = none ∧ g.errs = [] ∧
      lanePopped g op f = [[], [], []]) : LaneGo (st g) g op f := by
  obtain ⟨h1, h2, h3, h4, h5, h6, h7, h8, h9, h10, h11, h12⟩ := hd
  exact {
    issue := laneIssuing g r hr h1 h2 h3, thawed := h4, window := h5, tile := fun t e => by simp [tileSource, h] at e
    source0 := h6, source1 := h7, source2 := h8, dest := h9, format := h10, clean := clean _ _ _ _ h11 h12 }

/-- Formats and operands of a few lane instructions. -/
def op0 : Operand := lf.c
def mask (i : BitVec 8) : Operand := { index := i, kind := 3, neg := false, wait := false }
def fInt : LaneF := { lf with fmt := 2 }
def fMask : LaneF := { lf with fmt := 0, dkind := 2, a := mask 2, b := mask 3 }
def fRq : LaneF := { lf with fmt := 0, dkind := 1, dest := 6, a := mask 2, b := op0 }
def fNone : LaneF := { lf with fmt := 0, dkind := 3, dest := 0xFF, a := op0, b := op0 }

theorem witness_laneIntegers : LaneGo (st gLane) gLane 0x010 fInt ∧ (Instr.iadd fInt).wf = true ∧
    ∀ l, gLane.belowFloor l none = false := ⟨laneGoOf gLane _ _ _ rfl (by decide) (by decide), by decide, fun _ => rfl⟩

theorem witness_laneFloats : LaneGo (st gLane) gLane 0x040 lf ∧ (Instr.fadd lf).wf = true ∧
    LaneGo (st gLane) gLane 0x049 lf ∧ (Instr.fdiv lf).wf = true :=
  ⟨laneGoOf gLane _ _ _ rfl (by decide) (by decide), by decide, laneGoOf gLane _ _ _ rfl (by decide) (by decide), by decide⟩

theorem witness_laneFloatPicks : LaneGo (st gLane) gLane 0x044 lf ∧ (Instr.fmin lf).wf = true :=
  ⟨laneGoOf gLane _ _ _ rfl (by decide) (by decide), by decide⟩

theorem witness_laneConversions : LaneGo (st gLane) gLane 0x061 { fInt with fmt := 1 } ∧
    (Instr.pack { fInt with fmt := 1 }).wf = true := ⟨laneGoOf gLane _ _ _ rfl (by decide) (by decide), by decide⟩

theorem witness_masksAndLanes : LaneGo (st gLane) gLane 0x070 fMask ∧ (Instr.mand fMask).wf = true ∧
    LaneGo (st gLane) gLane 0x075 fRq ∧ (Instr.mpopc fRq).wf = true ∧ fRq.dkind = 1 ∧ fRq.dest = 6 :=
  ⟨laneGoOf gLane _ _ _ rfl (by decide) (by decide), by decide, laneGoOf gLane _ _ _ rfl (by decide) (by decide), by decide⟩

theorem witness_roundingModes : (0 : Int) < 1 ∧ ((1 : Nat) : Rat) * (2 : Rat) ^ ((0 : Int) - 1) < 3 / 4 ∧
    (3 / 4 : Rat) < (((1 : Nat) : Rat) + 1) * (2 : Rat) ^ ((0 : Int) - 1) := by decide +kernel

theorem witness_exactOutcomes : (1 : Nat) ≠ 0 ∧ (settle false 0 (2 ^ 216 + 2 ^ 45)).isSome = true ∧
    (((2 ^ 216 + 2 ^ 45 : Nat) : Rat) - errFx ≤ (2 ^ 216 + 2 ^ 45 : Nat) * 2 ^ 0 ∧
      ((2 ^ 216 + 2 ^ 45 : Nat) : Rat) * 2 ^ 0 ≤ (2 ^ 216 + 2 ^ 45 : Nat) + errFx) :=
  ⟨by decide, by decide +kernel, by decide +kernel⟩

/-- Divergence: the stacks of the clauses of `LaneControl`. -/
def gStack (l : List Entry) : Group := { gLane with stack := l }

theorem witness_laneControl : LaneIssuing (st gLane) gLane ∧ gLane.run = some { pc := 0x8000 } ∧
    gLane.active &&& ~~~ gLane.ldead ≠ 0 ∧ gLane.stack.length < 63 ∧
    (gLane.active &&& ~~~ gLane.ldead) &&& gLane.mread 0 ≠ 0 ∧ (gLane.active &&& ~~~ gLane.ldead) &&& gLane.mread 2 = 0 ∧
    ({ gLane with ldead := BitVec.allOnes 64 } : Group).active &&& ~~~ ({ gLane with ldead := BitVec.allOnes 64 } : Group).ldead = 0 ∧
    (gStack [{ pend := 1 }]).stack = { pend := 1 } :: [] ∧ (gStack [{ kind := .call }]).stack = { kind := .call } :: [] ∧
    gLane.stack.length = ({ pc := 0x8000 } : LaneRun).base :=
  ⟨laneIssuing_gLane, rfl, by decide, by decide, by decide, by decide, by decide, rfl, rfl, by decide⟩

theorem witness_stackFaults : LaneIssuing (st (gStack (List.replicate 63 {}))) (gStack (List.replicate 63 {})) ∧
    CanTrap (st (gStack (List.replicate 63 {}))) (gStack (List.replicate 63 {})) 0x4000 ∧
    (gStack (List.replicate 63 {})).stack.length = 63 ∧ (gStack []).stack = [] ∧
    (gStack [{}]).stack.length ≠ ({ pc := 0x8000 } : LaneRun).base ∧ CanTrap (st (gStack [])) (gStack []) 0x4000 :=
  ⟨laneIssuing _ { pc := 0x8000 } rfl rfl (by decide) (by decide), canTrap _ (by decide), by decide, rfl, by decide,
    canTrap _ (by decide)⟩

/-- Lane accesses: an address in k0, data in v3. -/
def gAddr : Group := { gLane with run := some { pc := 0x8000, k := [0x10000, 0, 0, 0] } }
def k0 : Operand := { index := 0, kind := 2, neg := false, wait := false }
def fLd : LaneF := { lf with fmt := 2, a := k0, b := op0 }
def fSt : LaneF := { fLd with dkind := 3, dest := 0xFF, b := lf.b }
def fVp : LaneF := { fLd with fmt := 0x21 }

theorem witness_laneMemory : LaneGo (st gAddr) gAddr 0x0A0 fLd ∧ (Instr.ldl fLd).wf = true ∧ Plain (st gAddr) ∧
    (st gAddr).entriesFree 128 256 = true ∧ gAddr.lanes fLd ≠ 0 ∧ isVpFmt fLd.fmt.toNat = false ∧ fLd.dkind = 0 ∧
    LaneGo (st gAddr) gAddr 0x0A1 fSt ∧ (Instr.stl fSt).wf = true ∧
    LaneGo (st gAddr) gAddr 0x0A2 { fLd with b := lf.b } ∧ (Instr.atoml { fLd with b := lf.b }).wf = true ∧
    LaneGo (st gAddr) gAddr 0x0A3 fVp ∧ (Instr.ldvp fVp).wf = true ∧
    LaneGo (st gAddr) gAddr 0x0A4 { fSt with fmt := 0x21 } ∧ (Instr.stvp { fSt with fmt := 0x21 }).wf = true :=
  ⟨laneGoOf gAddr _ _ _ rfl (by decide) (by decide), by decide, plain _, by decide, by decide, by decide, by decide,
    laneGoOf gAddr _ _ _ rfl (by decide) (by decide), by decide, laneGoOf gAddr _ _ _ rfl (by decide) (by decide), by decide,
    laneGoOf gAddr _ _ _ rfl (by decide) (by decide), by decide, laneGoOf gAddr _ _ _ rfl (by decide) (by decide), by decide⟩

theorem witness_laneRemote : LaneGo (st gAddr) gAddr 0x0C0 { fSt with imm := 1 } ∧ (Instr.rputl { fSt with imm := 1 }).wf = true ∧
    gAddr.slotK 1 = BitVec.ofNat 64 (0 + 0 * 2 ^ 24) ∧ LaneGo (st gAddr) gAddr 0x0C1 { fLd with imm := 1 } ∧
    (Instr.rgetl { fLd with imm := 1 }).wf = true ∧ LaneGo (st gAddr) gAddr 0x0C2 { fSt with imm := 1 } ∧
    (Instr.rredl { fSt with imm := 1 }).wf = true ∧
    LaneGo (st gAddr) gAddr 0x0A6 { fNone with ord := 3 } ∧ LaneGo (st gAddr) gAddr 0x0A5 { fNone with a := k0 } ∧
    (Instr.prefl { fNone with a := k0 }).wf = true :=
  ⟨laneGoOf gAddr _ _ _ rfl (by decide) (by decide), by decide, by decide,
    laneGoOf gAddr _ _ _ rfl (by decide) (by decide), by decide, laneGoOf gAddr _ _ _ rfl (by decide) (by decide), by decide,
    laneGoOf gAddr _ _ _ rfl (by decide) (by decide), laneGoOf gAddr _ _ _ rfl (by decide) (by decide), by decide⟩

/-- A group with tile acc1 mapped. -/
def gAcc : Group := { gLane with tileset := [4], accmap := [(1, 4)] }
def fAcc : LaneF := { lf with a := { index := 0x41, kind := 3, neg := false, wait := false }, b := op0 }

theorem witness_accumulators : LaneGo (st gAcc) gAcc 0x0B0 fAcc ∧ (Instr.accrd fAcc).wf = true ∧
    (tblGet {} ((st gAcc).core ((st gAcc).coreOf 128)).tiles (gAcc.physTile 1)).poison = false ∧
    LaneGo (st gAcc) gAcc 0x0B1 { lf with dkind := 3, b := op0 } ∧ gAcc.lanes lf ≠ 0 ∧
    LaneGo (st gAcc) gAcc 0x0B2 { fNone with dest := 1 } :=
  ⟨{ issue := laneIssuing gAcc { pc := 0x8000 } rfl rfl (by decide) (by decide), thawed := by decide, window := by decide
     tile := by
       intro t e
       have : t = 1 := by simp [tileSource, fAcc] at e; exact e.symm
       subst this; decide
     source0 := by decide, source1 := by decide, source2 := by decide, dest := by decide, format := by decide
     clean := clean _ _ _ _ rfl (by decide) }, by decide, by decide,
    laneGoOf gAcc _ _ _ rfl (by decide) (by decide), by decide, laneGoOf gAcc _ _ _ rfl (by decide) (by decide)⟩

/-- Every lane has CEIL and S 7; k0 holds 3. -/
def gPrec : Group :=
  { gLane with run := some { pc := 0x8000, k := [3, 0, 0, 0] }
               prec := (List.range 64).map (fun l => (l, BitVec.ofNat 32 (7 + 7 * 2 ^ 7))) }
def fPrec : LaneF := { fNone with a := k0, imm := 1 }

theorem witness_precision : LaneGo (st gLane) gLane 0x0D1 { lf with fmt := 0, a := op0, b := op0 } ∧
    (Instr.precr { lf with fmt := 0, a := op0, b := op0 }).wf = true ∧ gLane.longs = [] ∧ gLane.vploads = [] ∧
    LaneGo (st gPrec) gPrec 0x0D0 fPrec ∧ gPrec.lanes fPrec ≠ 0 ∧ ∀ l, l < 64 →
      let new := precPut (tblGet 0 gPrec.prec l) (BitVec.ofNat 32 ((laneCtx (st gPrec) gPrec 0x0D0 fPrec).src 0 l).pat) 1
      1 ≤ precS new ∧ precS new ≤ precCeil new ∧ precRM new ≤ 5 :=
  ⟨laneGoOf gLane _ _ _ rfl (by decide) (by decide), by decide, rfl, rfl, laneGoOf gPrec _ _ _ rfl (by decide) (by decide),
    by decide, by decide⟩

theorem witness_longOperation : ∃ g : Group, tblFind (st g).groups 128 = some g ∧
    g.longs[0]? = some { writes := [(3, 5, 9)], flags := [(3, {})] } :=
  ⟨{ g1 with longs := [{ writes := [(3, 5, 9)], flags := [(3, {})] }] }, rfl, rfl⟩

/-! ## Witnesses: flags, engines and the tap -/

/-- A hint of ballast for a line. -/
def aHint : Access := { kind := .hint, addr := 0x10000, size := 128, op := 1 }
/-- A group that waits for a flag at 0x10000, with a time-out. -/
def gWait : Group := { g1 with swait := .waitm 0x10000 5 1 0 5 (some 0), sr := { wto := 100 } }

/-- The same team at TIME 1000, with scratchpad bank 0, a register that names its word 8, and a count. -/
def gBar : Group := { g1 with sregs := [(1, 0x00F0000000000008), (2, 0xFFFFFFFFFFFFFFFF), (5, 0x10000)] }
def stBar : State := { st gBar with cores := [(0, { banks := [(0, { role := .scratch, team := 1 })], store := [(8, 1)] })] }

theorem witness_flagWaits : (Issuing (st g1) g1 ∧ Plain (st g1) ∧ (st g1).entriesFree 128 1 = true ∧
      InHbm (st g1) ((st g1).dieOf (st g1).cur) 0x10000 8 0 0x10000 page ∧ (st g1).homePoison 0x10000 8 = false) ∧
    (tblFind (st gWait).groups 128 = some gWait ∧ gWait.swait = .waitm 0x10000 5 1 0 5 (some 0) ∧ gWait.log = [] ∧
      InHbm (st gWait) ((st gWait).dieOf 128) 0x10000 8 0 0x10000 page ∧ (st gWait).homePoison 0x10000 8 = false) ∧
    (let s := { st gWait with dies := [(0, { time := 1000 })] }
     s.issues 128 = true ∧ fld gWait.sr.wto.toNat 0 40 ≠ 0 ∧ 0 + fld gWait.sr.wto.toNat 0 40 < s.timeOf 128 ∧
      (s.team (teamOf 128)).trapent = some 0x4000 ∧ gWait.stack.length < 64) ∧
    (Issuing stBar gBar ∧ Plain stBar ∧ (gBar.sread 1).toNat = 0xF0 * 2 ^ 48 + 8 ∧
      ((stBar.core (stBar.coreOf stBar.cur)).bank 0).role = .scratch ∧
      ((stBar.core (stBar.coreOf stBar.cur)).bank 0).team = teamOf stBar.cur ∧ tblFind gBar.tbars gBar.level = none ∧
      toS 40 (leNat ((stBar.core (stBar.coreOf stBar.cur)).lread 8 8)) + (gBar.sread 2).toInt = 0) ∧
    (let s := st (gLog aHint)
     tblFind s.groups 128 = some (gLog aHint) ∧ (s.team (teamOf 128)).life = .running ∧ s.hasLeft 128 aHint = false ∧
      s.homeDie (aHint.addr % 2 ^ 56) = 0 ∧ s.tripBlocked (s.dieOf 128) 0 = false ∧ (s.die 0).choked = false ∧
      (s.core (s.coreOf 128)).entryq = [] ∧ s.hintOk aHint.addr = true ∧ (s.die 0).ballast.length < 1024) :=
  ⟨⟨issuing_g1, plain g1, by decide, inHbm g1 0 (by simp), by decide⟩,
    ⟨rfl, rfl, rfl, inHbm gWait 0 (by simp), by decide⟩, by decide,
    ⟨by constructor <;> decide, by constructor <;> decide, by decide⟩, by decide⟩

/-- Tile acc1 mapped, scratchpad banks 0 and 1, TOB bank 2; a descriptor for `board` at 0x10000 of local store. -/
def gEng : Group :=
  { g1 with accmap := [(1, 4)], sregs := [(5, 0x10000), (6, 0x11000), (7, 0x12000), (8, 64), (9, 1), (10, 0x10100)] }
def kEng : Core :=
  { banks := [(0, { role := .scratch, team := 1 }), (1, { role := .scratch, team := 1 }), (2, { role := .tob, team := 1 })]
    store := [(0x10008, 1), (0x1000A, 1), (0x1000C, 4)] }
/-- Job slot 0 is rank 2 of 4, its peer table at 0x10400; a `coll` descriptor at 0x10000 and a `trig` one at 0x10100. -/
def stEng : State :=
  { st gEng with
    cores := [(0, kEng)], jobs := [(0, { job := 7, rank := 2, n := 4, peers := 0x10400 })]
    mem := [(0x10000, 2), (0x10002, 2), (0x1000C, 4), (0x10019, 8), (0x1001A, 1), (0x10028, 1), (0x10100, 0x3F), (0x10109, 0x10),
      (0x1010A, 1), (0x10111, 0x20), (0x10112, 1), (0x10118, 8), (0x10405, 1), (0x10445, 1), (0x10465, 1)] }

theorem issuing_stEng : Issuing stEng gEng := by constructor <;> decide
theorem plain_stEng : Plain stEng := by constructor <;> decide

theorem witness_engineCommands : Issuing stEng gEng ∧ Plain stEng ∧ gEng.window ≤ 256 ∧
    (stEng.core (stEng.coreOf stEng.cur)).cache = [] ∧ stEng.logClear stEng.cur gEng.seq gEng.sseen = true ∧ (∀ n, n < 5 → gEng.outCount n < 255) ∧
    (∃ tile, tblFind gEng.accmap 1 = some tile ∧ stEng.mmaOk gEng {
        id := stEng.nextId, grp := stEng.cur, quad := gEng.grpid % 4, tile := gEng.grpid % 4 * 16 + tile, ctl := 21, fmt := gEng.sr.fmt
        scb := gEng.sr.scb, scsh := gEng.sr.scsh, aAddr := 0, bAddr := 0 } 0 0 = true) ∧
    (kEng.array (gEng.grpid % 4)).length < 16 ∧ gEng.laneIdle = true ∧ gEng.empties = [] ∧
    (∃ b : Boarding, b.desc = kEng.lread 0x10000 32 ∧ kEng.inScratch 1 0x10000 32 = true ∧ boardOk kEng gEng 1 b = true) ∧
    kEng.boards = [] ∧ kEng.copies.length < 32 ∧
    (copyWordOk 0x3F = true ∧ stEng.tobBanks 128 0x11000 64 = [] ∧ copyxWordOk (0x3F + 5 * 2 ^ 12) = true ∧
      0x11000 % 2 ^ 56 + 64 ≤ 0x12000 % 2 ^ 56) ∧
    (gEng.sread 9 = BitVec.ofNat 64 (1 + 0 * 2 ^ 24) ∧ stEng.ownValid 0 1 = false ∧ stEng.ownValid 0 2 = true ∧
      remoteWordOk (9 + 63 * 2 ^ 6) = true ∧ rredWordOk (9 + 63 * 2 ^ 6 + 2 * 2 ^ 18) = true) :=
  ⟨issuing_stEng, plain_stEng, by decide, by decide, by decide, by decide, ⟨4, by decide, by decide⟩, by decide, by decide, rfl,
    ⟨{ desc := kEng.lread 0x10000 32 }, rfl, by decide, by decide⟩, rfl, by decide, by decide, by decide⟩

/-- The core of `stEng` with a boarding of the group. -/
theorem witness_unboard : ∃ (k : Core) (b : Boarding), k.boards = b :: [] ∧ b.grp = 128 ∧ b.key = (gEng.sread 5).toNat ∧
    b.done = false := ⟨{ boards := [{ grp := 128, key := 0x10000 }] }, _, rfl, rfl, rfl, rfl⟩

theorem witness_coll : ∃ b, stEng.pull gEng 0x10000 0 = .bytes b ∧ collOk b = true ∧ (collOf b 1 128 none).op = 2 ∧
    stEng.refuseCode (collOf b 1 128 none) = none ∧ (2 : Nat) - (collOf b 1 128 none).first ≠ (collOf b 1 128 none).root ∧
    underNode (collOf b 1 128 none).n 2 (collOf b 1 128 none).root = false :=
  ⟨stEng.homeRead 0x10000 64, rfl, by decide, by decide, by decide, by decide, by decide⟩

theorem witness_collState : (∃ j, stEng.jobAt 0 = some j ∧ j.rank = 2) ∧ tblGet [] stEng.chunks 0 = [] ∧ stEng.colls = [] ∧
    gEng.log = [] := ⟨⟨_, rfl, rfl⟩, by decide, rfl, rfl⟩

/-- `copy s0, s1, s2` with no signal, as a `trig` arms it. -/
theorem witness_trig : ∃ b, stEng.pull gEng 0x10100 0 = .bytes b ∧ zeroAt b 4 4 = true ∧ numAt b 0 4 = 0x3F ∧
    (stEng.armed 128 (0x37#6 ++ 0#6 ++ 1#6 ++ 2#6 ++ 0#8).toNat 0x3F
      ((List.range 7).map (fun i => BitVec.ofNat 64 (numAt b (8 + 8 * i) 8)))).any (fun cmd =>
        match stEng.pullArmed gEng cmd with | .bytes b2 => cmd.limitsOk b2 | _ => false) = true :=
  ⟨stEng.homeRead 0x10100 64, rfl, by decide, by decide, by decide⟩

/-- A grid with ring gates, and one without; a job and an intent to declare. -/
def gInt : Group := { g1 with sregs := [(1, 0x64), (2, 0x000003E800000064), (3, 0x20064)] }
def stRing : State := { st gInt with grids := [(1, { flags := 2 })] }
def stInt : State := { st gInt with jobs := [(0, { job := 7 })] }

theorem witness_gatesAndIntents : Issuing stRing gInt ∧ Plain stRing ∧ (gInt.sread 1).toNat < 2 ^ 16 ∧
    (stRing.gridOf stRing.cur).flags.testBit 1 = true ∧ gInt.log = [] ∧ (stRing.core (stRing.coreOf stRing.cur)).cache = [] ∧
    CanTrap stInt gInt 0x4000 ∧ (stInt.gridOf stInt.cur).flags.testBit 1 = false ∧ Issuing stInt gInt ∧ Plain stInt ∧
    toS 16 (gInt.sread 1).toNat = 100 ∧ (gInt.sread 1).toNat / 2 ^ 18 = 0 ∧ (gInt.sread 1).toNat / 2 ^ 16 % 4 = 0 ∧
    stInt.power.freeEntry = some 0 ∧ (∃ j, stInt.jobAt 0 = some j ∧ j.seq < 2 ^ 32 - 1) ∧ (st gInt).jobAt 0 = none ∧
    ({ intents := (List.range 16).map (fun i => (i, {})) } : Power).freeEntry = none :=
  ⟨by constructor <;> decide, by constructor <;> decide, by decide, by decide, rfl, by decide, by constructor <;> decide, by decide,
    by constructor <;> decide, by constructor <;> decide, by decide, by decide, by decide, by decide, ⟨_, rfl, by decide⟩, by decide,
    by decide⟩

/-- A core whose first array holds an operation, and whose other arrays hold the rest of a quartet. -/
def oMma : MmaOp := { id := 9, grp := 128, tile := 4, ctl := 1, fmt := 0xA596 }
def oQuarter (i : Nat) : MmaOp := { id := 10 + i, grp := 128 + i, quad := i, ctl := 9, quartet := some 0 }
def kMma (o : MmaOp) : Core := { banks := [(0, { role := .scratch, team := 1 })], arrays := [(0, [o])] }
def stMma (k : Core) : State :=
  { st gEng with cores := [(0, k)], groups := [(128, gEng), (129, gEng), (130, gEng), (131, gEng)] }
/-- FOLLOW set, COUNT 1, STRIDE 1, bank 2: rank 0 has landed. -/
def bFollow : Boarding :=
  { id := 8, grp := 128, key := 0, desc := leBytes 32 (2 ^ 22 + 2 ^ 64 + 2 ^ 80 + 2 ^ 98 + 2 ^ 128), landed := [(0, 2)], captured := [0] }

set_option maxRecDepth 8000 in
theorem witness_matrixEngine :
    ((stMma (kMma oMma)).core 0).array 0 = oMma :: [] ∧ oMma.started = false ∧ oMma.alone = false ∧ oMma.quartet = none ∧
    (let o := { oMma with started := true }
     let s := stMma (kMma o)
     (s.core 0).array 0 = o :: [] ∧ o.clocks = 0 ∧ o.quad = 0 ∧ o.sneed = 0 ∧ (s.core 0).follow = [] ∧ tblFind s.groups 128 = some gEng ∧
      gEng.exited = false ∧ s.scaleReads 0 o = []) ∧
    (let k : Core := { arrays := [(0, [oQuarter 0]), (1, [oQuarter 1]), (2, [oQuarter 2]), (3, [oQuarter 3])] }
     let s := stMma k
     (s.team 1).core = 0 ∧ (∀ i, i < 4 → (tblFind s.groups (128 * 1 + 4 * 0 + i)).isSome = true) ∧
      k.waitingQuarter 128 = some (oQuarter 0) ∧ k.waitingQuarter 129 = some (oQuarter 1) ∧
      k.waitingQuarter 130 = some (oQuarter 2) ∧ k.waitingQuarter 131 = some (oQuarter 3)) ∧
    (let k : Core := { kMma oMma with boards := [bFollow] }
     let s := stMma k
     k.boards.find? (·.id == bFollow.id) = some bFollow ∧ tblFind s.groups bFollow.grp = some gEng ∧ bFollow.follow = true ∧
      (s.team (teamOf bFollow.grp)).life = .running ∧ bFollow.nextFollow = some (0, 2) ∧ gEng.outCount 1 < 255 ∧
      k.follow.length < 32 ∧ k.inScratch 1 (bFollow.op gEng s.nextId 0 2).aAddr
        (aBytes (fmtA bFollow.fmt) ((bFollow.op gEng s.nextId 0 2).depth k)) = true) := by decide

/-- A copy within the page, 8 bytes of it, and one that is done. -/
def oCopy : CopyOp := { id := 9, grp := 128, dst := 0x11000, src := 0x10000, len := 8, paid := true, phase := 2 }
def stCopy (o : CopyOp) : State := { st g1 with cores := [(0, { copies := [o] })] }

/-- The 8 bytes at a place of the page at 0x10000 are HBM. -/
theorem inPage (s : State) (hp : s.pages = [(0x10000, page)]) (hd : (s.die 0).choked = false) (a w : Nat) (ha : 0x10000 ≤ a)
    (hb : a + 8 ≤ 0x20000) (hw : w = 0 ∨ w = 1 ∨ w = 2) (ht : s.tripBlocked 0 0 = false) : InHbm s 0 a 8 w 0x10000 page :=
  { inside := by omega, bytes := by decide, kind := rfl, backed := rfl, still := rfl, running := hd, path := ht
    perm := by rcases hw with rfl | rfl | rfl <;> decide
    page := by intro i hi; rw [hp]; simp only [pageAt]; rw [if_pos]; simp only [page]; omega }

theorem witness_copyEngine :
    (let o := { oCopy with paid := false, phase := 0 }
     let s := stCopy o
     (s.core 0).copies[0]? = some o ∧ s.copyReady o = true ∧ ∀ x, x ∈ (s.core 0).copies → x.asking = false) ∧
    ((stCopy oCopy).core 0).copies[0]? = some oCopy ∧ (stCopy oCopy).copyReady oCopy = true ∧
    ((stCopy oCopy).core 0).cache = [] ∧ (stCopy oCopy).arms = [] ∧ (stCopy oCopy).coreOf 128 = 0 ∧
    min (oCopy.len - oCopy.done) (4096 - (oCopy.dst + oCopy.done) % 4096) = 8 ∧
    InHbm (stCopy oCopy) (dieOfCore 0) 0x10000 8 0 0x10000 page ∧
    InHbm (stCopy oCopy) (dieOfCore 0) 0x11000 8 1 0x10000 page ∧
    (stCopy oCopy).homePoison 0x10000 8 = false ∧
    (let o := { oCopy with done := 8 }
     let s := stCopy o
     (s.core 0).copies[0]? = some o ∧ o.len ≤ o.done ∧ s.logClear 128 o.seq o.seen = true ∧
      tblFind s.groups 128 = some g1 ∧ g1.exited = false) :=
  ⟨by decide, by decide, by decide, by decide, by decide, by decide, by decide, inPage _ rfl (by decide) _ _ (by decide) (by decide) (by simp) rfl,
    inPage _ rfl (by decide) _ _ (by decide) (by decide) (by simp) rfl, by decide, by decide⟩

/-- Commands on their way to their counter, and fired: one whose group has ended, and one that enters its engine. -/
def aCopy : Arm :=
  { id := 9, grp := 128, addr := 0x10000, thr := 1, w1 := (0x37#6 ++ 0#6 ++ 1#6 ++ 2#6 ++ 0#8).toNat, w2 := 0x3F
    slots := [0x11000, 0x12000, 8, 0, 0, 0, 0] }

/-- `rput` of 8 bytes to rank 1, armed. -/
def aPut : Arm :=
  { aCopy with cls := 4, w1 := (0x39#6 ++ 0#6 ++ 1#6 ++ 2#6 ++ 0#8).toNat, w2 := 3 + 63 * 2 ^ 6
               slots := [0x11000, 0x12000, 8, 1, 0, 0, 0] }

theorem witness_triggers :
    (let s := { st g1 with arming := [aCopy], arms := [] }
     s.arming.find? (fun y => s.homeDie (y.addr % 2 ^ 56) == 0) = some aCopy ∧ s.gridOver 128 = false ∧ aCopy.addr < 2 ^ 56 ∧
      aCopy.addr % 8 = 0 ∧ pageAt s.pages aCopy.addr = some (0x10000, page) ∧ s.tripBlocked (s.dieOf 128) 0 = false ∧
      s.teamGone (teamOf 128) = false ∧ aCopy.bank = none ∧ s.armsAt 0 < 4096 ∧ tblFind s.arms aCopy.addr = none ∧
      leNat (s.homeRead aCopy.addr 8) < aCopy.thr) ∧
    (let s := { st g1 with arming := [{ aCopy with thr := 0 }] }
     0 ≤ leNat (s.homeRead aCopy.addr 8)) ∧
    (let s := { st g1 with fired := [(0, [aCopy])] }
     tblRising s.fired = true ∧ tblGet [] s.fired 0 = aCopy :: [] ∧ s.entryOf aCopy = true ∧
      (match s.armed aCopy.grp aCopy.w1 aCopy.w2 aCopy.slots with | some (.copy o) => o.tob == none | _ => false) = true) ∧
    (let s := { st g1 with fired := [(0, [aPut])], jobs := [(0, { job := 7 })] }
     s.entryOf aPut = true ∧ (match s.armed aPut.grp aPut.w1 aPut.w2 aPut.slots with
       | some (.remote j) => !s.ownValid j.slot j.rank | _ => false) = true) := by decide

/-- A ring of two entries on die 0 in force: two tiles of layer 3, then one padding slot. -/
def imRing : LapImage := { entries := [{ layer := 3, phase := 1, fmt := 2, count := 2, vbase := 0x10000, pad := 1 }], q := 3 }
def stCornice (r : Ring) : State := { st g1 with ring := { r with images := [(0, imRing)] } }

theorem witness_stations :
    (∃ im e t, (stCornice {}).ahead 0 0 = (0, im, 0) ∧ im.slot 0 0 = some (e, t)) ∧ 0 < (stCornice {}).injections 0 ∧
    tblFind ((stCornice {}).die 0).station.reads (readKey 0 0) = none ∧ (stCornice {}).injectionDue 0 = true ∧
    gapOctet ((stCornice { gaps := 64 }).ring.gapsAt 0) 0 = true ∧ (stCornice { gaps := 64 }).injectionDue 0 = true ∧
    gapOctet ((stCornice {}).ring.gapsAt 0) 0 = false ∧ (((stCornice {}).ring.image 0).slot 0 2 = none) ∧
    (((stCornice {}).ring.image 0).slot 0 1).isSome = true ∧ tblGet false (stCornice {}).ring.gates 3 = false :=
  ⟨⟨_, _, _, rfl, rfl⟩, by decide, by decide, by decide, by decide, by decide, by decide, by decide, by decide, by decide⟩

/-- The last slot of a lap is empty; at the first, with its gate open, the tile that has been read goes out. -/
theorem witness_slots :
    (let s := { stCornice {} with dies := [(0, { station := { q := 2 } })] }
     s.injectionDue 0 = true ∧ ∃ im, s.ahead 0 0 = (0, im, 2) ∧ im.slot 0 2 = none) ∧
    (let r : StationRead := { addr := 0x10000, layer := 3 }
     let s := { stCornice { gates := [(3, true)] } with dies := [(0, { station := { reads := [(readKey 0 0, r)] } })] }
     s.injectionDue 0 = true ∧ tblGet false s.ring.gates 3 = true ∧ tblFind (s.die 0).station.reads (readKey 0 0) = some r ∧
      r.epoch = tblGet 0 s.ring.changes 3 ∧
      ∃ im e, s.ahead 0 0 = (0, im, 0) ∧ im.slot 0 0 = some (e, 0) ∧ r.addr = e.vbase + 36864 * 0 ∧ r.layer = e.layer) :=
  ⟨⟨by decide, _, rfl, by decide⟩, by decide, by decide, by decide, by decide, _, _, rfl, rfl, by decide⟩

/-- A core that has captured a tile for a boarding. -/
def fGood : Capture :=
  { board := 8, bank := 2, header := List.replicate 64 0, scales := List.replicate 2048 0, payload := List.replicate 32768 0 }

theorem witness_taps :
    (let s := stCornice { slots := [(0, { kind := 0 })] }
     s.firm.up = true ∧ (s.core 0).boards = [] ∧ s.tapDue 0 = true ∧ slotKey (ringOrd (dieOfCore 0)) (s.core 0).tapTime = some 0 ∧
      (tblFind s.ring.slots 0).isSome = true) ∧
    (let k : Core := { fills := [fGood], boards := [bFollow] }
     k.fills = fGood :: [] ∧ fGood.corrupt = false ∧
      k.boards.find? (fun b => b.id == fGood.board && !b.off) = some bFollow) ∧
    fGood.payload.length = 32768 ∧ fGood.scales.length = 2048 ∧ fGood.header.length = 64 :=
  ⟨by decide, ⟨rfl, rfl, by decide⟩, List.length_replicate, List.length_replicate, List.length_replicate⟩

theorem witness_gapRates :
    (let s := { st g1 with power := { State.reset.power with count := 10, shist := [400000] } }
     10 ≤ s.power.count ∧ s.ring.chosen = none ∧ s.ring.next = none ∧ 6400000 ≤ 16 * s.power.shist.foldl (· + ·) 0 ∧
      min (fld s.power.flcfg.toNat 51 6) (64 * s.power.shist.foldl (· + ·) 0 / 6400000) ≠ s.ring.gapsAt (s.die 0).station.octet) ∧
    (stCornice { chosen := some 4 }).ring.chosen = some 4 ∧
    (let s := { stCornice { next := some (4, 0) } with dies := [(0, { station := { octet := 128 } })] }
     s.ring.next = some (4, 0) ∧ gapBoundary 0 ≤ (s.die 0).station.octet) := by decide

/-! ## Witnesses: tokens and power -/

theorem witness_tokens :
    (let s := { st g1 with cores := [(0, { bucket := 16384, reqs := [{ port := 0, amount := 30, grp := 128 }] })] }
     s.firm.up = true ∧ ((30 : Nat) : Int) ≤ (s.core 0).bucket ∧ (tblFind s.groups 128).isSome = true ∧
      isDispatcher 128 = false) ∧
    (let s := { st g1 with cores := [(0, { bucket := 29, reqs := [{ port := 0, amount := 30, grp := 128 }] })] }
     (s.core 0).bucket < ((30 : Nat) : Int)) ∧
    (let s := { st g1 with
       teams := [], cores := [(0, { bucket := 0, flight := [0] })], dies := [(0, { bucket := 4096, reqs := [{ who := 0 }] })] }
     4096 ≤ (s.die 0).bucket ∧ s.coreAsks 0 = 0 :: [] ∧ (s.core 0).flight = 0 :: [] ∧ (0 : Nat) ≤ s.clock) ∧
    (let s := { st g1 with
       teams := [(1, { tm with prio := 3 })], cores := [(0, { bucket := 0 })], dies := [(0, { bucket := 1, reqs := [{ who := 0 }] })] }
     s.promptCore (40 * 0 + 0) = true ∧ 0 < (s.die 0).bucket ∧ s.coreAsks 0 = 0 :: []) ∧
    (let s := { st g1 with
       dies := [(0, { bucket := 0, flight := [0] })], power := { pkg := 65536 * 10 ^ 12, reqs := [{ who := 0 }] } }
     65536 * 10 ^ 12 ≤ s.power.pkg ∧ s.dieAsks = 0 :: [] ∧ (s.die 0).flight = 0 :: []) ∧
    ((800000 : Nat) ≤ 1000000 ∧ (1000000 : Nat) ≤ 1250000 ∧ (799999 : Nat) < 800000) ∧
    (let s := { st g1 with clock := 1, dies := [(0, { bucket := 1048576, coatRate := 2000 })] }
     (s.die 0).coatAt < s.clock ∧ 524288 < (s.die 0).bucket ∧ s.coreAsks 0 = [] ∧ (s.die 0).ballast = [] ∧
      2000 ≤ (s.die 0).coatRate) := by decide

theorem witness_noPrompt (c : Nat) : ({ st g1 with teams := [] } : State).promptCore c = false := rfl

/-- The 32 bytes that an intent frame of job 7 signs: origin 1, sequence 2, 100 W. -/
def intentHead : List Byte := leBytes 4 0x0101 ++ leBytes 4 7 ++ leBytes 4 1 ++ leBytes 4 2 ++ leBytes 4 100 ++ leBytes 12 0
def intentBytes : List Byte := intentHead ++ (hmac256 ({ job := 7 } : Job).key intentHead).take 8 ++ leBytes 24 0

theorem intentBytes_ok : intentOk intentBytes ({ job := 7 } : Job).key = true := by decide +kernel

/-- "abc" (FIPS 180-4) and "what do ya want for nothing?" under the key "Jefe" (RFC 4231). -/
theorem test_sha256 : leNat (sha256 [0x61, 0x62, 0x63]).reverse =
    0xba7816bf8f01cfea414140de5dae2223b00361a396177a9cb410ff61f20015ad := by decide +kernel
theorem test_hmac256 : leNat (hmac256 (leBytes 4 0x6566654A) (leBytes 28 (
    0x206F642074616877 + 0x20746E6177206179 * 2 ^ 64 + 0x68746F6E20726F66 * 2 ^ 128 + 0x3F676E69 * 2 ^ 192))).reverse =
    0x5bdcc146bf60754e6a042426089575c75a003f089d2739839dec58b964ec3843 := by decide +kernel

theorem witness_power :
    (st g1).firm.up = true ∧ (st g1).power.due ≤ ((st g1).die 0).time ∧
    (let s := { st g1 with jobs := [(0, { job := 7 })] }
     s.slotOf (BitVec.ofNat 32 (numAt intentBytes 4 4)) = some 0 ∧ s.jobAt 0 = some { job := 7 } ∧
      s.power.freeEntry = some 0 ∧ toS 16 (numAt intentBytes 16 2) ≠ 0 ∧
      s.power.pairs.any (fun p => p.job == 7 && p.origin == numAt intentBytes 8 3 && p.seq == numAt intentBytes 12 4) = false ∧
      [({ job := 7, origin := 1, seq := 2 } : Pair)].any (fun p => p.job == 7 && p.origin == numAt intentBytes 8 3 &&
        p.seq == numAt intentBytes 12 4) = true) ∧
    State.reset.firm.powered = true ∧ State.reset.grids = [] ∧
    (let s := { st g1 with power := { intents := [(0, {})], pairs := [{}] }, dies := [(0, { time := 1000000000 })] }
     tblFind s.power.intents 0 = some {} ∧ ({} : Intent).start ≤ (s.die 0).time ∧ ({} : Intent).stop ≤ (s.die 0).time ∧
      s.power.pairs[0]? = some ({} : Pair) ∧ ({} : Pair).stop + 1000000000 ≤ (s.die 0).time) :=
  ⟨rfl, by decide, by decide, rfl, rfl, by decide⟩

/-! ## Witnesses: memory of the package, links, Scrim pairs -/

/-- A group whose load waits on an on-demand page. -/
def aLoad : Access := { id := 9, addr := 0x10000, size := 8, scope := 5 }
def stUnbacked : State := { st (gLog aLoad) with pages := [(0x10000, { page with backed := false })] }

theorem witness_paging :
    (tblFind stUnbacked.groups 128 = some (gLog aLoad) ∧ (gLog aLoad).log[0]? = some aLoad ∧ aLoad.kind ≠ .fence ∧
      aLoad.rank = none ∧ aLoad.parked = false ∧ aLoad.refused = false ∧ aLoad.sent = false ∧ stUnbacked.eligible 128 aLoad = true ∧
      aLoad.aligned = true ∧ stUnbacked.firstFault 128 aLoad = none ∧ stUnbacked.unbacked 128 aLoad.addr aLoad.size = true) ∧
    (let p := { page with backed := false, wanted := true }
     p.backed = false ∧ p.wanted = true) ∧
    (let p := { page with move := .moving, newHome := 1 }
     let s := { st g1 with pages := [(0x10000, p)] }
     tblFind s.pages 0x10000 = some p ∧ p.move = .moving ∧ s.lapPage 0x10000 p = false ∧ (s.die p.home).choked = false ∧
      (s.die p.newHome).choked = false ∧ s.tripBlocked p.home p.newHome = false) ∧
    (let p := { page with move := .copied, movedAt := 5 }
     let s := { st g1 with pages := [(0x10000, p)], dies := [(0, { time := 1000005 })] }
     tblFind s.pages 0x10000 = some p ∧ p.move = .copied ∧ p.movedAt + 1000000 ≤ (s.die 0).time ∧ s.firm.up = true ∧
      tblRising s.pages = true ∧ s.firm.reviewed + 1000000 ≤ (s.die 0).time ∧ s.candidate 0x10000 p = none ∧
      (tblFind s.teams (teamOf 128)).isSome = true ∧ (s.team (teamOf 128)).report = none ∧
      (s.team (teamOf 128)).heir = none) := by decide

theorem witness_refused :
    let a := { aLoad with refused := true }
    (gLog a).log[0]? = some a ∧ a.refused = true ∧ (st (gLog a)).isRefused 128 a = false ∧ (st (gLog a)).logAway 128 = false := by
  decide

/-- A page for which no die has room, with an access parked on it; and what lets a die back a page of 64 KiB. -/
theorem witness_backing :
    (let a := { aLoad with parked := true }
     let p := { page with backed := false, wanted := true, size := 2 ^ 38 }
     let s := { st (gLog a) with pages := [(0x10000, p)] }
     tblFind s.pages 0x10000 = some p ∧ s.parkedOn 0x10000 = [(128, a)] ∧ (gLog a).exited = false ∧
      (s.team (teamOf 128)).life = .running) ∧
    (∀ s : State, s.backingDie 0 (2 ^ 38) = none) ∧
    (Config.hbmReserved 0 + 65536 ≤ 2 ^ 37 → stUnbacked.backingDie 0 65536 = some 0) := by
  refine ⟨by decide, fun s => ?_, fun h => ?_⟩
  · simp only [State.backingDie, State.hbmRoom, List.find?_eq_none, decide_eq_true_eq, Nat.not_le]; intro d _; omega
  · have l : sortBy (fun d => hops 0 d * 8 + d) (List.range 8) = [0, 1, 4, 2, 5, 3, 6, 7] := by decide
    have u : stUnbacked.hbmUsed 0 = 0 := by decide
    simp only [State.backingDie, l, List.find?_cons, State.hbmRoom, u]
    have fits : ∀ r m : Nat, r + 65536 ≤ m → decide (0 + 65536 + r ≤ m) = true := fun r m h => decide_eq_true (by omega)
    rw [fits _ _ h]

/-- A page that hosts and peers reach with key 5, holding a rank table at 0x10400; and a KICK page. -/
def stRoce : State :=
  { st g1 with
    pages := [(0x10000, { perm := 0x3F, rkey := some 5 }), (0x20000, { kind := .kick })]
    mem := [(0x10405, 1)], jobs := [(0, { job := 7, peers := 0x10400 })] }
/-- A remote reduce of one element of format 0x06 at 0x10000. -/
def reduceBytes : List Byte := leBytes 4 0x06000301 ++ leBytes 4 7 ++ leBytes 8 0x10000 ++ leBytes 16 1 ++ leBytes 8 0 ++ leBytes 4 3

theorem witness_remoteRequests : stRoce.serves 0 0 = true ∧ stRoce.arms = [] ∧
    (∃ p, pageAt stRoce.pages 0x10000 = some (0x10000, p) ∧ p.kind = .hbm) ∧
    stRoce.regionOk 0 5 .write 0x10000 8 = true ∧ stRoce.regionOk 0 6 .write 0x10000 8 = false ∧
    stRoce.regionOk 0 5 .read 0x10000 8 = true ∧ stRoce.poison = [] ∧ stRoce.regionOk 0 5 .atomic 0x10000 8 = true ∧
    stRoce.peerPair 0 0 = true ∧
    (∃ p, pageAt stRoce.pages 0x20000 = some (0x20000, p) ∧ p.kind = .kick ∧ stRoce.routeDown 0 p.home = false) ∧
    reduceOk reduceBytes = true ∧ (stRoce.slotOf (BitVec.ofNat 32 (numAt reduceBytes 4 4))).isSome = true ∧
    numAt reduceBytes 8 8 = 0x10000 ∧ numAt reduceBytes 16 2 = 1 ∧ numAt reduceBytes 3 1 = 6 ∧ numAt reduceBytes 2 1 = 0 ∧
    stRoce.reduceTarget 0 0x10000 4 = true ∧ (∀ n, n < 9 → ∀ w, stRoce.portWaits 0 0 w 0x10000 n = false) ∧
    (tblGet {} stRoce.qps (qpKey 0 0)).rate = none :=
  ⟨by decide, rfl, ⟨_, rfl, by decide⟩, by decide, by decide, by decide, rfl, by decide, by decide, ⟨_, rfl, by decide⟩, by decide⟩

/-- A queue pair that no notification has slowed, and one that one has. -/
theorem witness_sendRates : stRoce.sendRate 0 0 = none ∧
    ({ stRoce with qps := [(qpKey 0 0, { cut := 1, rate := some 9 })] } : State).sendRate 0 0 = some 9 := by
  constructor
  · simp only [State.sendRate]; split <;> rfl
  · unfold State.sendRate
    have h : ¬ (1 + Config.rateRecovery ≤ 0) := by omega
    exact if_neg h

/-- A load that waits for its answer, and a remote operation that has been answered and signed. -/
def aFar : Access := { id := 9, addr := 0x10000, size := 8, sent := true, dest := .reg 3 false }
def jDone : RemoteJob := { id := 9, grp := 128, sent := true, signed := true }
def kLate : Coll := { id := 9, grp := 128, limit := some 0 }

theorem witness_remoteOperations :
    (let s := { st (gLog aFar) with remote := [{ id := 4, use := .access 128 [aFar] }] }
     s.remote.find? (fun x => x.port == 0 && x.qp == 0) = some { id := 4, use := .access 128 [aFar] } ∧
      tblFind s.groups 128 = some (gLog aFar) ∧ (gLog aFar).log = [aFar] ∧ aFar.kind = .load ∧ aFar.ord = 0 ∧ (gLog aFar).lpush = none ∧
      (gLog aFar).vploads = []) ∧
    (let s := { stRoce with remotes := [jDone] }
     s.remotes.find? (·.id == 9) = some jDone ∧ (s.rankEntry 0 0).isSome = true ∧ (s.jobAt 0).isSome = true ∧
      jDone.sent = true ∧ jDone.need = 0 ∧ jDone.signed = true ∧ tblFind s.groups 128 = some g1 ∧ g1.exited = false) ∧
    stRoce.serves 0 1 = true ∧ stRoce.peerPair 0 1 = false ∧ stRoce.serves 0 0 = true ∧ stRoce.peerPair 0 0 = true ∧
    stRoce.slotOf 7 = some 0 ∧ stRoce.colls = [] ∧ stRoce.ended = [] ∧ stRoce.chunks = [] ∧
    (let s := { st g1 with colls := [kLate] }
     s.colls[0]? = some kLate ∧ s.colls.find? (·.id == kLate.id) = some kLate ∧ kLate.fin = false ∧ kLate.closing = false ∧
      kLate.wrote = false ∧ kLate.writes = 0 ∧ 0 ≤ s.timeOf kLate.grp ∧ kLate.status = 0 ∧ kLate.sig = none) := by decide

/-- A flit with a check field. -/
def flit (d : List Byte) (c : BitVec 32) : Flit := { cls := 0, first := true, time := 0, data := d, crc := c }

theorem witness_linksAndTime :
    (∀ d, d < 8 → ((st g1).die d).slew = false ∧ ((st g1).die d).time < 2 ^ 64 - 1) ∧ (st g1).routeDown 0 1 = false ∧
    (∀ l, l < 20 → ((st g1).linkDir l).down = false ∧ ((st g1).linkDir l).wants = false ∧
      (tblGet [] ((st g1).linkDir l).bufs 0).length < 16 ∧ ((st g1).linkDir l).resend = [] ∧
      ((st g1).linkDir l).sees 0 (st g1).clock = false) ∧
    (let s := { st g1 with dies := [(0, { time := 1024 })] }
     (s.die 0).synced + 1024 ≤ (s.die 0).time ∧ (s.die 0).told + 1024 ≤ (s.die 0).time ∧ ((st g1).die 0).time < ((st g1).die 0).told + 1024) ∧
    (∀ d, d < 8 → (st g1).routeDown 0 d = false ∧ (st g1).pathBlocked clsMgmt 0 d = false ∧ (st g1).pathBlocked 0 0 d = false) ∧
    (let s := { st g1 with links := [(3, { wants := true, behind := 1, replay := [flit [] 0, flit [] 0] })] }
     (s.linkDir 3).wants = true ∧ 1 + (s.linkDir 3).behind = (s.linkDir 3).replay.length) ∧
    (let s := { st g1 with links := [(3, { fails := 9 })], grids := [] }
     (s.linkDir 3).down = false ∧ 9 ≤ (s.linkDir 3).fails ∧ s.grids = []) ∧
    (st g1).firm.up = true :=
  ⟨by decide, by decide, by decide, by decide, by decide, ⟨rfl, rfl⟩, by decide, rfl⟩

theorem witness_flits (d wire : List Byte) : (flit d 0).cls < 4 ∧ (∃ c, crc32 wire = (flit d c).crc) ∧
    (∃ c, crc32 wire ≠ (flit d c).crc) ∧ (flit (List.replicate 256 0) 0).data.length = 256 :=
  ⟨by simp [flit], ⟨crc32 wire, rfl⟩, ⟨crc32 wire + 1, by simp [flit]⟩, List.length_replicate⟩

/-- A pair: team 1 and its copy, team 2. -/
def stPair (p q : Group) : State :=
  { st g1 with teams := [(1, { tm with twin := some 2 }), (2, { tm with isTwin := true })], groups := [(128, p), (256, q)] }

theorem witness_scrimPairs :
    (let s := stPair { g1 with atPoint := some 0 } { g1 with atPoint := some 0 }
     (s.team 1).twin = some 2 ∧ (s.team 1).isTwin = false ∧ (tblFind s.groups (128 * 1 + 0)).isSome = true ∧
      (tblFind s.groups (128 * 2 + 0)).isSome = true ∧ (tblFind s.teams 1).isSome = true ∧ (tblFind s.teams 2).isSome = true ∧
      (s.team 1).report = none ∧ (s.team 2).report = none ∧ (s.team 1).heir = none ∧ (s.team 2).heir = none) ∧
    ({ g1 with atPoint := some 0 } : Group).pointOk = false ∧ ({ g1 with sig := 1 } : Group).sig ≠ g1.sig ∧
    (let s := stPair { g1 with atPoint := some 0 } { g1 with atPoint := some 0 }
     s.exchangeBlocked (s.dieOf 128) (s.dieOf 256) = false ∧ s.entriesFor 128 0 = true ∧ s.entriesFor 256 0 = true) ∧
    (let s := { stPair { g1 with atPoint := some 0 } g1 with dies := [(0, { time := 10000000 })] }
     g1.atPoint = none ∧ g1.point ≤ g1.point ∧ 0 + 10000000 ≤ s.timeOf (128 * 1 + 0)) := by decide

/-- The primary reads TIME; the twin has a value of it, or none yet. -/
theorem witness_scrimValues : (Issuing (stPair g1 g1) g1 ∧ g1.acquiring = false ∧
      ((stPair g1 g1).team (teamOf (stPair g1 g1).cur)).twin = some 2 ∧ (2 : Nat) ≠ teamOf (stPair g1 g1).cur ∧
      ((stPair g1 g1).grid ((stPair g1 g1).team (teamOf (stPair g1 g1).cur)).grid).flags = 0 ∧
      tblFind (stPair g1 g1).groups (2 * 128 + (stPair g1 g1).cur % 128) = some g1) ∧
    ∀ l, l = [5] ∨ l = [] → let g := { g1 with inbox := l }
      let s := { stPair g1 g with cur := 256 }
      Issuing s g ∧ (s.team (teamOf s.cur)).isTwin = true ∧ g.acquiring = false :=
  ⟨⟨by constructor <;> decide, by decide⟩, by rintro l (rfl | rfl) <;> exact ⟨by constructor <;> decide, by decide⟩⟩

/-! ## Witnesses: queues, packets, launching, admission -/

/-- A packet of a type with its fields as a number, read from slot 0 of queue 0 at 0x11000, its checks passed. -/
def pktOf (b : Nat) : Taken := { bytes := leBytes 128 b, ok := true }
def q0 : Queue := { base := 0x11000, priomax := 3 }
/-- A kernel descriptor of one group at 0x10000. -/
def descMem : Tbl Byte :=
  [(0x10000, 0x4E), (0x10001, 0x5A), (0x10002, 0x44), (0x10003, 0x4B), (0x10004, 1), (0x10006, 1), (0x10024, 1), (0x1002E, 7)]
def stPkt (x : Taken) : State :=
  { st g1 with queues := [(0, q0)], mem := descMem, dies := [(0, { taken := [x] })] }

theorem pktReady (x : Taken) (b : Nat) (h : x = pktOf b) (ht : fld (numAt x.bytes 0 8) 8 1 ≠ 1) :
    (stPkt x).startable 0 0 = some x ∧ tblFind (stPkt x).queues x.queue = some q0 := by
  subst h
  refine ⟨?_, rfl⟩
  have : (fld (numAt (pktOf b).bytes 0 8) 8 1 == 1) = false := by simpa using ht
  simp [State.startable, stPkt, State.die, tblGet, tblFind, State.halted, st, State.queue, q0, pktOf]

def pNop : Taken := pktOf 7
def pCopy : Taken := pktOf (2 + 0x10000 * 2 ^ 64 + 0x12000 * 2 ^ 128 + 8 * 2 ^ 192)
def pSignal : Taken := pktOf (3 + 0x10800 * 2 ^ 64 + 1 * 2 ^ 128 + 5 * 2 ^ 192)
def pWait : Taken := pktOf (4 + 0x10800 * 2 ^ 64 + 5 * 2 ^ 192)
def pGate : Taken := pktOf (5 + 3 * 2 ^ 64 + 1 * 2 ^ 80)
def pLaunch : Taken :=
  { pktOf (1 + 0x10000 * 2 ^ 64 + 1 * 2 ^ 192 + 1 * 2 ^ 240) with
    desc := (List.range 64).map (fun i => tblGet 0 descMem (0x10000 + i)) }

theorem witness_packets :
    (pNop.type = 7 ∧ (stPkt pNop).packetOk 0 pNop = true) ∧
    (pCopy.type = 2 ∧ (stPkt pCopy).packetOk 0 pCopy = true ∧ (stPkt pCopy).homeDie (numAt pCopy.bytes 16 8) = 0 ∧
      ((stPkt pCopy).core (dispatcherOf 0)).copies.length < 32 ∧ (stPkt pCopy).pathBlocked clsWork 0 0 = false ∧
      (stPkt pCopy).routeDown 0 0 = false ∧ (stPkt pCopy).price (priceIndex 0x08 0 0) ≠ 0 ∧
      ((stPkt pCopy).die 0).disp.sgrant = false ∧
      ({ st g1 with dies := [(0, { taken := [pCopy], disp := { sgrant := true } })] } : State).startable 0 0 = some pCopy ∧
      (stPkt pCopy).arms = []) ∧
    (pSignal.type = 3 ∧ (stPkt pSignal).packetOk 0 pSignal = true ∧ signalPacketOk (stPkt pSignal) pSignal = true ∧
      (stPkt pSignal).postStuck 0 (numAt pSignal.bytes 8 8) = false ∧
      pageAt (stPkt pSignal).pages (numAt pSignal.bytes 8 8) = some (0x10000, page) ∧ (stPkt pSignal).canRelease 319 5 = true ∧
      dispatcherOf 7 = 319 ∧ (stPkt pSignal).canRelease (dispatcherOf 0) 5 = true ∧
      ((stPkt pSignal).core (dispatcherOf 0)).cache = []) ∧
    (pWait.type = 4 ∧ (stPkt pWait).packetOk 0 pWait = true) ∧
    (pGate.type = 5 ∧ (stPkt pGate).packetOk 0 pGate = true ∧ numAt pGate.bytes 40 8 = 0 ∧ numAt pGate.bytes 56 8 = 0 ∧
      (stPkt pGate).posts = []) := by decide

/-- Packets whose checks fail: a reserved bit of the header, PRIO above the queue's, missing fields, TYPE 6. -/
theorem witness_badPackets :
    ∀ x, x ∈ [pktOf (7 + 1 * 2 ^ 11), pktOf 1, pktOf 2, pktOf 3, pktOf (4 + 1 * 2 ^ 64), pktOf (5 + 2 * 2 ^ 80), pktOf 6] →
      (stPkt x).packetOk 0 x = false := by decide

/-- A queue with one slot kicked, first empty, then holding a NOP. -/
def qOne : Queue := { q0 with kicked := 1 }
def stTurn (q : Queue) (m : Tbl Byte) : State := { st g1 with queues := [(0, q)], mem := m }
/-- A FORWARD of one unit of one group. -/
def fwd : List Byte := ({ teams := 1, desc := leBytes 64 1 } : Grid).forward pNop 0 1

theorem witness_queueTurns :
    (let s := stTurn qOne [(0x11000, 7)]
     let r := (s.acquireAt (dispatcherOf qOne.die) 5).visitHome qOne.die qOne.slotAt 128
     s.halted = false ∧ qOne.die < 8 ∧ qOne.state = .active ∧ qOne.rdidx < qOne.kicked ∧ qOne.waiting = none ∧ qOne.skip = false ∧
      s.arms = [] ∧ s.postStuck 0 qOne.slotAt = false ∧ r.postStuck 0 qOne.slotAt = false ∧
      (s.die 0).taken = [] ∧ (s.core (dispatcherOf qOne.die)).cache = [] ∧ tblRising s.pages = true ∧
      s.allMapped qOne.slotAt 128 (fun p => p.allows .read && p.allows .write && (p.kind == .hbm || p.kind == .scratch)) = true ∧
      (s.homeRead qOne.slotAt 8).all (· == 0) = false ∧ (s.die 0).roomFor 0 qOne (s.homeRead qOne.slotAt 128) = true ∧
      s.queues = [(0, qOne)] ∧ (s.die 0).mailbox = [] ∧ (s.die 0).notes = [] ∧ s.posts = [] ∧
      (let x : Taken := { bytes := s.homeRead qOne.slotAt 128 }
       x.reads = [] ∧ s.packetOk 0 x = true ∧ s.packetOk 0 { x with bytes := leBytes 128 6 } = false)) ∧
    (((stTurn { qOne with empty := true } []).homeRead qOne.slotAt 8).all (· == 0) = true) := by decide

theorem witness_forward :
    (let g : Grid := { teams := 1 }
     let s := { st g1 with grids := [(1, g)], dies := [(0, { mailbox := [.forward 1 fwd] })] }
     s.halted = false ∧ (s.die 0).mailbox = .forward 1 fwd :: [] ∧ (s.die 0).pendingCount < 1024 ∧ fitsDie (s.grid 1) 0 = true ∧
      fitsDie { g with desc := List.replicate 48 0xFF } 0 = false ∧ (tblFind s.grids 1).isSome = true) := by decide

theorem witness_waits :
    (let w : WaitPkt := { sig := 0x10800, timeout := 1, status := 0x10840 }
     let q := { qOne with waiting := some w }
     let s := stTurn q []
     let r := (s.acquireAt (dispatcherOf q.die) 5).visitHome q.die w.sig 8
     s.arms = [] ∧ r.postStuck 0 w.status = false ∧ tblFind s.queues 0 = some q ∧ pageAt s.pages w.sig = some (0x10000, page) ∧ s.packetMapped .read false w.sig 8 = true ∧
      s.postStuck 0 w.sig = false ∧ s.statusOk w.status = true ∧ s.postStuck 0 w.status = false ∧ s.posts = [] ∧
      tblRising s.pages = true ∧ (s.core (dispatcherOf 0)).cache = [] ∧ pageAt s.pages w.status = some (0x10000, page) ∧
      flagHolds w.cond (BitVec.ofNat 64 (leNat (s.homeRead w.sig 8))) w.value = true ∧
      flagHolds 2 (BitVec.ofNat 64 (leNat (s.homeRead w.sig 8))) w.value = false ∧
      (s.die 0).time < w.taken + 1000 * w.timeout ∧ w.timeout ≠ 0) := by decide

theorem witness_launching : pLaunch.type = 1 ∧ (stPkt pLaunch).packetOk 0 pLaunch = true ∧ pLaunch.prompt = false ∧
    fwd.length = 128 ∧ pNop.bytes.length = 128 ∧ ((stPkt pLaunch).launchGrid 0 pLaunch).shares = [(0, 0, 1)] ∧
    0 < ((stPkt pLaunch).launchGrid 0 pLaunch).units ∧ 0 < ((stPkt pLaunch).launchGrid 0 pLaunch).dies.length := by
  decide +kernel

/-- A grid of one unit of one group that wants a whole core's banks, and its share. -/
def gridBig : Grid :=
  { desc := leBytes 36 (0x4B445A4E + 2 ^ 32 + 2 ^ 48) ++ leBytes 28 (1 + 30 * 2 ^ 64 + 7 * 2 ^ 80), flags := 8, prio := 3 }
def shareBig : Share := { grid := 1, n := 1, prio := 3 }
def stAdmit (k : Die) (teams : Tbl Team) : State := { st g1 with grids := [(1, gridBig)], teams := teams, groups := [], dies := [(0, k)] }
def tmBig : Team := { grid := 2, spad := 30 }

theorem witness_admission :
    (let s := stAdmit { pending := [shareBig] } []
     s.halted = false ∧ s.teams = [] ∧ shareBig.back = [] ∧ (s.grid 1).flags.testBit 2 = false ∧ (s.grid 1).cw = 0 ∧
      s.placeFor (s.askOf 0 shareBig) 0 = some ([0], []) ∧ (s.die 0).hold = none ∧ shareBig.n = shareBig.next + 1) ∧
    (let x := { shareBig with back := [1] }
     let s := { stAdmit { pending := [x] } [(1, { tmBig with life := .saved })] with groups := [(128, g1)] }
     s.liveGroups 1 ≠ [] ∧ s.placeFor (s.askOf 0 x) 0 = some ([0], [])) := by decide

theorem witness_holds :
    (let x := { shareBig with failed := some 0 }
     let s := stAdmit { pending := [x], time := 1000000 } [(1, tmBig)]
     (s.die 0).hold = none ∧ s.placeFor (s.askOf 0 x) 0 = none ∧ 0 + 1000000 ≤ (s.die 0).time ∧
      s.bestPlace (s.askOf 0 x) 0 [] = some [0]) ∧
    (let x := { shareBig with prio := 2 }
     let h : Hold := { cores := [0], grid := 1 }
     let s := stAdmit { pending := [x], time := 1000000, hold := some h } [(1, { tmBig with prio := 0 })]
     h.unit = s.unitOf x ∧ s.classOf 0 x = 2 ∧ h.since + 1000000 ≤ (s.die 0).time ∧
      s.inTheWay (s.askOf 0 x) none (fun t => t.prio == 0) h.cores = [1] ∧ (s.team 1).life = .running) ∧
    (let s := stAdmit { prompt := [shareBig] } [(1, tmBig)]
     (s.die 0).hold = none ∧ (s.die 0).cleared = [] ∧ shareBig.next < shareBig.n ∧
      s.placeFor (s.askOf 0 shareBig) 0 = none ∧ s.promptPlace (s.askOf 0 shareBig)
        (some ((s.die 0).time + (50000 - ((s.die 0).time - shareBig.taken) - 2000))) 0 [] = some ([0], [1]) ∧
      s.teams.all (fun e => e.2.life == .running) = true) := by decide

/-! ## Witnesses: ends, firmware, commands, the step -/

/-- A team on core 0 that holds bank 0, and nothing outstanding. -/
def stEnd (t : Team) : State :=
  { st g1 with teams := [(1, t)], cores := [(0, { banks := [(0, { role := .scratch, team := 1 })] })] }

theorem poolRoom_ofLt (s : State) (die n : Nat) (h : total ((s.teams.filter (fun e => e.2.die == die &&
    (e.2.life == .saving || e.2.life == .written || e.2.life == .saved))).map (fun e => s.contextBytes e.1)) + n ≤ 40 * fullContext) :
    s.poolRoom die n = true := by
  simp only [State.poolRoom, decide_eq_true_eq]; omega

theorem witness_drainDeadline :
    let t := { tm with drain := true, deadline := some 5 }
    let s := { stEnd t with dies := [(0, { time := 5 })] }
    tblFind s.teams 1 = some t ∧ t.life = .running ∧ t.heir = none ∧ 5 ≤ (s.die t.die).time ∧
      s.poolRoom t.die (s.unitBytes 1) = true ∧ ((stEnd t).die t.die).time < 5 :=
  ⟨rfl, rfl, rfl, by decide, poolRoom_ofLt _ _ _ (by decide), by decide⟩

theorem witness_teamEnds :
    let s := stEnd { tm with life := .saving }
    tblFind s.teams 1 = some { tm with life := .saving } ∧ tblFind s.cores 0 = some (s.core 0) ∧ (s.core 0).arrays = [] ∧
      (s.core 0).copies = [] ∧ (s.core 0).boards = [] ∧ (s.core 0).follow = [] ∧ (s.core 0).fills = [] ∧ s.remotes = [] ∧
      s.colls = [] ∧ g1.log = [] ∧ g1.longs = [] ∧ g1.vploads = [] ∧ g1.lpush = none ∧
      ((stEnd { tm with life := .written }).team 1).life = .written ∧
      ((stEnd { tm with life := .flushing }).team 1).life = .flushing ∧
      ((stEnd { tm with report := some {} }).team 1).report = some {} ∧ s.canFlush 0 = true ∧ s.fired = [] ∧
      (s.core 0).cache = [] ∧ s.killBlocked (dieOfCore 0) = false ∧
      ((s.crossMesh clsMgmt 0 0 64).crossMesh clsMgmt 0 0 64).mailOpen (dieOfCore 0) 2 = true ∧
      (s.die (dieOfCore 0)).notes = [] := by decide

theorem witness_teamGroups (h : Nat) (g : Group) (e : tblFind (stEnd tm).groups h = some g) :
    g.log = [] ∧ g.longs = [] ∧ g.vploads = [] ∧ g.lpush = none := by
  simp only [stEnd, st, tblFind] at e
  split at e
  · cases e; decide
  · cases e

theorem witness_gridCompletion :
    let g : Grid := { ended := 1, status := 0x10800, tag := 9 }
    let s := { stEnd { tm with life := .ended } with grids := [(1, g)] }
    tblFind s.grids 1 = some g ∧ g.over = true ∧ tblGet [] s.firm.mail 2 = [] ∧ s.arms = [] ∧ s.arming = [] ∧ s.fired = [] ∧
      s.remote = [] ∧ (s.team 1).life = .ended ∧ g1.retired = true ∧ tblRising s.teams = true ∧ tblRising s.groups = true ∧
      (s.die g.home).mailbox = [] ∧ g.firstBad = none ∧ s.dies = [] ∧ ({} : Die).notes = [] ∧ s.pathBlocked clsWork 0 g.home = false ∧
      s.routeDown 0 g.home = false := by decide

/-- F2's mailbox holds the end of a team; the dispatcher's, the order that ends the grid, with a record and with a signal. -/
theorem witness_gridEnds :
    (let s := { st g1 with firm := { mail := [(2, [.ended 1 7 (some {})])] } }
     tblFind s.grids 1 = some {} ∧ tblGet [] s.firm.mail 2 = [.ended 1 7 (some {})]) ∧
    ∀ g : Grid, g = { status := 0x10800 } ∨ g = { csig := 0x10800 } →
      let s := { st g1 with grids := [(1, g)], dies := [(0, { mailbox := [.order 1 0 0 0xFFFFFFFF] })] }
      tblFind s.grids 1 = some g ∧ s.firm.up = true ∧ g.home < 8 ∧ g.forced = none ∧ g.firstBad = none ∧
        (s.die g.home).mailbox = [.order 1 0 0 0xFFFFFFFF] ∧ (s.die g.home).notes = [] ∧ (s.die g.home).taken = [] ∧
        s.posts = [] ∧ s.arms = [] ∧ s.queues = [] ∧ s.cores.all (fun e => e.2.cache.isEmpty) = true ∧
        s.postStuck g.home 0x10800 = false ∧
        pageAt s.pages 0x10800 = some (0x10000, page) :=
  ⟨by decide, by rintro g (rfl | rfl) <;> decide⟩

theorem witness_firmware : (st g1).firm.powered = true ∧ 3 ≤ (st g1).firm.step ∧ ({} : Firm).step < 3 ∧ (1 : Nat) ≤ 2 ∧ ((st g1).firm.core 2).missed < 9 ∧
    (({ cores := [(3, { missed := 9 })] } : Firm).core 3).missed = 9 ∧ (st g1).firm.resetting = none ∧
    (st g1).mailOpen 0 6 = true ∧ ((st g1).die 0).notes = [] := by decide

/-- A command to a main port, to the side-band port and to SMBus. -/
def hdr (port : Nat) (payload : List Byte) : CmdHdr :=
  { port := port, magic := 0x4C55, ver := 1, flags := 1, resv := 0, seq := 4, len := payload.length, auth := 0, payload := payload }
def signed (cmd : Nat) (payload : List Byte) : CmdHdr :=
  { hdr 8 payload with auth := commandAuth (cmdSigned (hdr 8 payload) cmd) }

/-- A device without pages but for a ring's. -/
def stCmd : State :=
  { st g1 with pages := [(0x10000, page)], grids := [], queues := [(0, { base := 0x10000, descva := descRegion })] }
def stIdle : State := { stCmd with queues := [] }

theorem hears_main (cmd : Nat) (b : List Byte) (p : Nat) (hp : p < 8) : stCmd.hears (hdr p b) cmd = true := by
  simp [State.hears, State.serves, stCmd, st, hdr, hp, tblGet, State.reset, tblFind, qpCount]; omega

theorem witness_mainCommands :
    ((hdr 0 []).unknown = none ∧ cmdOk (hdr 0 []) = true ∧ (hdr 0 []).port < 8 ∧ stCmd.firm.stopped = false ∧
      stCmd.remote = [] ∧ stCmd.cores.all (fun e => e.2.cache.isEmpty) = true ∧ ({} : Core).cache = []) ∧
    (let h := { hdr 0 [] with unknown := some 0x77 }
     h.unknown = some 0x77 ∧ stCmd.hears h 0x77 = true ∧ cmdOk h = true) ∧
    ((0x10000 : Nat) % 4096 = 0 ∧ stIdle.ringOk 0x10000 6 = true ∧ tblFind stIdle.queues 0 = none) ∧
    (stCmd.queueAt descRegion).isSome = true ∧ (stCmd.queue 0).state = .active ∧ (stCmd.queue 0).skip = false ∧ stCmd.grids = [] ∧
    stCmd.queueAt (descRegion + 64) = none ∧
    (let b := leBytes 32 (0x20000 + 1 * 2 ^ 128 + 0x9F * 2 ^ 184)
     b.length = 32 ∧ (mapEntryOf b).mapOk = true ∧ (mapEntryOf b).meets stCmd.pages = false ∧ (mapEntryOf b).n = 1 ∧
      numAt b 21 1 = 0 ∧ (BitVec.ofNat 8 (numAt b 23 1)).getLsbD 7 = true ∧ cmdOk (hdr 0 b) = true) ∧
    (mapEntryOf (leBytes 32 (0x10000 + 1 * 2 ^ 128 + 0x9F * 2 ^ 184))).meets stCmd.pages = true ∧
    (mapEntryOf (leBytes 32 1)).mapOk = false ∧
    (stCmd.unmapOk (unmapEntryOf (leBytes 16 (0x10000 + 2 ^ 64))) = true ∧ stCmd.arms = [] ∧
      stCmd.unmapOk (unmapEntryOf (leBytes 16 (0x20000 + 2 ^ 64))) = false) ∧
    (let b := leBytes 32 (3 + 1 * 2 ^ 19 + 8 * 2 ^ 23 + 1 * 2 ^ 64 + 0x10000 * 2 ^ 96)
     let l := (cut 32 b).map lapEntryOf
     (cut 32 b).all lapReserved = true ∧ l.all stCmd.lapEntryOk = true ∧ lapDisjoint l = true ∧ lapQ l < 2 ^ 29) ∧
    (let b := leBytes 12 (7 + 1 * 2 ^ 64) ++ leBytes 68 0
     jobOk b = true ∧ stCmd.slotOf 7 = none ∧ tblFind stCmd.jobs 0 = none ∧
      ({ stCmd with jobs := [(0, { job := 7 })] } : State).slotOf 7 = some 0) ∧
    jobOk (leBytes 80 0) = false := by decide

theorem witness_rdmawin : (∀ b p, (b, p) ∈ stCmd.pages → p.kind ≠ .window → (0x20000 : Nat) + 0x10000 ≤ b ∨ b + p.size ≤ 0x20000) ∧
    (0x20000 : Nat) + 0x10000 ≤ descRegion := by
  refine ⟨?_, by decide⟩
  intro b p h _
  simp only [stCmd, st, List.mem_cons, List.not_mem_nil, or_false, Prod.mk.injEq] at h
  obtain ⟨rfl, rfl⟩ := h
  right; decide

theorem hears_signed (cmd : Nat) (b : List Byte) : stCmd.hears (signed cmd b) cmd = true := by
  simp [State.hears, stCmd, st, signed, hdr, State.reset, cmdSigned]

theorem witness_managementCommands :
    (cmdOk (signed 0x43 (leBytes 8 0)) = true ∧ stCmd.firm.stopped = false ∧ stCmd.hears (hdr 9 []) 0x40 = true ∧
      cmdOk (hdr 9 []) = true ∧ leNat (hdr 9 (leBytes 8 0)).payload = 0 ∧ leNat (hdr 9 [1]).payload = 1 ∧ 1 < leNat (hdr 9 [5]).payload ∧
      (hdr 9 []).unknown = none ∧ (leBytes 32 5).length = 32 ∧
      flcfgOk flcfgReset.toNat = true ∧ flcfgOk 0 = false ∧ cmdOk (hdr 0 (leBytes 8 0)) = true) ∧
    leNat (leBytes 8 flcfgReset.toNat) = flcfgReset.toNat ∧ stCmd.deviceEnd.recordsOut = false ∧
    ({ stCmd with posts := [{ id := 3, wait := true }], remote := [{ id := 4, use := .post 3 }] } : State).deviceEnd.recordsOut = true :=
  ⟨⟨by simp [cmdOk, signed, hdr, cmdBound], rfl, by decide, by decide, by decide, by decide, by decide, by decide, by decide, by decide, by decide, by decide⟩,
    by decide, by decide, by decide⟩

/-- A stopped device hears its main ports. -/
theorem hears_stopped (b : List Byte) : ({ stCmd with firm := { stCmd.firm with stopped := true } } : State).hears (hdr 0 b) 0x42 = true := by
  simp [State.hears, State.serves, stCmd, st, hdr, tblGet, State.reset, tblFind, qpCount]

/-- `nop` at the fetch address, and a lane instruction. -/
def stNop : State := State.reset.withFetchWord 32 (0x12#6 ++ 0#26).toNat
def iaddWord : Nat := (0#16 ++ 0#1 ++ 0#3 ++ 0#3 ++ 0#2 ++ 0#3 ++ 0#12 ++ 3#12 ++ 2#12 ++ 0#1 ++ 0#2 ++ 1#8 ++ 0#1 ++ 3#4 ++ 2#6 ++
  0x010#10).toNat
def stIadd : State := State.reset.withFetchWord 96 iaddWord

theorem witness_stepRunsDecoded :
    (stNop.agenda = .scalar 128 :: [] ∧ ∃ g, tblFind stNop.groups 128 = some g ∧ g.sgrant = true ∧ stNop.fetchShut 128 g.pc = false ∧
      ({ stNop with agenda := [], cur := 128, mark := .issued } : State).scalarReady g = true ∧
      ({ stNop with agenda := [], cur := 128, mark := .issued } : State).fetchScalar g.pc = .code (0x12#6 ++ 0#26).toNat ∧
      decodeScalar (fld (0x12#6 ++ 0#26).toNat 0 32) (fld (0x12#6 ++ 0#26).toNat 32 32) = .ok .nop) ∧
    (stIadd.agenda = .lane 128 :: [] ∧ ∃ g, tblFind stIadd.groups 128 = some g ∧ g.lgrant = true ∧ stIadd.fetchShut 128 g.lanePc = false ∧
      ({ stIadd with agenda := [], cur := 128, mark := .issued } : State).laneReady g = true ∧
      ({ stIadd with agenda := [], cur := 128, mark := .issued } : State).fetchLane g.lanePc = .code iaddWord ∧
      g.breakAt g.lanePc = none ∧ g.act ≠ 0) :=
  ⟨⟨rfl, _, rfl, by decide, by decide, by decide, by decide, by rfl⟩, rfl, _, rfl, by decide, by decide, by decide, by decide, by decide,
    by decide⟩

/-- A stream that waits; a breakpoint; words that are no instruction; and what a fetch finds elsewhere than in code. -/
theorem witness_fetches :
    (st gWait).scalarReady gWait = false ∧
    ({ gLane with sr := { lbka := [0, 2 ^ 63 + 0x8000, 0, 0] } } : Group).breakAt 0x8000 = some 1 ∧ gLane.bskip = false ∧
    (match decodeScalar 0 0 with | .ok _ => false | .error _ => true) = true ∧
    (match decodeLane 2 with | .ok _ => false | .error _ => true) = true ∧
    gLane.lanes (laneFields 2) ≠ 0 ∧ ({ gLane with active := 0 } : Group).lanes (laneFields 2) = 0 ∧
    pageAt (st g1).pages 0x30000 = none ∧ page.allows .code = true ∧ ({} : Page).allows .code = false ∧
    ({} : Page).allows .laneCode = false ∧ (stUnbacked.fetchScalar 0x10000) = .unbacked 0x10000 0x10000 := by
  decide +kernel

theorem witness_events : ({ st g1 with agenda := [.event .coldReset] } : State).agenda = .event .coldReset :: [] := rfl

theorem witness_roundTrip : (Instr.sub 2 3 4).wf = true ∧ encode (.sub 2 3 4) = some (32, (0x01#6 ++ 2#6 ++ 3#6 ++ 4#6 ++ 0x01#8).toNat) := by
  decide

theorem witness_memoryCanonical : Memory.wf stNop.mem = true ∧ ∃ t, step stNop = .next t := ⟨by decide, _, rfl⟩

/-! ## The spec's worked encodings (chapters 10 to 15) -/

theorem test_encodings_scalar :
    decodeTableWord 32 0x20108302 = some (.cmp 1 2 3 2) ∧ decodeTableWord 32 0x26A14064 = some (.cmpImm 5 2 5 100) ∧
    decodeTableWord 32 0x2810C40A = some (.sel 1 3 4 true 2) ∧ decodeTableWord 32 0x357FFFFD = some (.br 2 true (-3)) ∧
    decodeTableWord 32 0x449FFFFB = some (.loop 9 (-5)) ∧ decodeTableWord 32 0x43FF8000 = some (.jmpr 63 62) ∧
    decodeTableWord 64 0x20000008C8408593 = some (.atom 4 2 5 9 3 { ord := 0, scope := 4, evict := 0, offset := 8 }) ∧
    decodeTableWord 64 0x05000000CC00E800 = some (.pref 3 true 2 { ord := 0, scope := 0, evict := 5, offset := 0 }) ∧
    decodeTableWord 32 0x48900061 = some (.rqpop 9) ∧ decodeTableWord 32 0x48A05171 = some (.swr 10 0x051) ∧
    decodeTableWord 32 0x4801C072 = some (.sfmt 7) ∧ decodeTableWord 32 0x4802A078 = some (.trap 0x2A) := by decide

theorem test_encodings_engine :
    decodeTableWord 32 0x4C100002 = some (.waitc 1 2) ∧ decodeTableWord 32 0x48900012 = some (.rdc 9 2) ∧
    decodeTableWord 64 0x0000C400D8C10000 = some (.mma 3 4 0 0xC400) ∧ decodeTableWord 32 0x48008001 = some (.board 2) ∧
    decodeTableWord 64 0x14506107DC310501 = some (.copyx 3 4 5 0x14506107) ∧
    decodeTableWord 64 0x020001C6E4310500 = some (.rput 3 4 5 0x020001C6) ∧
    decodeTableWord 64 0x00000107E0008000 = some (.coll 2 0x107) ∧
    decodeTableWord 64 0xA0000000F0008300 = some (.sigAdd 2 3 { ord := 2, scope := 4, evict := 0, offset := 0 }) ∧
    decodeTableWord 64 0x60000000EC008300 = some (.waitm 2 3 0 { ord := 1, scope := 4, evict := 0, offset := 0 }) ∧
    decodeTableWord 64 0xA0000000F4000000 = some (.fence { ord := 2, scope := 4, evict := 0, offset := 0 }) ∧
    decodeTableWord 32 0x48008322 = some (.tbar 2 3) ∧ decodeTableWord 32 0x48010530 = some (.kick 4 5) ∧
    decodeTableWord 32 0x48008032 = some (.regroup 2) ∧ decodeTableWord 32 0x48500040 = some (.accalloc 5) ∧
    decodeTableWord 32 0x4801C051 = some (.rgateOpen 7) ∧ decodeTableWord 32 0x48108359 = some (.pintentJob 1 2 3) ∧
    decodeTableWord 32 0x4841405C = some (.tkrd 4 5) := by decide

/-- `(!m3) fma.f32.rne.sat v10, v2, -lq1!, k0`. -/
theorem test_encoding_fma : decodeTableWord 96 0x0000001200D0100281532843 = some (.fma {
    fmt := 0x0A, guard := 3, gneg := true, dest := 10, dkind := 0, sat := true
    a := { index := 2, kind := 0, neg := false, wait := false }, b := { index := 1, kind := 1, neg := true, wait := true }
    c := { index := 0, kind := 2, neg := false, wait := false }, rnd := 1, ord := 0, scope := 0, evict := 0, imm := 0 }) := by
  decide

/-- `lcall −20`, `ljoin`, `cvt.e4m3.sat v5, v0, f32`, `vpk.min.vp v4, v4, 16` and `accz acc3`. -/
theorem test_encodings_lane :
    decodeTableWord 96 0xFFEC0000000000007FE00093 = some (.lcall { fNone with imm := -20 }) ∧
    decodeTableWord 96 0x00000000000000007FE00091 = some (.ljoin fNone) ∧
    decodeTableWord 96 0x000A00000000000080A03060 = some (.cvt {
      lf with fmt := 0x0C, dest := 5, sat := true, a := { op0 with index := 0 }, b := op0, imm := 0x0A }) ∧
    decodeTableWord 96 0x100200000000000400808066 = some (.vpk {
      lf with fmt := 0x20, dest := 4, a := { op0 with index := 4 }, b := op0, imm := 0x1002 }) ∧
    decodeTableWord 96 0x0000000000000000606000B2 = some (.accz { fNone with dkind := 3, dest := 3 }) := by decide

/-! ## Results from the rules and the worked examples -/

/-- What an instruction leaves in the group of a small state. -/
def after (i : Instr) (s : State) : Group := match exec i s with | .next t => t.group 128 | _ => {}
/-- What an instruction leaves in the state. -/
def then_ (i : Instr) (s : State) : State := match exec i s with | .next t => t | _ => {}

theorem test_add_wraps : (after (.add 7 2 3) (st g1)).sread 7 = 0 ∧ (after (.add 7 2 3) (st g1)).pc = 4 := by decide
theorem test_sub_borrows : (after (.sub 7 8 3) (st g1)).sread 7 = 0xFFFFFFFFFFFFFFFF := by decide
theorem test_div_overflow : (after (.div 7 1 2) (st g1)).sread 7 = 0x8000000000000000 := by decide
theorem test_rem_overflow : (after (.rem 7 1 2) (st g1)).sread 7 = 0 := by decide
theorem test_sar_signs : (after (.sarImm 7 1 63) (st g1)).sread 7 = 0xFFFFFFFFFFFFFFFF := by decide
theorem test_write_s63 : (after (.add 63 3 3) (st g1)).sread 63 = 0 := by decide
theorem test_trap : (after (.trap 0x2A) (st g1)).pc = 0x4000 ∧ (after (.trap 0x2A) (st g1)).sr.tpc = 4 ∧
    fld (after (.trap 0x2A) (st g1)).sr.tstat.toNat 0 8 = 0x0C ∧ fld (after (.trap 0x2A) (st g1)).sr.tstat.toNat 16 8 = 0x2A := by
  decide
theorem test_div_by_zero : (after (.div 7 1 8) (st g1)).sread 7 = 0xFFFFFFFFFFFFFFFF ∧ (after (.div 7 1 8) (st g1)).pc = 4 := by decide
/-- 0x000C_A592 selects BFP4, BFP8, FP32, saturation and RTZ (R321). -/
theorem test_sfmt : (after (.sfmt 1) (st { g1 with sregs := [(1, 0x000CA592)] })).sr.fmt = 0x000CA592 := by decide

/-- Teams 0 to 2 on die 0, 3 and 4 on die 1, 5 to 7 on die 2, 8 and 9 on die 3 (R122). -/
theorem test_shares : ({ teams := 10, diemask := 0x0F } : Grid).shares = [(0, 0, 3), (1, 3, 2), (2, 5, 3), (3, 8, 2)] := by decide

/-- The exponent of row 3, k = 100 of a BFP4 A of K 512 lies 51 bytes above SCB (R171). -/
theorem test_scaleAddr : aOffset 0x12 512 3 100 = 818 ∧ scaleAddr 0x1000 4 0 818 = 0x1000 + 51 := by decide

/-- Positions 6, 14, 22 and 30 of die 5's stream reach a tap of die 2 at 62, 70, 78 and 86 (R34). -/
theorem test_tapSeq : [6, 14, 22, 30].map (tapSeq (ringOrd 2)) = [62, 70, 78, 86] ∧ ringOrd 5 = 6 := by decide

/-- The SUM of 1.0, three times 2^−24, and −1.0 over the tree of five ranks (R231). -/
theorem test_tree :
    let v := fun (x : Nat) => ([(0, x)] : Tbl Nat)
    let n01 := combineElems 0x0A 0 (v 0x3F800000) (v 0x33800000)
    let n23 := combineElems 0x0A 0 (v 0x33800000) (v 0x33800000)
    let n0123 := combineElems 0x0A 0 n01 n23
    tblGet 0 n01 0 = 0x3F800000 ∧ tblGet 0 n23 0 = 0x34000000 ∧ tblGet 0 n0123 0 = 0x3F800001 ∧
      tblGet 0 (combineElems 0x0A 0 n0123 (v 0xBF800000)) 0 = 0x34000000 := by decide

/-- The intent of the staggered ramp: its floor is 1,900 W, and its ramp starts at 14,840 µs (R94, R95). -/
theorem test_stagger :
    let w := { State.reset.power with p := 1300000000, ps := 1300000000, dhist := [1300000000] }
    let s := { State.reset with power := w }.recordIntent 12000 40000000 5000 160 600 (some 1) 7 1
    (tblFind s.power.intents 0).map (fun x => (x.floor, x.start, x.stop)) = some (1900000000, 14840000, 45000000) := by decide

/-- Late in the same ramp P is held at PS + BAND (R84). -/
theorem test_float : ({ State.reset with power := {
      flcfg := flcfgReset, p := 1400000000, ps := 1300200000, intents := [(0, { floor := 1900000000, on := true })] } } :
    State).floatRates 1300000000 = (1400220000, 1300220000) := by decide

/-- The block of 3.0, −0.8, 0.1, 7.6 and 28 zeros in BFP4: the overflow of the last mantissa raises E to 130 (R222). -/
theorem test_quantise :
    let at_ := fun (x : FVal) => ({ x := x, rm := .rne, d1 := 0, d2 := 0 } : BlkElem)
    let r := quantise 4 false ([at_ (.fin false 3 0), at_ (.fin true 13421773 (-24)), at_ (.fin false 13421773 (-27)),
      at_ (.fin false 15938355 (-21))] ++ List.replicate 28 (at_ (.fin false 0 0)))
    r.e = 130 ∧ r.q = [2, 0, 0, 4] ++ List.replicate 28 0 ∧ r.flags = { ix := true, uf := true } := by decide

/-- `fsub.vp` of 1 + 2^−30 and 1.0, both with K 39: K falls to 9, PX is set, and the cells are 0x3FE1_4480 and 0 (R228). -/
def gVp (te : Nat) : Group :=
  { gLane with
    prec := (List.range 64).map (fun l => (l, BitVec.ofNat 32 (39 + 39 * 2 ^ 7 + 16 * 2 ^ 17 + te * 2 ^ 24))), active := 1
    cells := [(0, 0x3FFF5380), (1, 0x200), (8, 0x3FFF5380)] }
def fSubVp : LaneF :=
  { lf with fmt := 0x20, dest := 16, a := { op0 with index := 0 }, b := { op0 with index := 8 } }
theorem test_fsub_vp :
    let g := after (.fsub fSubVp) (st (gVp 0))
    (g.longs.flatMap (·.writes)) = [(0, 16, 0x3FE14480), (0, 17, 0)] := by decide
/-- With TE set the same difference raises precision loss, and the destination keeps its cells (R228). -/
theorem test_fsub_vp_traps :
    let g := after (.fsub fSubVp) (st (gVp 1))
    g.pc = 0x4000 ∧ fld g.sr.tstat.toNat 0 8 = 0x06 ∧ g.longs = [] ∧ tblGet 0 g.cells 16 = 0 := by decide

/-- A group block is 4,096 B, with the scalar PC first and s1 at 0x018 (R264). -/
theorem test_context_block :
    let b := ({ g1 with pc := 0x4008 } : Group).block
    b.length = 4096 ∧ b.take 8 = leBytes 8 0x4008 ∧ (b.drop 0x18).take 8 = leBytes 8 0x8000000000000000 := by decide +kernel
/-- A context image begins with MAGIC 0x4358_5443, VER 1 and the group count (R263). -/
theorem test_context_image : ((st g1).contextImage 1).take 8 = [0x43, 0x54, 0x58, 0x43, 1, 0, 1, 0] := by decide +kernel

end Sys2Proof.Tests
end

namespace Sys2Proof.Machine

/-! ## What stands after reset, and a frame that waits for its port's die -/

/-- Settles O58: every field is the one `State.reset` gives, the dispatcher's banks of each die by evaluation. -/
theorem resetState : Obligations.ResetState := by
  unfold Obligations.ResetState
  refine ⟨reset_wf, rfl, rfl, rfl, rfl, rfl, rfl, rfl, rfl, rfl, rfl, ?fields⟩
  case fields => decide

/-- A device that is up and whose die 0 stands at the last bucket value that chokes no request: the charge for one received
frame takes it below -1,048,576 (R79). -/
def brinkOfChoke : State :=
  { State.reset with
    firm := { State.reset.firm with up := true }
    dies := [(0, { bucket := -1048576 })] }

/-- A frame for another die chokes the die it came in on, and is parked there. -/
theorem ethernetFrameReceive_brinkOfChoke : exec (.ethernetFrameReceive 0 1 0 []) brinkOfChoke =
    .next { brinkOfChoke.ethernet 0 0 with parked := [.ethernetFrameReceive 0 1 0 []] } := by
  rfl

/-- Refutes O46 at its last clause: the charge for a frame (R74) may choke the die of its port, whose links then send no new
flit (R79), though no path was blocked before it; the frame does not reach its die with this turn. -/
theorem not_linksAndTime : ¬ Obligations.LinksAndTime := by
  unfold Obligations.LinksAndTime
  rintro ⟨-, -, -, -, -, -, -, hframe⟩
  obtain ⟨t, ht, -, -, hreach⟩ := hframe brinkOfChoke 0 1 0 [] rfl (by decide) (by decide) (by decide) (.inl rfl)
    (by decide) (fun _ => by decide)
  rw [ethernetFrameReceive_brinkOfChoke] at ht
  cases ht
  exact absurd hreach (by decide)

end Sys2Proof.Machine

namespace Sys2Proof.Machine

/-! ## What charges and messages between dies leave alone -/

/-- A request for a quantum changes the list of requests alone. -/
theorem State.askDie_eq (s : State) (d : Nat) : ∃ rq, s.askDie d = { s with power := { s.power with reqs := rq } } := by
  unfold State.askDie
  split
  · exact ⟨s.power.reqs, rfl⟩
  · exact ⟨_, rfl⟩

/-- A charge changes a die's bucket, and the requests and grants of the Float. -/
theorem State.charge_eq (s : State) (d n : Nat) : ∃ ds rq gr, s.charge d n =
    { s with dies := ds, power := { s.power with reqs := rq, granted := gr } } ∧
      ∀ e, (tblGet {} ds e : Die).charge = (s.die e).charge := by
  unfold State.charge
  dsimp only
  obtain ⟨rq, h⟩ := State.askDie_eq (s.updDie d (fun k =>
    { k with bucket := k.bucket - n, choked := k.choked || decide (k.bucket - n < -1048576) })) d
  rw [h]
  refine ⟨_, rq, _, rfl, fun e => ?_⟩
  simp only [State.updDie, tblGet_tblPut]
  split
  · next he => subst he; rfl
  · rfl

/-- A message on an Ethernet port charges its die. -/
theorem State.ethernet_eq (s : State) (p n : Nat) : ∃ ds rq gr, s.ethernet p n =
    { s with dies := ds, power := { s.power with reqs := rq, granted := gr } } ∧
      ∀ e, (tblGet {} ds e : Die).charge = (s.die e).charge := by
  unfold State.ethernet
  split
  · exact State.charge_eq _ _ _
  · exact ⟨s.dies, s.power.reqs, s.power.granted, rfl, fun _ => rfl⟩

/-- The side-band port and SMBus charge nothing. -/
theorem State.ethernet_manage (s : State) {p : Nat} (n : Nat) (h : 8 ≤ p) : s.ethernet p n = s :=
  if_neg (Nat.not_lt.mpr h)

/-- The forward rule changes a die's TIME alone. -/
theorem State.forwardTime_eq (s : State) (a b : Nat) : ∃ ds, s.forwardTime a b = { s with dies := ds } := by
  unfold State.forwardTime
  dsimp only
  split
  · exact ⟨_, rfl⟩
  · exact ⟨s.dies, rfl⟩

/-- A message between dies changes dies and links, and the requests and grants of the Float. -/
theorem State.crossMesh_eq (s : State) (cls a b n : Nat) : ∃ ds rq gr ls, s.crossMesh cls a b n =
    { s with dies := ds, links := ls, power := { s.power with reqs := rq, granted := gr } } := by
  unfold State.crossMesh
  dsimp only
  obtain ⟨ds, h⟩ := s.forwardTime_eq a b
  rw [h]
  suffices H : ∀ (l : List (Nat × Nat)) ds rq gr ls, ∃ ds' rq' gr' ls', l.foldl (fun (s : State) e =>
      let k := linkDirOf e.1 e.2
      let s := s.charge e.1 (flitsOf n * s.price (priceIndex 0x32 0 0))
      { s with links := tblPut s.links k ((tblGet ({} : LinkDir) s.links k).enter cls s.clock
          (List.replicate (min 16 (flitsOf n)) (meshFlit cls))) })
      { s with dies := ds, links := ls, power := { s.power with reqs := rq, granted := gr } } =
      { s with dies := ds', links := ls', power := { s.power with reqs := rq', granted := gr' } } from
    H _ ds s.power.reqs s.power.granted s.links
  intro l
  induction l with
  | nil => exact fun ds rq gr ls => ⟨ds, rq, gr, ls, rfl⟩
  | cons e l ih =>
    intro ds rq gr ls
    rw [List.foldl_cons]
    dsimp only
    obtain ⟨ds', rq', gr', h', -⟩ := State.charge_eq
      { s with dies := ds, links := ls, power := { s.power with reqs := rq, granted := gr } } e.1 _
    rw [h']
    exact ih _ _ _ _

/-- A message that stays on its die crosses no link. -/
theorem State.crossMesh_self (s : State) (cls d n : Nat) : s.crossMesh cls d d n = s := by
  simp [State.crossMesh, State.forwardTime, route]

@[simp] theorem State.charge_firm (s : State) (d n : Nat) : (s.charge d n).firm = s.firm := by
  obtain ⟨_, _, _, h, -⟩ := s.charge_eq d n; rw [h]

@[simp] theorem State.ethernet_firm (s : State) (p n : Nat) : (s.ethernet p n).firm = s.firm := by
  obtain ⟨_, _, _, h, -⟩ := s.ethernet_eq p n; rw [h]

@[simp] theorem State.crossMesh_firm (s : State) (cls a b n : Nat) : (s.crossMesh cls a b n).firm = s.firm := by
  obtain ⟨_, _, _, _, h⟩ := s.crossMesh_eq cls a b n; rw [h]

@[simp] theorem State.crossMesh_groups (s : State) (cls a b n : Nat) : (s.crossMesh cls a b n).groups = s.groups := by
  obtain ⟨_, _, _, _, h⟩ := s.crossMesh_eq cls a b n; rw [h]

/-! ## What writes at a home and completion records leave alone -/

@[simp] theorem State.roundTrip_firm (s : State) (a b n m : Nat) : (s.roundTrip a b n m).firm = s.firm := by
  unfold State.roundTrip; split <;> simp

@[simp] theorem State.llcAccess_firm (s : State) (a n code : Nat) : (s.llcAccess a n code).firm = s.firm := by
  unfold State.llcAccess
  split
  · dsimp only
    split
    · simp
    · rfl
  · rfl

@[simp] theorem State.visitHome_firm (s : State) (d a n code : Nat) (w : Bool) : (s.visitHome d a n code w).firm = s.firm := by
  simp [State.visitHome, State.chargeHome]

/-- Claiming a bank for a fired command changes cores alone. -/
theorem State.claimBank_firm {s t : State} {a b : Arm} (h : s.claimBank a = some (t, b)) : t.firm = s.firm := by
  unfold State.claimBank at h
  split at h
  · cases h; rfl
  · dsimp only at h
    split at h
    · cases h; rfl
    · split at h
      · cases h; rfl
      · cases h

@[simp] theorem State.fireArm_firm (s : State) (d : Nat) (a : Arm) : (s.fireArm d a).firm = s.firm := by
  unfold State.fireArm
  split
  · simp
  · split
    · next h => exact (State.claimBank_firm h :)
    · simp

@[simp] theorem State.fire_firm (s : State) (a n : Nat) : (s.fire a n).firm = s.firm := by
  unfold State.fire
  split
  · rfl
  · refine foldl_proj State.firm _ (fun s w => ?_) _ _
    unfold State.fireWord
    split
    · rfl
    · exact foldl_proj State.firm _ (fun s a => s.fireArm_firm _ a) _ _

@[simp] theorem State.homeWrite_firm (s : State) (a : Nat) (bs : List Byte) : (s.homeWrite a bs).firm = s.firm := by
  simp [State.homeWrite]

@[simp] theorem State.flushLine_firm (s : State) (c l : Nat) : (s.flushLine c l).firm = s.firm := by
  unfold State.flushLine
  split
  · rfl
  · next x _ =>
    have hout : ∀ (s : State) d, (x.out.foldl (fun s o =>
        ((s.homeWrite o.addr o.bytes).visitHome d o.addr o.bytes.length x.code true).unlog o.grp o.id) s).firm = s.firm :=
      fun s d => foldl_proj State.firm _ (fun s o => by simp) _ _
    simp only [State.updCore_firm]
    split
    · exact hout _ _
    · rw [State.visitHome_firm, foldl_proj State.firm _ (fun s e => s.homeWrite_firm _ _), hout]

@[simp] theorem State.writeBack_firm (s : State) (c : Nat) (p : CLine → Bool) : (s.writeBack c p).firm = s.firm :=
  foldl_proj State.firm _ (fun s l => s.flushLine_firm c l) _ _

@[simp] theorem State.releaseAt_firm (s : State) (c scope : Nat) : (s.releaseAt c scope).firm = s.firm := by
  unfold State.releaseAt; split <;> simp

@[simp] theorem State.sendFar_firm (s : State) (d : Nat) (r : RemoteOp) (m : Msg) : (s.sendFar d r m).firm = s.firm := by
  simp only [State.sendFar, State.fresh, State.ethernet_firm]
  split <;> simp

@[simp] theorem State.postBytes_firm (s : State) (d : Nat) (use : RemoteUse) (a : Nat) (bs : List Byte) :
    (s.postBytes d use a bs).firm = s.firm := by
  unfold State.postBytes
  split
  · simp
  · rfl
  · dsimp only
    split
    · rfl
    · split
      · split
        · exact State.roundTrip_firm _ _ _ _ _
        · simp
      · simp

@[simp] theorem State.signalAdd_firm (s : State) (d : Nat) (use : RemoteUse) (a : Nat) (v : Word) :
    (s.signalAdd d use a v).firm = s.firm := by
  unfold State.signalAdd
  split
  · simp
  · rfl
  · dsimp only
    split
    · rfl
    · simp

@[simp] theorem State.wantPageOf_firm (s : State) (a : Nat) : (s.wantPageOf a).firm = s.firm := by
  unfold State.wantPageOf
  split
  · split <;> rfl
  · rfl

@[simp] theorem State.updPost_firm (s : State) (id : Nat) (f : Post → Post) : (s.updPost id f).firm = s.firm := rfl
@[simp] theorem State.packetDone_firm (s : State) (q i : Nat) : (s.packetDone q i).firm = s.firm := rfl

@[simp] theorem State.stepPost_firm (s : State) (p : Post) : (s.stepPost p).firm = s.firm := by
  unfold State.stepPost
  split
  · rfl
  · split
    · split <;> simp
    · split
      · split
        · simp
        · split
          · rfl
          · rw [State.signalAdd_firm, State.updPost_firm, foldl_proj State.firm _ (fun s c => s.releaseAt_firm c 5)]
      · simp

/-- A completion record changes nothing of the always-on domain (R113). -/
@[simp] theorem State.completion_firm (s : State) (die code cause tag team rflags status csig : Nat) (delta : Word)
    (queue index : Nat) (cores : List Nat) :
    (s.completion die code cause tag team rflags status csig delta queue index cores).firm = s.firm := by
  unfold State.completion State.drivePost
  refine foldl_proj State.firm _ (fun s _ => ?_) _ _
  split <;> simp

/-! ## What messages leave in the always-on domain -/

/-- The always-on domain but for what messages leave there: the mailboxes of the firmware cores (R117), the errors told to F6
and the telemetry counts (R118, R235). -/
def State.ownFirm (s : State) : Firm := { s.firm with mail := [], errors := [], telem := [] }

theorem State.ownFirm_of_firm {s t : State} (h : t.firm = s.firm) : t.ownFirm = s.ownFirm := by simp only [State.ownFirm, h]

/-- A message to a firmware core reaches its mailbox, or its die keeps it to send it again (R117). -/
theorem State.sendMail_keeps (s : State) (d core : Nat) (n : Note) :
    (s.sendMail d core n).groups = s.groups ∧ (s.sendMail d core n).ownFirm = s.ownFirm := by
  unfold State.sendMail
  split
  · simp [State.mailTo, State.ownFirm]
  · exact ⟨rfl, rfl⟩

/-- A message to a firmware core from die 0, where the firmware cores stand, is the last in its mailbox where that has room
and the die keeps no earlier one (R117). -/
theorem State.sendMail_open (s : State) (core : Nat) (n : Note) (ho : s.mailOpen 0 core = true) (hn : (s.die 0).notes = []) :
    s.sendMail 0 core n = s.mailTo core n := by
  simp [State.sendMail, ho, hn, State.crossMesh_self]

theorem State.resendNotes_keeps (s : State) (d : Nat) :
    (s.resendNotes d).groups = s.groups ∧ (s.resendNotes d).ownFirm = s.ownFirm := by
  unfold State.resendNotes
  constructor
  · rw [foldl_proj State.groups _ (fun s (e : Nat × Note) => (s.sendMail_keeps d e.1 e.2).1), State.updDie_groups]
  · rw [foldl_proj State.ownFirm _ (fun s (e : Nat × Note) => (s.sendMail_keeps d e.1 e.2).2)]
    exact State.ownFirm_of_firm (State.updDie_firm ..)

theorem State.takeNote_keeps (s : State) (n : Note) :
    (s.takeNote n).groups = s.groups ∧ (s.takeNote n).ownFirm = s.ownFirm := by
  cases n <;> exact ⟨rfl, rfl⟩

/-- A firmware core that takes its messages leaves groups and its own domain alone. -/
theorem State.takeMail_keeps (s : State) (core : Nat) :
    (s.takeMail core).groups = s.groups ∧ (s.takeMail core).ownFirm = s.ownFirm := by
  unfold State.takeMail
  constructor
  · rw [foldl_proj State.groups _ (fun s d => (s.resendNotes_keeps d).1),
      foldl_proj State.groups _ (fun s n => (s.takeNote_keeps n).1)]
  · rw [foldl_proj State.ownFirm _ (fun s d => (s.resendNotes_keeps d).2),
      foldl_proj State.ownFirm _ (fun s n => (s.takeNote_keeps n).2)]
    rfl

/-! ## What the end of the device leaves alone -/

@[simp] theorem State.endBoard_firm (s : State) (c id : Nat) : (s.endBoard c id).firm = s.firm := by
  unfold State.endBoard; split <;> rfl

@[simp] theorem State.endBoards_firm (s : State) (c : Nat) (p : Nat → Bool) : (s.endBoards c p).firm = s.firm :=
  foldl_proj State.firm _ (fun s id => s.endBoard_firm c id) _ _

@[simp] theorem State.withdrawTokens_firm (s : State) (c : Nat) (p : Nat → Bool) : (s.withdrawTokens c p).firm = s.firm := rfl

/-- Changes of groups, one after another, change nothing of the always-on domain. -/
theorem State.foldl_updGroup_firm {α : Type} (l : List α) (h : α → Nat) (f : α → Group → Group) (s : State) :
    (l.foldl (fun (s : State) x => s.updGroup (h x) (f x)) s).firm = s.firm :=
  foldl_proj State.firm _ (fun s x => s.updGroup_firm (h x) (f x)) l s

@[simp] theorem State.dropSaved_firm (s : State) (t : Nat) : (s.dropSaved t).firm = s.firm := by
  unfold State.dropSaved
  dsimp only
  simp only [State.updTeam_firm]
  split
  · simp only [State.foldl_updGroup_firm]
  · simp only [State.foldl_updGroup_firm]

@[simp] theorem State.freeTeam_firm (s : State) (t : Nat) : (s.freeTeam t).firm = s.firm := by simp [State.freeTeam]

theorem State.countEnd_ownFirm (s : State) (t : Nat) : (s.countEnd t).ownFirm = s.ownFirm := by
  unfold State.countEnd
  dsimp only
  split
  · rfl
  · exact (s.sendMail_keeps _ _ _).2

theorem State.tryEndTeam_ownFirm (s : State) (t : Nat) : (s.tryEndTeam t).ownFirm = s.ownFirm := by
  unfold State.tryEndTeam
  dsimp only
  split
  · rw [State.countEnd_ownFirm]
    exact State.ownFirm_of_firm (by simp)
  · rfl

theorem State.killTeam_ownFirm (s : State) (t : Nat) : (s.killTeam t).ownFirm = s.ownFirm := by
  unfold State.killTeam
  dsimp only
  rw [State.tryEndTeam_ownFirm]
  refine State.ownFirm_of_firm ?_
  rw [foldl_proj State.firm _ (fun s h => State.foldl_updGroup_firm _ (fun _ => h) (fun a g => g.forsake a) s),
    State.foldl_updGroup_firm _ (fun h => h)]
  simp

theorem State.killGrid_ownFirm (s : State) (grid code : Nat) : (s.killGrid grid code).ownFirm = s.ownFirm := by
  unfold State.killGrid
  dsimp only
  rw [foldl_proj State.ownFirm _ (fun s t => s.killTeam_ownFirm t)]
  rfl

/-- Completing every grid with DEVICE leaves the always-on domain as it was, but for what messages leave in it (R114, R118). -/
theorem State.deviceEnd_ownFirm (s : State) : s.deviceEnd.ownFirm = s.ownFirm := by
  unfold State.deviceEnd
  refine foldl_proj State.ownFirm _ (fun s i => ?_) _ _
  dsimp only
  refine Eq.trans ?_ (s.killGrid_ownFirm i 2)
  exact State.ownFirm_of_firm (State.completion_firm ..)

end Sys2Proof.Machine

namespace Sys2Proof.Machine

/-! ## Changes of every die -/

/-- Writes of a table's keys by a fixed function of the key. -/
theorem tblGet_foldl_tblPut {α : Type} (d : α) (g : Nat → α) (x : Nat) (l : List Nat) (t : Tbl α) :
    tblGet d (l.foldl (fun t i => tblPut t i (g i)) t) x = if x ∈ l then g x else tblGet d t x := by
  induction l generalizing t with
  | nil => rfl
  | cons i l ih =>
    rw [List.foldl_cons, ih, tblGet_tblPut]
    by_cases hl : x ∈ l
    · simp [hl]
    · by_cases hi : i = x
      · simp [hi]
      · simp [hl, hi, Ne.symm hi]

theorem State.die_updDie (s : State) (d e : Nat) (f : Die → Die) :
    (s.updDie d f).die e = if d = e then f (s.die d) else s.die e := tblGet_tblPut _ _ _ _ _

/-- One change made of each die of a list. -/
theorem State.die_foldl_updDie (f : Die → Die) (x : Nat) (l : List Nat) (hl : l.Nodup) (s : State) :
    (l.foldl (fun (s : State) d => s.updDie d f) s).die x = if x ∈ l then f (s.die x) else s.die x := by
  induction l generalizing s with
  | nil => rfl
  | cons i l ih =>
    obtain ⟨hi, hl⟩ := List.nodup_cons.mp hl
    rw [List.foldl_cons, ih hl, State.die_updDie]
    by_cases hx : i = x
    · subst hx; simp [hi]
    · simp [hx, Ne.symm hx]

/-! ## Boot steps (R26, R27) -/

/-- What no boot step changes: what a bring-up clears, FLCFG, and of the always-on domain the rollback counters, the images in
flash, the count of bring-ups and the TIME reference. -/
def State.bootBase (s : State) :=
  (s.groups, s.teams, s.grids, s.pages, s.mem, s.queues, s.jobs, s.power.flcfg, s.firm.rollback, s.firm.flash, s.firm.boots,
    s.firm.time)

theorem State.firm_of_bootBase {s t : State} (h : t.bootBase = s.bootBase) : t.power.flcfg = s.power.flcfg ∧
    t.firm.rollback = s.firm.rollback ∧ t.firm.flash = s.firm.flash ∧ t.firm.boots = s.firm.boots ∧
      t.firm.time = s.firm.time := by
  simp only [State.bootBase, Prod.mk.injEq] at h
  obtain ⟨-, -, -, -, -, -, -, hrest⟩ := h
  exact hrest

/-- Changes of dies change dies alone. -/
theorem State.foldl_updDie_eq (f : Die → Die) (l : List Nat) (s : State) :
    ∃ ds, l.foldl (fun (s : State) d => s.updDie d f) s = { s with dies := ds } := by
  induction l generalizing s with
  | nil => exact ⟨s.dies, rfl⟩
  | cons d l ih =>
    obtain ⟨ds, e⟩ := ih (s.updDie d f)
    exact ⟨ds, e⟩

/-- Starting firmware cores changes those cores alone. -/
theorem State.startFw_eq (l : List Nat) (s : State) : ∃ cs, s.startFw l = { s with firm := { s.firm with cores := cs } } := by
  unfold State.startFw
  induction l generalizing s with
  | nil => exact ⟨s.firm.cores, rfl⟩
  | cons i l ih =>
    obtain ⟨cs, e⟩ := ih (s.updFw i (fun c => c.run (s.firm.image i)))
    exact ⟨cs, e⟩

/-- A die's TIME loaded with the reference, which moves it forwards only (R25). -/
def Die.load (t : Nat) (k : Die) : Die :=
  { k with time := max k.time t % 2 ^ 64, slew := false, skip := false, slewTo := 0, told := t, synced := t }

/-- A die as the Float starts: its bucket full and nothing asked for (R87). -/
def Die.fill (k : Die) : Die := { k with bucket := 1048576, flight := [], reqs := [], choked := false }

/-- Loading TIME changes every die's TIME and slewing, the end of the Float's interval and F3's last review. -/
theorem State.loadTime_eq (s : State) : ∃ ds due rv, s.loadTime =
    { s with dies := ds, power := { s.power with due := due }, firm := { s.firm with reviewed := rv } } ∧
      ∀ d, d < 8 → tblGet {} ds d = (s.die d).load (s.firm.time + 2048 + Config.transit) := by
  obtain ⟨ds, e⟩ := State.foldl_updDie_eq (Die.load (s.firm.time + 2048 + Config.transit)) (List.range 8) s
  refine ⟨ds, (tblGet ({} : Die) ds 0).time + 1000, (tblGet ({} : Die) ds 0).time, ?eq, fun d hd => ?die⟩
  case eq =>
    rw [State.loadTime]
    exact congrArg (fun u : State => { u with
      power := { u.power with due := (u.die 0).time + 1000 }, firm := { u.firm with reviewed := (u.die 0).time } }) e
  case die =>
    have h := State.die_foldl_updDie (Die.load (s.firm.time + 2048 + Config.transit)) d (List.range 8) List.nodup_range s
    rw [e, if_pos (List.mem_range.mpr hd)] at h
    exact h

/-- The Float's start changes buckets and the Float alone, which takes P and PS from FLCFG (R87). -/
theorem State.startFloat_eq (s : State) : ∃ pw ds cs, s.startFloat = { s with power := pw, dies := ds, cores := cs } ∧
    pw.flcfg = s.power.flcfg ∧ pw.pkg = 16777216 * 10 ^ 12 ∧ pw.p = watts (flField s.power.flcfg 12 12) ∧
      pw.ps = watts (flField s.power.flcfg 12 12) :=
  ⟨_, _, _, rfl, rfl, rfl, rfl, rfl⟩

/-- The Float's start fills the bucket of each of the eight dies and changes no TIME (R87). -/
theorem State.startFloat_die (s : State) {d : Nat} (hd : d < 8) : s.startFloat.die d = (s.die d).fill :=
  (tblGet_foldl_tblPut ({} : Die) (fun d => (s.die d).fill) d (List.range 8) s.dies).trans (if_pos (List.mem_range.mpr hd))

/-- What a boot step that succeeded leaves: its number; the device up with step 8 alone, and TIME but for step 7 as it was. -/
structure BootStepped (s : State) (k : Nat) (t : State) : Prop where
  base     : t.bootBase = s.bootBase
  recovery : t.firm.recovery = s.firm.recovery
  step     : t.firm.step = k
  up       : k ≠ 8 → t.firm.up = s.firm.up
  time     : k ≠ 7 → ∀ d, d < 8 → (t.die d).time = (s.die d).time

/-- The state in which boot step k does its work. -/
def State.atStep (s : State) (k : Nat) : State := { s with firm := { s.firm with step := k } }

/-- The state in which the Float starts in step 6: firmware cores 1 to 6 run, and the Cornice stands empty. -/
def State.beforeFloat (s : State) : State :=
  let t := (s.atStep 6).startFw [1, 2, 3, 4, 5, 6]
  { t with ring := {}, firm := { t.firm with since := s.clock } }

theorem State.bootStep_six (s : State) : s.bootStep 6 = s.beforeFloat.startFloat := rfl
theorem State.bootStep_seven (s : State) : s.bootStep 7 = (s.atStep 7).loadTime := rfl

theorem BootStepped.startFw (s : State) (k : Nat) (l : List Nat) : BootStepped s k ((s.atStep k).startFw l) := by
  obtain ⟨cs, e⟩ := State.startFw_eq l (s.atStep k)
  rw [e]
  exact ⟨rfl, rfl, rfl, fun _ => rfl, fun _ _ _ => rfl⟩

theorem BootStepped.beforeFloat (s : State) : BootStepped s 6 s.beforeFloat := by
  obtain ⟨base, recovery, step, up, time⟩ := BootStepped.startFw s 6 [1, 2, 3, 4, 5, 6]
  exact ⟨base, recovery, step, up, time⟩

theorem BootStepped.startFloat {s t : State} {k : Nat} (h : BootStepped s k t) : BootStepped s k t.startFloat := by
  have hbase : t.startFloat.bootBase = t.bootBase := by
    obtain ⟨_, _, _, e, hflcfg, -⟩ := t.startFloat_eq
    simp only [State.bootBase, e, hflcfg]
  have htime : ∀ d, d < 8 → (t.startFloat.die d).time = (t.die d).time := fun d hd => by rw [t.startFloat_die hd]; rfl
  exact ⟨hbase.trans h.base, h.recovery, h.step, h.up, fun hk d hd => (htime d hd).trans (h.time hk d hd)⟩

theorem BootStepped.loadTime (s : State) : BootStepped s 7 (s.atStep 7).loadTime := by
  obtain ⟨ds, due, rv, e, -⟩ := (s.atStep 7).loadTime_eq
  rw [e]
  exact ⟨rfl, rfl, rfl, fun _ => rfl, fun h => absurd rfl h⟩

theorem State.bootStep_stepped (s : State) (k : Nat) : BootStepped s k (s.bootStep k) := by
  unfold State.bootStep
  dsimp only
  split
  case h_1 => exact .startFw s 2 [0]
  case h_2 => exact .startFw s 3 [7]
  case h_3 | h_4 | h_8 => exact ⟨rfl, rfl, rfl, fun _ => rfl, fun _ _ _ => rfl⟩
  case h_5 => exact (BootStepped.beforeFloat s).startFloat
  case h_6 => exact .loadTime s
  case h_7 => exact ⟨rfl, rfl, rfl, fun h => absurd rfl h, fun _ _ _ => rfl⟩

/-- Whether a boot step succeeds depends on the rollback counters, the images in flash and the bring-up alone. -/
theorem State.bootOk_congr {s u : State} (hroll : s.firm.rollback = u.firm.rollback) (hflash : s.firm.flash = u.firm.flash)
    (hboots : s.firm.boots = u.firm.boots) : s.bootOk = u.bootOk := by
  have haccepts : ∀ c b, s.firm.accepts c b = u.firm.accepts c b := fun c b => by simp only [Firm.accepts, hroll]
  have himage : ∀ c, s.firm.image c = u.firm.image c := fun c => by simp only [Firm.image, hflash]
  funext k
  simp only [State.bootOk, haccepts, himage, hboots]

theorem BootStepped.bootOk {s t : State} {k : Nat} (h : BootStepped s k t) : t.bootOk = s.bootOk := by
  obtain ⟨-, hroll, hflash, hboots, -⟩ := State.firm_of_bootBase h.base
  exact State.bootOk_congr hroll hflash hboots

/-! ## A run of boot steps -/

theorem foldl_bootStep_base (l : List Nat) (s : State) : (l.foldl State.bootStep s).bootBase = s.bootBase :=
  foldl_proj State.bootBase _ (fun s k => (s.bootStep_stepped k).base) l s

theorem foldl_bootStep_recovery (l : List Nat) (s : State) : (l.foldl State.bootStep s).firm.recovery = s.firm.recovery :=
  foldl_proj (fun s => s.firm.recovery) _ (fun s k => (s.bootStep_stepped k).recovery) l s

/-- Before step 8 the device is not up. -/
theorem foldl_bootStep_up {l : List Nat} (h : 8 ∉ l) (s : State) : (l.foldl State.bootStep s).firm.up = s.firm.up := by
  induction l generalizing s with
  | nil => rfl
  | cons k l ih =>
    obtain ⟨hk, hl⟩ := not_or.mp (fun hor => h (List.mem_cons.mpr hor))
    rw [List.foldl_cons, ih hl, (s.bootStep_stepped k).up (Ne.symm hk)]

/-- Steps done one after another, up to and without a + n. -/
theorem foldl_bootStep_step (a n : Nat) (s : State) (h : s.firm.step + 1 = a) :
    ((List.range' a n).foldl State.bootStep s).firm.step + 1 = a + n := by
  cases n with
  | zero => exact h
  | succ n => rw [List.range'_1_concat, List.foldl_append, List.foldl_cons, List.foldl_nil,
      (State.bootStep_stepped _ _).step, Nat.add_assoc]

theorem State.boot_base (s : State) (l : List Nat) : (s.boot l).bootBase = s.bootBase := by
  refine foldl_proj State.bootBase _ (fun s k => ?_) l s
  dsimp only
  split
  · rfl
  · split
    · exact (s.bootStep_stepped k).base
    · rfl

/-- A device in recovery begins no boot step (R27). -/
theorem State.boot_recovery {s : State} (h : s.firm.recovery = true) (l : List Nat) : s.boot l = s := by
  induction l with
  | nil => rfl
  | cons k l ih =>
    have hstay : s.boot (k :: l) = s.boot l := by simp only [State.boot, List.foldl_cons, h, if_true]
    rw [hstay, ih]

/-- Steps that succeed are done one after another, and the rest follows (R26). -/
theorem State.boot_append {l : List Nat} {s : State} (hr : s.firm.recovery = false) (hok : l.all s.bootOk = true) (m : List Nat) :
    s.boot (l ++ m) = (l.foldl State.bootStep s).boot m := by
  induction l generalizing s with
  | nil => rfl
  | cons k l ih =>
    obtain ⟨hk, hl⟩ := (Bool.and_eq_true ..).mp (List.all_cons ▸ hok)
    have hdo : s.boot (k :: l ++ m) = (s.bootStep k).boot (l ++ m) := by
      simp only [State.boot, List.cons_append, List.foldl_cons, hr, hk, if_true, if_false, Bool.false_eq_true]
    have hsame : (s.bootStep k).bootOk = s.bootOk := (s.bootStep_stepped k).bootOk
    rw [hdo, ih ((s.bootStep_stepped k).recovery.trans hr) (hsame ▸ hl), List.foldl_cons]

/-- A boot step that fails stops the device in recovery (R27). -/
theorem State.boot_fails {s : State} (hr : s.firm.recovery = false) {k : Nat} (hk : s.bootOk k = false) (m : List Nat) :
    s.boot (k :: m) =
      { s with firm := { s.firm with recovery := true, failed := k, cause := Config.bootCause s.firm.boots k } } := by
  have hstop : s.boot (k :: m) = ({ s with firm := { s.firm with
      recovery := true, failed := k, cause := Config.bootCause s.firm.boots k } } : State).boot m := by
    simp only [State.boot, List.foldl_cons, hr, hk, if_false, Bool.false_eq_true]
  rw [hstop, State.boot_recovery rfl]

/-- The Float as it starts: every bucket full, and P and PS at the floor of an FLCFG (R87). -/
structure FloatStarted (flcfg : BitVec 64) (t : State) : Prop where
  pkg    : t.power.pkg = 16777216 * 10 ^ 12
  p      : t.power.p = watts (flField flcfg 12 12)
  ps     : t.power.ps = watts (flField flcfg 12 12)
  bucket : ∀ d, d < 8 → (t.die d).bucket = 1048576

theorem State.startFloat_started (s : State) : FloatStarted s.power.flcfg s.startFloat :=
  ⟨rfl, rfl, rfl, fun d hd => by rw [s.startFloat_die hd]; rfl⟩

theorem State.bootStep_six_started (s : State) : FloatStarted s.power.flcfg (s.bootStep 6) := by
  have hflcfg : s.beforeFloat.power.flcfg = s.power.flcfg := by
    obtain ⟨cs, e⟩ := State.startFw_eq [1, 2, 3, 4, 5, 6] (s.atStep 6)
    rw [State.beforeFloat, e]; rfl
  rw [State.bootStep_six, ← hflcfg]
  exact s.beforeFloat.startFloat_started

/-- Loading TIME leaves the Float as it starts. -/
theorem FloatStarted.bootStep_seven {v : BitVec 64} {s : State} (h : FloatStarted v s) : FloatStarted v (s.bootStep 7) := by
  obtain ⟨ds, due, rv, e, hload⟩ := (s.atStep 7).loadTime_eq
  rw [State.bootStep_seven, e]
  exact ⟨h.pkg, h.p, h.ps, fun d hd => (congrArg Die.bucket (hload d hd)).trans (h.bucket d hd)⟩

theorem FloatStarted.bootStep_eight {v : BitVec 64} {s : State} (h : FloatStarted v s) : FloatStarted v (s.bootStep 8) :=
  ⟨h.pkg, h.p, h.ps, h.bucket⟩

/-- The last three steps bring the device up, with every bucket full and P and PS at PFLOOR (R26, R87). -/
theorem foldl_bootStep_last (s : State) :
    let t := [6, 7, 8].foldl State.bootStep s
    t.firm.up = true ∧ t.firm.step = 8 ∧ t.firm.stopped = false ∧ FloatStarted s.power.flcfg t :=
  ⟨rfl, rfl, rfl, s.bootStep_six_started.bootStep_seven.bootStep_eight⟩

/-! ## A bring-up (R25 to R27, R87) -/

/-- No group, team, grid, mapping, byte, queue or job stands. -/
def Cleared (t : State) : Prop :=
  t.groups = [] ∧ t.teams = [] ∧ t.grids = [] ∧ t.pages = [] ∧ t.mem = [] ∧ t.queues = [] ∧ t.jobs = []

/-- r is the package of s as F0 begins to bring it up at boot step a: cleared, the bring-up counted, not up and not in
recovery, with the counters and the images that s had. -/
structure Lowered (s r : State) (a : Nat) : Prop where
  cleared  : Cleared r
  flcfg    : r.power.flcfg = flcfgReset
  rollback : r.firm.rollback = s.firm.rollback
  flash    : r.firm.flash = s.firm.flash
  boots    : r.firm.boots = s.firm.boots + 1
  recovery : r.firm.recovery = false
  up       : r.firm.up = false
  step     : r.firm.step + 1 = a

/-- What a bring-up of s by some boot steps leaves (R26, R27, R87). -/
def Booted (s t : State) (steps : List Nat) : Prop :=
  let up : State := { s with firm := { s.firm with boots := s.firm.boots + 1 } }
  let ok := steps.all up.bootOk
  Cleared t ∧ t.firm.up = ok ∧ t.firm.recovery = !ok ∧ t.firm.rollback = s.firm.rollback ∧
    (ok = true → t.firm.step = 8 ∧ t.firm.stopped = false ∧ t.power.pkg = 16777216 * 10 ^ 12 ∧ t.power.flcfg = flcfgReset ∧
      t.power.p = watts 400 ∧ t.power.ps = watts 400 ∧ ∀ d, d < 8 → (t.die d).bucket = 1048576) ∧
    (∀ n, n < steps.length → (steps.take n).all up.bootOk = true → up.bootOk (steps[n]?.getD 0) = false →
      t.firm.step = steps[n]?.getD 0 - 1 ∧ t.firm.failed = steps[n]?.getD 0)

section
variable {s r : State} {a : Nat}

/-- Whether a boot step of the bring-up succeeds can be told from the device before it. -/
theorem Lowered.bootOk (h : Lowered s r a) :
    ({ s with firm := { s.firm with boots := s.firm.boots + 1 } } : State).bootOk = r.bootOk :=
  State.bootOk_congr h.rollback.symm h.flash.symm h.boots.symm

/-- What stands cleared, and the rollback counters, stand so after any boot steps. -/
theorem Lowered.boot_kept (h : Lowered s r a) (l : List Nat) :
    Cleared (r.boot l) ∧ (r.boot l).power.flcfg = flcfgReset ∧ (r.boot l).firm.rollback = s.firm.rollback := by
  have hbase := r.boot_base l
  simp only [State.bootBase, Prod.mk.injEq] at hbase
  obtain ⟨hgroups, hteams, hgrids, hpages, hmem, hqueues, hjobs, hflcfg, hroll, -⟩ := hbase
  refine ⟨?_, hflcfg.trans h.flcfg, hroll.trans h.rollback⟩
  rw [Cleared, hgroups, hteams, hgrids, hpages, hmem, hqueues, hjobs]
  exact h.cleared

/-- Where every step to step 8 succeeds, the device comes up (R26, R87). -/
theorem Lowered.boot_up (h : Lowered s r a) {k : Nat} (ha : a + k = 6) (hok : (List.range' a (k + 3)).all r.bootOk = true) :
    let t := r.boot (List.range' a (k + 3))
    t.firm.up = true ∧ t.firm.recovery = false ∧ t.firm.step = 8 ∧ t.firm.stopped = false ∧ FloatStarted flcfgReset t := by
  have hboot := State.boot_append h.recovery hok []
  rw [List.append_nil] at hboot
  have hsplit : List.range' a (k + 3) = List.range' a k ++ [6, 7, 8] := by rw [← List.range'_append_1, ha]; rfl
  obtain ⟨hflcfg, -⟩ := State.firm_of_bootBase (foldl_bootStep_base (List.range' a k) r)
  obtain ⟨hup, hstep, hstopped, hfloat⟩ := foldl_bootStep_last ((List.range' a k).foldl State.bootStep r)
  rw [hflcfg, h.flcfg] at hfloat
  dsimp only
  rw [hboot, State.boot, List.foldl_nil, hsplit, List.foldl_append]
  exact ⟨hup, (foldl_bootStep_recovery _ _).trans ((foldl_bootStep_recovery _ _).trans h.recovery), hstep, hstopped, hfloat⟩

/-- Where a step is the first to fail, the device stops in recovery at the step before (R27). -/
theorem Lowered.boot_stops (h : Lowered s r a) {k n : Nat} (ha : a + k = 6) (hn : n < k + 3)
    (hok : (List.range' a n).all r.bootOk = true) (hbad : r.bootOk (a + n) = false) :
    let t := r.boot (List.range' a (k + 3))
    t.firm.up = false ∧ t.firm.recovery = true ∧ t.firm.step = a + n - 1 ∧ t.firm.failed = a + n := by
  have hsplit : List.range' a (k + 3) = List.range' a n ++ (a + n) :: List.range' (a + n + 1) (k + 2 - n) := by
    rw [← List.range'_succ, List.range'_append_1]; congr 1; omega
  have hsame : ((List.range' a n).foldl State.bootStep r).bootOk = r.bootOk := by
    obtain ⟨-, hroll, hflash, hboots, -⟩ := State.firm_of_bootBase (foldl_bootStep_base (List.range' a n) r)
    exact State.bootOk_congr hroll hflash hboots
  have hstep := foldl_bootStep_step a n r h.step
  have hup : ((List.range' a n).foldl State.bootStep r).firm.up = false :=
    (foldl_bootStep_up (fun h8 => by have := List.mem_range'_1.mp h8; omega) r).trans h.up
  dsimp only
  rw [hsplit, State.boot_append h.recovery hok,
    State.boot_fails ((foldl_bootStep_recovery _ _).trans h.recovery) (hsame ▸ hbad)]
  exact ⟨hup, rfl, Nat.eq_sub_of_add_eq hstep, rfl⟩

/-- A list of steps of which one fails has a first that does. -/
theorem exists_first_failing {p : Nat → Bool} {a m : Nat} (h : (List.range' a m).all p = false) :
    ∃ n, n < m ∧ (List.range' a n).all p = true ∧ p (a + n) = false := by
  induction m with
  | zero => cases h
  | succ m ih =>
    cases hall : (List.range' a m).all p with
    | false =>
      obtain ⟨n, hn, hrest⟩ := ih hall
      exact ⟨n, Nat.lt_succ_of_lt hn, hrest⟩
    | true =>
      refine ⟨m, Nat.lt_succ_self m, hall, ?_⟩
      simpa [List.range'_1_concat, hall] using h

/-- A bring-up from boot step a to step 8 does its steps in order until one fails (R26, R27). -/
theorem Lowered.booted (h : Lowered s r a) {k : Nat} (ha : a + k = 6) :
    Booted s (r.boot (List.range' a (k + 3))) (List.range' a (k + 3)) := by
  obtain ⟨hclear, hflcfg, hroll⟩ := h.boot_kept (List.range' a (k + 3))
  have hstops : ∀ n, n < (List.range' a (k + 3)).length → ((List.range' a (k + 3)).take n).all r.bootOk = true →
      r.bootOk ((List.range' a (k + 3))[n]?.getD 0) = false → (r.boot (List.range' a (k + 3))).firm.step =
        (List.range' a (k + 3))[n]?.getD 0 - 1 ∧ (r.boot (List.range' a (k + 3))).firm.failed =
          (List.range' a (k + 3))[n]?.getD 0 := by
    intro n hn hok hbad
    rw [List.length_range'] at hn
    rw [List.getElem?_range' hn, Option.getD_some, Nat.one_mul] at hbad ⊢
    have htake : (List.range' a (k + 3)).take n = List.range' a n := by simp [Nat.le_of_lt hn]
    exact (h.boot_stops ha hn (htake ▸ hok) hbad).2.2
  rw [Booted, h.bootOk]
  cases hall : (List.range' a (k + 3)).all r.bootOk with
  | true =>
    obtain ⟨hup, hrec, hstep, hstopped, hfloat⟩ := h.boot_up ha hall
    exact ⟨hclear, hup, hrec, hroll, fun _ => ⟨hstep, hstopped, hfloat.pkg, hflcfg, hfloat.p, hfloat.ps, hfloat.bucket⟩, hstops⟩
  | false =>
    obtain ⟨n, hn, hok, hbad⟩ := exists_first_failing hall
    obtain ⟨hup, hrec, -⟩ := h.boot_stops ha hn hok hbad
    exact ⟨hclear, hup, hrec, hroll, fun hno => absurd hno Bool.false_ne_true, hstops⟩

end

/-! ## Cold reset and the compute-side reset (R25, R118) -/

/-- The package as F0 begins to bring up the compute side again (R118). -/
def State.lowered (s : State) : State :=
  s.blank { s.firm with
    step := 3, up := false, recovery := false, stopped := false, failed := 0, cause := 0, regs := 0, boots := s.firm.boots + 1
    load := [], mail := [], telem := [], errors := [], resetting := none
    cores := s.firm.cores.map (fun e => (e.1, if e.1 = 0 ∨ e.1 = 7 then e.2 else { e.2 with running := false, missed := 0 })) } true

theorem State.resetCompute_eq (s : State) : s.resetCompute = s.lowered.boot [4, 5, 6, 7, 8] := rfl

theorem State.powerUp_booted (s : State) : Booted s s.powerUp [2, 3, 4, 5, 6, 7, 8] := by
  have hlow : Lowered s (s.blank { rollback := s.firm.rollback, flash := s.firm.flash, boots := s.firm.boots + 1 } false) 2 :=
    ⟨⟨rfl, rfl, rfl, rfl, rfl, rfl, rfl⟩, rfl, rfl, rfl, rfl, rfl, rfl, rfl⟩
  exact hlow.booted (k := 4) rfl

/-- A compute-side reset is a bring-up from boot step 4; of which firmware cores ran before nothing depends. -/
theorem Lowered.of_firm {s u : State} (hr : u.firm.rollback = s.firm.rollback) (hf : u.firm.flash = s.firm.flash)
    (hb : u.firm.boots = s.firm.boots) : Lowered s u.lowered 4 :=
  ⟨⟨rfl, rfl, rfl, rfl, rfl, rfl, rfl⟩, rfl, hr, hf, congrArg (· + 1) hb, rfl, rfl, rfl⟩

theorem State.resetCompute_booted (s : State) : Booted s s.resetCompute [4, 5, 6, 7, 8] := by
  rw [State.resetCompute_eq]
  exact (Lowered.of_firm rfl rfl rfl).booted (k := 2) rfl

/-- A compute-side reset begins with every die's TIME as it was (R25). -/
theorem State.lowered_time (s : State) {d : Nat} (hd : d < 8) : (s.lowered.die d).time = (s.die d).time :=
  match d, hd with
  | 0, _ | 1, _ | 2, _ | 3, _ | 4, _ | 5, _ | 6, _ | 7, _ => rfl

/-- TIME of a die stands until step 7 loads it (R25, R26). -/
theorem State.boot_one_time (s : State) {k d : Nat} (hk : k ≠ 7) (hd : d < 8) :
    ((s.boot [k]).die d).time = (s.die d).time := by
  simp only [State.boot, List.foldl_cons, List.foldl_nil]
  split
  · rfl
  · split
    · exact (s.bootStep_stepped k).time hk d hd
    · rfl

/-- Step 7 leaves TIME of a die, where it is not done, or loads it (R25). -/
theorem State.boot_seven_time (s : State) {d : Nat} (hd : d < 8) : ((s.boot [7]).die d).time = (s.die d).time ∨
    ((s.boot [7]).die d).time = max (s.die d).time (s.firm.time + 2048 + Config.transit) % 2 ^ 64 := by
  simp only [State.boot, List.foldl_cons, List.foldl_nil]
  split
  · exact .inl rfl
  · split
    · obtain ⟨ds, due, rv, e, hload⟩ := (s.atStep 7).loadTime_eq
      rw [State.bootStep_seven, e]
      exact .inr (congrArg Die.time (hload d hd))
    · exact .inl rfl

/-- A compute-side reset leaves TIME of a die, or loads it with the reference (R25). -/
theorem State.resetCompute_time (s : State) {d : Nat} (hd : d < 8) : (s.resetCompute.die d).time = (s.die d).time ∨
    (s.resetCompute.die d).time = max (s.die d).time (s.firm.time + 2048 + Config.transit) % 2 ^ 64 := by
  let u := ((s.lowered.boot [4]).boot [5]).boot [6]
  have hu : (u.die d).time = (s.die d).time := by
    rw [State.boot_one_time _ (by decide) hd, State.boot_one_time _ (by decide) hd, State.boot_one_time _ (by decide) hd,
      State.lowered_time _ hd]
  have hfirm : u.firm.time = s.firm.time := by
    obtain ⟨-, -, -, -, h4⟩ := State.firm_of_bootBase (s.lowered.boot_base [4])
    obtain ⟨-, -, -, -, h5⟩ := State.firm_of_bootBase ((s.lowered.boot [4]).boot_base [5])
    obtain ⟨-, -, -, -, h6⟩ := State.firm_of_bootBase (((s.lowered.boot [4]).boot [5]).boot_base [6])
    exact h6.trans (h5.trans h4)
  have hreset : s.resetCompute = (u.boot [7]).boot [8] := rfl
  rw [hreset, State.boot_one_time _ (by decide) hd, ← hu, ← hfirm]
  exact u.boot_seven_time hd

/-! ## Heartbeats (R117) -/

theorem exec_coldReset (s : State) : exec .coldReset s = execColdReset s := rfl
theorem exec_alwaysOnWatchdog (s : State) : exec .alwaysOnWatchdog s = execAlwaysOnWatchdog s := rfl
theorem exec_firmwareHeartbeat (c : Nat) (s : State) : exec (.firmwareHeartbeat c) s = execFirmwareHeartbeat c s := rfl
theorem exec_heartbeatMiss (c : Nat) (s : State) : exec (.heartbeatMiss c) s = execHeartbeatMiss c s := rfl

/-- The firmware cores after a change of one. -/
theorem State.core_updFw (s : State) (i j : Nat) (f : FwCore → FwCore) :
    (s.updFw i f).firm.core j = if i = j then f (s.firm.core i) else s.firm.core j := tblGet_tblPut _ _ _ _ _

theorem Firm.core_of_ownFirm {s t : State} (h : t.ownFirm = s.ownFirm) (c : Nat) : t.firm.core c = s.firm.core c := by
  have hcores : t.ownFirm.cores = s.ownFirm.cores := congrArg Firm.cores h
  exact congrArg (fun k : Tbl FwCore => tblGet ({} : FwCore) k c) hcores

/-- Nothing but firmware core c has changed of the firmware cores, and no group. -/
def OthersStand (s t : State) (c : Nat) : Prop := t.groups = s.groups ∧ ∀ i, i ≠ c → t.firm.core i = s.firm.core i

theorem State.updFw_others (s : State) (c : Nat) (f : FwCore → FwCore) : OthersStand s (s.updFw c f) c :=
  ⟨rfl, fun i hi => by rw [State.core_updFw, if_neg (Ne.symm hi)]⟩

theorem OthersStand.trans {s t u : State} {c : Nat} (h : OthersStand s t c) (k : OthersStand t u c) : OthersStand s u c :=
  ⟨k.1.trans h.1, fun i hi => (k.2 i hi).trans (h.2 i hi)⟩

/-- A report to F6 changes no group and no firmware core. -/
theorem State.tellF6_keeps (s : State) (place die : Nat) :
    (s.tellF6 place die).groups = s.groups ∧ (s.tellF6 place die).ownFirm = s.ownFirm := s.sendMail_keeps _ _ _

/-- Without a RESET that waits nothing is finished. -/
theorem State.finishReset_none {s : State} (h : s.firm.resetting = none) : s.finishReset = s := by
  rw [State.finishReset, h]

section
variable {s : State} {c : Nat}

/-- A firmware core that takes its messages is heard from (R117). -/
theorem firmwareHeartbeat_heard (h1 : 1 ≤ c) (h8 : c < 8) (hp : s.firm.powered = true) (hr : c = 1 → s.firm.resetting = none) :
    Completes (.firmwareHeartbeat c) s (fun t => OthersStand s t c ∧ t.firm.core c = { s.firm.core c with missed := 0 }) := by
  obtain ⟨hgroups, hfirm⟩ := s.takeMail_keeps c
  have hend : (if c = 1 then ((s.takeMail c).updFw c (fun k => { k with missed := 0 })).finishReset
      else (s.takeMail c).updFw c (fun k => { k with missed := 0 })) = (s.takeMail c).updFw c (fun k => { k with missed := 0 }) := by
    split
    · next hc => exact State.finishReset_none ((congrArg Firm.resetting hfirm).trans (hr hc))
    · rfl
  have hgo : ¬ (c = 0 ∨ 8 ≤ c ∨ (!s.firm.powered) = true) := by rw [hp]; simp; omega
  refine ⟨(s.takeMail c).updFw c (fun k => { k with missed := 0 }), ?_, ?_, ?_⟩
  · rw [exec_firmwareHeartbeat, execFirmwareHeartbeat, if_neg hgo]
    exact congrArg Host.Outcome.next hend
  · exact OthersStand.trans ⟨hgroups, fun i _ => Firm.core_of_ownFirm hfirm i⟩ (State.updFw_others _ _ _)
  · rw [State.core_updFw, if_pos rfl, Firm.core_of_ownFirm hfirm]

/-- A miss before the tenth is counted (R117). -/
theorem heartbeatMiss_counts (h1 : 1 ≤ c) (h8 : c < 8) (hp : s.firm.powered = true) (hm : (s.firm.core c).missed < 9) :
    Completes (.heartbeatMiss c) s (fun t => OthersStand s t c ∧
      t.firm.core c = { s.firm.core c with missed := (s.firm.core c).missed + 1 } ∧ t.firm.mail = s.firm.mail) := by
  have hgo : ¬ (c = 0 ∨ 8 ≤ c ∨ (!s.firm.powered) = true) := by rw [hp]; simp; omega
  refine ⟨s.updFw c (fun k => { k with missed := (s.firm.core c).missed + 1 }), ?_, s.updFw_others c _, ?_, rfl⟩
  · rw [exec_heartbeatMiss, execHeartbeatMiss, if_neg hgo]
    exact if_pos (Nat.succ_lt_succ hm)
  · rw [State.core_updFw, if_pos rfl]

/-- At the tenth miss in a row the core is started from its image, and F6 is told (R117). -/
theorem heartbeatMiss_restarts (h1 : 1 ≤ c) (h8 : c < 8) (hp : s.firm.powered = true) (hm : (s.firm.core c).missed = 9)
    (h2 : c ≠ 2) : Completes (.heartbeatMiss c) s (fun t => OthersStand s t c ∧
      t.firm.core c = (s.firm.core c).run (s.firm.image c) ∧
      (s.mailOpen 0 6 = true → (s.die 0).notes = [] →
        ∃ r, tblGet [] t.firm.mail 6 = tblGet [] s.firm.mail 6 ++ [.error 0 r] ∧ r.addr = c)) := by
  have hgo : ¬ (c = 0 ∨ 8 ≤ c ∨ (!s.firm.powered) = true) := by rw [hp]; simp; omega
  have hstart : s.startFw [c] = s.updFw c (fun k => k.run (s.firm.image c)) := rfl
  obtain ⟨hgroups, hfirm⟩ := (s.updFw c (fun k => k.run (s.firm.image c))).tellF6_keeps c 0
  refine ⟨(s.updFw c (fun k => k.run (s.firm.image c))).tellF6 c 0, ?_, ?_, ?_, fun ho hn => ?_⟩
  · rw [exec_heartbeatMiss, execHeartbeatMiss, if_neg hgo, hm, hstart]
    exact congrArg Host.Outcome.next (if_neg h2)
  · exact (s.updFw_others c _).trans ⟨hgroups, fun i _ => Firm.core_of_ownFirm hfirm i⟩
  · rw [Firm.core_of_ownFirm hfirm, State.core_updFw, if_pos rfl]
  · rw [State.tellF6, State.tellCause, State.sendMail_open (s.updFw c _) _ _ ho hn]
    exact ⟨_, tblGet_tblPut_self _ _ _ _, rfl⟩

end

/-- Settles O53: a cold reset and a watchdog bring the device up step by step (`Lowered.booted`), the watchdog with TIME as it
stood or as it is loaded; heartbeats and misses change their own core alone. -/
theorem firmware : Obligations.Firmware := by
  refine ⟨fun s => ?cold, fun s hp h3 => ?early, fun s hp h3 => ?watchdog, fun s c h1 h8 hp => ⟨fun hr => ?heard, fun hm => ?miss,
    fun hm h2 => ?restart⟩⟩
  case cold => exact ⟨s.powerUp, exec_coldReset s, s.powerUp_booted⟩
  case early =>
    exact ⟨s, by rw [exec_alwaysOnWatchdog, execAlwaysOnWatchdog, hp, decide_eq_true h3]; rfl, rfl⟩
  case watchdog =>
    have hrun : exec .alwaysOnWatchdog s = .next (s.startFw [0]).resetCompute := by
      rw [exec_alwaysOnWatchdog, execAlwaysOnWatchdog, hp, decide_eq_false (Nat.not_lt.mpr h3)]; rfl
    exact ⟨_, hrun, (Lowered.of_firm rfl rfl rfl : Lowered s (s.startFw [0]).lowered 4).booted (k := 2) rfl,
      fun d hd => (s.startFw [0]).resetCompute_time hd⟩
  case heard => exact firmwareHeartbeat_heard h1 h8 hp hr
  case miss => exact heartbeatMiss_counts h1 h8 hp hm
  case restart =>
    obtain ⟨t, hrun, hothers, hcore, hmail⟩ := heartbeatMiss_restarts h1 h8 hp hm h2
    exact ⟨t, hrun, hothers, hcore, by rw [hcore]; rfl, by rw [hcore]; rfl, hmail⟩

end Sys2Proof.Machine

namespace Sys2Proof.Machine

/-! ## Bytes of a message -/

/-- A number that was put at an offset is read back there (R1). -/
theorem numAt_leBytes (pre post : List Byte) (n v : Nat) :
    numAt (pre ++ (leBytes n v ++ post)) pre.length n = v % 256 ^ n := by
  simp [numAt, bytesAt, ← leNat_leBytes, List.take_left']

theorem length_flatMap_leBytes (l : List Word) : (l.flatMap (fun w => leBytes 8 w.toNat)).length = 8 * l.length := by
  induction l with
  | nil => rfl
  | cons w l ih => rw [List.flatMap_cons, List.length_append, ih, leBytes_length, List.length_cons]; omega

/-- The first entries of a list of numbers, 8 bytes each, are the bytes of its first numbers. -/
theorem take_flatMap_leBytes (l : List Word) (n : Nat) :
    (l.flatMap (fun w => leBytes 8 w.toNat)).take (8 * n) = (l.take n).flatMap (fun w => leBytes 8 w.toNat) := by
  induction l generalizing n with
  | nil => simp
  | cons w l ih =>
    cases n with
    | zero => simp
    | succ n =>
      rw [List.flatMap_cons, show 8 * (n + 1) = (leBytes 8 w.toNat).length + 8 * n by simp; omega, List.take_length_add_append,
        ih, List.take_succ_cons, List.flatMap_cons]

/-! ## Responses (R106) -/

theorem numAt_cmdHeader_cmd (flags cmd seq len status : Nat) (auth : Word) (pay : List Byte) (h : cmd < 65536) :
    numAt (cmdHeader flags cmd seq len status auth ++ pay) 4 2 = cmd := by
  have := numAt_leBytes (leBytes 2 0x4C55 ++ leBytes 1 1 ++ leBytes 1 flags)
    (leBytes 2 0 ++ leBytes 8 seq ++ leBytes 4 len ++ leBytes 2 status ++ leBytes 2 0 ++ leBytes 8 auth.toNat ++ pay) 2 cmd
  simpa [cmdHeader, Nat.mod_eq_of_lt h] using this

theorem numAt_cmdHeader_status (flags cmd seq len status : Nat) (auth : Word) (pay : List Byte) (h : status < 65536) :
    numAt (cmdHeader flags cmd seq len status auth ++ pay) 20 2 = status := by
  have := numAt_leBytes (leBytes 2 0x4C55 ++ leBytes 1 1 ++ leBytes 1 flags ++ leBytes 2 cmd ++ leBytes 2 0 ++ leBytes 8 seq ++
    leBytes 4 len) (leBytes 2 0 ++ leBytes 8 auth.toNat ++ pay) 2 status
  simpa [cmdHeader, Nat.mod_eq_of_lt h] using this

/-- The message of a response. -/
def responseOf (h : CmdHdr) (cmd status : Nat) (pay : List Byte) : Msg :=
  let flags := if status = 0 then 1 else 3
  let auth : Word := if h.port = 8 then commandAuth (cmdHeader flags cmd h.seq pay.length status 0 ++ pay) else 0
  { kind := .response, port := h.port, qp := 1, code := cmd, bytes := cmdHeader flags cmd h.seq pay.length status auth ++ pay }

/-- The last message that went out answers a command with a status and a payload. -/
def Answers (h : CmdHdr) (cmd status : Nat) (pay : List Byte) (t : State) : Prop :=
  ∃ m, t.out.getLast? = some m ∧ m.kind = .response ∧ m.port = h.port ∧ m.code = cmd ∧ numAt m.bytes 4 2 = cmd ∧
    numAt m.bytes 20 2 = status ∧ m.bytes.drop 32 = pay

/-- t is u, but for what went out and for what that was charged (R74, R79). -/
def OnlySends (t u : State) : Prop :=
  t = { u with out := t.out, dies := t.dies, power := t.power } ∧
    t.power = { u.power with reqs := t.power.reqs, granted := t.power.granted }

theorem State.respond_def (s : State) (h : CmdHdr) (cmd status : Nat) (pay : List Byte) : s.respond h cmd status pay =
    ({ s with out := s.out ++ [responseOf h cmd status pay] } : State).ethernet h.port (32 + pay.length) := rfl

/-- A response goes out, is charged, and changes nothing else. -/
theorem State.respond_eq (s : State) (h : CmdHdr) (cmd status : Nat) (pay : List Byte) : ∃ ds rq gr,
    s.respond h cmd status pay = { s with
      out := s.out ++ [responseOf h cmd status pay], dies := ds, power := { s.power with reqs := rq, granted := gr } } := by
  obtain ⟨ds, rq, gr, e, -⟩ := State.ethernet_eq { s with out := s.out ++ [responseOf h cmd status pay] } h.port (32 + pay.length)
  exact ⟨ds, rq, gr, by rw [State.respond_def, e]⟩

/-- On a management port a response is charged to no die. -/
theorem State.respond_manage (s : State) {h : CmdHdr} (cmd status : Nat) (pay : List Byte) (hp : 8 ≤ h.port) :
    s.respond h cmd status pay = { s with out := s.out ++ [responseOf h cmd status pay] } := by
  rw [State.respond_def, State.ethernet_manage _ _ hp]

@[simp] theorem State.respond_firm (s : State) (h : CmdHdr) (cmd status : Nat) (pay : List Byte) :
    (s.respond h cmd status pay).firm = s.firm := by
  obtain ⟨_, _, _, e⟩ := s.respond_eq h cmd status pay; rw [e]

/-- A response carries its command, status and payload where R106 puts them. -/
theorem State.respond_answers (s : State) (h : CmdHdr) {cmd status : Nat} (pay : List Byte) (hc : cmd < 65536)
    (hs : status < 65536) : Answers h cmd status pay (s.respond h cmd status pay) := by
  obtain ⟨ds, rq, gr, e⟩ := s.respond_eq h cmd status pay
  refine ⟨responseOf h cmd status pay, by simp [e], rfl, rfl, rfl, ?_, ?_, ?_⟩
  · exact numAt_cmdHeader_cmd _ _ _ _ _ _ _ hc
  · exact numAt_cmdHeader_status _ _ _ _ _ _ _ hs
  · exact List.drop_left' (by simp [cmdHeader])

/-- A charge sends nothing: only dies and the Float's requests and grants differ. -/
theorem State.ethernet_onlySends (s : State) (p n : Nat) : OnlySends (s.ethernet p n) s := by
  obtain ⟨_, _, _, e, -⟩ := s.ethernet_eq p n
  rw [e]
  exact ⟨rfl, rfl⟩

theorem OnlySends.respond {t u : State} (ho : OnlySends t u) (h : CmdHdr) (cmd status : Nat) (pay : List Byte) :
    OnlySends (t.respond h cmd status pay) u := by
  obtain ⟨ht, hp⟩ := ho
  obtain ⟨_, _, _, e⟩ := t.respond_eq h cmd status pay
  rw [e]
  constructor
  · rw [ht]
  · rw [hp]

/-- A free value drawn on the way is drawn from u too. -/
theorem OnlySends.draw {t u : State} (ho : OnlySends t u) :
    OnlySends { t with freeNo := t.freeNo + 1 } { u with freeNo := u.freeNo + 1 } := by
  obtain ⟨ht, hp⟩ := ho
  constructor
  · rw [ht]
  · exact hp

/-! ## Framing (R106, R118) -/

/-- A command that its port takes, on a device that has not stopped. -/
structure Heard (s : State) (h : CmdHdr) (cmd : Nat) : Prop where
  known : h.unknown = none
  heard : s.hears h cmd = true
  sound : cmdOk h = true
  live  : s.firm.stopped = false

/-- The device once it has received a command, which a main port charges (R74). -/
def State.received (s : State) (h : CmdHdr) : State := s.ethernet h.port (32 + h.payload.length)

theorem State.received_manage (s : State) {h : CmdHdr} (hp : 8 ≤ h.port) : s.received h = s := s.ethernet_manage _ hp

theorem State.received_onlySends (s : State) (h : CmdHdr) : OnlySends (s.received h) s := s.ethernet_onlySends _ _

@[simp] theorem State.received_firm (s : State) (h : CmdHdr) : (s.received h).firm = s.firm := s.ethernet_firm _ _

section
variable {s : State} {h : CmdHdr} {cmd : Nat} {ports : Nat → Bool} {always : Bool} {f : State → State × Nat × List Byte}

/-- A command on a port that accepts it has its effect and is answered with the status that this gives. -/
theorem onCommand_runs (hd : Heard s h cmd) (hp : ports h.port = true) {t : State} {status : Nat} {pay : List Byte}
    (hf : f (s.received h) = (t, status, pay)) (hs : status < 65536) :
    onCommand s h cmd ports always f = .next (t.respond h cmd status pay) := by
  have hne : status ≠ unanswered := Nat.ne_of_lt hs
  rw [State.received] at hf
  simp [onCommand, hd.known, hd.heard, hd.sound, hd.live, hp, hf, hne, State.holdFor]

/-- A command that gives no status yet is not answered. -/
theorem onCommand_unanswered (hd : Heard s h cmd) (hp : ports h.port = true) {t : State} {pay : List Byte}
    (hf : f (s.received h) = (t, unanswered, pay)) : onCommand s h cmd ports always f = .next t := by
  rw [State.received] at hf
  simp [onCommand, hd.known, hd.heard, hd.sound, hd.live, hp, hf]

/-- A command on a port that does not accept it is answered with status 3. -/
theorem onCommand_barred (hd : Heard s h cmd) (hp : ports h.port = false) :
    onCommand s h cmd ports always f = .next ((s.received h).respond h cmd 3 []) := by
  simp [onCommand, State.received, hd.known, hd.heard, hd.sound, hd.live, hp]

/-- A stopped device answers its main ports with status 4 (R15). -/
theorem onCommand_stopped (hu : h.unknown = none) (hh : s.hears h cmd = true) (hok : cmdOk h = true)
    (hst : s.firm.stopped = true) (hp : h.port < 8) :
    onCommand s h cmd ports false f = .next ((s.received h).respond h cmd 4 []) := by
  simp [onCommand, State.received, hu, hh, hok, hst, hp]

end

theorem managePort_of {p : Nat} (h : p = 8 ∨ p = 9) : managePort p = true := by simpa [managePort] using h

theorem managePort_main {p : Nat} (h : p < 8) : managePort p = false := by simp [managePort]; omega

/-! ## Telemetry and attestation (R31, R118, R422) -/

theorem exec_telem (h : CmdHdr) (block : Nat) (s : State) : exec (.telem h block) s = execTelem h block s := rfl
theorem exec_attest (h : CmdHdr) (s : State) : exec (.attest h) s = execAttest h s := rfl

/-- What a charge changes is in no telemetry block. -/
theorem State.telemWords_received (s : State) (h : CmdHdr) (block : Nat) :
    (s.received h).telemWords block = s.telemWords block := by
  obtain ⟨ds, _, _, e, hc⟩ := s.ethernet_eq h.port (32 + h.payload.length)
  have hcharge : ∀ d, ((s.received h).die d).charge = (s.die d).charge := fun d => by rw [State.received, e]; exact hc d
  simp only [State.telemWords, hcharge, State.received_firm]
  rw [State.received, e]

@[simp] theorem telemBlock_length (known : List Word) (draw : Nat) : (telemBlock known draw).length = 4096 := by
  rw [telemBlock, length_flatMap_leBytes, List.length_map, List.length_range]

/-- A telemetry block begins with the words that the model holds. -/
theorem take_telemBlock (known : List Word) (draw : Nat) (h : known.length ≤ 512) :
    (telemBlock known draw).take (8 * known.length) = known.flatMap (fun w => leBytes 8 w.toNat) := by
  rw [telemBlock, take_flatMap_leBytes]
  congr 1
  apply List.ext_getElem
  · simp [h]
  · intro i h1 h2
    simp [h2]

theorem telem_reports {s : State} {h : CmdHdr} {block : Nat} (hd : Heard s h 0x40) (hb : block ≤ 10) :
    Completes (.telem h block) s (fun t => OnlySends t { s with freeNo := s.freeNo + 1 } ∧
      ∃ pay, Answers h 0x40 0 pay t ∧ pay.length = 4096 ∧ ((s.telemWords block).length ≤ 512 →
        pay.take (8 * (s.telemWords block).length) = (s.telemWords block).flatMap (fun w => leBytes 8 w.toNat))) := by
  rw [Completes, exec_telem]
  refine ⟨_, onCommand_runs hd rfl (if_neg (Nat.not_lt.mpr hb)) (by decide), (s.received_onlySends h).draw.respond .., _,
    State.respond_answers _ _ _ (by decide) (by decide), telemBlock_length .., ?_⟩
  rw [State.telemWords_received]
  exact take_telemBlock _ _

theorem telem_refuses {s : State} {h : CmdHdr} {block : Nat} (hd : Heard s h 0x40) (hb : 10 < block) :
    Completes (.telem h block) s (fun t => Answers h 0x40 2 [] t ∧ OnlySends t s) := by
  rw [Completes, exec_telem]
  exact ⟨_, onCommand_runs hd rfl (if_pos hb) (by decide), State.respond_answers _ _ _ (by decide) (by decide),
    (s.received_onlySends h).respond ..⟩

/-- What is signed of an attestation report does not depend on what a charge changes. -/
theorem State.report31_received (s : State) (h : CmdHdr) (nonce : List Byte) :
    (s.received h).report31 nonce = s.report31 nonce := by
  simp only [State.report31, State.received_firm]

@[simp] theorem identitySigns_length (report : List Byte) (draw : Nat) : (identitySigns report draw).length = 3373 := by
  simp [identitySigns]

theorem attest_reports {s : State} {h : CmdHdr} (hd : Heard s h 0x44) (hp : h.port < 8 ∨ h.port = 8)
    (hl : h.payload.length = 32) : Completes (.attest h) s (fun t => OnlySends t { s with freeNo := s.freeNo + 1 } ∧
      ∃ sig, sig.length = 3373 ∧ Answers h 0x44 0 (s.report31 h.payload ++ sig) t) := by
  rw [Completes, exec_attest, ← State.report31_received s h]
  exact ⟨_, onCommand_runs hd (by simpa [mainPort] using hp) (if_neg (fun hne => hne hl)) (by decide),
    (s.received_onlySends h).draw.respond .., _, identitySigns_length ((s.received h).report31 h.payload) (s.received h).freeNo,
    State.respond_answers _ _ _ (by decide) (by decide)⟩

/-! ## FLCFG (R86) -/

theorem exec_flcfg (h : CmdHdr) (s : State) : exec (.flcfg h) s = execFlcfg h s := rfl

theorem flcfg_sets {s : State} {h : CmdHdr} (hd : Heard s h 0x42) (hp : h.port = 8 ∨ h.port = 9) (hl : h.payload.length = 8)
    (hv : flcfgOk (leNat h.payload) = true) : Completes (.flcfg h) s (fun t => Answers h 0x42 0 [] t ∧ t = { s with
      out := t.out, power := { s.power with flcfg := BitVec.ofNat 64 (leNat h.payload), limit := none } }) := by
  have h8 : 8 ≤ h.port := by omega
  rw [Completes, exec_flcfg]
  refine ⟨_, onCommand_runs hd (managePort_of hp) (if_neg (by simp [hl, hv])) (by decide),
    State.respond_answers _ _ _ (by decide) (by decide), ?_⟩
  rw [State.respond_manage _ _ _ _ h8, State.received_manage _ h8]

theorem flcfg_refuses {s : State} {h : CmdHdr} (hd : Heard s h 0x42) (hp : h.port = 8 ∨ h.port = 9)
    (hv : flcfgOk (leNat h.payload) = false) :
    Completes (.flcfg h) s (fun t => Answers h 0x42 2 [] t ∧ t = { s with out := t.out }) := by
  have h8 : 8 ≤ h.port := by omega
  rw [Completes, exec_flcfg]
  refine ⟨_, onCommand_runs hd (managePort_of hp) (if_pos (by simp [hv])) (by decide),
    State.respond_answers _ _ _ (by decide) (by decide), ?_⟩
  rw [State.respond_manage _ _ _ _ h8, State.received_manage _ h8]

theorem flcfg_barred {s : State} {h : CmdHdr} (hd : Heard s h 0x42) (hp : h.port < 8) :
    Completes (.flcfg h) s (fun t => Answers h 0x42 3 [] t ∧ OnlySends t s) := by
  rw [Completes, exec_flcfg]
  exact ⟨_, onCommand_barred hd (managePort_main hp), State.respond_answers _ _ _ (by decide) (by decide),
    (s.received_onlySends h).respond ..⟩

theorem flcfg_stopped {s : State} {h : CmdHdr} (hu : h.unknown = none) (hh : s.hears h 0x42 = true) (hok : cmdOk h = true)
    (hst : s.firm.stopped = true) (hp : h.port < 8) :
    Completes (.flcfg h) s (fun t => Answers h 0x42 4 [] t ∧ OnlySends t s) := by
  rw [Completes, exec_flcfg]
  exact ⟨_, onCommand_stopped hu hh hok hst hp, State.respond_answers _ _ _ (by decide) (by decide),
    (s.received_onlySends h).respond ..⟩

/-! ## RESET (R15, R118, R422) -/

theorem exec_resetComputeSide (h : CmdHdr) (s : State) : exec (.resetComputeSide h) s = execResetComputeSide h s := rfl
theorem exec_resetFull (h : CmdHdr) (s : State) : exec (.resetFull h) s = execResetFull h s := rfl

/-- RESET with code 0 resets the compute side at once where no record is on its way to host memory (R118). -/
theorem resetBy_zero {h : CmdHdr} {s : State} (hc : leNat h.payload = 0) (ho : s.deviceEnd.recordsOut = false) :
    resetBy h s = (s.deviceEnd.resetCompute, 0, []) := by
  simp [resetBy, hc, ho]

/-- RESET with code 0 waits for the records on their way, the device being stopped until then (R118). -/
theorem resetBy_zero_waits {h : CmdHdr} {s : State} (hc : leNat h.payload = 0) (ho : s.deviceEnd.recordsOut = true) :
    resetBy h s =
      ({ s.deviceEnd with firm := { s.deviceEnd.firm with resetting := some h, stopped := true } }, unanswered, []) := by
  simp [resetBy, hc, ho]

theorem resetBy_one {h : CmdHdr} {s : State} (hc : leNat h.payload = 1) : resetBy h s = (s.powerUp, 0, []) := by
  simp [resetBy, hc]

theorem resetBy_other {h : CmdHdr} {s : State} (hc : 1 < leNat h.payload) : resetBy h s = (s, 2, []) := by
  unfold resetBy
  split
  · omega
  · omega
  · rfl

theorem Cleared.respond {t : State} (ht : Cleared t) (h : CmdHdr) (cmd status : Nat) (pay : List Byte) :
    Cleared (t.respond h cmd status pay) := by
  obtain ⟨_, _, _, e⟩ := t.respond_eq h cmd status pay
  rw [e]
  exact ht

section
variable {s : State} {h : CmdHdr} (hd : Heard s h 0x41) (hp : h.port = 8 ∨ h.port = 9)
include hd hp

/-- RESET of the compute side leaves it as it comes up; the rollback counters stand (R30, R118). -/
theorem resetComputeSide_resets (hc : leNat h.payload = 0) (ho : s.deviceEnd.recordsOut = false) :
    Completes (.resetComputeSide h) s (fun t => Cleared t ∧ Answers h 0x41 0 [] t ∧ t.firm.rollback = s.firm.rollback) := by
  have hs := s.received_manage (h := h) (by omega)
  obtain ⟨hclear, -, -, hroll, -⟩ := s.deviceEnd.resetCompute_booted
  have hend : s.deviceEnd.ownFirm.rollback = s.ownFirm.rollback := congrArg Firm.rollback s.deviceEnd_ownFirm
  rw [Completes, exec_resetComputeSide]
  refine ⟨_, onCommand_runs hd (managePort_of hp) (by rw [hs]; exact resetBy_zero hc ho) (by decide), hclear.respond ..,
    State.respond_answers _ _ _ (by decide) (by decide), ?_⟩
  rw [State.respond_firm]
  exact hroll.trans hend

/-- RESET of the compute side waits for records on their way to host memory (R118). -/
theorem resetComputeSide_waits (hc : leNat h.payload = 0) (ho : s.deviceEnd.recordsOut = true) :
    Completes (.resetComputeSide h) s (fun t => t.firm.resetting = some h ∧ t.firm.stopped = true) := by
  have hs := s.received_manage (h := h) (by omega)
  rw [Completes, exec_resetComputeSide]
  exact ⟨_, onCommand_unanswered hd (managePort_of hp) (by rw [hs]; exact resetBy_zero_waits hc ho), rfl, rfl⟩

theorem resetComputeSide_refuses (hc : 1 < leNat h.payload) :
    Completes (.resetComputeSide h) s (fun t => Answers h 0x41 2 [] t ∧ OnlySends t s) := by
  rw [Completes, exec_resetComputeSide]
  exact ⟨_, onCommand_runs hd (managePort_of hp) (resetBy_other hc) (by decide),
    State.respond_answers _ _ _ (by decide) (by decide), (s.received_onlySends h).respond ..⟩

theorem resetFull_refuses (hc : 1 < leNat h.payload) :
    Completes (.resetFull h) s (fun t => Answers h 0x41 2 [] t ∧ OnlySends t s) := by
  rw [Completes, exec_resetFull]
  exact ⟨_, onCommand_runs hd (managePort_of hp) (resetBy_other hc) (by decide),
    State.respond_answers _ _ _ (by decide) (by decide), (s.received_onlySends h).respond ..⟩

/-- RESET of all of the device is as though 48 V were applied again (R118). -/
theorem resetFull_resets (hc : leNat h.payload = 1) :
    Completes (.resetFull h) s (fun t => Cleared t ∧ Answers h 0x41 0 [] t ∧ t.firm.rollback = s.firm.rollback) := by
  have hs := s.received_manage (h := h) (by omega)
  obtain ⟨hclear, -, -, hroll, -⟩ := s.powerUp_booted
  rw [Completes, exec_resetFull]
  refine ⟨_, onCommand_runs hd (managePort_of hp) (by rw [hs]; exact resetBy_one hc) (by decide), hclear.respond ..,
    State.respond_answers _ _ _ (by decide) (by decide), ?_⟩
  rw [State.respond_firm, hroll]

end

/-! ## FWLOAD (R29, R30, R118) -/

theorem exec_fwload (h : CmdHdr) (core : Nat) (final : Bool) (s : State) :
    exec (.fwload h core final) s = execFwload h core final s := rfl

/-- The image that a core's buffer holds with a chunk. -/
def State.loaded (s : State) (h : CmdHdr) (core : Nat) : List Byte :=
  putChunk (tblGet [] s.firm.load core) (numAt h.payload 0 4) (h.payload.drop 4)

/-- The buffers of images of the firmware cores changed. -/
def State.setLoad (s : State) (l : Tbl (List Byte)) : State := { s with firm := { s.firm with load := l } }

/-- An accepted image's version is not below its core's rollback counter (R30). -/
theorem Firm.rollback_le_of_accepts {f : Firm} {core : Nat} {b : List Byte} (h : f.accepts core b = true) :
    tblGet 0 f.rollback core ≤ numAt b 8 4 := by
  simp only [Firm.accepts, Bool.and_eq_true, decide_eq_true_eq] at h
  obtain ⟨⟨⟨-, hle⟩, -⟩, -⟩ := h
  exact hle

/-- Loading an image raises its core's rollback counter and lowers none (R30). -/
theorem State.loadImage_rollback (s : State) (core : Nat) (b : List Byte) (c : Nat) :
    tblGet 0 (s.loadImage core b).firm.rollback c =
      if core = c then max (numAt b 8 4) (tblGet 0 s.firm.rollback core) else tblGet 0 s.firm.rollback c :=
  tblGet_tblPut _ _ _ _ _

/-- An image that is loaded runs (R29). -/
theorem State.loadImage_core (s : State) (core : Nat) (b : List Byte) :
    (s.loadImage core b).firm.core core = (s.firm.core core).run b := tblGet_tblPut_self _ _ _ _

section
variable {s : State} {h : CmdHdr} {core : Nat} (hd : Heard s h 0x43) (hp : h.port = 8) (hc : core < 8)
  (h4 : 4 ≤ h.payload.length) (hl : h.payload.length ≤ 8188)
include hd hp hc h4 hl

/-- A chunk that is not the final one is put into its core's buffer. -/
theorem fwload_chunk : exec (.fwload h core false) s = .next
    ((s.setLoad (tblPut s.firm.load core (s.loaded h core))).respond h 0x43 0 []) := by
  have hs := s.received_manage (h := h) (by omega)
  have hgo : (decide (8 ≤ core) || decide (h.payload.length < 4) || decide (8188 < h.payload.length)) = false := by simp; omega
  rw [exec_fwload]
  refine onCommand_runs hd (by simp [hp]) ?_ (by decide)
  rw [hs, hgo]
  rfl

/-- At the final chunk the image is checked: an accepted one is loaded, and a rejection answers status 5. -/
theorem fwload_final : exec (.fwload h core true) s = .next
    (if s.firm.accepts core (s.loaded h core) then
      ((s.setLoad (tblDel s.firm.load core)).loadImage core (s.loaded h core)).respond h 0x43 0 []
     else (s.setLoad (tblDel s.firm.load core)).respond h 0x43 5 []) := by
  have hs := s.received_manage (h := h) (by omega)
  have hgo : (decide (8 ≤ core) || decide (h.payload.length < 4) || decide (8188 < h.payload.length)) = false := by simp; omega
  rw [exec_fwload]
  cases hacc : s.firm.accepts core (s.loaded h core) with
  | true =>
    refine onCommand_runs hd (by simp [hp]) ?_ (by decide)
    rw [hs, hgo]
    exact if_pos hacc
  | false =>
    refine onCommand_runs hd (by simp [hp]) ?_ (by decide)
    rw [hs, hgo]
    exact if_neg (Bool.eq_false_iff.mp hacc)

/-- What FWLOAD leaves: only the final chunk changes what runs, and no rollback counter falls (R29, R30, R118). -/
def Loads (s : State) (h : CmdHdr) (core : Nat) (final : Bool) (t : State) : Prop :=
  t.groups = s.groups ∧ t.mem = s.mem ∧ (∀ c, tblGet 0 s.firm.rollback c ≤ tblGet 0 t.firm.rollback c) ∧
    (final = false → Answers h 0x43 0 [] t ∧ tblGet [] t.firm.load core = s.loaded h core ∧ t.firm.cores = s.firm.cores) ∧
    (final = true → tblFind t.firm.load core = none ∧
      if s.firm.accepts core (s.loaded h core) then Answers h 0x43 0 [] t ∧
        (t.firm.core core).secver = numAt (s.loaded h core) 8 4 ∧
          tblGet 0 t.firm.rollback core = numAt (s.loaded h core) 8 4
      else Answers h 0x43 5 [] t ∧ t.firm.cores = s.firm.cores ∧ t.firm.rollback = s.firm.rollback)

theorem fwload_loads (final : Bool) : Completes (.fwload h core final) s (Loads s h core final) := by
  have h8 : 8 ≤ h.port := by omega
  cases final with
  | false =>
    refine ⟨_, fwload_chunk hd hp hc h4 hl, ?_⟩
    have hanswer := (s.setLoad (tblPut s.firm.load core (s.loaded h core))).respond_answers h (cmd := 0x43) (status := 0) []
      (by decide) (by decide)
    rw [State.respond_manage _ _ _ _ h8] at hanswer ⊢
    exact ⟨rfl, rfl, fun _ => Nat.le_refl _, fun _ => ⟨hanswer, tblGet_tblPut_self _ _ _ _, rfl⟩, nofun⟩
  | true =>
    refine ⟨_, fwload_final hd hp hc h4 hl, ?_⟩
    have hgone : tblFind (tblDel s.firm.load core) core = none := by rw [tblFind_tblDel, if_pos rfl]
    cases hacc : s.firm.accepts core (s.loaded h core) with
    | false =>
      have hanswer := (s.setLoad (tblDel s.firm.load core)).respond_answers h (cmd := 0x43) (status := 5) [] (by decide) (by decide)
      rw [if_neg Bool.false_ne_true]
      rw [State.respond_manage _ _ _ _ h8] at hanswer ⊢
      refine ⟨rfl, rfl, fun _ => Nat.le_refl _, nofun, fun _ => ⟨hgone, ?_⟩⟩
      rw [hacc]
      exact ⟨hanswer, rfl, rfl⟩
    | true =>
      have hroll := (s.setLoad (tblDel s.firm.load core)).loadImage_rollback core (s.loaded h core)
      have hanswer := ((s.setLoad (tblDel s.firm.load core)).loadImage core (s.loaded h core)).respond_answers h (cmd := 0x43)
        (status := 0) [] (by decide) (by decide)
      rw [if_pos rfl]
      rw [State.respond_manage _ _ _ _ h8] at hanswer ⊢
      refine ⟨rfl, rfl, fun c => ?_, nofun, fun _ => ⟨hgone, ?_⟩⟩
      · refine le_of_le_of_eq ?_ (hroll c).symm
        split
        · next hc => subst hc; exact Nat.le_max_right _ _
        · exact Nat.le_refl _
      · rw [hacc, if_pos rfl]
        exact ⟨hanswer, congrArg FwCore.secver (State.loadImage_core _ core _),
          (hroll core).trans ((if_pos rfl).trans (Nat.max_eq_left (Firm.rollback_le_of_accepts hacc)))⟩

end

/-- Settles O55, a clause by each command's own lemma: what a command sends and what its effect is. -/
theorem managementCommands : Obligations.ManagementCommands := by
  intro s h
  refine ⟨fun block hd hb => telem_reports ?_ hb, fun block hd hb => telem_refuses ?_ hb,
    fun hd hp hc => ⟨resetComputeSide_resets ?_ hp hc, resetComputeSide_waits ?_ hp hc⟩,
    fun hd hp hc => ⟨resetFull_refuses ?_ hp hc, resetComputeSide_refuses ?_ hp hc⟩, fun hd hp hc => resetFull_resets ?_ hp hc,
    fun hd hp hl => ⟨flcfg_sets ?_ hp hl, flcfg_refuses ?_ hp⟩, fun hd hp => flcfg_barred ?_ hp,
    fun hu hh hok hst hp => flcfg_stopped hu hh hok hst hp,
    fun core final hd hp hc h4 hl => fwload_loads ?_ hp hc h4 hl final, fun hd hp hl => attest_reports ?_ hp hl⟩
  all_goals exact ⟨hd.1, hd.2.1, hd.2.2.1, hd.2.2.2⟩

end Sys2Proof.Machine

namespace Sys2Proof.Machine

/-! ## One step is one turn (R76, R145, R146, R267) -/

/-- A step takes the first turn of the agenda, unless it is a command that another one holds up (R106). -/
theorem step_agenda {s : State} {t : Turn} {rest : List Turn} (ha : s.agenda = t :: rest)
    (hc : t.isCommand = false ∨ (s.unmaps = [] ∧ s.firm.resetting = none)) : step s = take t { s with agenda := rest } := by
  have hmay : (!t.isCommand || (s.unmaps.isEmpty && s.firm.resetting.isNone)) = true := by
    rcases hc with hc | ⟨hu, hr⟩
    · rw [hc]; rfl
    · rw [hu, hr]; exact Bool.or_true _
  simp only [step, ha, firstTurn, hmay, if_true]

/-- What becomes, in outcome o, of an instruction of n bytes at `a` whose effect from u is r: it waits, it is not charged, or
it has its effect with its grant or asks for it (R76, R145). -/
def Settles (u : State) (h : Nat) (g : Group) (lane : Bool) (a n price : Nat) (r o : Out) : Prop :=
  (∀ t, r = .next t → t.mark = .waiting → o = .next (t.notReady h lane)) ∧
  (∀ t, r = .next t → t.mark = .uncharged → o = .next (t.spend h lane a n)) ∧
  (∀ t, r = .next t → t.mark = .issued → g.granted lane = true → o = .next (t.spend h lane a n)) ∧
  (∀ t, r = .next t → t.mark = .issued → g.granted lane = false →
    o = .next (if price = 0 then u.issueFree t h lane a n (u.rivals h lane) else u.askPort h lane price (u.rivals h lane))) ∧
  (∀ e, r = .fault e → o = .fault e) ∧ (∀ e, r = .refused e → o = .refused e)

theorem State.settle_settles {u : State} {h : Nat} {g : Group} (hg : tblFind u.groups h = some g) (lane : Bool)
    (a n price : Nat) (r : Out) : Settles u h g lane a n price r (u.settle h lane a n price (u.rivals h lane) r) := by
  have hgroup : u.group h = g := by rw [State.group, tblGet, hg]; rfl
  refine ⟨?wait, ?free, ?granted, ?asks, ?fault, ?refused⟩
  case wait => rintro t rfl hm; simp only [State.settle, hm]
  case free => rintro t rfl hm; simp only [State.settle, hm]
  case granted => rintro t rfl hm hgr; simp only [State.settle, hm, hgroup, hgr, if_true]
  case asks => rintro t rfl hm hgr; simp only [State.settle, hm, hgroup, hgr, Bool.false_eq_true, if_false]
  case fault => rintro e rfl; rfl
  case refused => rintro e rfl; rfl

/-- What becomes, in outcome o, of a turn whose fetch found no code: a fault is reported at its address against the instruction
at `a`, and a page without backing is waited for (R188). -/
def FetchStops (u : State) (h : Nat) (lane : Bool) (a : Nat) (r : Fetched) (o : Out) : Prop :=
  (∀ cause x, r = .fault cause x → o = .next (u.reportGroup h cause x lane a 0xFF)) ∧
  (∀ b x, r = .unbacked b x → o = .next (u.awaitFetch h lane a b x))

/-- The turn of either stream of group h from u: its PC, whether it may issue, what its fetch found, and of words of code their
length and what they do, with its price. -/
def streamTurn (u : State) (h : Nat) (lane : Bool) (a : Nat) (ready : Bool) (r : Fetched) (len : Nat → Nat)
    (run : Nat → Nat × Out) : Out :=
  if !ready || u.fetchShut h a then .next u
  else
    match r with
    | .fault cause x => .next (u.reportGroup h cause x lane a 0xFF)
    | .unbacked b x => .next (u.awaitFetch h lane a b x)
    | .code w => u.settle h lane a (len w) (run w).1 (u.rivals h lane) (run w).2

section
variable {u : State} {h : Nat} {lane : Bool} {a : Nat} {ready : Bool} {r : Fetched} {len : Nat → Nat}
  {run : Nat → Nat × Out} {o : Out} (ho : o = streamTurn u h lane a ready r len run)
include ho

theorem streamTurn_idle (hi : ready = false ∨ u.fetchShut h a = true) : o = .next u := by
  refine ho.trans (if_pos ?_)
  rcases hi with hi | hi
  · rw [hi]; rfl
  · rw [hi]; exact Bool.or_true _

theorem streamTurn_stops (hr : ready = true) (hs : u.fetchShut h a = false) : FetchStops u h lane a r o := by
  subst ho hr
  constructor
  · rintro cause x rfl; simp [streamTurn, hs]
  · rintro b x rfl; simp [streamTurn, hs]

theorem streamTurn_code {g : Group} (hg : tblFind u.groups h = some g) (hr : ready = true) (hs : u.fetchShut h a = false)
    {w : Nat} (hw : r = .code w) : Settles u h g lane a (len w) (run w).1 (run w).2 o := by
  subst hr hw
  have hturn : o = u.settle h lane a (len w) (run w).1 (u.rivals h lane) (run w).2 := by simp [ho, streamTurn, hs]
  rw [hturn]
  exact State.settle_settles hg ..

end

/-! ### The turns of the two streams -/

section
variable {s : State} {h : Nat} {g : Group}

theorem scalarTurn_eq (hg : tblFind s.groups h = some g) :
    let u := { s with cur := h, mark := .issued }
    scalarTurn h s = streamTurn u h false g.pc (u.scalarReady g) (u.fetchScalar g.pc)
      (fun w => if twoWord (fld w 0 32) then 8 else 4) (fun w => scalarRun h w u) := by
  simp only [scalarTurn, hg]
  rfl

theorem laneTurn_eq (hg : tblFind s.groups h = some g) :
    let u := { s with cur := h, mark := .issued }
    laneTurn h s = streamTurn u h true g.lanePc (u.laneReady g) (u.fetchLane g.lanePc)
      (fun _ => 12) (fun w => laneStep h w g u) := by
  simp only [laneTurn, hg]
  rfl

theorem scalarRun_ok {w : Nat} {i : Instr} (hd : decodeScalar (fld w 0 32) (fld w 32 32) = .ok i) :
    scalarRun h w s = (s.scalarPrice i, exec i s) := by simp only [scalarRun, hd]

theorem scalarRun_error {w : Nat} {e : DecodeError} (hd : decodeScalar (fld w 0 32) (fld w 32 32) = .error e) :
    scalarRun h w s = (0, .next (s.trap h { cause := 0x01 })) := by simp only [scalarRun, hd]

/-- A stream that stepped over its breakpoint, or has no lane to act on, meets none (R248). -/
theorem breakpoint_none (hb : g.bskip = true ∨ g.act = 0 ∨ g.breakAt g.lanePc = none) :
    (if g.bskip || g.act == 0 then none else g.breakAt g.lanePc) = none := by
  rcases hb with hb | hb | hb <;> simp [hb]

theorem breakpoint_some {k : Nat} (hskip : g.bskip = false) (hact : g.act ≠ 0) (hk : g.breakAt g.lanePc = some k) :
    (if g.bskip || g.act == 0 then none else g.breakAt g.lanePc) = some k := by
  rw [hskip, beq_false_of_ne hact, hk]; rfl

theorem laneStep_break {w k : Nat} (hskip : g.bskip = false) (hact : g.act ≠ 0) (hk : g.breakAt g.lanePc = some k) :
    laneStep h w g s = (0, .next { s.trap h {
      cause := 0x0B, stream := true, code := k, mask := g.live &&& ~~~ g.act, bskip := true } with mark := .uncharged }) := by
  simp only [laneStep, breakpoint_some hskip hact hk]

theorem laneStep_ok {w : Nat} {i : Instr} (hb : g.bskip = true ∨ g.act = 0 ∨ g.breakAt g.lanePc = none)
    (hd : decodeLane w = .ok i) : laneStep h w g s = (s.lanePrice g w, exec i s) := by
  simp only [laneStep, breakpoint_none hb, hd]

theorem laneStep_error {w : Nat} {e : DecodeError} (hb : g.bskip = true ∨ g.act = 0 ∨ g.breakAt g.lanePc = none)
    (hd : decodeLane w = .error e) : laneStep h w g s = if g.lanes (laneFields w) ≠ 0 then
      (0, .next (s.trap h { cause := 0x01, stream := true, mask := g.lanes (laneFields w) }))
    else (s.price (priceIndex 0 0 0), .next (s.put g.laneNext)) := by
  simp only [laneStep, breakpoint_none hb, hd]

end

/-! ## What a fetch finds (R180, R188, R267) -/

section
variable {s : State} {a b x cause : Nat} {p : Page} {c : Want}

theorem State.fetchWord_unmapped (h : pageAt s.pages (a % 2 ^ 56) = none) : s.fetchWord c a =
    .fault (if a % 2 ^ 56 < 0xF0 * 2 ^ 48 then 0x10 else 0x11) (a % 2 ^ 56) := by
  by_cases hx : a % 2 ^ 56 < 0xF0 * 2 ^ 48
  · simp only [State.fetchWord, h, if_pos hx, if_neg (Nat.not_le.mpr hx)]
  · simp only [State.fetchWord, h, if_neg hx, if_pos (Nat.not_lt.mp hx)]

theorem State.fetchWord_forbidden (h : pageAt s.pages (a % 2 ^ 56) = some (b, p)) (hp : p.allows c = false) :
    s.fetchWord c a = .fault 0x11 (a % 2 ^ 56) := by
  simp only [State.fetchWord, h]
  simp [hp]

theorem State.fetchWord_unbacked (h : pageAt s.pages (a % 2 ^ 56) = some (b, p)) (hp : p.allows c = true) (hk : p.kind = .hbm)
    (hb : p.backed = false) : s.fetchWord c a = .unbacked b (a % 2 ^ 56) := by
  simp only [State.fetchWord, h]
  simp [hp, hk, hb]

theorem State.fetchWord_backed (h : pageAt s.pages (a % 2 ^ 56) = some (b, p)) (hp : p.allows c = true) (hk : p.kind = .hbm)
    (hb : p.backed = true) : s.fetchWord c a = .code (leNat (s.homeRead (a % 2 ^ 56) 4)) := by
  simp only [State.fetchWord, h]
  simp [hp, hk, hb]

theorem State.fetchScalar_of_fault (h : s.fetchWord .code a = .fault cause x) : s.fetchScalar a = .fault cause x := by
  simp only [State.fetchScalar, h]

theorem State.fetchScalar_of_unbacked (h : s.fetchWord .code a = .unbacked b x) : s.fetchScalar a = .unbacked b x := by
  simp only [State.fetchScalar, h]

theorem State.fetchScalar_of_code {w : Nat} (h : s.fetchWord .code a = .code w) (ht : twoWord w = false) :
    s.fetchScalar a = .code w := by
  simp only [State.fetchScalar, h, ht, Bool.false_eq_true, if_false]

theorem State.fetchLane_of_fault (h : s.fetchWord .laneCode a = .fault cause x) : s.fetchLane a = .fault cause x := by
  simp only [State.fetchLane, State.fetchWords, h]

end

/-- Settles O56: a step is the first turn, a stream's turn the same whichever stream takes it, and what its words do is split
by what they decode to. -/
theorem stepRunsDecoded : Obligations.StepRunsDecoded := by
  intro s rest h g u turns fetches
  refine ⟨fun ha hg => ?scalar, fun ha hg => ?lane, fun i ha hc => step_agenda ha hc, fun a => ?fetch⟩
  case scalar =>
    have hstep := (step_agenda ha (.inl rfl)).trans (scalarTurn_eq (s := { s with agenda := rest }) hg)
    refine ⟨streamTurn_idle hstep, fun hr hs => ⟨streamTurn_stops hstep hr hs, fun w hw => ?_⟩⟩
    have hcode := streamTurn_code hstep hg hr hs hw
    refine ⟨fun i hd => ?_, fun e hd => ?_⟩
    · rw [scalarRun_ok hd] at hcode; exact hcode
    · rw [scalarRun_error hd] at hcode; exact hcode
  case lane =>
    have hstep := (step_agenda ha (.inl rfl)).trans (laneTurn_eq (s := { s with agenda := rest }) hg)
    refine ⟨streamTurn_idle hstep, fun hr hs => ⟨streamTurn_stops hstep hr hs, fun w hw => ?_⟩⟩
    have hcode := streamTurn_code hstep hg hr hs hw
    refine ⟨fun k hskip hact hk => ?_, fun hb => ⟨fun i hd => ?_, fun e hd => ⟨fun hl => ?_, fun hl => ?_⟩⟩⟩
    · rw [laneStep_break hskip hact hk] at hcode
      obtain ⟨-, huncharged, -⟩ := hcode
      exact huncharged _ rfl rfl
    · rw [laneStep_ok hb hd] at hcode; exact hcode
    · rw [laneStep_error hb hd, if_pos hl] at hcode; exact hcode
    · rw [laneStep_error hb hd, if_neg (not_not_intro hl)] at hcode; exact hcode
  case fetch =>
    refine ⟨fun hp => State.fetchScalar_of_fault (State.fetchWord_unmapped hp), fun b p hp => ⟨fun hf => ?_, fun hf => ?_,
      fun hf hk hb => ?_, fun w hf hk hb hw ht => ?_⟩⟩
    · exact State.fetchScalar_of_fault (State.fetchWord_forbidden hp hf)
    · exact State.fetchLane_of_fault (State.fetchWord_forbidden hp hf)
    · exact State.fetchScalar_of_unbacked (State.fetchWord_unbacked hp hf hk hb)
    · subst hw
      exact State.fetchScalar_of_code (State.fetchWord_backed hp hf hk hb) ht

end Sys2Proof.Machine

namespace Sys2Proof.Machine

/-! ## Buckets and their requests (R78 to R81) -/

theorem State.core_updCore_self (s : State) (c : Nat) (f : Core → Core) : (s.updCore c f).core c = f (s.core c) :=
  tblGet_tblPut_self _ _ _ _

theorem State.die_updDie_self (s : State) (d : Nat) (f : Die → Die) : (s.updDie d f).die d = f (s.die d) :=
  tblGet_tblPut_self _ _ _ _

@[simp] theorem State.core_updDie (s : State) (c d : Nat) (f : Die → Die) : (s.updDie d f).core c = s.core c := rfl
@[simp] theorem State.die_updCore (s : State) (c d : Nat) (f : Core → Core) : (s.updCore c f).die d = s.die d := rfl

@[simp] theorem State.core_askDie (s : State) (c d : Nat) : (s.askDie d).core c = s.core c := by
  obtain ⟨rq, h⟩ := s.askDie_eq d; rw [h]; rfl

@[simp] theorem State.die_askDie (s : State) (d e : Nat) : (s.askDie d).die e = s.die e := by
  obtain ⟨rq, h⟩ := s.askDie_eq d; rw [h]; rfl

@[simp] theorem State.askDie_groups (s : State) (d : Nat) : (s.askDie d).groups = s.groups := by
  obtain ⟨rq, h⟩ := s.askDie_eq d; rw [h]

@[simp] theorem State.askDie_pkg (s : State) (d : Nat) : (s.askDie d).power.pkg = s.power.pkg := by
  obtain ⟨rq, h⟩ := s.askDie_eq d; rw [h]

@[simp] theorem State.askDie_coat (s : State) (d : Nat) : (s.askDie d).power.coat = s.power.coat := by
  obtain ⟨rq, h⟩ := s.askDie_eq d; rw [h]

@[simp] theorem State.core_askCore (s : State) (c x : Nat) : (s.askCore c).core x = s.core x := by
  simp only [State.askCore]; split <;> rfl

@[simp] theorem State.askCore_groups (s : State) (c : Nat) : (s.askCore c).groups = s.groups := by
  simp only [State.askCore]; split <;> rfl

/-- A core's request stands in its die's list and changes nothing else of a die. -/
@[simp] theorem State.die_askCore_bucket (s : State) (c d : Nat) : ((s.askCore c).die d).bucket = (s.die d).bucket := by
  simp only [State.askCore]
  split
  · rfl
  · rw [State.die_updDie]
    split
    · next h => rw [h]
    · rfl

section
variable {s : State} {core die : Nat}

/-! ## Core buckets (R80, R99) -/

/-- What a granted request takes: its amount from its core's bucket, and its place. -/
def State.takeTokens (s : State) (c : Nat) (r : TokenReq) : State :=
  let s := s.updCore c (fun k => { k with
    bucket := k.bucket - r.amount, reqs := k.reqs.filter (fun x => x.port != r.port), chose := tblPut k.chose r.port s.clock })
  { s with power := { s.power with granted := s.power.granted + r.amount } }

theorem State.core_takeTokens (s : State) (c : Nat) (r : TokenReq) : (s.takeTokens c r).core c = { s.core c with
    bucket := (s.core c).bucket - r.amount, reqs := (s.core c).reqs.filter (fun x => x.port != r.port)
    chose := tblPut (s.core c).chose r.port s.clock } :=
  tblGet_tblPut_self _ _ _ _

theorem State.grantCore_covered {r : TokenReq} (h : (r.amount : Int) ≤ (s.core core).bucket) :
    s.grantCore core [r] = (s.takeTokens core r).grantTo core r :=
  if_neg (Int.not_lt.mpr h)

theorem State.grantCore_short {r : TokenReq} (h : (s.core core).bucket < r.amount) : s.grantCore core [r] = s := if_pos h

/-- The grant of a request of a scalar port gives its group's scalar stream the grant and counts the tokens (R77, R99). -/
theorem State.grantTo_scalar {r : TokenReq} (hp : r.port < 4) (hd : isDispatcher r.grp = false) (c : Nat) :
    s.grantTo c r = (s.updGroup r.grp (fun g => { g with sgrant := true })).useTokens r.grp r.amount := by
  simp [State.grantTo, hd, hp]

theorem exec_coreBucketGrant {r : TokenReq} (hup : s.firm.up = true) (hr : (s.core core).reqs = [r]) :
    exec (.coreBucketGrant core) s = .next ((s.grantCore core [r]).askCore core) := by
  simp [exec, execCoreBucketGrant, hup, hr, sortBy, insertBy]

/-- A covered request of a scalar port is granted, and its group alone is changed by it (R80, R99). -/
theorem coreBucketGrant_grants {r : TokenReq} {g : Group} (hup : s.firm.up = true) (hr : (s.core core).reqs = [r])
    (hp : r.port < 4) (hd : isDispatcher r.grp = false) (hg : tblFind s.groups r.grp = some g)
    (hb : (r.amount : Int) ≤ (s.core core).bucket) :
    Completes (.coreBucketGrant core) s (fun t =>
      (t.core core).bucket = (s.core core).bucket - r.amount ∧ (t.core core).reqs = [] ∧
      tblFind t.groups r.grp = some { g with
        sgrant := true, sr := { g.sr with tkused := g.sr.tkused + BitVec.ofNat 64 r.amount } }) := by
  have hrun := exec_coreBucketGrant hup hr
  rw [State.grantCore_covered hb, State.grantTo_scalar hp hd] at hrun
  have hcore : (((s.takeTokens core r).updGroup r.grp (fun g => { g with sgrant := true })).useTokens r.grp r.amount).core core =
      (s.takeTokens core r).core core := rfl
  refine ⟨_, hrun, ?bucket, ?reqs, ?group⟩
  case bucket => rw [State.core_askCore, hcore, State.core_takeTokens]
  case reqs => rw [State.core_askCore, hcore, State.core_takeTokens]; simp [hr]
  case group =>
    rw [State.askCore_groups]
    simp [State.useTokens, State.updGroup, State.takeTokens, tblFind_tblUpd, hg]

theorem coreBucketGrant_waits {r : TokenReq} (hup : s.firm.up = true) (hr : (s.core core).reqs = [r])
    (hb : (s.core core).bucket < r.amount) :
    Completes (.coreBucketGrant core) s (fun t => t.groups = s.groups ∧ t.core core = s.core core) := by
  have hrun := exec_coreBucketGrant hup hr
  rw [State.grantCore_short hb] at hrun
  exact ⟨_, hrun, State.askCore_groups s core, State.core_askCore s core core⟩

/-! ## Quanta (R78, R79) -/

theorem State.refillCovered_iff {i : Nat} : s.refillCovered die i = true ↔
    4096 ≤ (s.die die).bucket ∨ s.promptCore (40 * die + i) = true ∧ 0 < (s.die die).bucket := by
  simp [State.refillCovered]

theorem coreRefillGrant_grants {i : Nat} {rest : List Nat} (hup : s.firm.up = true) (ha : s.coreAsks die = i :: rest)
    (hc : 4096 ≤ (s.die die).bucket ∨ s.promptCore (40 * die + i) = true ∧ 0 < (s.die die).bucket) :
    Completes (.coreRefillGrant die) s (fun t => (t.die die).bucket = (s.die die).bucket - 4096 ∧
      (t.core (40 * die + i)).flight = (s.core (40 * die + i)).flight ++ [s.clock + 4]) := by
  have hrun : exec (.coreRefillGrant die) s = .next ((((s.updDie die (fun k => { k with
      bucket := k.bucket - 4096, ptr := (k.ptr + 1) % 40
      reqs := k.reqs.filter (·.who != i) })).askDie die).updCore (40 * die + i) (fun k => { k with flight := k.flight ++ [s.clock + 4] })).askCore (40 * die + i)) := by
    simp [exec, execCoreRefillGrant, hup, ha, State.refillCovered_iff.mpr hc]
  refine ⟨_, hrun, ?_, ?_⟩
  · rw [State.die_askCore_bucket, State.die_updCore, State.die_askDie, State.die_updDie_self]
  · rw [State.core_askCore, State.core_updCore_self, State.core_askDie, State.core_updDie]

theorem coreRefillArrival_arrives {t0 : Nat} {rest : List Nat} (hf : (s.core core).flight = t0 :: rest) (ht : t0 ≤ s.clock) :
    Completes (.coreRefillArrival core) s (fun t => (t.core core).bucket = min 16384 ((s.core core).bucket + 4096) ∧
      (t.core core).flight = rest) := by
  have hrun : exec (.coreRefillArrival core) s = .next ((s.updCore core (fun k => { k with
      bucket := min 16384 (k.bucket + 4096), flight := rest })).askCore core) := by
    simp only [exec, execCoreRefillArrival, hf, if_neg (Nat.not_lt.mpr ht)]
  refine ⟨_, hrun, ?_, ?_⟩
  · rw [State.core_askCore, State.core_updCore_self]
  · rw [State.core_askCore, State.core_updCore_self]

theorem dieRefillGrant_grants {d : Nat} {rest : List Nat} (hup : s.firm.up = true) (hp : 65536 * 10 ^ 12 ≤ s.power.pkg)
    (ha : s.dieAsks = d :: rest) :
    Completes .dieRefillGrant s (fun t => t.power.pkg = s.power.pkg - 65536 * 10 ^ 12 ∧
      (t.die d).flight = (s.die d).flight ++ [s.clock + 16]) := by
  have hrun : exec .dieRefillGrant s = .next ((({ s with power := { s.power with
      pkg := s.power.pkg - 65536 * 10 ^ 12, ptr := (s.power.ptr + 1) % 8
      reqs := s.power.reqs.filter (·.who != d) } } : State).updDie d
        (fun k => { k with flight := k.flight ++ [s.clock + 16] })).askDie d) := by
    simp only [exec, execDieRefillGrant, hup, decide_eq_true hp, ha, Bool.and_self, if_true]
  refine ⟨_, hrun, ?_, ?_⟩
  · rw [State.askDie_pkg]; rfl
  · rw [State.die_askDie, State.die_updDie_self]; rfl

/-- What hosts and peers sent to a choked die is on the agenda again, which no die shows (R79). -/
theorem State.die_requeue (s : State) (d : Nat) : s.requeue.die d = s.die d := rfl

/-- The die with its quantum, which asks for another where it may. -/
def State.refilled (s : State) (die : Nat) (rest : List Nat) : State :=
  (s.updDie die (fun k => { k with
    bucket := min 1048576 (k.bucket + 65536), flight := rest
    choked := k.choked && decide (min 1048576 (k.bucket + 65536) ≤ -524288) })).askDie die

theorem State.die_refilled (s : State) (die : Nat) (rest : List Nat) : (s.refilled die rest).die die = { s.die die with
    bucket := min 1048576 ((s.die die).bucket + 65536), flight := rest
    choked := (s.die die).choked && decide (min 1048576 ((s.die die).bucket + 65536) ≤ -524288) } := by
  rw [State.refilled, State.die_askDie, State.die_updDie_self]

theorem dieRefillArrival_arrives {t0 : Nat} {rest : List Nat} (hf : (s.die die).flight = t0 :: rest) (ht : t0 ≤ s.clock) :
    Completes (.dieRefillArrival die) s (fun t => (t.die die).bucket = min 1048576 ((s.die die).bucket + 65536) ∧
      (t.die die).flight = rest ∧ (-524288 < (t.die die).bucket → (t.die die).choked = false)) := by
  have hrun : exec (.dieRefillArrival die) s = .next (if (s.die die).choked && !((s.refilled die rest).die die).choked
      then (s.refilled die rest).requeue else s.refilled die rest) := by
    simp only [exec, execDieRefillArrival, hf, if_neg (Nat.not_lt.mpr ht)]
    rfl
  have hdie : ∀ b : Bool, (if b then (s.refilled die rest).requeue else s.refilled die rest).die die = { s.die die with
      bucket := min 1048576 ((s.die die).bucket + 65536), flight := rest
      choked := (s.die die).choked && decide (min 1048576 ((s.die die).bucket + 65536) ≤ -524288) } := by
    intro b
    cases b
    · exact State.die_refilled _ _ _
    · exact (State.die_requeue _ _).trans (State.die_refilled _ _ _)
  refine ⟨_, hrun, ?bucket, ?flight, ?choked⟩
  case bucket => rw [hdie]
  case flight => rw [hdie]
  case choked =>
    rw [hdie]
    intro h
    rw [decide_eq_false (Int.not_le.mpr h), Bool.and_false]

/-! ## The package bucket (R82) -/

/-- What the package bucket gains in a clock is told by the clock, its level, P, c and the static charge. -/
def State.gains (s : State) := (s.clock, s.power.pkg, s.power.p, s.power.cal, s.power.leak)

/-- Counting the clock of waiting requests counts in TKSTALL and in the interval's stalls alone (R83, R100). -/
theorem State.countStalls_gains (s : State) (c : Nat) : (s.countStalls c).gains = s.gains := by
  simp only [State.countStalls]
  split
  · rfl
  · refine foldl_proj State.gains _ (fun s r => ?_) _ s
    rfl

/-- The state one clock later, with the waiting of its requests counted. -/
def State.passClock (s : State) : State := (tblKeys s.cores).foldl State.countStalls { s with clock := s.clock + 1 }

theorem State.passClock_gains (s : State) : s.passClock.gains = ({ s with clock := s.clock + 1 } : State).gains :=
  foldl_proj State.gains _ State.countStalls_gains _ _

/-- The level of the package bucket after a clock, before what overflows is discarded (R82). -/
def Power.filled (p : Power) : Int := p.pkg + p.p * p.cal * 500 - p.leak * (5 * 10 ^ 8)

theorem State.passClock_filled (s : State) : s.passClock.clock = s.clock + 1 ∧ s.passClock.power.filled = s.power.filled := by
  have h := s.passClock_gains
  simp only [State.gains, Prod.mk.injEq] at h
  obtain ⟨hclock, hpkg, hp, hcal, hleak⟩ := h
  exact ⟨hclock, by simp only [Power.filled, hpkg, hp, hcal, hleak]⟩

theorem packageBucketFill_gains (hup : s.firm.up = true) :
    Completes .packageBucketFill s (fun t => t.clock = s.clock + 1 ∧ t.power.pkg =
      min (s.power.pkg + s.power.p * s.power.cal * 500 - s.power.leak * (5 * 10 ^ 8)) (16777216 * 10 ^ 12)) := by
  have hrun : exec .packageBucketFill s = .next { s.passClock with power := { s.passClock.power with
      pkg := min s.passClock.power.filled (16777216 * 10 ^ 12)
      short := s.passClock.power.short || decide (16777216 * 10 ^ 12 < s.passClock.power.filled) } } := by
    simp only [exec, execPackageBucketFill, hup]
    rfl
  obtain ⟨hclock, hfilled⟩ := s.passClock_filled
  refine ⟨_, hrun, hclock, ?_⟩
  rw [hfilled, Power.filled]

theorem calibrationUpdate_sets {c w : Nat} (hlo : 800000 ≤ c) (hhi : c ≤ 1250000) :
    Completes (.calibrationUpdate c w) s (fun t => t = { s with power := { s.power with cal := c, leak := w } }) :=
  ⟨_, if_neg (by omega), rfl⟩

theorem calibrationUpdate_ignores {c w : Nat} (h : c < 800000 ∨ 1250000 < c) :
    Completes (.calibrationUpdate c w) s (fun t => t = s) := ⟨_, if_pos h, rfl⟩

/-! ## CHARGE (R93) -/

section
variable {old f : Nat}

theorem chargeState_critical (h : f < 0x4000) : chargeState old f = 2 := if_pos h

theorem chargeState_full (h : 0xC000 ≤ f) : chargeState old f = 0 := by
  simp [chargeState, h, show ¬ f < 0x4000 by omega, show ¬ f < 0x8000 by omega]

theorem chargeState_recovering (hlo : 0x4000 ≤ f) (hhi : f < 0xC000) (ho : old = 2 ∨ old = 3) : chargeState old f = 3 := by
  simp [chargeState, ho, Nat.not_lt.mpr hlo, Nat.not_le.mpr hhi]

theorem chargeState_low (hlo : 0x4000 ≤ f) (hhi : f < 0x8000) (h2 : old ≠ 2) (h3 : old ≠ 3) : chargeState old f = 1 := by
  simp [chargeState, h2, h3, Nat.not_lt.mpr hlo, hhi]

theorem chargeState_normal (hlo : 0x8000 ≤ f) (h2 : old ≠ 2) (h3 : old ≠ 3) : chargeState old f = 0 := by
  simp [chargeState, h2, h3, Nat.not_lt.mpr hlo, show ¬ f < 0x4000 by omega]

end

theorem chargeUpdate_sets {x : Nat} (hx : x < 2 ^ 24) : Completes (.chargeUpdate die x) s (fun t =>
    (t.die die).charge = {
      stored := x, frac := min 0xFFFF (x * 65536 / 120000)
      state := chargeState (s.die die).charge.state (min 0xFFFF (x * 65536 / 120000)) }) := by
  refine ⟨_, rfl, (congrArg Die.charge (State.die_updDie_self _ _ _)).trans ?_⟩
  rw [Nat.mod_eq_of_lt hx]

/-! ## Undercoat and ballast (R89, R90) -/

/-- What Undercoat draws in a clock from a die without ballast: all its rate allows, within what dummy load can burn (R89). -/
def State.coatDraw (s : State) (die : Nat) : Nat := min ((s.die die).coatRate / 2000).toNat (20000 + 600 * s.idleArrays die)

theorem undercoatDraw_draws (hup : s.firm.up = true) (hat : (s.die die).coatAt < s.clock) (hb : 524288 < (s.die die).bucket)
    (ha : s.coreAsks die = []) (hq : (s.die die).ballast = []) (hr : 2000 ≤ (s.die die).coatRate) :
    Completes (.undercoatDraw die) s (fun t => (t.die die).bucket = (s.die die).bucket - s.coatDraw die ∧
      t.power.coat = s.power.coat + s.coatDraw die ∧ t.groups = s.groups) := by
  have hroom : ((s.die die).coatRate / 2000).toNat ≠ 0 := by omega
  have hrun : exec (.undercoatDraw die) s = .next ((({ s with
      power := { s.power with coat := s.power.coat + s.coatDraw die } } : State).updDie die (fun k => { k with
        bucket := k.bucket - s.coatDraw die, coatAt := s.clock, ballast := [] })).askDie die) := by
    simp [exec, execUndercoatDraw, hup, Nat.not_le.mpr hat, Int.not_le.mpr hb, ha, hq, hroom, State.payBallast, State.coatDraw]
  refine ⟨_, hrun, ?_, ?_, ?_⟩
  · rw [State.die_askDie, State.die_updDie_self]; rfl
  · rw [State.askDie_coat]; rfl
  · rw [State.askDie_groups]; rfl

theorem ballastExpiry_expires : Completes (.ballastExpiry die) s (fun t => t.groups = s.groups ∧
    ∀ b, b ∈ (t.die die).ballast ↔ b ∈ (s.die die).ballast ∧ (s.die die).time < b.time + 10000000) := by
  refine ⟨_, rfl, rfl, fun b => ?_⟩
  rw [State.die_updDie_self]
  simp

end

/-- Settles O41, a clause by each event's own lemma. -/
theorem tokens : Obligations.Tokens := by
  refine ⟨fun s core r g hup hr hp hd hg => ⟨coreBucketGrant_grants hup hr hp hd hg, coreBucketGrant_waits hup hr⟩,
    fun s die i rest => coreRefillGrant_grants, fun s core t0 rest => coreRefillArrival_arrives,
    fun s d rest => dieRefillGrant_grants, fun s die t0 rest => dieRefillArrival_arrives, fun s => packageBucketFill_gains,
    fun s c w => ⟨calibrationUpdate_sets, calibrationUpdate_ignores⟩, fun s die x hx => ?charge,
    fun s die => undercoatDraw_draws, fun s die => ballastExpiry_expires⟩
  case charge =>
    obtain ⟨t, ht, hcharge⟩ := chargeUpdate_sets (s := s) (die := die) hx
    refine ⟨t, ht, ?_⟩
    dsimp only
    rw [hcharge]
    exact ⟨rfl, rfl, chargeState_critical, chargeState_full, chargeState_recovering, chargeState_low,
      fun hlo _ => chargeState_normal hlo⟩

end Sys2Proof.Machine

namespace Sys2Proof.Machine

/-! ## An interval of the Float (R83, R84, R88) -/

theorem le_clampI {lo hi : Int} (h : lo ≤ hi) (x : Int) : lo ≤ clampI lo hi x := by
  unfold clampI; split
  · exact Int.le_refl lo
  · split
    · exact h
    · omega

theorem clampI_le {lo hi : Int} (h : lo ≤ hi) (x : Int) : clampI lo hi x ≤ hi := by
  unfold clampI; split
  · exact h
  · split
    · exact Int.le_refl hi
    · omega

theorem flField_nonneg (v : BitVec 64) (lo n : Nat) : 0 ≤ flField v lo n := Int.natCast_nonneg _

section
variable {s : State}

theorem State.chargeIs_of_die {d : Nat} {l : List Nat} (hd : d < 8) (h : (s.die d).charge.state ∈ l) : s.chargeIs l = true :=
  List.any_eq_true.mpr ⟨d, List.mem_range.mpr hd, List.contains_iff_mem.mpr h⟩

/-- The rise that the CHARGE of the dies leaves P, of a slope of sf (R93). -/
def State.riseOf (s : State) (sf : Int) : Int := if s.chargeIs [2] then 0 else if s.chargeIs [1, 3] then sf / 2 else sf

theorem State.riseOf_bounds {sf : Int} (h : 0 ≤ sf) : 0 ≤ s.riseOf sf ∧ s.riseOf sf ≤ sf := by
  unfold State.riseOf
  split
  · exact ⟨Int.le_refl 0, h⟩
  · split
    · omega
    · exact ⟨h, Int.le_refl sf⟩

theorem State.riseOf_critical {sf : Int} (h : s.chargeIs [2] = true) : s.riseOf sf = 0 := if_pos h

/-- P and PS move towards their targets within their slopes (R84, R93). -/
theorem State.floatRates_eq (s : State) (d : Int) : ∃ x y, s.floatRates d =
    (s.power.p + clampI (-watts (flField s.power.flcfg 24 6)) (s.riseOf (watts (flField s.power.flcfg 24 6))) x,
      s.power.ps + clampI (-(flField s.power.flcfg 30 12 * 100)) (flField s.power.flcfg 30 12 * 100) y) :=
  ⟨_, _, rfl⟩

theorem State.floatRates_bounds (s : State) (d : Int) :
    s.power.p - watts (flField s.power.flcfg 24 6) ≤ (s.floatRates d).1 ∧
      (s.floatRates d).1 ≤ s.power.p + s.riseOf (watts (flField s.power.flcfg 24 6)) ∧
      s.power.ps - flField s.power.flcfg 30 12 * 100 ≤ (s.floatRates d).2 ∧
      (s.floatRates d).2 ≤ s.power.ps + flField s.power.flcfg 30 12 * 100 := by
  obtain ⟨x, y, h⟩ := s.floatRates_eq d
  have hsf : 0 ≤ watts (flField s.power.flcfg 24 6) := Int.mul_nonneg (flField_nonneg _ _ _) (by decide)
  have hss := flField_nonneg s.power.flcfg 30 12
  have hrise : -watts (flField s.power.flcfg 24 6) ≤ s.riseOf (watts (flField s.power.flcfg 24 6)) :=
    Int.le_trans (by omega) (State.riseOf_bounds hsf).1
  have hslope : -(flField s.power.flcfg 30 12 * 100) ≤ flField s.power.flcfg 30 12 * 100 := by omega
  rw [h]
  exact ⟨Int.add_le_add_left (le_clampI hrise x) _, Int.add_le_add_left (clampI_le hrise x) _,
    Int.add_le_add_left (le_clampI hslope y) _, Int.add_le_add_left (clampI_le hslope y) _⟩

/-- What of an interval the Float shows: P, PS, when it ends and what it has granted. -/
def State.interval (s : State) := (s.groups, s.mem, s.power.p, s.power.ps, s.power.due, s.power.granted)

/-- Counting late arrivals leaves the interval as it is (R95). -/
theorem State.noteLate_interval (s : State) : s.noteLate.interval = s.interval := by
  unfold State.noteLate
  refine (foldl_proj State.interval _ (fun s e => ?_) _ _).trans rfl
  dsimp only
  split
  · rfl
  · split
    · rfl
    · rfl

/-- D of an interval (R83). -/
def Power.demand (w : Power) : Int := if 640000 < 64 * w.stalls then w.pmax else (w.granted : Int) + w.leak

/-- An interval that is due ends, and the next begins with P and PS of its demand (R83, R84, R88). -/
theorem floatInterval_ends (hup : s.firm.up = true) (hdue : s.power.due ≤ (s.die 0).time) :
    ∃ t, exec .floatInterval s = .next t ∧ t.interval = (s.groups, s.mem, (s.floatRates s.power.demand).1,
      (s.floatRates s.power.demand).2, s.power.due + 1000, 0) := by
  have hrun : (!s.firm.up || decide ((s.die 0).time < s.power.due)) = false := by simp [hup, hdue]
  refine ⟨_, if_neg (Bool.eq_false_iff.mp hrun), ?_⟩
  rw [State.noteLate_interval]
  refine (foldl_proj State.interval _ (fun s i => ?_) _ _).trans ?_
  · rfl
  · rfl

theorem floatInterval_bounds (hup : s.firm.up = true) (hdue : s.power.due ≤ (s.die 0).time) :
    Completes .floatInterval s (fun t =>
      let sf := 1000000 * (fld s.power.flcfg.toNat 24 6 : Int)
      t.groups = s.groups ∧ (∀ a, t.homeRead a 1 = s.homeRead a 1) ∧ t.power.due = s.power.due + 1000 ∧ t.power.granted = 0 ∧
      s.power.p - sf ≤ t.power.p ∧ t.power.p ≤ s.power.p + sf ∧
      ((s.die 0).charge.state = 2 → t.power.p ≤ s.power.p) ∧
      s.power.ps - 100 * (fld s.power.flcfg.toNat 30 12 : Int) ≤ t.power.ps ∧
      t.power.ps ≤ s.power.ps + 100 * (fld s.power.flcfg.toNat 30 12 : Int)) := by
  obtain ⟨t, hrun, ht⟩ := floatInterval_ends hup hdue
  simp only [State.interval, Prod.mk.injEq] at ht
  obtain ⟨hgroups, hmem, hp, hps, hend, hgranted⟩ := ht
  have hsf : watts (flField s.power.flcfg 24 6) = 1000000 * (fld s.power.flcfg.toNat 24 6 : Int) := Int.mul_comm _ _
  have hss : flField s.power.flcfg 30 12 * 100 = 100 * (fld s.power.flcfg.toNat 30 12 : Int) := Int.mul_comm _ _
  obtain ⟨hfall, hrise, hslo, hshi⟩ := s.floatRates_bounds s.power.demand
  rw [hsf, ← hp] at hfall
  rw [hsf, ← hp] at hrise
  rw [hss, ← hps] at hslo hshi
  have hsf0 : 0 ≤ 1000000 * (fld s.power.flcfg.toNat 24 6 : Int) := by omega
  refine ⟨t, hrun, hgroups, fun a => ?mem, hend, hgranted, hfall, ?slope, fun h2 => ?critical, hslo, hshi⟩
  case mem => simp only [State.homeRead, hmem]
  case slope => exact Int.le_trans hrise (Int.add_le_add_left (State.riseOf_bounds hsf0).2 _)
  case critical =>
    rwa [State.riseOf_critical (State.chargeIs_of_die (d := 0) (by decide) (by simp [h2])), Int.add_zero] at hrise

/-! ## Intents (R94 to R97) -/

@[simp] theorem State.charge_time (s : State) (d n e : Nat) : ((s.charge d n).die e).time = (s.die e).time := by
  unfold State.charge
  change ((State.askDie _ d).die e).time = _
  rw [State.die_askDie, State.die_updDie]
  split
  · next h => rw [h]
  · rfl

@[simp] theorem State.ethernet_time (s : State) (p n e : Nat) : ((s.ethernet p n).die e).time = (s.die e).time := by
  unfold State.ethernet
  split
  · exact s.charge_time _ _ _
  · rfl

/-- What of the state a message on an Ethernet port leaves alone that intents stand in. -/
def State.told (s : State) := (s.groups, s.jobs, s.power.intents, s.power.pairs)

@[simp] theorem State.ethernet_told (s : State) (p n : Nat) : (s.ethernet p n).told = s.told := by
  obtain ⟨_, _, _, h, -⟩ := s.ethernet_eq p n; rw [h]; rfl

theorem State.told_eq_iff {s t : State} : t.told = s.told ↔ t.groups = s.groups ∧ t.jobs = s.jobs ∧
    t.power.intents = s.power.intents ∧ t.power.pairs = s.power.pairs := by
  simp only [State.told, Prod.mk.injEq]

theorem State.ethernet_freeEntry (s : State) (p n : Nat) : (s.ethernet p n).power.freeEntry = s.power.freeEntry := by
  obtain ⟨-, -, hintents, -⟩ := State.told_eq_iff.mp (s.ethernet_told p n)
  simp only [Power.freeEntry, hintents]

@[simp] theorem State.ethernet_out (s : State) (p n : Nat) : (s.ethernet p n).out = s.out := by
  obtain ⟨_, _, _, h, -⟩ := s.ethernet_eq p n; rw [h]

/-- Passing an intent on sends frames and counts what could not be sent (R96, R97). -/
theorem State.sendIntent_told (s : State) (slot : Nat) (j : Job) (origin : Nat) (b : List Byte) :
    (s.sendIntent slot j origin b).told = s.told := by
  unfold State.sendIntent
  refine foldl_proj State.told _ (fun s c => ?_) _ _
  dsimp only
  split
  · rfl
  · split
    · rfl
    · rw [State.ethernet_told]; rfl

/-- A remembered pair is found again, and the others are forgotten only for want of room (R96). -/
theorem Power.remember_finds (p : Power) (x : Pair) {q : Pair → Bool} (hq : q x = true) : (p.remember x).pairs.any q = true := by
  simp [Power.remember, hq]

/-- What is recorded of an intent (R94, R95). -/
def Intent.tells (x : Intent) (step : Nat) (size : Int) (job : Option (BitVec 32)) (origin seq : Nat) : Prop :=
  x.step = step ∧ x.size = size ∧ x.job = job ∧ x.origin = origin ∧ x.seq = seq

theorem State.recordIntent_records {i : Nat} {size : Int} (hi : s.power.freeEntry = some i) (hs : size ≠ 0)
    (now step dur off : Nat) (job : Option (BitVec 32)) (origin seq : Nat) :
    (s.recordIntent now step dur off size job origin seq).groups = s.groups ∧
      ∃ x, tblFind (s.recordIntent now step dur off size job origin seq).power.intents i = some x ∧
        x.tells step size job origin seq := by
  simp only [State.recordIntent, hi, if_neg hs]
  split
  · exact ⟨rfl, _, tblFind_tblPut_self _ _ _, rfl, rfl, rfl, rfl, rfl⟩
  · split
    · exact ⟨rfl, _, tblFind_tblPut_self _ _ _, rfl, rfl, rfl, rfl, rfl⟩
    · exact ⟨rfl, _, tblFind_tblPut_self _ _ _, rfl, rfl, rfl, rfl, rfl⟩

/-- A remembered pair is the one that a frame of the job names (R96, R97). -/
def Pair.isOf (j : Job) (bytes : List Byte) (p : Pair) : Bool :=
  p.job == j.job && p.origin == numAt bytes 8 3 && p.seq == numAt bytes 12 4

/-- How long before its step a frame declares its intent (R97). -/
def intentLead (bytes : List Byte) : Nat := numAt bytes 20 4 + numAt bytes 28 4 * 2 ^ 32

/-- The intent of a frame recorded where an entry is free, and its pair remembered (R94 to R96). -/
def State.noteIntent (s : State) (j : Job) (bytes : List Byte) : State :=
  let u := s.recordIntent (s.die 0).time ((s.die 0).time + intentLead bytes) (numAt bytes 24 4) (j.rank % 64 * j.stag)
    (toS 16 (numAt bytes 16 2)) (some j.job) (numAt bytes 8 3) (numAt bytes 12 4)
  { u with power := u.power.remember {
    job := j.job, origin := numAt bytes 8 3, seq := numAt bytes 12 4
    stop := (s.die 0).time + intentLead bytes + 1000 * numAt bytes 24 4 } }

/-- The intent of a frame passed on to the children of the device (R96, R97). -/
def State.passIntent (s : State) (slot : Nat) (j : Job) (bytes : List Byte) : State :=
  s.sendIntent slot j (numAt bytes 8 3) (intentPayload j (numAt bytes 8 3) (numAt bytes 12 4) (toS 16 (numAt bytes 16 2))
    (numAt bytes 18 2 + 1) (intentLead bytes) (numAt bytes 24 4))

theorem State.passIntent_told (s : State) (slot : Nat) (j : Job) (bytes : List Byte) :
    (s.passIntent slot j bytes).told = s.told := s.sendIntent_told _ _ _ _

/-- Entry i holds the intent of a frame that came at TIME now, and its pair is remembered. -/
def State.HoldsIntent (t : State) (i now : Nat) (j : Job) (bytes : List Byte) : Prop :=
  (∃ x, tblFind t.power.intents i = some x ∧ x.tells (now + intentLead bytes) (toS 16 (numAt bytes 16 2)) (some j.job)
    (numAt bytes 8 3) (numAt bytes 12 4)) ∧ t.power.pairs.any (Pair.isOf j bytes) = true

theorem State.noteIntent_holds {i : Nat} {j : Job} {bytes : List Byte} (hi : s.power.freeEntry = some i)
    (hs : toS 16 (numAt bytes 16 2) ≠ 0) :
    (s.noteIntent j bytes).groups = s.groups ∧ (s.noteIntent j bytes).HoldsIntent i (s.die 0).time j bytes := by
  obtain ⟨hgroups, x, hx⟩ := State.recordIntent_records hi hs (s.die 0).time ((s.die 0).time + intentLead bytes)
    (numAt bytes 24 4) (j.rank % 64 * j.stag) (some j.job) (numAt bytes 8 3) (numAt bytes 12 4)
  exact ⟨hgroups, ⟨x, hx⟩, Power.remember_finds _ _ (by simp [Pair.isOf])⟩

/-! ### The frame of an intent (R96, R97) -/

section
variable {port slot : Nat} {j : Job} {bytes : List Byte} (hslot : s.slotOf (BitVec.ofNat 32 (numAt bytes 4 4)) = some slot)
  (hjob : s.jobAt slot = some j) (hok : intentOk bytes j.key = true)
include hslot hjob hok

/-- A frame of a job of this device that passes its checks comes to nothing where its pair is remembered; else it is noted, where
an entry is free, and passed on. -/
theorem exec_intentFrameReceive {i : Nat} (hi : s.power.freeEntry = some i) : exec (.intentFrameReceive port bytes) s = .next
    (if s.power.pairs.any (Pair.isOf j bytes) then s.ethernet port bytes.length
      else ((s.ethernet port bytes.length).noteIntent j bytes).passIntent slot j bytes) := by
  obtain ⟨-, hjobs, -, hpairs⟩ := State.told_eq_iff.mp (s.ethernet_told port bytes.length)
  have hslot' : (s.ethernet port bytes.length).slotOf (BitVec.ofNat 32 (numAt bytes 4 4)) = some slot := by
    rw [← hslot, State.slotOf, hjobs]; rfl
  have hjob' : (s.ethernet port bytes.length).jobAt slot = some j := by rw [← hjob, State.jobAt, hjobs]; rfl
  have hfree : (s.ethernet port bytes.length).power.freeEntry = some i := (s.ethernet_freeEntry _ _).trans hi
  rw [← hpairs]
  simp only [exec, execIntentFrameReceive, hslot', hjob', Option.bind_some, Option.map_some, hok, hfree]
  cases hany : (s.ethernet port bytes.length).power.pairs.any (Pair.isOf j bytes)
  · exact if_neg (Bool.eq_false_iff.mp hany)
  · exact if_pos hany

theorem intentFrameReceive_remembered {i : Nat} (hi : s.power.freeEntry = some i)
    (hp : s.power.pairs.any (Pair.isOf j bytes) = true) :
    Completes (.intentFrameReceive port bytes) s (fun t => t.groups = s.groups ∧ t.power.intents = s.power.intents ∧
      t.power.pairs = s.power.pairs ∧ t.out = s.out) := by
  have hrun := exec_intentFrameReceive (port := port) hslot hjob hok hi
  rw [if_pos hp] at hrun
  obtain ⟨hgroups, -, hintents, hpairs⟩ := State.told_eq_iff.mp (s.ethernet_told port bytes.length)
  exact ⟨_, hrun, hgroups, hintents, hpairs, s.ethernet_out _ _⟩

theorem intentFrameReceive_new {i : Nat} (hi : s.power.freeEntry = some i) (hs : toS 16 (numAt bytes 16 2) ≠ 0)
    (hp : s.power.pairs.any (Pair.isOf j bytes) = false) :
    Completes (.intentFrameReceive port bytes) s (fun t => t.groups = s.groups ∧ t.HoldsIntent i (s.die 0).time j bytes) := by
  have hrun := exec_intentFrameReceive (port := port) hslot hjob hok hi
  rw [if_neg (Bool.eq_false_iff.mp hp)] at hrun
  obtain ⟨hsame, -⟩ := State.told_eq_iff.mp (s.ethernet_told port bytes.length)
  obtain ⟨hgroups, hholds⟩ := State.noteIntent_holds (j := j) ((s.ethernet_freeEntry port bytes.length).trans hi) hs
  rw [State.ethernet_time] at hholds
  obtain ⟨hkept, -, hentries, hpairs⟩ := State.told_eq_iff.mp
    (((s.ethernet port bytes.length).noteIntent j bytes).passIntent_told slot j bytes)
  refine ⟨_, hrun, hkept.trans (hgroups.trans hsame), ?_⟩
  rw [State.HoldsIntent, hentries, hpairs]
  exact hholds

end

/-! ### Floors, pairs and limits in time -/

theorem rampStart_starts {i : Nat} {x : Intent} (hx : tblFind s.power.intents i = some x) (ht : x.start ≤ (s.die 0).time) :
    Completes (.rampStart i) s (fun t => t = { s with power := t.power } ∧
      tblFind t.power.intents i = some { x with on := true }) := by
  cases hon : x.on
  · have hrun : exec (.rampStart i) s =
        .next { s with power := { s.power with intents := tblPut s.power.intents i { x with on := true } } } := by
      simp only [exec, execRampStart, hx, hon, Bool.false_or, decide_eq_false (Nat.not_lt.mpr ht), Bool.false_eq_true, if_false]
    exact ⟨_, hrun, rfl, tblFind_tblPut_self _ _ _⟩
  · have hrun : exec (.rampStart i) s = .next s := by
      simp only [exec, execRampStart, hx, hon, Bool.true_or, if_true]
    exact ⟨_, hrun, rfl, by rw [hx, ← hon]⟩

theorem intentFloorEnd_frees {i : Nat} {x : Intent} (hx : tblFind s.power.intents i = some x) (ht : x.stop ≤ (s.die 0).time) :
    Completes (.intentFloorEnd i) s (fun t => t = { s with power := t.power } ∧ tblFind t.power.intents i = none) := by
  have hrun : exec (.intentFloorEnd i) s = .next { s with power := { s.power with intents := tblDel s.power.intents i } } := by
    simp only [exec, execIntentFloorEnd, hx, if_neg (Nat.not_lt.mpr ht)]
  exact ⟨_, hrun, rfl, (tblFind_tblDel _ _ _).trans (if_pos rfl)⟩

theorem dropAt_eq_eraseIdx {α : Type} (l : List α) (i : Nat) : dropAt l i = l.eraseIdx i := by
  induction l generalizing i with
  | nil => rfl
  | cons x l ih =>
    cases i with
    | zero => rfl
    | succ i => exact congrArg (x :: ·) (ih i)

theorem intentPairForget_forgets {i : Nat} {x : Pair} (hx : s.power.pairs[i]? = some x)
    (ht : x.stop + 1000000000 ≤ (s.die 0).time) :
    Completes (.intentPairForget i) s (fun t => t = { s with power := t.power } ∧ t.power.pairs = s.power.pairs.eraseIdx i) := by
  have hrun : exec (.intentPairForget i) s = .next { s with power := { s.power with pairs := dropAt s.power.pairs i } } := by
    simp only [exec, execIntentPairForget, hx, if_neg (Nat.not_lt.mpr ht)]
  exact ⟨_, hrun, rfl, dropAt_eq_eraseIdx _ _⟩

/-- A temperature over its limit sets a limit on PMAX, or lowers the one that stands (R85). -/
theorem temperatureOverLimit_lowers (n : Nat) : Completes (.temperatureOverLimit n) s (fun t => t = { s with power := t.power } ∧
    ∃ m, t.power.limit = some m ∧ m ≤ n ∧ ∀ x, s.power.limit = some x → m = min x n) := by
  cases hl : s.power.limit with
  | none =>
    have hrun : exec (.temperatureOverLimit n) s = .next { s with power := { s.power with limit := some n } } := by
      simp only [exec, execTemperatureOverLimit, hl, Int.toNat_natCast]
    exact ⟨_, hrun, rfl, n, rfl, Nat.le_refl n, nofun⟩
  | some y =>
    have hmin : (min (y : Int) n).toNat = min y n := by omega
    have hrun : exec (.temperatureOverLimit n) s = .next { s with power := { s.power with limit := some (min y n) } } := by
      simp only [exec, execTemperatureOverLimit, hl, hmin]
    exact ⟨_, hrun, rfl, min y n, rfl, Nat.min_le_right y n, fun x hx => by cases hx; rfl⟩

/-! ## Loss of supply (R85, R235) -/

/-- Where no grid runs, none ends with the device. -/
theorem State.deviceEnd_idle (h : s.grids = []) : s.deviceEnd = s := by rw [State.deviceEnd, h]; rfl

/-- A system cause found on die 0 stands in F6's mailbox, where it has room and the die keeps no earlier message (R117, R235). -/
theorem State.tellCause_mails (hm : (tblGet [] s.firm.mail 6).length < 64) (hn : (s.die 0).notes = []) (cause place : Nat) :
    s.tellCause cause place 0 = s.mailTo 6 (.error 0 { cause := cause, addr := place, time := (s.die 0).time }) := by
  refine State.sendMail_open s 6 _ ?_ hn
  simp [State.mailOpen, Firm.mailRoom, hm, State.pathBlocked, State.routeDown, route]

theorem powerLoss_stops (hp : s.firm.powered = true) (hg : s.grids = []) (hm : (tblGet [] s.firm.mail 6).length < 64)
    (hn : (s.die 0).notes = []) : Completes .powerLoss s (fun t => t.groups = s.groups ∧
      t.mem = s.mem ∧ t.firm.up = false ∧ t.firm.powered = (Config.freeValue s.freeNo).getLsbD 0 ∧
      ∃ r, tblGet [] t.firm.mail 6 = tblGet [] s.firm.mail 6 ++ [.error 0 r] ∧ r.cause = 0x1A) := by
  have htell := State.tellCause_mails (s := s.free.2) hm hn 0x1A 0
  have hend : (s.free.2.tellCause 0x1A 0 0).deviceEnd = s.free.2.tellCause 0x1A 0 0 :=
    State.deviceEnd_idle (by rw [htell]; exact hg)
  have hrun : exec .powerLoss s = .next { s.free.2.tellCause 0x1A 0 0 with
      firm := { (s.free.2.tellCause 0x1A 0 0).firm with up := false, powered := s.free.1.getLsbD 0 } } := by
    rw [← hend]
    simp only [exec, execPowerLoss, hp]
    rfl
  rw [htell] at hrun
  exact ⟨_, hrun, rfl, rfl, rfl, rfl, _, tblGet_tblPut_self _ _ _ _, rfl⟩

end

/-- Settles O42, a clause by each event's own lemma. -/
theorem power : Obligations.Power := by
  refine ⟨fun s => floatInterval_bounds, fun s port bytes slot j i hslot hjob hok hi hs =>
      ⟨intentFrameReceive_remembered hslot hjob hok hi, fun hp => ?new⟩,
    fun s i x hx => ⟨rampStart_starts hx, intentFloorEnd_frees hx⟩, fun s i x => intentPairForget_forgets,
    fun s n => temperatureOverLimit_lowers n, fun s => powerLoss_stops⟩
  case new =>
    obtain ⟨t, hrun, hgroups, ⟨x, hx, hstep, hsize, hof, horigin, hseq⟩, hpairs⟩ :=
      intentFrameReceive_new (port := port) hslot hjob hok hi hs hp
    exact ⟨t, hrun, hgroups, ⟨x, hx, hsize, hof, horigin, hseq, hstep.trans (Nat.add_assoc _ _ _).symm⟩, hpairs⟩

end Sys2Proof.Machine

namespace Sys2Proof.Machine

/-! ## The split of a grid's units over its dies (R122) -/

/-- A quotient rounded up is at most u where the dividend is at most u times the divisor. -/
theorem ceil_le_iff {n : Nat} (hn : 0 < n) (a u : Nat) : (a + n - 1) / n ≤ u ↔ a ≤ u * n := by
  rw [← Nat.lt_succ_iff, Nat.div_lt_iff_lt_mul hn, Nat.succ_mul]
  omega

/-- A quotient is j where the dividend lies from j times the divisor up to, and not at, the next multiple. -/
theorem floor_eq_iff {n : Nat} (hn : 0 < n) (a j : Nat) : a / n = j ↔ j * n ≤ a ∧ a < (j + 1) * n := by
  rw [← Nat.le_div_iff_mul_le hn, ← Nat.div_lt_iff_lt_mul hn]
  omega

/-- A unit is in the share of the die whose number is the quotient of the floor rule. -/
theorem Grid.mem_share_iff {g : Grid} {u j : Nat} (hu : u < g.units) (hj : j < g.dies.length) :
    (g.share j).1 ≤ u ∧ u < (g.share j).1 + (g.share j).2 ↔ u * g.dies.length / g.units = j := by
  have hn : 0 < g.dies.length := by omega
  have hlo := ceil_le_iff hn (j * g.units) u
  have hhi := ceil_le_iff hn ((j + 1) * g.units) u
  rw [floor_eq_iff (by omega)]
  simp only [Grid.share, Nat.max_eq_right hn]
  omega

/-- Shares of one grid stand on different dies. -/
theorem Grid.shares_pairwise (g : Grid) : g.shares.Pairwise (fun a b => a.1 ≠ b.1) := by
  have hdies : (g.dies.zip (List.range g.dies.length)).Pairwise (fun a b => a.1 ≠ b.1) := by
    rw [← List.pairwise_map (f := Prod.fst) (R := (· ≠ ·)), List.map_fst_zip (by simp)]
    exact List.nodup_range.filter _
  refine List.Pairwise.filterMap _ (fun a b hab x hx y hy => ?_) hdies
  dsimp only at hx hy
  split at hx
  · cases hx
  · split at hy
    · cases hy
    · cases hx; cases hy; exact hab

/-- Of a list whose keys differ, an entry is the only one with its key. -/
theorem filter_key_eq_singleton {β : Type} {l : List (Nat × β)} {e : Nat × β} (hl : l.Pairwise (fun a b => a.1 ≠ b.1))
    (he : e ∈ l) : l.filter (fun x => x.1 == e.1) = [e] := by
  induction l with
  | nil => cases he
  | cons a l ih =>
    obtain ⟨ha, hl⟩ := List.pairwise_cons.mp hl
    rcases List.mem_cons.mp he with rfl | he
    · rw [List.filter_cons_of_pos (by simp), List.filter_eq_nil_iff.mpr (fun x hx => by simpa using (ha x hx).symm)]
    · rw [List.filter_cons_of_neg (by simpa using ha e he), ih hl he]

/-! ## The FORWARD packet (R123) -/

theorem leNat_append (a b : List Byte) : leNat (a ++ b) = leNat a + 256 ^ a.length * leNat b := by
  induction a with
  | nil => simp [leNat]
  | cons x a ih => rw [List.cons_append, leNat, leNat, ih, List.length_cons, Nat.pow_succ, Nat.mul_add, Nat.mul_comm _ 256, Nat.mul_assoc, Nat.add_assoc]

@[simp] theorem bytesAt_length (b : List Byte) (off n : Nat) : (bytesAt b off n).length = min n (b.length - off) := by
  simp [bytesAt]

/-- What lies behind a part of a packet is read from there. -/
theorem numAt_append_right {a : List Byte} {off : Nat} (h : a.length ≤ off) (b : List Byte) (n : Nat) :
    numAt (a ++ b) off n = numAt b (off - a.length) n := by
  simp [numAt, bytesAt, List.drop_append, List.drop_eq_nil_of_le h]

theorem numAt_leBytes_append (n v : Nat) (b : List Byte) : numAt (leBytes n v ++ b) 0 n = v % 256 ^ n :=
  numAt_leBytes [] b n v

section
variable (g : Grid) {x : Taken} (f n : Nat) (hx : x.bytes.length = 128)
include hx

theorem Grid.forward_length : (g.forward x f n).length = 128 := by
  simp [Grid.forward, hx]

/-- The share that a FORWARD packet carries is the one it was made of. -/
theorem shareOf_forward (key : Nat) (hf : f < 2 ^ 32) (hn : n < 2 ^ 32) (hprio : g.prio < 4) (harrive : g.arrive < 2 ^ 64) :
    shareOf key (g.forward x f n) =
      { grid := key, first := f, n := n, prio := g.prio, arrive := g.arrive, taken := g.arrive } := by
  have hclass : fld (numAt (g.forward x f n) 0 8) 9 2 = g.prio := by
    have hhead : numAt (g.forward x f n) 0 8 = leNat (leBytes 4 (6 + g.prio * 2 ^ 9) ++ leBytes 4 g.tag) := by
      simp only [Grid.forward, List.append_assoc]
      rw [← List.append_assoc (leBytes 4 _)]
      exact congrArg leNat (List.take_left' rfl)
    rw [hhead, leNat_append, leNat_leBytes, leNat_leBytes, leBytes_length, fld, Nat.shiftRight_eq_div_pow]
    omega
  have hfirst : numAt (g.forward x f n) 24 4 = f := by
    simpa [Grid.forward, numAt_append_right, numAt_leBytes_append, hx] using hf
  have hcount : numAt (g.forward x f n) 28 4 = n := by
    simpa [Grid.forward, numAt_append_right, numAt_leBytes_append, hx] using hn
  have hat : numAt (g.forward x f n) 48 8 = g.arrive := by
    simpa [Grid.forward, numAt_append_right, numAt_leBytes_append, hx] using harrive
  rw [shareOf, hfirst, hcount, hat, hclass]

end

/-! ## What messages leave of a die (R12, R117) -/

/-- A die but for what messages change of it: TIME, its bucket, and what it has still to tell the firmware cores. -/
def Die.dispatches (k : Die) : Die := { k with time := 0, bucket := 0, choked := false, notes := [] }

theorem State.updDie_dispatches (s : State) (d e : Nat) {f : Die → Die} (hf : ∀ k : Die, (f k).dispatches = k.dispatches) :
    ((s.updDie d f).die e).dispatches = (s.die e).dispatches := by
  rw [State.die_updDie]
  split
  · next h => rw [hf, h]
  · rfl

theorem State.charge_dispatches (s : State) (d n e : Nat) :
    ((s.charge d n).die e).dispatches = (s.die e).dispatches := by
  unfold State.charge
  change ((State.askDie _ d).die e).dispatches = _
  rw [State.die_askDie]
  exact s.updDie_dispatches d e (fun _ => rfl)

theorem State.forwardTime_dispatches (s : State) (a b e : Nat) :
    ((s.forwardTime a b).die e).dispatches = (s.die e).dispatches := by
  unfold State.forwardTime
  dsimp only
  split
  · exact s.updDie_dispatches b e (fun _ => rfl)
  · rfl

theorem State.crossMesh_dispatches (s : State) (cls a b n e : Nat) :
    ((s.crossMesh cls a b n).die e).dispatches = (s.die e).dispatches := by
  unfold State.crossMesh
  refine (foldl_proj (fun u : State => (u.die e).dispatches) _ (fun u p => ?_) _ _).trans (s.forwardTime_dispatches a b e)
  exact u.charge_dispatches p.1 _ e

theorem State.sendMail_dispatches (s : State) (d core : Nat) (n : Note) (e : Nat) :
    ((s.sendMail d core n).die e).dispatches = (s.die e).dispatches := by
  unfold State.sendMail
  split
  · exact s.crossMesh_dispatches _ _ _ _ e
  · exact s.updDie_dispatches d e (fun _ => rfl)

/-- Groups, teams and grids. -/
def State.work (s : State) := (s.groups, s.teams, s.grids)

theorem State.crossMesh_work (s : State) (cls a b n : Nat) : (s.crossMesh cls a b n).work = s.work := by
  obtain ⟨_, _, _, _, h⟩ := s.crossMesh_eq cls a b n; rw [h]; rfl

theorem State.sendMail_work (s : State) (d core : Nat) (n : Note) : (s.sendMail d core n).work = s.work := by
  unfold State.sendMail
  split
  · exact s.crossMesh_work _ _ _ _
  · rfl

/-! ## The steps of a LAUNCH (R122, R123) -/

/-- The i-th packet taken, a LAUNCH, has left the list, and is counted. -/
def Die.launch (k : Die) (i : Nat) : Die := { k with taken := dropAt k.taken i, launches := k.launches + 1 }

/-- The LAUNCH leaves its die's list, and its grid is entered under the next key; the die counts it. -/
def State.enterGrid (s : State) (die i : Nat) (g : Grid) : State :=
  ({ (s.untake die i) with nextId := s.nextId + 1, grids := tblPut s.grids s.nextId g } : State).updDie die (fun k =>
    { k with launches := k.launches + 1 })

/-- Messages come last in a dispatcher's mailbox. -/
def Die.receive (k : Die) (l : List DispMsg) : Die := { k with mailbox := k.mailbox ++ l }

theorem Die.receive_nil (k : Die) : k.receive [] = k := by simp [Die.receive]

theorem Die.receive_receive (k : Die) (l l' : List DispMsg) : (k.receive l).receive l' = k.receive (l ++ l') := by
  simp [Die.receive]

theorem Die.dispatches_receive (k : Die) (l : List DispMsg) : (k.receive l).dispatches = k.dispatches.receive l := rfl

/-- The FORWARD packet of a share of a grid. -/
def Grid.message (g : Grid) (x : Taken) (key : Nat) (e : Nat × Nat × Nat) : DispMsg := .forward key (g.forward x e.2.1 e.2.2)

/-- Shares go to their dies' mailboxes. -/
def State.forwardShares (s : State) (die key : Nat) (g : Grid) (x : Taken) (l : List (Nat × Nat × Nat)) : State :=
  l.foldl (fun (s : State) e => (s.crossMesh clsWork die e.1 128).updDie e.1 (fun k =>
    k.receive [g.message x key e])) s

/-- A share joins its die's prompt list or its pending list. -/
def Die.takeShare (k : Die) (prompt : Bool) (y : Share) : Die :=
  if prompt then { k with prompt := k.prompt ++ [y] } else { k with pending := k.pending ++ [y] }

/-- The home die keeps its own share, where it has one. -/
def State.keepShare (s : State) (die key : Nat) (g : Grid) (x : Taken) : State :=
  match g.shares.find? (fun e => e.1 == die) with
  | none => s
  | some e => s.updDie die (fun k => k.takeShare x.prompt (shareOf key (g.forward x e.2.1 e.2.2)))

/-- The state after a LAUNCH but for the home die's own share. -/
def State.sentOut (s : State) (die i : Nat) (g : Grid) (x : Taken) : State :=
  ((s.enterGrid die i g).forwardShares die s.nextId g x (g.shares.filter (fun e => e.1 != die))).sendMail die 2 (.launched s.nextId)

/-- A LAUNCH that no mailbox, link or class holds up goes through its steps. -/
theorem exec_launch {s : State} {die i : Nat} {x : Taken} (hx : s.startable die i = some x) (ht : x.type = 1)
    (hroom : ∀ d f n, (d, f, n) ∈ (s.launchGrid die x).shares → d ≠ die → (s.die d).mailbox.length < 256 ∧
      s.routeDown die d = false ∧ s.pathBlocked clsWork die d = false) :
    exec (.launch die i) s = .next ((s.sentOut die i (s.launchGrid die x) x).keepShare die s.nextId (s.launchGrid die x) x) := by
  have hopen : ((s.launchGrid die x).shares.filter (fun e => e.1 != die)).any (fun e =>
      decide (256 ≤ (s.die e.1).mailbox.length) || s.routeDown die e.1 || s.pathBlocked clsWork die e.1) = false := by
    refine List.any_eq_false.mpr (fun e he => ?_)
    obtain ⟨hmem, hne⟩ := List.mem_filter.mp he
    obtain ⟨hlen, hdown, hpath⟩ := hroom e.1 e.2.1 e.2.2 hmem (by simpa using hne)
    simp [hlen, hdown, hpath]
  simp only [exec, execLaunch, startPacket, hx, ht, if_true, hopen]
  rfl

theorem State.forwardShares_work (die key : Nat) (g : Grid) (x : Taken) (l : List (Nat × Nat × Nat)) (s : State) :
    (s.forwardShares die key g x l).work = s.work :=
  foldl_proj State.work _ (fun s e => by exact s.crossMesh_work clsWork die e.1 128) l s

/-- Each die's mailbox has its shares' packets at its end. -/
theorem State.forwardShares_dispatches (die key : Nat) (g : Grid) (x : Taken) (l : List (Nat × Nat × Nat)) (d : Nat) (s : State) :
    ((s.forwardShares die key g x l).die d).dispatches =
      (s.die d).dispatches.receive ((l.filter (fun e => e.1 == d)).map (g.message x key)) := by
  induction l generalizing s with
  | nil => exact (Die.receive_nil _).symm
  | cons e l ih =>
    have hcross := s.crossMesh_dispatches clsWork die e.1 128 d
    rw [State.forwardShares, List.foldl_cons]
    refine (ih _).trans ?_
    rw [State.die_updDie]
    by_cases hd : e.1 = d
    · subst hd
      rw [if_pos rfl, List.filter_cons_of_pos (by simp), Die.dispatches_receive, hcross, Die.receive_receive]
      rfl
    · rw [if_neg hd, List.filter_cons_of_neg (by simpa using hd), hcross]

theorem State.die_enterGrid (s : State) (die i : Nat) (g : Grid) (d : Nat) :
    (s.enterGrid die i g).die d = if die = d then (s.die die).launch i else s.die d := by
  change (((s.untake die i).updDie die (fun k => { k with launches := k.launches + 1 })).die d) = _
  rw [State.die_updDie, State.untake, State.die_updDie_self, State.die_updDie]
  split
  · rfl
  · rfl

theorem State.keepShare_work (s : State) (die key : Nat) (g : Grid) (x : Taken) : (s.keepShare die key g x).work = s.work := by
  unfold State.keepShare; split <;> rfl

theorem State.die_keepShare_ne (s : State) {die d : Nat} (h : d ≠ die) (key : Nat) (g : Grid) (x : Taken) :
    (s.keepShare die key g x).die d = s.die d := by
  unfold State.keepShare
  split
  · rfl
  · exact (s.die_updDie die d _).trans (if_neg h.symm)

theorem State.die_keepShare_counts (s : State) (die key : Nat) (g : Grid) (x : Taken) :
    ((s.keepShare die key g x).die die).launches = (s.die die).launches ∧
      ((s.keepShare die key g x).die die).taken = (s.die die).taken := by
  unfold State.keepShare
  split
  · exact ⟨rfl, rfl⟩
  · rw [State.die_updDie_self, Die.takeShare]
    split
    · exact ⟨rfl, rfl⟩
    · exact ⟨rfl, rfl⟩

theorem State.die_keepShare_own (s : State) {die f n : Nat} {g : Grid} (h : (die, f, n) ∈ g.shares) (key : Nat) (x : Taken) :
    (s.keepShare die key g x).die die = (s.die die).takeShare x.prompt (shareOf key (g.forward x f n)) := by
  have hfind : g.shares.find? (fun e => e.1 == die) = some (die, f, n) := by
    rw [← List.head?_filter, filter_key_eq_singleton g.shares_pairwise h]; rfl
  rw [State.keepShare, hfind]
  exact s.die_updDie_self die _

theorem State.sentOut_work (s : State) (die i : Nat) (g : Grid) (x : Taken) :
    (s.sentOut die i g x).work = (s.groups, s.teams, tblPut s.grids s.nextId g) :=
  (State.sendMail_work _ _ _ _).trans (State.forwardShares_work _ _ _ _ _ _)

theorem State.sentOut_dispatches (s : State) (die i : Nat) (g : Grid) (x : Taken) (d : Nat) :
    ((s.sentOut die i g x).die d).dispatches = ((s.enterGrid die i g).die d).dispatches.receive
      (((g.shares.filter (fun e => e.1 != die)).filter (fun e => e.1 == d)).map (g.message x s.nextId)) :=
  (State.sendMail_dispatches _ _ _ _ d).trans (State.forwardShares_dispatches _ _ _ _ _ d _)

theorem State.sentOut_home (s : State) (die i : Nat) (g : Grid) (x : Taken) :
    ((s.sentOut die i g x).die die).dispatches = ((s.die die).launch i).dispatches := by
  have hnone : (g.shares.filter (fun e => e.1 != die)).filter (fun e => e.1 == die) = [] := by
    simp [List.filter_filter]
  rw [State.sentOut_dispatches, hnone, List.map_nil, Die.receive_nil, State.die_enterGrid, if_pos rfl]

theorem State.sentOut_other (s : State) {die d f n : Nat} {g : Grid} (h : (d, f, n) ∈ g.shares) (hd : d ≠ die) (i : Nat)
    (x : Taken) : ((s.sentOut die i g x).die d).mailbox = (s.die d).mailbox ++ [.forward s.nextId (g.forward x f n)] := by
  have hone : (g.shares.filter (fun e => e.1 != die)).filter (fun e => e.1 == d) = [(d, f, n)] :=
    filter_key_eq_singleton (e := (d, f, n)) (g.shares_pairwise.filter _) (List.mem_filter.mpr ⟨h, by simpa using hd⟩)
  have hbox := congrArg Die.mailbox (s.sentOut_dispatches die i g x d)
  rw [hone, State.die_enterGrid, if_neg hd.symm] at hbox
  exact hbox

end Sys2Proof.Machine

namespace Sys2Proof.Machine

/-- Settles O50, from the steps of a LAUNCH, the fields of a FORWARD packet and the floor rule of the split. -/
theorem launching : Obligations.Launching := by
  refine ⟨fun s die i x q hx ht _ _ => ?launch,
    fun g x key f n hx hf hn hprio harrive =>
      ⟨g.forward_length f n hx, shareOf_forward g f n hx key hf hn hprio harrive⟩,
    fun g u j hu hj => Grid.mem_share_iff hu hj⟩
  case launch =>
    intro g hroom
    have hrun : exec (.launch die i) s = .next ((s.sentOut die i g x).keepShare die s.nextId g x) := exec_launch hx ht hroom
    have hwork := (State.keepShare_work _ die s.nextId g x).trans (s.sentOut_work die i g x)
    simp only [State.work, Prod.mk.injEq] at hwork
    obtain ⟨hgroups, hteams, hgrids⟩ := hwork
    obtain ⟨hlaunches, htaken⟩ := (s.sentOut die i g x).die_keepShare_counts die s.nextId g x
    have hhome := s.sentOut_home die i g x
    refine ⟨_, hrun, hgroups, hteams, ?grid, rfl, hlaunches.trans (congrArg Die.launches hhome),
      htaken.trans (congrArg Die.taken hhome), fun d f n hmem => ⟨fun hd => ?other, fun hd hp => ?prompt, fun hd hp => ?pending⟩⟩
    case grid => rw [hgrids, tblFind_tblPut_self]
    case other => rw [State.die_keepShare_ne _ hd]; exact s.sentOut_other hmem hd i x
    case prompt =>
      subst hd
      rw [State.die_keepShare_own _ hmem, hp]
      exact ⟨congrArg (fun k => k.prompt ++ _) hhome, (congrArg Die.pending hhome :)⟩
    case pending =>
      subst hd
      rw [State.die_keepShare_own _ hmem, hp]
      exact ⟨(congrArg Die.prompt hhome :), congrArg (fun k => k.pending ++ _) hhome⟩

end Sys2Proof.Machine

namespace Sys2Proof.Machine

/-! ## A store on its way at a resume (R142, R184, R208) -/

/-- A saved team of one group, whose unit waits alone on die 0's pending list. A store of the group stands in its log and in
core 0, on its way to its home; core 0 is the unit's place. -/
def storeOnTheWay : State :=
  { State.reset with
    firm := { State.reset.firm with up := true }
    teams := [(1, { grid := 1, life := .saved })]
    grids := [(1, { flags := 8 })]
    pages := [(0x10000, { perm := 0x1F })]
    groups := [(128, { team := 1, log := [{ id := 5, kind := .store, addr := 0x10000, size := 1, scope := 2, sent := true }] })]
    cores := [(0, { cache := [{ line := 0x10000 / 128, held := false, out := [{ grp := 128, id := 5, addr := 0x10000, bytes := [0] }] }] })]
    dies := [(0, { pending := [{ grid := 1, n := 1, back := [1] }] })] }

/-- How many accesses a group's log holds once an instruction has completed. -/
def logLengthAfter (o : Out) (h : Nat) : Option Nat :=
  match o with
  | .next t => (tblFind t.groups h).map (·.log.length)
  | _ => none

/-- Core 0 performs the stores on their way there before the team comes back to it, so that the group's log is empty. -/
theorem teamResume_storeOnTheWay : logLengthAfter (exec (.teamResume 0) storeOnTheWay) 128 = some 0 := by
  rfl

/-- Refutes O51 at its clause on a resumed team: no hypothesis says that the core owes no store of a group (R184), and the resume
has the core write back what it owes, which takes the store out of the group's log, a field that the clause keeps. -/
theorem not_admission : ¬ Obligations.Admission := by
  unfold Obligations.Admission
  rintro ⟨-, hresume, -, -⟩
  obtain ⟨t, hrun, -, -, hgroups⟩ := hresume storeOnTheWay 0 { grid := 1, n := 1, back := [1] } 0 [] 1 { grid := 1, life := .saved }
    rfl (by decide) rfl rfl rfl rfl rfl rfl rfl rfl (by decide) rfl rfl (by decide)
  obtain ⟨g', hfind, hkept⟩ := hgroups 128 _ rfl
  have hlog := teamResume_storeOnTheWay
  rw [hrun, logLengthAfter, hfind, hkept] at hlog
  exact Nat.one_ne_zero (Option.some.inj hlog)

end Sys2Proof.Machine
